-- ==== Sys2Proof/Word.lean ====
section
/-! DEFINITION. The word types of the Spagon S4 and the sparse maps its state is held in. -/

namespace Sys2Proof

/-- A byte of memory. -/
abbrev Byte := BitVec 8
/-- A halfword of the instruction store (R90). -/
abbrev Half := BitVec 16
/-- A 32-bit word: a vector element, an accumulator element, an FP32 pattern. -/
abbrev Word := BitVec 32
/-- A 64-bit word: a data register, an integer view, a control register. -/
abbrev DWord := BitVec 64

/-- A sparse map from numbers: keys strictly rising, no entry equal to the default value, which is
what an unlisted key reads as. -/
abbrev SMap (α : Type) := List (Nat × α)

end Sys2Proof
end

