-- ==== Sys2Proof/Machine/Bits.lean ====
section
/-! DEFINITION. Sparse maps, byte order, sign extension and bit fields: the helpers every other file
of the machine uses. -/

namespace Sys2Proof

/-! ### Sparse maps -/

/-- The entry of a key; the default for a key that is not listed. -/
def SMap.get {α : Type} [Inhabited α] : SMap α → Nat → α
  | [], _ => default
  | (k', v) :: t, k => if k' = k then v else SMap.get t k

/-- The map without any entry of a key. -/
def SMap.drop {α : Type} : SMap α → Nat → SMap α
  | [], _ => []
  | (k', v) :: t, k => if k' = k then SMap.drop t k else (k', v) :: SMap.drop t k

/-- An entry put before the first greater key. -/
def SMap.ins {α : Type} : SMap α → Nat → α → SMap α
  | [], k, v => [(k, v)]
  | (k', v') :: t, k, v => if k < k' then (k, v) :: (k', v') :: t else (k', v') :: SMap.ins t k v

/-- A key set to a value; the default value removes the entry. -/
def SMap.put {α : Type} [DecidableEq α] [Inhabited α] (m : SMap α) (k : Nat) (v : α) : SMap α :=
  if v = default then m.drop k else (m.drop k).ins k v

/-- Keys strictly rising and no entry equal to the default. -/
def SMap.wf {α : Type} [DecidableEq α] [Inhabited α] : SMap α → Bool
  | [] => true
  | [(_, v)] => decide (v ≠ default)
  | (k, v) :: (k', v') :: t => decide (v ≠ default) && decide (k < k') && SMap.wf ((k', v') :: t)

/-- Values put at consecutive keys. -/
def SMap.putList {α : Type} [DecidableEq α] [Inhabited α] (m : SMap α) (k : Nat) : List α → SMap α
  | [] => m
  | v :: t => SMap.putList (m.put k v) (k + 1) t

/-- The values of `n` consecutive keys. -/
def SMap.getList {α : Type} [Inhabited α] (m : SMap α) (k n : Nat) : List α :=
  (List.range n).map fun i => m.get (k + i)

/-- The `n` values from key `k` on, read off a map that lists only keys of that range. -/
def SMap.expand {α : Type} [Inhabited α] : SMap α → Nat → Nat → List α
  | _, _, 0 => []
  | [], k, n + 1 => default :: SMap.expand [] (k + 1) n
  | (k', v) :: t, k, n + 1 =>
    if k' = k then v :: SMap.expand t (k + 1) n else default :: SMap.expand ((k', v) :: t) (k + 1) n

/-- The values of `n` consecutive keys, in one pass over the map. -/
def SMap.getRange {α : Type} [Inhabited α] (m : SMap α) (k n : Nat) : List α :=
  SMap.expand (m.filter fun p => decide (k ≤ p.1) && decide (p.1 < k + n)) k n

/-- The entries of a list of values at consecutive keys from `k`, defaults left out. -/
def SMap.ofList {α : Type} [DecidableEq α] [Inhabited α] (k : Nat) : List α → SMap α
  | [] => []
  | v :: t => if v = default then SMap.ofList (k + 1) t else (k, v) :: SMap.ofList (k + 1) t

/-- Values put at consecutive keys, in one pass over the map. -/
def SMap.setRange {α : Type} [DecidableEq α] [Inhabited α] (m : SMap α) (k : Nat) (l : List α) : SMap α :=
  m.filter (fun p => decide (p.1 < k)) ++ SMap.ofList k l ++ m.filter fun p => decide (k + l.length ≤ p.1)

/-- The keys listed. -/
def SMap.keys {α : Type} (m : SMap α) : List Nat := m.map Prod.fst

/-! ### Bytes, words and fields -/

/-- The number a list of bytes holds, little-endian. -/
def leNat : List Byte → Nat
  | [] => 0
  | b :: t => b.toNat + 256 * leNat t

/-- The low `n` bytes of a number, little-endian. -/
def leBytes : Nat → Nat → List Byte
  | 0, _ => []
  | n + 1, v => BitVec.ofNat 8 v :: leBytes n (v / 256)

/-- Bits [hi:lo] of a number. -/
def bitsOf (v hi lo : Nat) : Nat := v / 2 ^ lo % 2 ^ (hi + 1 - lo)
/-- Bit i of a number. -/
def bitAt (v i : Nat) : Bool := v.testBit i

/-- A number of `w` bits read as signed. -/
def signedOf (w v : Nat) : Int :=
  if v % 2 ^ w ≥ 2 ^ (w - 1) then (v % 2 ^ w : Nat) - (2 ^ w : Nat) else ((v % 2 ^ w : Nat) : Int)

/-- A signed number as a pattern of `w` bits. -/
def patOf (w : Nat) (v : Int) : Nat := (v % (2 ^ w : Nat)).toNat

/-- The list of numbers from a to b − 1. -/
def rangeFrom (a b : Nat) : List Nat := (List.range (b - a)).map (a + ·)

/-- A value repeated through the numbers of a list. -/
def iter {α β : Type} (l : List α) (s : β) (f : β → α → β) : β := l.foldl f s

/-- Numbers sorted without repeats: a set of small numbers. -/
def setIns : List Nat → Nat → List Nat
  | [], k => [k]
  | h :: t, k => if k < h then k :: h :: t else if k = h then h :: t else h :: setIns t k
/-- The set without a number. -/
def setDel (l : List Nat) (k : Nat) : List Nat := l.filter (· != k)

/-- Entry `i` of a list set to a value. -/
def listSet {α : Type} : List α → Nat → α → List α
  | [], _, _ => []
  | _ :: t, 0, v => v :: t
  | h :: t, i + 1, v => h :: listSet t i v

/-- A value put before the first one it does not come after. -/
def insBy {α : Type} (le : α → α → Bool) (x : α) : List α → List α
  | [] => [x]
  | y :: t => if le x y then x :: y :: t else y :: insBy le x t
/-- A list sorted by an order, equal values in their order. -/
def sortBy {α : Type} (le : α → α → Bool) : List α → List α
  | [] => []
  | x :: t => insBy le x (sortBy le t)

/-- A saturating 32-bit increment held in a 64-bit register (R30: winrej, ferefuse). -/
def satInc32 (v : DWord) : DWord := if v.toNat ≥ 0xFFFFFFFF then 0xFFFFFFFF else v + 1

/-- R75. -/
def mix (x : DWord) : DWord :=
  let z1 := (x ^^^ (x >>> 30)) * 0xBF58476D1CE4E5B9
  let z2 := (z1 ^^^ (z1 >>> 27)) * 0x94D049BB133111EB
  z2 ^^^ (z2 >>> 31)

end Sys2Proof
end

