-- ==== Sys2Proof/Syntax.lean ====
section
/-! DEFINITION. The abstract form of every row of spec/opcode_table.json: the 217 instructions, with
their operand fields as R94 to R101 form them, and the 97 events of the device's other agents. -/

namespace Sys2Proof

/-! ### Fields -/

/-- A scope (R98, R278). -/
inductive Scope where
  | ctx | core | cluster | die | package | pod
  deriving DecidableEq, Repr, Inhabited

/-- A floating-point format in a q or mode field (R99). -/
inductive FFmt where
  | fp32 | bf16 | fp16 | e4m3 | e5m2 | e2m1
  deriving DecidableEq, Repr, Inhabited

/-- A rounding mode (R67, R99). -/
inductive RMode where
  | rne | rtz | sr
  deriving DecidableEq, Repr, Inhabited

/-- The ordering of an AMO or a CAS (R99). -/
inductive MOrd where
  | rlx | acq | rel | ar
  deriving DecidableEq, Repr, Inhabited

/-- The operation of an AMO (R193). -/
inductive AmoOp where
  | add | and | or | xor | min | max | minz | maxz | swap
  deriving DecidableEq, Repr, Inhabited

/-- Access width: 1, 2, 4 or 8 bytes (R110). -/
inductive Width where
  | w8 | w16 | w32 | w64
  deriving DecidableEq, Repr, Inhabited

/-- The three writes of a control register (R213). -/
inductive CtlOp where
  | write | set | clear
  deriving DecidableEq, Repr, Inhabited

/-! ### Operand forms -/

/-- RI form on an a register: a[x] and an immediate. -/
structure ARI where
  x : Fin 16
  imm : DWord
  deriving DecidableEq, Repr, Inhabited

/-- RR form on a registers; z is present with a PR word (R95). -/
structure AR3 where
  x : Fin 16
  y : Fin 16
  z : Option (Fin 16)
  deriving DecidableEq, Repr, Inhabited

/-- Two a registers. -/
structure AR2 where
  x : Fin 16
  y : Fin 16
  deriving DecidableEq, Repr, Inhabited

/-- A memory operand: base a[y], index a[z] (a0 without PR), offset (R101). -/
structure Mem where
  y : Fin 16
  z : Fin 16
  imm : DWord
  deriving DecidableEq, Repr, Inhabited

/-- A base a[y] and an offset, for the forms that use Z for another purpose (R109). -/
structure MemB where
  y : Fin 16
  imm : DWord
  deriving DecidableEq, Repr, Inhabited

/-- A load to an a register or to a queue: destination, width, sign extension, operand. -/
structure LdF where
  x : Fin 16
  w : Width
  sx : Bool
  m : Mem
  deriving DecidableEq, Repr, Inhabited

/-- A load pushed into LQ0 or LQ1. -/
structure LdqF where
  q : Fin 2
  w : Width
  sx : Bool
  m : Mem
  deriving DecidableEq, Repr, Inhabited

/-- A store of a[x]. -/
structure StF where
  x : Fin 16
  w : Width
  m : Mem
  deriving DecidableEq, Repr, Inhabited

/-- A store from SQ0 or SQ1. -/
structure StqF where
  q : Fin 2
  w : Width
  m : Mem
  deriving DecidableEq, Repr, Inhabited

/-- A stream: queue, width, sign extension, base, descriptor register (0 selects a13, R126). -/
structure StrmF where
  q : Fin 2
  w : Width
  sx : Bool
  desc : Fin 16
  m : MemB
  deriving DecidableEq, Repr, Inhabited

/-- A 16-byte capability access. -/
structure CapMemF where
  x : Fin 16
  m : Mem
  deriving DecidableEq, Repr, Inhabited

/-- LDM and STM: first d register, count 1 to 32, base. -/
structure MultiF where
  x : Fin 32
  n : Fin 33
  m : MemB
  deriving DecidableEq, Repr, Inhabited

/-- A compare and branch on two a registers. -/
structure CmpBrF where
  x : Fin 16
  y : Fin 16
  imm : DWord
  deriving DecidableEq, Repr, Inhabited

/-- A contiguous vector access with its mask. -/
structure VMemF where
  v : Fin 32
  m : Mem
  mask : Fin 8
  deriving DecidableEq, Repr, Inhabited

/-- A mask register access. -/
structure VMaskF where
  k : Fin 8
  m : Mem
  deriving DecidableEq, Repr, Inhabited

/-- A gather or scatter: data v, index v register, base, mask. -/
structure VIdxF where
  v : Fin 32
  vz : Fin 32
  m : MemB
  mask : Fin 8
  deriving DecidableEq, Repr, Inhabited

/-- An acquire load or a release store with its scope (R123). -/
structure SyncMemF where
  x : Fin 16
  w : Width
  m : Mem
  scope : Scope
  deriving DecidableEq, Repr, Inhabited

/-- RI form on a d register. -/
structure DRI where
  x : Fin 16
  imm : DWord
  deriving DecidableEq, Repr, Inhabited

/-- RR form on d registers; z is present with a PR word (R95, R144). -/
structure DR3 where
  x : Fin 32
  y : Fin 32
  z : Option (Fin 32)
  deriving DecidableEq, Repr, Inhabited

/-- Two d registers. -/
structure DR2 where
  x : Fin 32
  y : Fin 32
  deriving DecidableEq, Repr, Inhabited

/-- Two-source floating point on d registers (page 1) or v registers (page 2). -/
structure FP3 where
  x : Fin 32
  y : Fin 32
  z : Option (Fin 32)
  fmt : FFmt
  rm : RMode
  deriving DecidableEq, Repr, Inhabited

/-- Single-source floating point; z is the draw register under SR (R147), else 0. -/
structure FP2 where
  x : Fin 32
  y : Fin 32
  z : Fin 32
  fmt : FFmt
  rm : RMode
  deriving DecidableEq, Repr, Inhabited

/-- Three-source floating point (R159, R174, R187). -/
structure FMA where
  x : Fin 32
  y : Fin 32
  z : Fin 32
  fmt : FFmt
  rm : RMode
  deriving DecidableEq, Repr, Inhabited

/-- A comparison of two d registers in a format (R162). -/
structure FCmp where
  x : Fin 32
  y : Fin 32
  fmt : FFmt
  deriving DecidableEq, Repr, Inhabited

/-- A format conversion (R163, R185). -/
structure FCvt where
  x : Fin 32
  y : Fin 32
  z : Fin 32
  dst : FFmt
  src : FFmt
  rm : RMode
  deriving DecidableEq, Repr, Inhabited

/-- A fixed-point conversion with its binary point (R165, R186). -/
structure FxF where
  x : Fin 32
  y : Fin 32
  p : Fin 63
  deriving DecidableEq, Repr, Inhabited

/-- RNDFILL: a d register, or a v register in the vector form (R166). -/
structure RndF where
  x : Fin 32
  vec : Bool
  deriving DecidableEq, Repr, Inhabited

/-- Two-source vector floating point with a mask. -/
structure VF3 where
  f : FP3
  mask : Fin 8
  deriving DecidableEq, Repr, Inhabited

/-- Single-source vector floating point with a mask. -/
structure VF2 where
  f : FP2
  mask : Fin 8
  deriving DecidableEq, Repr, Inhabited

/-- Three-source vector floating point with a mask. -/
structure VFMAF where
  f : FMA
  mask : Fin 8
  deriving DecidableEq, Repr, Inhabited

/-- Two-source vector integer operation with a mask. -/
structure VR3 where
  r : DR3
  mask : Fin 8
  deriving DecidableEq, Repr, Inhabited

/-- Single-source vector operation with a mask. -/
structure VR2 where
  x : Fin 32
  y : Fin 32
  mask : Fin 8
  deriving DecidableEq, Repr, Inhabited

/-- A vector comparison into a mask register (R177). -/
structure VCmpF where
  k : Fin 8
  y : Fin 32
  z : Fin 32
  mask : Fin 8
  deriving DecidableEq, Repr, Inhabited

/-- VPERM (R180): destination, source, index register. -/
structure VPermF where
  x : Fin 32
  y : Fin 32
  z : Fin 32
  mask : Fin 8
  deriving DecidableEq, Repr, Inhabited

/-- VEXT: a word of a v register to a d register (R179). -/
structure VExtF where
  x : Fin 32
  y : Fin 32
  idx : Fin 64
  deriving DecidableEq, Repr, Inhabited

/-- VF2X with its mask (R186). -/
structure VFxF where
  f : FxF
  mask : Fin 8
  deriving DecidableEq, Repr, Inhabited

/-- VIOTA (R181). -/
structure VIotaF where
  x : Fin 32
  mask : Fin 8
  deriving DecidableEq, Repr, Inhabited

/-- VMSK (R182). -/
structure VMskF where
  k : Fin 8
  y : Fin 32
  mask : Fin 8
  deriving DecidableEq, Repr, Inhabited

/-- A reduction (R183). -/
structure VRedF where
  x : Fin 32
  y : Fin 32
  fmt : FFmt
  mask : Fin 8
  deriving DecidableEq, Repr, Inhabited

/-- AMO and CAS: old value register, operand register, base, width (false 32, true 64), ordering,
scope. -/
structure AtomF where
  x : Fin 16
  z : Fin 16
  m : MemB
  dbl : Bool
  ord : MOrd
  scope : Scope
  deriving DecidableEq, Repr, Inhabited

/-- VAMO (R195). -/
structure VAmoF where
  v : Fin 32
  vz : Fin 32
  m : MemB
  scope : Scope
  deriving DecidableEq, Repr, Inhabited

/-- A full/empty operation (R197). -/
structure FeF where
  x : Fin 16
  m : Mem
  scope : Scope
  deriving DecidableEq, Repr, Inhabited

/-- FENCE (R200): predecessor and successor sets (R, W), engines, scope. -/
structure FenceF where
  predR : Bool
  predW : Bool
  succR : Bool
  succW : Bool
  eng : Bool
  scope : Scope
  deriving DecidableEq, Repr, Inhabited

/-- HSTART (R204). -/
structure HStartF where
  x : Fin 16
  y : Fin 16
  imm : DWord
  deriving DecidableEq, Repr, Inhabited

/-- Three a registers of SENDP (R208). Z is 0 without PR. -/
structure SendpF where
  x : Fin 16
  y : Fin 16
  z : Fin 16
  deriving DecidableEq, Repr, Inhabited

/-- A control register access: the a register and the register number (R213). -/
structure CtlF where
  x : Fin 16
  num : Fin (2 ^ 34)
  deriving DecidableEq, Repr, Inhabited

/-- MXMSK: pair, rows, columns. -/
structure MxMskF where
  p : Fin 4
  y : Fin 16
  z : Fin 16
  deriving DecidableEq, Repr, Inhabited

/-- MXLDB: stride register and operand. -/
structure MxLdbF where
  x : Fin 16
  m : Mem
  deriving DecidableEq, Repr, Inhabited

/-- MXMMA and MXRUN: accumulator, operand, mask pair. -/
structure MxMmaF where
  acc : Fin 2
  m : Mem
  pair : Fin 4
  deriving DecidableEq, Repr, Inhabited

/-- MXDRAIN. -/
structure MxDrainF where
  acc : Fin 2
  m : Mem
  deriving DecidableEq, Repr, Inhabited

/-- MXSAVE and MXREST: part 0 to 4. -/
structure MxPartF where
  part : Fin 5
  m : Mem
  deriving DecidableEq, Repr, Inhabited

/-- MXMBX: a scope and an address, or off (R247). -/
structure MxMbxF where
  scope : Option Scope
  m : Mem
  deriving DecidableEq, Repr, Inhabited

/-- A copy command: destination, source, descriptor register and offset (R254). -/
structure CopyF where
  x : Fin 16
  y : Fin 16
  z : Fin 16
  imm : DWord
  deriving DecidableEq, Repr, Inhabited

/-- PRISS, PRRDM and PRSTAT: handle register and operand. -/
structure PrF where
  x : Fin 16
  m : Mem
  deriving DecidableEq, Repr, Inhabited

/-! ### Events -/

/-- A context of the device: logical core and context number. -/
structure Who where
  core : Nat
  ctx : Nat
  deriving DecidableEq, Repr, Inhabited

/-- A management request as it arrives (R435): the packet's source, its header and its body. -/
structure MgmtReq where
  sdev : Nat
  svdev : Nat
  mtag : BitVec 32
  vdev : Nat
  body : List Byte
  deriving DecidableEq, Repr, Inhabited

/-- A Trellis packet (R426): the port it stands on, its header fields and its payload. -/
structure Packet where
  port : Nat
  cls : Nat
  typ : Nat
  replay : Bool
  ddev : Nat
  sdev : Nat
  tvdev : Nat
  svdev : Nat
  space : Nat
  reqid : Nat
  addr : DWord
  len : Nat
  score : Nat
  sctx : Nat
  scause : BitVec 8
  sflags : BitVec 8
  lseq : Nat
  op0 : DWord
  op1 : DWord
  payload : List Byte
  hres : BitVec 7
  dres : BitVec 4
  sres : BitVec 4
  mres : DWord
  pcrc : Word
  hcrc : Word
  deriving DecidableEq, Repr, Inhabited

/-- What the parts of a start find (R461): the stack that cannot be trained, the units that the self-test finds failing, cores
and, from 2,304 on, clusters, the mask of the ports that do not come up, and the stage at which the start stands still, if any. -/
structure StartEnv where
  hbmFail : Option (Fin 8)
  failing : List Nat
  portMask : BitVec 12
  hang : Option Nat
  deriving DecidableEq, Repr, Inhabited

/-- A step of the Spagon S4: the rows of spec/opcode_table.json. -/
inductive Instr where
  -- page 0, system (R217)
  | nop
  | halt
  | yield
  | isync
  | wfe
  | eret
  | trap (code : BitVec 6)
  | brk
  -- page 0, access half
  | ali (o : ARI)
  | aaddi (o : ARI)
  | aadd (o : AR3)
  | asub (o : AR3)
  | amul (o : AR3)
  | aand (o : AR3)
  | aor (o : AR3)
  | axor (o : AR3)
  | ashl (o : AR3)
  | ashr (o : AR3)
  | asar (o : AR3)
  | amov (o : AR2)
  | xpop (x : Fin 16)
  | aqp (q : Fin 2) (y : Fin 16)
  | cbnd (o : AR3)
  | cprm (o : AR3)
  | cseal (o : AR3)
  | cunsl (o : AR3)
  | ctag (o : AR2)
  | cbase (o : AR2)
  | clen (o : AR2)
  | cclr (o : AR2)
  | ld (o : LdF)
  | ldq (o : LdqF)
  | st (o : StF)
  | stq (o : StqF)
  | lds (o : StrmF)
  | sts (o : StrmF)
  | ldc (o : CapMemF)
  | stc (o : CapMemF)
  | touch (m : Mem)
  | touchN (m : Mem)
  | ldm (o : MultiF)
  | stm (o : MultiF)
  | b (imm : DWord)
  | call (imm : DWord)
  | bcqT (imm : DWord)
  | bcqF (imm : DWord)
  | bz (o : ARI)
  | bnz (o : ARI)
  | beq (o : CmpBrF)
  | bne (o : CmpBrF)
  | blt (o : CmpBrF)
  | bge (o : CmpBrF)
  | ret
  | jr (x : Fin 16)
  | jlr (o : AR2)
  | loop (o : ARI)
  | vld (o : VMemF)
  | vldBf (o : VMemF)
  | vldm (o : VMaskF)
  | vldx (o : VIdxF)
  | vst (o : VMemF)
  | vstBf (o : VMemF)
  | vstm (o : VMaskF)
  | vstx (o : VIdxF)
  | ldacq (o : SyncMemF)
  | strel (o : SyncMemF)
  -- page 0, execute half
  | xpush (x : Fin 32)
  | li (o : DRI)
  | addi (o : DRI)
  | add (o : DR3)
  | sub (o : DR3)
  | mul (o : DR3)
  | mulh (o : DR3)
  | dand (o : DR3)
  | dor (o : DR3)
  | dxor (o : DR3)
  | shl (o : DR3)
  | shr (o : DR3)
  | sar (o : DR3)
  | min (o : DR3)
  | max (o : DR3)
  | minz (o : DR3)
  | maxz (o : DR3)
  | div (o : DR3)
  | rem (o : DR3)
  | mov (o : DR2)
  | sel (o : DR3)
  | divz (o : DR3)
  | remz (o : DR3)
  | cmpEq (o : DR2)
  | cmpNe (o : DR2)
  | cmpLt (o : DR2)
  | cmpLtz (o : DR2)
  | cqp (x : Fin 32)
  -- page 1
  | fadd (o : FP3)
  | fsub (o : FP3)
  | fmul (o : FP3)
  | fmin (o : FP3)
  | fmax (o : FP3)
  | fabs (o : FP2)
  | fneg (o : FP2)
  | fsqrt (o : FP2)
  | ffma (o : FMA)
  | fcmpEq (o : FCmp)
  | fcmpLt (o : FCmp)
  | fcmpLe (o : FCmp)
  | fcmpUn (o : FCmp)
  | fcvtF2f (o : FCvt)
  | fcvtF2i (o : FP2)
  | fcvtI2f (o : FP2)
  | frcp (o : FP2)
  | frsq (o : FP2)
  | fdiv (o : FP3)
  | f2x (o : FxF)
  | x2f (o : FxF)
  | rndfill (o : RndF)
  | rndseed (y : Fin 32)
  -- page 2
  | vadd (o : VF3)
  | vsub (o : VF3)
  | vmul (o : VF3)
  | vmin (o : VF3)
  | vmax (o : VF3)
  | vabs (o : VF2)
  | vneg (o : VF2)
  | vfma (o : VFMAF)
  | viadd (o : VR3)
  | vand (o : VR3)
  | vor (o : VR3)
  | vxor (o : VR3)
  | vshl (o : VR3)
  | vshr (o : VR3)
  | vsar (o : VR3)
  | vimul (o : VR3)
  | vcmpEq (o : VCmpF)
  | vcmpLt (o : VCmpF)
  | vcmpLe (o : VCmpF)
  | vcmpUn (o : VCmpF)
  | vsel (o : VR3)
  | vmov (o : VR2)
  | vbcast (o : VR2)
  | vext (o : VExtF)
  | vsum (o : VRedF)
  | vminr (o : VRedF)
  | vmaxr (o : VRedF)
  | vsqn (o : VRedF)
  | vcvtF2f (o : FCvt)
  | vcvtF2i (o : VF2)
  | vcvtI2f (o : VF2)
  | vf2x (o : VFxF)
  | vperm (o : VPermF)
  | viota (o : VIotaF)
  | vdot (o : VFMAF)
  | vmsk (o : VMskF)
  -- page 3
  | amo (op : AmoOp) (o : AtomF)
  | cas (o : AtomF)
  | vamo (o : VAmoF)
  | fetake (o : FeF)
  | feput (o : FeF)
  | fepeek (o : FeF)
  | feinit (o : FeF)
  | fence (o : FenceF)
  | barArv (n : Fin 16)
  | barWt (n : Fin 16)
  | barTst (n : Fin 16)
  | hstart (o : HStartF)
  | hend
  | hjoin (x : Fin 16)
  | hkill (x : Fin 16)
  | sends (slot : DWord)
  | sendp (o : SendpF)
  | rxwt (x : Fin 16)
  | rxrel
  | pkopen (x : Fin 16)
  | pkput (x : Fin 16)
  | pkend (x : Fin 16)
  | pkabt
  | ctlr (o : CtlF)
  | ctlw (o : CtlF)
  | ctls (o : CtlF)
  | ctlc (o : CtlF)
  | pgatt (x : Fin 16)
  | pgdet
  | pgstat (x : Fin 16)
  | cmkw (o : AR2)
  | cmkc (o : AR2)
  -- page 4
  | mxctx (m : Mem)
  | mxmsk (o : MxMskF)
  | mxldb (o : MxLdbF)
  | mxldbT (o : MxLdbF)
  | mxrot
  | mxswp
  | mxmma (o : MxMmaF)
  | mxmmaOw (o : MxMmaF)
  | mxrun (o : MxMmaF)
  | mxzero (acc : Fin 2)
  | mxdrain (o : MxDrainF)
  | mxsave (o : MxPartF)
  | mxrest (o : MxPartF)
  | mxup (m : Mem)
  | mxwait
  | mxmbx (o : MxMbxF)
  -- page 5
  | cpy (o : CopyF)
  | cpyw (o : CopyF)
  | cpfil (o : CopyF)
  | cpcode (o : CopyF)
  | crstep (o : CopyF)
  | crstepSq (o : CopyF)
  | crall (o : CopyF)
  | cpwait
  | cpqry (x : Fin 16)
  -- page 6
  | priss (o : PrF)
  | prrdm (o : PrF)
  | prapl
  | prsq (x : Fin 16)
  | prstat (o : PrF)
  | prls (m : Mem)
  | prcfg (m : Mem)
  -- writes of control registers with effects of their own
  | rngWrite (core : Nat) (op : CtlOp) (v : DWord)
  | domWrite (core : Nat) (n : Fin 16) (op : CtlOp) (v : DWord)
  | winWrite (core : Nat) (n : Fin 4) (op : CtlOp) (v : DWord)
  | ringWrite (core : Nat) (op : CtlOp) (v : DWord)
  | rxbaseWrite (core : Nat) (size : Bool) (op : CtlOp) (v : DWord)
  | rxheadWrite (core : Nat) (op : CtlOp) (v : DWord)
  | rxflagsWrite (core : Nat) (op : CtlOp) (v : DWord)
  | statusWrite (w : Who) (op : CtlOp) (v : DWord)
  | epcWrite (w : Who) (op : CtlOp) (v : DWord)
  -- units of a core
  | streamElement (w : Who)
  | vectorPerform (core : Nat)
  | mxCommandBegin (core : Nat)
  | governorWindow
  | cpCommandBegin (core : Nat)
  | crallComplete (core : Nat)
  | fetakeRetry (w : Who)
  | movingRetry (reqid : Nat)
  | reportRaise (w : Who)
  | barrierRelease (core : Nat) (n : Fin 16)
  | arrivalDeliver (core : Nat)
  | exchangeTransfer (core : Nat)
  | rxMessagePlace (core : Nat)
  -- groups and launches
  | groupStart (launch : Nat) (group : Nat) (core : Nat)
  | groupEnd (core : Nat)
  | launchComplete (launch : Nat)
  | preemptSave (core : Nat) (reason : Nat)
  | restore (saved : Nat) (core : Nat)
  | repairSubstitution (core : Nat)
  | wakeWrite (writer : Option Nat) (bytes : List Byte)
  | queueFetch (q : Nat)
  | launch (q : Nat)
  | wait (q : Nat)
  | signal (q : Nat)
  | preload (q : Nat)
  | queueAge (q : Nat)
  | reserve (launch : Nat)
  | commit (launch : Nat)
  | release (launch : Nat)
  | placementRetry (launch : Nat)
  | shapeResolve (launch : Nat)
  | resolutionApply (launch : Nat)
  | tailLaunchStart (launch : Nat)
  | rcountFlush (tlb : Nat)
  | faultEntryWrite (vdev : Nat)
  -- packets
  | read (p : Packet)
  | write (p : Packet)
  | atomic (p : Packet)
  | msg (p : Packet)
  | wake (p : Packet)
  | answer (p : Packet)
  | bararv (p : Packet)
  | barrel (p : Packet)
  | pgctl (p : Packet)
  | state (p : Packet)
  | page (p : Packet)
  | linkReplay (port : Nat) (cls : Nat) (lseq : Nat)
  | portRetrain (port : Nat) (loWhole : Bool) (hiWhole : Bool)
  | migrationCommit (vdev : Nat)
  | migrationFail (vdev : Nat)
  | pageMove (residue : Nat) (space : Nat) (va : DWord)
  -- management requests
  | vdcreate (r : MgmtReq)
  | vddestroy (r : MgmtReq)
  | qcreate (r : MgmtReq)
  | qdestroy (r : MgmtReq)
  | qage (r : MgmtReq)
  | fqset (r : MgmtReq)
  | fqanswer (r : MgmtReq)
  | create (r : MgmtReq)
  | invrange (r : MgmtReq)
  | invspace (r : MgmtReq)
  | teardown (r : MgmtReq)
  | pgbind (r : MgmtReq)
  | migrate (r : MgmtReq)
  | pagemove (r : MgmtReq)
  | peerset (r : MgmtReq)
  | devid (r : MgmtReq)
  | pdomset (r : MgmtReq)
  | plset (r : MgmtReq)
  | attest (r : MgmtReq)
  | status (r : MgmtReq)
  | bootrec (r : MgmtReq)
  | slotwrite (r : MgmtReq)
  | clearfail (r : MgmtReq)
  | reset (r : MgmtReq)
  | notifyto (r : MgmtReq)
  -- platform
  | powerOnStart (e : StartEnv)
  | stageWatchdog
  | selfTest (unit : Nat)
  | machineError (core : Nat)
  | belvedereWatchdog
  | thermalLimit (cluster : Nat) (budget : Option Nat)
  | i3cBootRecord
  | i3cAttest (nonce : List Byte)
  | i3cStatus
  | i3cReset
  | correctedErrorLimit (unit : Nat)
  | grant (launch : Nat) (cluster : Nat) (granted : Bool)
  deriving DecidableEq, Repr, Inhabited

end Sys2Proof
end

