-- ==== Sys2Proof/Machine/Float.lean ====
section
/-! DEFINITION. Number formats and exact arithmetic with one rounding (R54 to R71, R75 to R85). -/

namespace Sys2Proof.Machine

/-! ### Exact values -/

/-- A value taken exactly: NaN, an infinity, or (−1)^neg × (m + δ) × 2^e, where 0 < δ < 1 when `st`
holds and δ = 0 otherwise. Quotients and roots carry at least 64 bits of m, so that R67's n, f and
floor(f × 2^16) are exact. -/
inductive Val where
  | nan
  | inf (neg : Bool)
  | fin (neg : Bool) (m : Nat) (e : Int) (st : Bool)
  deriving DecidableEq, Repr, Inhabited

/-- The flags of R30: [4] invalid, [3] divide-by-zero, [2] overflow, [1] underflow, [0] inexact. -/
abbrev Flags := BitVec 5

/-- The invalid flag. -/
def flInvalid : Flags := 0x10
/-- The divide-by-zero flag. -/
def flDivZero : Flags := 0x08
/-- The overflow flag. -/
def flOverflow : Flags := 0x04
/-- The underflow flag. -/
def flUnderflow : Flags := 0x02
/-- The inexact flag. -/
def flInexact : Flags := 0x01

/-- The parameters of R55: width, fraction bits, bias, infinities, and whether the all-ones exponent
holds NaN for every fraction but 0 (ieee), for the all-ones fraction only (e4m3), or never. -/
structure FParam where
  width : Nat
  frac : Nat
  bias : Nat
  hasInf : Bool
  hasNan : Bool
  canon : Nat
  maxN : Nat
  maxK : Int
  deriving DecidableEq, Repr, Inhabited

/-- R55. `maxN` × 2^`maxK` is the largest finite magnitude. -/
def FFmt.param : FFmt → FParam
  | .fp32 => ⟨32, 23, 127, true, true, 0x7FC00000, 2 ^ 24 - 1, 104⟩
  | .bf16 => ⟨16, 7, 127, true, true, 0x7FC0, 255, 120⟩
  | .fp16 => ⟨16, 10, 15, true, true, 0x7E00, 2047, 5⟩
  | .e4m3 => ⟨8, 3, 7, false, true, 0x7F, 14, 5⟩
  | .e5m2 => ⟨8, 2, 15, true, true, 0x7E, 7, 13⟩
  | .e2m1 => ⟨4, 1, 1, false, false, 0, 3, 1⟩

/-- The value a pattern holds (R55 to R57). -/
def valOf (f : FFmt) (bits : Nat) : Val :=
  let p := FFmt.param f
  let ew := p.width - 1 - p.frac
  let neg := bits.testBit (p.width - 1)
  let ex := bits / 2 ^ p.frac % 2 ^ ew
  let fr := bits % 2 ^ p.frac
  if ex = 2 ^ ew - 1 && p.hasInf then (if fr = 0 then .inf neg else .nan)
  else if ex = 2 ^ ew - 1 && p.hasNan && fr = 2 ^ p.frac - 1 then .nan
  else if ex = 0 then .fin neg fr (1 - (p.bias : Int) - p.frac) false
  else .fin neg (2 ^ p.frac + fr) ((ex : Int) - p.bias - p.frac) false

/-- The value of an A20 accumulator word, held as R58 saves it: bits [11:0] ignored, no subnormals. -/
def valOfA20 (bits : Nat) : Val :=
  if bits / 2 ^ 23 % 256 = 0 then .fin (bits.testBit 31) 0 0 false
  else valOf .fp32 (bits / 4096 % 2 ^ 20 * 4096)

/-- An integer as an exact value; zero has the sign +. -/
def valOfInt (i : Int) : Val := .fin (decide (i < 0)) i.natAbs 0 false

/-- A value multiplied by a power of two. -/
def Val.scale (v : Val) (k : Int) : Val :=
  match v with
  | .fin n m e st => .fin n m (e + k) st
  | v => v

/-- R67: IsNaN. -/
def Val.isNan : Val → Bool
  | .nan => true | _ => false
/-- Infinite. -/
def Val.isInf : Val → Bool
  | .inf _ => true | _ => false
/-- Zero of either sign. -/
def Val.isZero : Val → Bool
  | .fin _ m _ st => m = 0 && !st | _ => false
/-- The sign. -/
def Val.neg : Val → Bool
  | .nan => false | .inf n => n | .fin n _ _ _ => n
/-- The value with the sign cleared. -/
def Val.abs : Val → Val
  | .nan => .nan | .inf _ => .inf false | .fin _ m e st => .fin false m e st
/-- The value with the sign inverted. -/
def Val.negate : Val → Val
  | .nan => .nan | .inf n => .inf (!n) | .fin n m e st => .fin (!n) m e st

/-! ### Rounding (R67) -/

/-- The targets of R67: a floating-point format, A20, or a signed integer of a width. -/
inductive Target where
  | flt (f : FFmt)
  | a20
  | int (w : Nat)
  deriving DecidableEq, Repr, Inhabited

/-- Largest(fmt, sgn) of R67 as a pattern. -/
def Target.largest (t : Target) (neg : Bool) : Nat :=
  match t with
  | .flt f =>
    let p := FFmt.param f
    (if neg then 2 ^ (p.width - 1) else 0) +
      (p.maxK + p.frac + p.bias).toNat * 2 ^ p.frac + (p.maxN - 2 ^ p.frac)
  | .a20 => (if neg then 2 ^ 31 else 0) + 0x7F7FF000
  | .int w => if neg then 2 ^ (w - 1) else 2 ^ (w - 1) - 1

/-- Inf(fmt, sgn) of R67 as a pattern. -/
def Target.infPat (t : Target) (neg : Bool) : Nat :=
  match t with
  | .flt f =>
    let p := FFmt.param f
    (if neg then 2 ^ (p.width - 1) else 0) + (2 ^ (p.width - 1 - p.frac) - 1) * 2 ^ p.frac
  | .a20 => (if neg then 2 ^ 31 else 0) + 0x7F800000
  | .int _ => 0

/-- Zero(fmt, sgn) of R67 as a pattern. -/
def Target.zeroPat (t : Target) (neg : Bool) : Nat :=
  match t with
  | .flt f => if neg then 2 ^ ((FFmt.param f).width - 1) else 0
  | .a20 => if neg then 2 ^ 31 else 0
  | .int _ => 0

/-- HasInf of R67. -/
def Target.hasInf : Target → Bool
  | .flt f => (FFmt.param f).hasInf | .a20 => true | .int _ => false
/-- HasNaN of R67. -/
def Target.hasNan : Target → Bool
  | .flt f => (FFmt.param f).hasNan | .a20 => true | .int _ => false
/-- CanonNaN of R55. -/
def Target.canon : Target → Nat
  | .flt f => (FFmt.param f).canon | .a20 => 0x7FC00000 | .int _ => 0
/-- IsInt of R67. -/
def Target.isInt : Target → Bool
  | .int _ => true | _ => false

/-- The exponent of q for a magnitude whose floor(log2) is `e` (R67). -/
def Target.qExp (t : Target) (e : Int) : Int :=
  match t with
  | .flt f => let p := FFmt.param f; max e (1 - (p.bias : Int)) - p.frac
  | .a20 => e - 11
  | .int _ => 0

/-- n × 2^k > LargestMag(fmt, sgn) (R67). -/
def Target.exceeds (t : Target) (neg : Bool) (n : Nat) (k : Int) : Bool :=
  match t with
  | .flt f => let p := FFmt.param f
    decide ((n * 2 ^ (k - p.maxK).toNat : Nat) > p.maxN * 2 ^ (p.maxK - k).toNat)
  | .a20 => decide (n * 2 ^ (k - 116).toNat > 4095 * 2 ^ (116 - k).toNat)
  | .int w => decide (n > if neg then 2 ^ (w - 1) else 2 ^ (w - 1) - 1)

/-- Encode(fmt, sgn, n × 2^k) of R67 as a pattern. A significand that carries to the next power of two
moves the exponent field up by one. -/
def Target.encode (t : Target) (neg : Bool) (n : Nat) (k : Int) : Nat :=
  match t with
  | .flt f =>
    let p := FFmt.param f
    (if neg then 2 ^ (p.width - 1) else 0) + ((k + p.frac + p.bias).toNat * 2 ^ p.frac + n - 2 ^ p.frac)
  | .a20 => (if neg then 2 ^ 31 else 0) + ((k + 138).toNat * 2 ^ 11 + n - 2 ^ 11) * 4096
  | .int w => if neg then (2 ^ w - n) % 2 ^ w else n

/-- floor(log2 m) for m > 0. -/
def floorLog2 (m : Nat) : Nat := m.log2

/-- Whether R67 rounds up: n's last bit, the numerator and the denominator's exponent of f, the sticky
part, and the draw. -/
def roundUp (mode : RMode) (n rem sh : Nat) (st : Bool) (r : Nat) : Bool :=
  match mode with
  | .rtz => false
  | .rne => decide (2 * rem > 2 ^ sh) || (decide (2 * rem = 2 ^ sh) && (st || n % 2 == 1))
  | .sr => decide (rem * 2 ^ 16 / 2 ^ sh + r % 2 ^ 16 ≥ 2 ^ 16)

/-- R67: the pattern and the flags it sets. -/
def round (t : Target) (mode : RMode) (x : Val) (r : Nat) : Nat × Flags :=
  match x with
  | .nan => if t.hasNan then (t.canon, 0) else (t.zeroPat false, flInvalid)
  | .inf neg =>
    if t.hasInf then (t.infPat neg, 0)
    else (t.largest neg, if t.isInt then flInvalid else flOverflow ||| flInexact)
  | .fin neg m e st =>
    if m = 0 && !st then (t.zeroPat neg, 0)
    else
      let lg : Int := (floorLog2 m : Int) + e
      let k := t.qExp lg
      let sh := (k - e).toNat
      let n := m * 2 ^ (e - k).toNat / 2 ^ sh
      let rem := m * 2 ^ (e - k).toNat % 2 ^ sh
      let inexact := rem != 0 || st
      let n' := if roundUp mode n rem sh st r then n + 1 else n
      if t.exceeds neg n' k then
        if t.isInt then (t.largest neg, flInvalid)
        else ((if t.hasInf && mode != .rtz then t.infPat neg else t.largest neg), flOverflow ||| flInexact)
      else
        let fx : Flags := if inexact then flInexact else 0
        match t with
        | .a20 =>
          if decide (n' * 2 ^ (k + 126).toNat < 2 ^ (-(k + 126)).toNat) then
            (t.zeroPat neg, fx ||| flUnderflow ||| flInexact)
          else (t.encode neg n' k, fx)
        | .flt f =>
          let fu : Flags :=
            if decide (lg < 1 - ((FFmt.param f).bias : Int)) && inexact then flUnderflow else 0
          if n' = 0 then (t.zeroPat neg, fx ||| fu) else (t.encode neg n' k, fx ||| fu)
        | .int _ => if n' = 0 then (0, fx) else (t.encode neg n' k, fx)

/-- RoundTo into FP32, RNE: the pattern and the flags. -/
def round32 (x : Val) : Nat × Flags := round (.flt .fp32) .rne x 0

/-! ### Exact operations before rounding (R71) -/

/-- A signed significand aligned to a lower exponent. -/
def alignInt (neg : Bool) (m : Nat) (e lo : Int) : Int :=
  let v : Int := (m * 2 ^ (e - lo).toNat : Nat)
  if neg then -v else v

/-- x + y: the exact sum and the invalid flag. -/
def Val.add (x y : Val) : Val × Flags :=
  match x, y with
  | .nan, _ => (.nan, 0)
  | _, .nan => (.nan, 0)
  | .inf a, .inf b => if a = b then (.inf a, 0) else (.nan, flInvalid)
  | .inf a, _ => (.inf a, 0)
  | _, .inf b => (.inf b, 0)
  | .fin a m e s, .fin b n f t =>
    if m = 0 && n = 0 then (.fin (a && b) 0 0 false, 0)
    else
      let lo := min e f
      let i := alignInt a m e lo + alignInt b n f lo
      if i = 0 then (.fin false 0 0 false, 0) else (.fin (decide (i < 0)) i.natAbs lo (s || t), 0)

/-- x − y. -/
def Val.sub (x y : Val) : Val × Flags := x.add y.negate

/-- x × y: the exact product and the invalid flag. -/
def Val.mul (x y : Val) : Val × Flags :=
  match x, y with
  | .nan, _ => (.nan, 0)
  | _, .nan => (.nan, 0)
  | .inf a, .inf b => (.inf (a != b), 0)
  | .inf a, y => if y.isZero then (.nan, flInvalid) else (.inf (a != y.neg), 0)
  | x, .inf b => if x.isZero then (.nan, flInvalid) else (.inf (x.neg != b), 0)
  | .fin a m e _, .fin b n f _ => (.fin (a != b) (m * n) (e + f) false, 0)

/-- x × y + z with one rounding to come. -/
def Val.fma (x y z : Val) : Val × Flags :=
  let p := x.mul y
  let s := p.1.add z
  (s.1, p.2 ||| s.2)

/-- x / y: at least 64 bits of quotient. -/
def Val.div (x y : Val) : Val × Flags :=
  match x, y with
  | .nan, _ => (.nan, 0)
  | _, .nan => (.nan, 0)
  | .inf _, .inf _ => (.nan, flInvalid)
  | .inf a, y => (.inf (a != y.neg), 0)
  | x, .inf b => (.fin (x.neg != b) 0 0 false, 0)
  | .fin a m e _, .fin b n f _ =>
    if n = 0 then (if m = 0 then (.nan, flInvalid) else (.inf (a != b), flDivZero))
    else if m = 0 then (.fin (a != b) 0 0 false, 0)
    else
      let sh := 64 + floorLog2 n
      (.fin (a != b) (m * 2 ^ sh / n) (e - f - sh) (m * 2 ^ sh % n != 0), 0)

/-- The integer square root, bit by bit from bit k − 1 down, above a root already found. -/
def isqrt (v : Nat) : Nat → Nat → Nat
  | 0, r => r
  | k + 1, r => isqrt v k (if (r + 2 ^ k) * (r + 2 ^ k) ≤ v then r + 2 ^ k else r)

/-- The square root. -/
def Val.sqrt (x : Val) : Val × Flags :=
  match x with
  | .nan => (.nan, 0)
  | .inf neg => if neg then (.nan, flInvalid) else (.inf false, 0)
  | .fin neg m e _ =>
    if m = 0 then (.fin neg 0 0 false, 0)
    else if neg then (.nan, flInvalid)
    else
      let sh := 128 + (e % 2).toNat
      let v := m * 2 ^ sh
      let r := isqrt v (v.log2 / 2 + 1) 0
      (.fin false r ((e - sh) / 2) (r * r != v), 0)

/-- The reciprocal. -/
def Val.rcp (x : Val) : Val × Flags := (Val.fin false 1 0 false).div x

/-- The reciprocal square root. -/
def Val.rsqrt (x : Val) : Val × Flags :=
  match x with
  | .nan => (.nan, 0)
  | .inf neg => if neg then (.nan, flInvalid) else (.fin false 0 0 false, 0)
  | .fin neg m e _ =>
    if m = 0 then (.inf neg, flDivZero)
    else if neg then (.nan, flInvalid)
    else
      let m' := m * 2 ^ (e % 2).toNat
      let t := 80 + m'.log2
      let r := isqrt (2 ^ (2 * t) / m') (t + 1) 0
      (.fin false r (-(t : Int) - (e - e % 2) / 2) (r * r * m' != 2 ^ (2 * t)), 0)

/-- The order of two values that are no NaN: less than, with ±0 equal. -/
def Val.lt (x y : Val) : Bool :=
  match x, y with
  | .nan, _ => false
  | _, .nan => false
  | .inf a, .inf b => a && !b
  | .inf a, _ => a
  | _, .inf b => !b
  | .fin a m e _, .fin b n f _ =>
    decide (alignInt a m e (min e f) < alignInt b n f (min e f))

/-- Equality of values: ±0 are equal, NaN equals nothing. -/
def Val.eq (x y : Val) : Bool := !x.isNan && !y.isNan && !x.lt y && !y.lt x

/-- SR(x, fmt, r) or RoundTo(fmt, mode, x) with flags of the operation. -/
def roundOp (f : FFmt) (mode : RMode) (x : Val × Flags) (r : Nat) : Nat × Flags :=
  let y := round (.flt f) mode x.1 r
  (y.1, x.2 ||| y.2)

/-- Widening to FP32, exact; a NaN becomes the canonical NaN (R70). -/
def widen32 (f : FFmt) (bits : Nat) : Nat := (round (.flt .fp32) .rne (valOf f bits) 0).1

end Sys2Proof.Machine
end

