-- ==== Sys2Proof/Machine/State.lean ====
section
/-! DEFINITION. The state of a Spagon S4, as plain data, and the state after reset. A sparse map reads
its type's default for what it does not list; the default of every record below is therefore the idle,
absent or zero unit of its kind. -/

namespace Sys2Proof.Machine

/-! ### Contexts -/

/-- An a register: 128 bits and a tag (R14). -/
structure AVal where
  tag : Bool
  bits : BitVec 128
  deriving DecidableEq, Repr, Inhabited

/-- The armed loop state (R139). -/
structure Loop where
  start : BitVec 16
  stop : BitVec 16
  ctr : Fin 16
  deriving DecidableEq, Repr, Inhabited

/-- Whether a party is parked, and a host's answer DELIVER it has still to act on (R395, R396). -/
inductive Park where
  | free
  | parked
  | deliver (cause : Nat) (va : DWord)
  deriving DecidableEq, Repr, Inhabited

/-- A stream: direction (`store` for STS), queue, width, sign extension, next element, count, base
address, stride, captured capability and guards, the address of its instruction (R126); `ends` holds, after
an answer DELIVER to a fault on one of its elements, that element, the cause and the address (R130). -/
structure Stream where
  store : Bool
  q : Fin 2
  w : Width
  sx : Bool
  next : Nat
  count : Nat
  ea : DWord
  stride : Int
  cap : AVal
  guards : SMap DWord
  pc : BitVec 16
  park : Park
  ends : Option (Nat × Nat × DWord)
  deriving DecidableEq, Repr, Inhabited

/-- A pending report: cause, value, and the rank at which it became pending (R391). -/
structure Report where
  cause : Nat
  tval : DWord
  order : Nat
  deriving DecidableEq, Repr, Inhabited

/-- An open packet (R211): destination word and the words appended. -/
structure PktBuf where
  dest : DWord
  words : List DWord
  deriving DecidableEq, Repr, Inhabited

/-- How an instruction executed ahead of the boundary stands to the vector queue: no vector load and no VEXT; in the
queue; or performed (R133, R170). -/
inductive VecSt where
  | none | queued | performed
  deriving DecidableEq, Repr, Inhabited

/-- The model's record of an instruction executed ahead of the boundary (R12): whether it is of the access
half, its address, the next address, the handler level, the registers and loop before it, the flags it
raised, its pops (queue and value) and pushes (queue, those of the stream it set up among them), whether it set
up a stream, of a vector load or VEXT where it stands and the words and masks it has overwritten, each with the
value before and after, latest first; the control registers of the core that it has changed (0 ctl.rng, 1 ctl.rxhead),
each with the value before and after; whether it stands as done whatever is discarded (R170); and its length. -/
structure Ahead where
  acc : Bool
  pc : BitVec 16
  next : BitVec 16
  len : Nat
  h : Bool
  a : SMap AVal
  d : SMap DWord
  loop : Option Loop
  raised : DWord
  pops : List (Nat × DWord)
  pushes : List Nat
  lds : Bool
  vec : VecSt
  oldV : List (Nat × Word × Word)
  oldM : List (Nat × DWord × DWord)
  oldC : List (Nat × DWord × DWord)
  lasting : Bool
  deriving DecidableEq, Repr, Inhabited

/-- A context (R7, R142, R387, R391, R395). -/
structure Ctx where
  live : Bool
  pc : BitVec 16
  a : SMap AVal
  d : SMap DWord
  lq0 : List DWord
  lq1 : List DWord
  sq0 : List DWord
  sq1 : List DWord
  cq : List Bool
  xq : List DWord
  guards : SMap DWord
  h : Bool
  cause : DWord
  epc : DWord
  tval : DWord
  tvec : DWord
  scratch : DWord
  fflags : DWord
  eflags : DWord
  loop : Option Loop
  stream : Option Stream
  resume : Nat
  reports : List Report
  lossfloor : Option Report
  packet : Option PktBuf
  park : Park
  ahead : List Ahead
  /-- The context's FETAKE stands in an owner's deferred list (R198), or was refused and repeats. -/
  taking : Bool
  /-- Its oldest instruction is a vector memory operation, VAMO or VEXT in the vector queue (R391). -/
  vwait : Bool
  /-- It stands at an action held in a tentative group (R359). -/
  held : Bool
  /-- Halves of contexts, by their numbers (`halfNo`), that issue once before the same half of this one is ready again
  (YIELD, R217). -/
  yielded : List Nat
  /-- HKILL has asked it to end at its next boundary (R206). -/
  killed : Bool
  /-- How many entries of the core's `codeOld` were made before its latest ISYNC (R217). -/
  synced : Nat
  /-- The plan entry of the SENDS at its boundary, once that has been issued (R414). -/
  planEnt : Option (List Byte)
  /-- The model's own: how many instructions it has completed, from which its fetches take their choice between old and
  new halfwords (DESIGN CHOICE, log entry 9). -/
  fetchKey : Nat
  deriving DecidableEq, Repr, Inhabited

/-! ### Engines -/

/-- An engine command: who issued it and where, the instruction, what it captured at issue (EA() or
the descriptor address, base capability, x, y and z operands, guards), its number c, whether it has
begun, its progress, CRC state, acc, descriptor or operand bytes read at begin, flags raised so far,
parking, the seq and slot a PRISS took, whether it has passed a governor window, and whether a CRALL
has delivered (R223, R226, R253, R265, R268, R274). -/
structure Cmd where
  who : Who
  pc : BitVec 16
  ins : Instr
  ea : DWord
  capX : AVal
  capY : AVal
  capZ : AVal
  guards : SMap DWord
  num : DWord
  begun : Bool
  prog : Nat
  crc : Word
  acc : DWord
  buf : List Byte
  flags : BitVec 5
  park : Park
  slot : Nat
  seq : Word
  waited : Bool
  /-- Of a copy: by the place of a byte it has written, the value before and every value written, each with
  the progress that it belongs to (R262). -/
  hist : SMap (List (Nat × Byte))
  deriving DecidableEq, Repr, Inhabited

/-- The state of the incoming bank (R235). -/
inductive BankSt where
  | empty | loading | full
  deriving DecidableEq, Repr, Inhabited

/-- The last record state of a promise (R304). -/
inductive PrState where
  | free | opened | redeemed | applied | expired | reverted
  deriving DecidableEq, Repr, Inhabited

/-- A slot of the promise table (R301), its pending PREXPIRED (R311) and the rank of that report. -/
structure PrSlot where
  inUse : Bool
  seq : Word
  roff : Nat
  offW : Nat
  ctx : Nat
  last : PrState
  pend : Option Nat
  /-- The issue order that "ascending seq" means (R301). -/
  issue : Nat
  deriving DecidableEq, Repr, Inhabited

/-- The matrix engine (R20, R222). `acc` holds word 64i + j of tile t at 2048t + 64i + j; `latch` holds
byte o of bank b at 8704b + o, scale area from 8192; `masks` lists the row and column masks of m1 to m3;
`prog` lists slots 0 to 3 and the reduce byte. -/
structure Mx where
  acc : SMap Word
  latch : SMap Byte
  cur : Bool
  inc : BankSt
  masks : List (Word × DWord)
  fctx : List Byte
  t : Word
  prog : List Byte
  mbScope : Nat
  mbAddr : Nat
  n : Word
  seed : DWord
  seq : DWord
  queue : List Cmd
  prevA : List Byte
  prevB : SMap Byte
  govCharged : Nat
  govLast : Nat
  govHeld : Nat
  promises : SMap PrSlot
  nextSeq : Word
  issues : Nat
  loss : List Byte
  deriving DecidableEq, Repr, Inhabited

/-- The copy engine (R253): sequence counter, completed commands, queue, CRALL performed per channel. -/
structure Cp where
  seq : DWord
  done : DWord
  queue : List Cmd
  crall : SMap Nat
  deriving DecidableEq, Repr, Inhabited

/-- How an entry of the vector queue stands to its context's boundary (R133): issued there; issued ahead, with the
part it goes on at and whether it has met a failure, which waits for the boundary; or issued ahead and since
reached by the boundary. -/
inductive VAt where
  | here
  | ahead (part : Nat) (stuck : Bool)
  | reached
  deriving DecidableEq, Repr, Inhabited

/-- An entry of the core's vector queue: the instruction, its issuing context and its number there, the address
and the capability and guards a memory form captured, a d operand popped or read and the draws taken at issue,
the instruction's length (R19, R133, R166, R189), and how it stands to the boundary. -/
structure VItem where
  who : Who
  pc : BitVec 16
  ins : Instr
  ea : DWord
  cap : AVal
  guards : SMap DWord
  dv : DWord
  vals : List Word
  len : Nat
  place : VAt
  deriving DecidableEq, Repr, Inhabited

/-! ### Cores -/

/-- A deferred take (R198): the requester on this device, or the packet of a Trellis sender; the word;
whether it came through a WINDOW capability. -/
structure Take where
  who : Who
  pkt : Option Packet
  addr : Nat
  window : Bool
  deriving DecidableEq, Repr, Inhabited

/-- A barrier channel of a core: the phases of its arrivals not yet matched, oldest first, the phase of
its next arrival, and those of its arrivals that are held from the tree, each its phase and the copy engine's sequence
counter when it was made (R202, R297, R409, R418). -/
structure Chan where
  arrived : List Nat
  next : Option Nat
  held : List (Nat × Nat)
  deriving DecidableEq, Repr, Inhabited

/-- An exchange transfer that has read its bytes: its sender, the launch and index of the sender's group, and the fields
of its plan entry (R415, R416). -/
structure Xfer where
  who : Who
  launch : Nat
  idx : Nat
  slot : Nat
  cycle : Nat
  peer : Nat
  roff : Nat
  bytes : List Byte
  deriving DecidableEq, Repr, Inhabited

/-- A message on its way to a receive buffer: where its answer goes (a context of this device, or the
packet that brought it), the destination word, the header bits and the payload (R208, R420). -/
structure Message where
  who : Who
  pkt : Option Packet
  dest : DWord
  isPkt : Bool
  core : Nat
  vdev : Nat
  payload : List Byte
  deriving DecidableEq, Repr, Inhabited

/-- The group a core runs (R34): launch, index, group count, virtual device, space, the launch's flags,
RES, TAIL and TENT of ctl.spec, plan entries, whether it is stalled from issuing by a pending save. -/
structure Grp where
  launch : Nat
  id : Nat
  idx : Nat
  n : Nat
  vdev : Nat
  space : Nat
  bulk : Bool
  pergola : Bool
  res : Bool
  isTail : Bool
  tent : Bool
  rtva : DWord
  slice : Nat
  entries : Nat
  halted : Bool
  deriving DecidableEq, Repr, Inhabited

/-- A logical core: what its group and its contexts share (R7, R20 to R30, R412, R419). -/
structure CoreSt where
  grp : Option Grp
  ctxs : SMap Ctx
  lm : SMap Byte
  ltag : SMap Bool
  fe : SMap Bool
  istore : SMap Half
  /-- The halfwords that CPCODE commands of the group have overwritten: index and value before, oldest first
  (R27). -/
  codeOld : List (Nat × Half)
  /-- The value of ctl.vshare that the Kiosk has set (R28). -/
  vshare : DWord
  v : SMap Word
  vm : SMap DWord
  vq : List VItem
  mx : Mx
  cp : Cp
  takes : List Take
  chans : SMap Chan
  dom : SMap DWord
  barph : DWord
  win : SMap DWord
  step : DWord
  cycle : DWord
  rng : DWord
  srseed : DWord
  rxbase : DWord
  rxsize : DWord
  rxhead : DWord
  rxtail : DWord
  rxflags : DWord
  rxdrop : DWord
  rxIn : List Message
  plan : DWord
  xcyc : DWord
  xphase : Bool
  ring : DWord
  heldcyc : DWord
  winrej : DWord
  ferefuse : DWord
  xfers : List Xfer
  sendBusy : Nat
  recvBusy : Nat
  /-- The words of the transfer that occupies the receive port which are not yet written (R417). -/
  landing : List (Nat × List Byte)
  /-- The sender of that transfer (R207, R290). -/
  landFrom : Who
  /-- Set while the group of this core is saved for a repair, pre-emption or migration (R401). -/
  saved : Bool
  deriving DecidableEq, Repr, Inhabited

/-! ### Virtual devices, queues and launches -/

/-- The state of an address space (R369). -/
inductive SpaceSt where
  | absent | opened | closing
  deriving DecidableEq, Repr, Inhabited

/-- An address space (R369). -/
structure Space where
  st : SpaceSt
  root : Nat
  gen : Nat
  outst : Nat
  exported : Bool
  deriving DecidableEq, Repr, Inhabited

/-- A party that can fault and park (R394, R395, R475). -/
inductive Party where
  | ctx (w : Who)
  | stream (w : Who)
  | vector (w : Who)
  | matrix (core : Nat)
  | copy (core : Nat)
  | queue (q : Nat)
  | block (q : Nat)
  | shape (launch : Nat)
  | record (q : Nat) (idx : Nat)
  | port (p : Packet)
  deriving DecidableEq, Repr, Inhabited

/-- A fault: its party and the fields of its fault queue entry but the seq (R394). -/
structure FaultRec where
  party : Party
  cause : Nat
  ctx : Nat
  core : Nat
  va : DWord
  launch : Nat
  group : Nat
  pc : Nat
  prog : Nat
  space : Nat
  source : Nat
  flags : Nat
  deriving DecidableEq, Repr, Inhabited

/-- A slot of the shape predictor (R353). -/
structure PredSlot where
  used : Bool
  last : Nat
  stride : Int
  conf : Nat
  deriving DecidableEq, Repr, Inhabited

/-- A program image as read and checked (R339): header fields, code and plan. -/
structure Image where
  va : Nat
  entry : Nat
  tvec : Nat
  rtva : Nat
  slice : Nat
  code : List Half
  plan : List Byte
  deriving DecidableEq, Repr, Inhabited

/-- A waiter of an event: a command of a queue, or a launch waiting for its shape event (R342, R344,
R352). -/
inductive Waiter where
  | cmd (q : Nat) (idx : Nat)
  | shape (launch : Nat)
  deriving DecidableEq, Repr, Inhabited

/-- A virtual device (R37, R340, R342, R353, R369, R393). `uncached` holds the events whose waiters found the device-wide
cache full when the first of them joined (R342); `fwait` lists the faults that wait for ring
space or a first FQSET, `fout` the entries written and not yet answered by their seq; `pinned` the images
held for a PRELOAD, each with its queue; `noteAt` the time before which no further notice FAULTS goes out;
`moving` a migration that has been asked for. -/
structure VDev where
  alive : Bool
  quarters : BitVec 16
  spaces : SMap Space
  events : SMap Nat
  waits : SMap (List Waiter)
  uncached : SMap Bool
  pslots : SMap PredSlot
  nextId : Nat
  fqBlock : Option Nat
  fwait : List FaultRec
  fout : SMap (Option FaultRec)
  pinned : List (Nat × Image)
  noteAt : Nat
  moving : Bool
  deriving DecidableEq, Repr, Inhabited

/-- A command of a queue (R336, R337): its slot index and body, and how far it has come: joined the wait
lists, satisfied, the rank and time at which it became ready (R345), whether its start has been tried, when it is a
LAUNCH that lacks cores or a key, or stands behind one that does, how many groups must be placed and whether as a gang,
started, and the bytes of its record once it completes. -/
structure QCmd where
  idx : Nat
  body : List Byte
  joined : Bool
  satisfied : Bool
  ready : Option (Nat × Nat)
  tried : Bool
  short : Option (Nat × Bool)
  started : Bool
  launch : Option Nat
  result : Option (List Byte)
  /-- The completion record waits for a translation fault to be answered (R341). -/
  recPark : Park
  deriving DecidableEq, Repr, Inhabited

/-- A hardware queue (R328, R329, R345, R440); `fresh` says that a wake write has been accepted since the read of
its next slot began (R334). -/
structure Que where
  alive : Bool
  vdev : Nat
  w0 : DWord
  w1 : DWord
  w2 : DWord
  w3 : DWord
  qcb : DWord
  tail : Nat
  head : Nat
  stale : Nat
  refused : Nat
  opened : Bool
  level : Nat
  age : Nat
  gen : Nat
  woken : Bool
  fresh : Bool
  park : Park
  /-- A fault on the control block holds the queue (R329). -/
  blkPark : Park
  cmds : List QCmd
  perg : Option (Nat × Nat × Nat)
  deriving DecidableEq, Repr, Inhabited

/-- The state of one group of a launch (R362). -/
inductive GroupSt where
  | waiting
  | running (core : Nat)
  | saved (slot : Nat)
  | ended
  | detaching (core : Nat)
  | terminated (cause : Nat)
  | squashed
  deriving DecidableEq, Repr, Inhabited

/-- The stage of a launch's gang placement (R347). -/
inductive PlaceSt where
  | none | reserved | committed | backoff
  deriving DecidableEq, Repr, Inhabited

/-- A launch (R35, R340, R341, R347, R351 to R366, R440). Of its placement (R347): the stage, the conflicts
so far, the candidate set's place in the order, the clusters that have answered, the cores they granted,
and the time at which the next set may be tried; `refused` is the status with which it completes when the check at
group start has failed, `ran` says that its first instruction has been issued. -/
structure LaunchSt where
  alive : Bool
  vdev : Nat
  q : Nat
  idx : Nat
  id : Nat
  space : Nat
  bulk : Bool
  spec : Bool
  migratable : Bool
  pergola : Bool
  noPreempt : Bool
  prio : Nat
  image : Image
  argva : Nat
  args : List Byte
  argTags : List Bool
  groups : Nat
  floor : Nat
  gang : Nat
  shapeva : Nat
  shapeev : Nat
  pslot : Nat
  predicted : Nat
  shapePark : Park
  served : Bool
  resolved : Option Nat
  applied : Bool
  tailRun : Bool
  gst : SMap GroupSt
  tag : Nat
  place : PlaceSt
  conflicts : Nat
  cand : Nat
  /-- Cores granted to a candidate set that is given up, until their Kiosks receive the RELEASE (R327, R347). -/
  leaving : List Nat
  /-- The clusters that RESERVE has gone to, each with the cores asked for (R347). -/
  asked : List (Nat × Nat)
  granted : List Nat
  reserved : List Nat
  retry : Nat
  started : Bool
  killed : Bool
  faulted : Bool
  cause : Nat
  fgroup : Nat
  refused : Nat
  ran : Bool
  /-- The time at which its command started (R346). -/
  began : Nat
  startT : Nat
  endT : Nat
  pgid : Nat
  pgM : Nat
  pgF : Nat
  /-- The Belvedere of another device pre-empts the pergola (R442). -/
  pgWant : Bool
  deriving DecidableEq, Repr, Inhabited

/-- A message of Belvedere to a Kiosk: about the placement of a launch (R347), or the answer of a host to the fault of a party
of a virtual device (R396). -/
inductive LinkMsg where
  | reserve (launch n : Nat)
  | commit (launch : Nat)
  | release (launch : Nat)
  | answer (vdev ans : Nat) (f : FaultRec)
  deriving DecidableEq, Repr, Inhabited

/-- A saved group: the logical core, the launch and group, the reason, the core's state as the save
area holds it (R402 to R405), the cause with which an answer TERMINATE ends it once it is restored (R396), and whether the
save is a substitution's too, after which it comes back on the replacement (R469). -/
structure Saved where
  core : Nat
  launch : Nat
  group : Nat
  reason : Nat
  img : CoreSt
  term : Option Nat
  repair : Bool
  deriving DecidableEq, Repr, Inhabited

/-! ### Translation and fabric -/

/-- Where a TLB entry stands: the micro-TLB of a core, the TLB of a cluster, of a Trellis port, or of the I/O
die (R379). -/
inductive TlbPlace where
  | core (k : Nat)
  | cluster (c : Nat)
  | port (p : Nat)
  | io
  deriving DecidableEq, Repr, Inhabited

/-- A TLB entry: its place and tags, the page's first address, size code, leaf word, the physical
address of the entry that governs it, whether D is recorded, the remote count and last requester (R377
to R379). -/
structure Tlb where
  place : TlbPlace
  vdev : Nat
  space : Nat
  gen : Nat
  page : Nat
  size : Nat
  word : DWord
  entry : Nat
  d : Bool
  count : Nat
  lastreq : Nat
  deriving DecidableEq, Repr, Inhabited

/-- The agent of this device that a remote request serves (R433). -/
inductive Agent where
  | ctx (w : Who)
  | stream (w : Who)
  | vector (w : Who)
  | matrix (core : Nat)
  | copy (core : Nat)
  | message (w : Who)
  /-- A task of Belvedere, by a number the model gives it. -/
  | io (k : Nat)
  /-- A write of a queue's control block, whose answer nothing waits for (R329). -/
  | post (q : Nat)
  deriving DecidableEq, Repr, Inhabited

/-- A remote request outstanding: its agent, its packet, and its answer once it has arrived: the status
and the payload (R428). -/
structure Req where
  agent : Agent
  pkt : Packet
  answer : Option (Nat × List Byte)
  /-- The last answer was MOVING: the port repeats the request (R428). -/
  moving : Bool
  /-- It is a deferred take whose withdrawal has been sent to the owner (R219; DESIGN CHOICE, log entry 12). -/
  withdrawn : Bool
  deriving DecidableEq, Repr, Inhabited

/-- A kept answer of an ATOMIC (R433). -/
structure Kept where
  sdev : Nat
  score : Nat
  sctx : Nat
  reqid : Nat
  data : List Byte
  deriving DecidableEq, Repr, Inhabited

/-- A Trellis port (R424 to R433): down, lanes halved, next link sequence number sent and expected per
class, packets discarded, kept answers, the latest first, the peer table (R431), the classes in which an access is held
for a fault, with the accesses behind it (R384, R395), how many packets of each class have gone out on the link, and
which of C1 to C3 is served next (R429). -/
structure Port where
  down : Bool
  half : Bool
  sent : SMap Nat
  expect : SMap Nat
  discarded : Nat
  kept : List Kept
  peers : SMap Nat
  stuck : SMap Bool
  behind : List Packet
  served : SMap Nat
  turn : Nat
  deriving DecidableEq, Repr, Inhabited

/-- A member of a pergola (R441): placed, device, virtual device, core, attached, detached, ended
(DETACHING), moving, departed, how often it has been saved, and has resumed after a save (R442), whether its launch is never
pre-empted (R53), whether it has an open packet that defers a save of the pergola, and whether it is stopped for one, or, once
saved, has a core to resume on. `present`: a live launch holds the member; `placed`: its Belvedere has committed. -/
structure Member where
  present : Bool
  placed : Bool
  dev : Nat
  vdev : Nat
  core : Nat
  att : Bool
  det : Bool
  detaching : Bool
  moving : Bool
  departed : Bool
  saves : Nat
  resumes : Nat
  noPre : Bool
  pkOpen : Bool
  ready : Bool
  deriving DecidableEq, Repr, Inhabited

/-- A pergola: member count and member table (R440, R441). -/
structure Perg where
  m : Nat
  members : SMap Member
  deriving DecidableEq, Repr, Inhabited

/-- A migration in progress from this device (R443): target, residue id, page threshold, the request it
answers, the state sent with its packets and those acknowledged, refused. -/
structure Migration where
  active : Bool
  target : Nat
  residue : Nat
  thr : Nat
  req : MgmtReq
  sent : Bool
  total : Nat
  acks : Nat
  refused : Bool
  deriving DecidableEq, Repr, Inhabited

/-- Migration state arriving at this device: its bytes, how many there are, how many have come, the quarters kept
for it, whether the source has committed (R443), and the packets about its pergolas and pod-wide reductions that have reached
the source since its state was made (R274, R441). -/
structure Arriving where
  bytes : SMap Byte
  total : Nat
  got : Nat
  quarters : BitVec 16
  commit : Bool
  marks : List Packet
  deriving DecidableEq, Repr, Inhabited

/-- A maintenance request whose invalidation has been made and that waits for accesses on their way (R382, R385): the space,
the ids of the remote requests that used its translations, and whether it is a TEARDOWN. -/
structure Inval where
  req : MgmtReq
  space : Nat
  ids : List Nat
  teardown : Bool
  deriving DecidableEq, Repr, Inhabited

/-- A page of a virtual device that migrates: its space, first address and leaf word (R443). -/
structure MovedPage where
  space : Nat
  page : Nat
  word : DWord
  deriving DecidableEq, Repr, Inhabited

/-- A residue held here: the moved virtual device, the target device, the page threshold, the host's
requests for pages to move, each with its space and address, none for every remaining page, and the page that is being moved,
with the accesses to it that its port holds (R443, R445). -/
structure Residue where
  held : Bool
  vdev : Nat
  target : Nat
  thr : Nat
  asked : List (MgmtReq × Option (Nat × Nat))
  frozen : Option MovedPage
  waiting : List Packet
  deriving DecidableEq, Repr, Inhabited

/-- A pod barrier group seen from this device (R410, R430): whether the device above knows of a member here or below;
whether it has told the parity of the present phase, and what that is beyond the count kept here, 2 more before it has told
it when members that came from another device have brought it (DESIGN CHOICE, log entry 15); whether the arrival of the present phase has been sent upward; the devices below whose arrival for it has
come, each with the number of devices it combines; and the devices below with a member. -/
structure PodKey where
  told : Bool
  synced : Bool
  off : Nat
  sent : Bool
  got : List (Nat × Nat)
  below : List Nat
  deriving DecidableEq, Repr, Inhabited

/-- One contribution to a reduction: the number of the group, or of the device below, that made it, or a mark of what has
been done with it; the operation; the value (R269). -/
structure Contribution where
  core : Nat
  op : Nat
  v : DWord
  deriving DecidableEq, Repr, Inhabited

/-- The fabric of the device. `outbox` lists every packet in the order in which it was formed, `wire` in that in which the
ports have put them on their links (R429). -/
structure Fabric where
  devid : Nat
  ports : SMap Port
  reqs : SMap (Option Req)
  nextReq : Nat
  outbox : List Packet
  wire : List Packet
  pergs : SMap Perg
  migs : SMap Migration
  arriving : SMap Arriving
  /-- 1 + the frame that holds the part of a page that has arrived, by the address of its leaf (R445). -/
  frames : SMap Nat
  /-- The bytes at the top of memory that firmware has taken for tables and pages (DESIGN CHOICE, log entry 17). -/
  taken : Nat
  residues : SMap Residue
  /-- Virtual devices that have moved away: 1 + the device they moved to (R443). -/
  movedTo : SMap Nat
  pdom : Nat
  pods : SMap PodKey
  notify : Option Nat
  /-- The requests of a virtual device, each with its code, that wait until its migration has been answered
  (R436). -/
  waitReqs : SMap (List (Nat × MgmtReq))
  invals : List Inval
  /-- Requests that destroy a queue or a virtual device, each with its code, that wait until what the launches they end have
  sent is over (R341, R437). -/
  ending : List (Nat × MgmtReq)
  deriving DecidableEq, Repr, Inhabited

/-- What a migration moves (R443): the device and its groups, Belvedere's state of the virtual device, the
residue that keeps its memory, and the pages of its spaces. -/
structure Moved where
  src : Nat
  vdev : Nat
  residue : Nat
  dev : VDev
  queues : SMap Que
  launches : SMap LaunchSt
  groups : SMap (Option Saved)
  keys : SMap Nat
  /-- Of a key of channel 15, what its parity is beyond the count of `keys` (R430). -/
  offs : SMap Nat
  reds : SMap (List Contribution)
  pergs : SMap Perg
  peers : SMap Nat
  pages : List MovedPage
  deriving DecidableEq, Repr, Inhabited

/-! ### Platform -/

/-- The running mode (R461, R462). -/
inductive RunMode where
  | starting | full | minimalSlot | minimalRom
  deriving DecidableEq, Repr, Inhabited

/-- The platform (R460 to R472). `standing`: the present stage of a start has begun and not ended. `flash` holds byte o of
slot s at 2^32 s + o, where it has been written since manufacture; `retiring` lists the cores to be retired, and, under 2,304
plus its number, a cluster that is retired as one unit; `pcluster` and `pcore` hold 1 + the physical unit of a logical one
that is not in its first place; `power` is the limit PL and `powerNow` the one the present 1 µs window
began with; `budget` holds 1 + the lowered budget of a cluster, `spent` the units a cluster has been
charged in the present window (R251). -/
structure Platform where
  stage : Nat
  standing : Bool
  mode : RunMode
  slot : Nat
  fails : Nat
  starts : Nat
  bootrec : List Byte
  rollback : Nat
  flash : SMap (Option Byte)
  pcore : SMap Nat
  pcluster : SMap Nat
  coreSpareUsed : SMap Bool
  clusterSpares : SMap Nat
  withheld : BitVec 16
  retiredCores : Nat
  retiredClusters : Nat
  absent : SMap Bool
  retiring : SMap Bool
  power : Nat
  powerNow : Nat
  budget : SMap Nat
  spent : SMap Nat
  badWakes : Nat
  /-- The digests of the running Belvedere and Kiosk images (R465); none while no image of a kind runs. -/
  mbel : List Byte
  mkio : List Byte
  /-- The bytes of the latest read of the I3C sideband (R472). -/
  sideband : List Byte
  /-- The errors reported on the management sideband, each its virtual device and core, the latest first (R390). -/
  machines : List (Nat × Nat)
  deriving DecidableEq, Repr, Inhabited

/-! ### The machine -/

/-- What one turn does (DESIGN CHOICE, log entry 1): a context issues, a tick of the 1.9 GHz clock, an event, or a packet of
the management class arrives at a port. -/
inductive Turn where
  | run (core ctx : Nat)
  | tick
  | event (i : Instr)
  | request (p : Packet)
  deriving DecidableEq, Repr, Inhabited

/-- What the latest turn did to the instruction it ran (the model's own field, log entry 1): completed,
waits, waits on an empty queue to pop or a full one to push (numbers of R386), trapped, parked, or was
held in a tentative group (R359). -/
inductive Sig where
  | done | stalled | starved (q : Nat) | blocked (q : Nat) | trapped | parked | held
  deriving DecidableEq, Repr, Inhabited

/-- The state of the device. The fields from `agenda` on are the model's own (DESIGN CHOICE, log entries 1 and 4). -/
structure State where
  cores : SMap CoreSt
  mem : List Host.Cell
  mtag : SMap Bool
  tlb : List Tlb
  vdevs : SMap VDev
  queues : SMap Que
  launches : SMap LaunchSt
  /-- The command link to the Kiosk of each cluster: the messages not yet received, the oldest first; each of the first eight
  holds a send permit, and the others are held by the sender (R327). -/
  links : SMap (List LinkMsg)
  savedGroups : SMap (Option Saved)
  keys : SMap Nat
  reds : SMap (List Contribution)
  fab : Fabric
  plat : Platform
  agenda : List Turn
  cur : Who
  ilen : Nat
  time : Nat
  rr : Nat
  freeCtr : Nat
  stamp : Nat
  sig : Sig
  /-- A step performs one part of a vector memory operation or a copy, and not all of them (log entry 1). -/
  fine : Bool
  deriving DecidableEq, Repr, Inhabited

/-- Why a run stops with a fault. Every constructor is raised in one place and is safe: the model stops
where the spec gives no effect. -/
inductive Fault where
  /-- Firmware reads or writes a physical address, given by the host, that lies outside the HBM range of
  R374. Raised by the writing of fault queue entries; safe. -/
  | noMemory (addr : Nat)
  deriving DecidableEq, Repr

/-- Why a step is refused. -/
inductive Refusal where
  /-- No meaning yet for the instruction of this mnemonic. Raised by exec alone; safe. -/
  | notModelled (mnemonic : String)
  deriving DecidableEq, Repr

/-- The platform at power-on: stage 1 of a start, PL 2,600 W (R461, R471), one spare core unused in
every cluster and twelve spare clusters in every die (R3), fuses and flash as log entry 2 says (DESIGN CHOICE). -/
def Platform.reset : Platform :=
  { stage := 1, standing := false, mode := .starting, slot := 0, fails := 0, starts := 0, bootrec := [], rollback := 0,
    flash := [], pcore := [], pcluster := [], coreSpareUsed := [],
    clusterSpares := [(0, 12), (1, 12), (2, 12), (3, 12)], withheld := 0, retiredCores := 0,
    retiredClusters := 0, absent := [], retiring := [], power := 2600, powerNow := 2600, budget := [], spent := [],
    badWakes := 0, mbel := [], mkio := [], sideband := [], machines := [] }

/-- The machine right after reset: no virtual device, queue, launch or group exists, no TLB entry, no
byte of memory listed, and the start of the device stands before stage 1 (R461). -/
def State.reset : State :=
  { (default : State) with plat := Platform.reset }

end Sys2Proof.Machine
end

