-- ==== Sys2Proof/Config.lean ====
section
/-! DEFINITION. What an implementation fixes and the spec does not state. Every constant here has no body,
so nothing can be proved of its value (DESIGN CHOICE, log entry 4). -/

namespace Sys2Proof.Config

/-- The free values: what the spec leaves undefined where the machine goes on, one for each value of the
counter `freeCtr`. -/
opaque freeValue : Nat → DWord

/-- What a fetch of a halfword that a CPCODE has overwritten returns before the context's ISYNC, as a place
among its new and old values, by the number of the instruction in the order of its context (R27). -/
opaque fetchOld : Nat → Nat → Nat

/-- The word that ctl.tval gives for a chain that has run past the store, by the address it would have (R102). -/
opaque pastStore : BitVec 16 → BitVec 16

/-- Which of the places of a die that are left the manufacturer gives to a logical cluster, by the die and the number of
clusters still to be placed (R473). -/
opaque clusterPick : Nat → Nat → Nat

/-- The same for the logical cores of a cluster (R473). -/
opaque corePick : Nat → Nat → Nat

/-- The device or switch above this one in the combining tree of a pod domain; none at the root (R430). -/
opaque podParent : Nat → Option Nat

/-- The port that carries the packets for a device or host (R431). -/
opaque portOf : Nat → Fin 12

/-- Whether a class of a port has a credit on its link at a time (R429). -/
opaque creditAt : Nat → Nat → Nat → Bool

/-- How long a class of a port can at most be without a credit (R52). -/
opaque creditGap : Nat → Nat → Nat

/-- The port that carries the requests for a virtual device, and keeps the peer entry they go by (R431). -/
opaque peerPort : Nat → Fin 12

/-- The crc field of the record of a CPYW that ends before any byte is copied, or is not begun, by its number and the bytes
of its descriptor (R257, R261). -/
opaque crcOfNone : DWord → List (BitVec 8) → BitVec 32

/-- When the engine reads a source byte of a copy whose bytes overlap, by the command's number, the bytes of its
descriptor and the byte's canonical position (R262). -/
opaque readAt : DWord → List (BitVec 8) → Nat → Nat

/-- The bytes of the device key of the n-th start (R328). -/
opaque bootKey : Nat → List Byte

/-- The places of the overflow area that firmware sets for the waiters of a virtual device (R342). -/
opaque eventOverflow : Nat → Nat

/-- The private half of the device's identity key (R465). -/
opaque identityKey : Nat

/-- The nonce with which the boot and security block signs a digest (R465). -/
opaque signNonce : List (BitVec 8) → Nat

/-- Where a slot holds the image of a kind, 1 Belvedere and 2 Kiosk, in its boot flash (R460). -/
opaque imageAt : Nat → Nat

/-- The bytes of a repair map: the units behind logical cores and logical clusters that are not in their
first place (R465, R466). -/
opaque repairBytes : List (Nat × Nat) → List (Nat × Nat) → List Byte

/-- The key entries of the fuses, each a hash, and whether it is revoked; the fuses hold the first four (R460). -/
opaque fuseKeys : List (List Byte × Bool)

/-- The boot flash as manufactured: byte o of slot s at 2^32 s + o (R460). -/
opaque flashByte : Nat → Byte

/-- A temperature sensor of R438 at a time, in units of 1/8 °C. -/
opaque temperature : Nat → Nat → BitVec 16

/-- The package power of R438 at a time, in watts. -/
opaque watts : Nat → BitVec 16

/-- The bytes of queued and parked engine commands in a save area, which only an S4 reads (R403). -/
opaque cmdBytes : List Machine.Cmd → List Byte

/-- The bytes in which STATE packets carry Belvedere's state of a virtual device (R443). -/
opaque movedBytes : Machine.Moved → List Byte

/-- What a target reads from the bytes of the STATE packets of a migration; none for bytes it refuses
(R443, R447). What it accepts has these bytes (`acceptedState`). -/
opaque movedOf : List Byte → Option Machine.Moved

end Sys2Proof.Config
end

