-- ==== Sys2Proof/Decode.lean ====
section
/-! DEFINITION. Decoding of instruction chains by R90 to R105 and the opcode map of R100, and the
encoder written from the same tables. -/

namespace Sys2Proof

/-! ### Words and chains -/

/-- The PR word's fields (R92). -/
structure PrWord where
  xh : Bool
  yh : Bool
  z : BitVec 5
  mode : BitVec 3
  deriving DecidableEq, Repr, Inhabited

/-- A chain: page and qualifier of PP (page 0 stands for no PP), PR, PX words, instruction word. -/
structure Chain where
  page : Nat
  q : BitVec 7
  pr : Option PrWord
  px : List (BitVec 10)
  w : Half
  deriving DecidableEq, Repr, Inhabited

/-- What decoding answers: an instruction and its length in halfwords, or the index in the chain of
the word at which it failed (R102) and that word, if the store holds one there. -/
inductive Decoded where
  | ok (i : Instr) (len : Nat)
  | bad (k : Nat) (w : Option Half)
  deriving DecidableEq, Repr

/-- The major opcode of a word (R91). -/
def opOf (w : Half) : Nat := (w >>> 10).toNat

/-- The fields of a PR word (R92). -/
def prOf (w : Half) : PrWord :=
  ⟨w.getLsbD 9, w.getLsbD 8, w.extractLsb' 3 5, w.extractLsb' 0 3⟩

/-- The loop of R102 over the words from pc on. `pp` and `pr` are the prefixes seen, `px` the PX words
seen, last first, `k` the number of words passed. -/
def chainLoop (pp pr : Option Half) (px : List (BitVec 10)) (k : Nat) :
    List Half → Except (Nat × Option Half) Chain
  | [] => .error (k, none)
  | w :: rest =>
    if opOf w = 62 then
      if pp.isSome || pr.isSome || !px.isEmpty || k ≥ 4 then .error (k, some w)
      else chainLoop (some w) pr px (k + 1) rest
    else if opOf w = 61 then
      if pr.isSome || !px.isEmpty || k ≥ 4 then .error (k, some w)
      else chainLoop pp (some w) px (k + 1) rest
    else if opOf w = 60 then
      if k ≥ 4 then .error (k, some w)
      else chainLoop pp pr (w.extractLsb' 0 10 :: px) (k + 1) rest
    else
      if opOf w = 63 || w == 0 then .error (k, some w)
      else match pp with
        | none => .ok ⟨0, 0, pr.map prOf, px.reverse, w⟩
        | some p =>
          if (p.extractLsb' 7 3).toNat = 0 then .error (k, some w)
          else .ok ⟨(p.extractLsb' 7 3).toNat, p.extractLsb' 0 7, pr.map prOf, px.reverse, w⟩

/-- The number of words of a chain. -/
def Chain.len (c : Chain) : Nat :=
  (if c.page = 0 then 0 else 1) + (if c.pr.isSome then 1 else 0) + c.px.length + 1

/-! ### Fields of a chain (R94 to R99) -/

/-- The function field of RR. -/
def Chain.f (c : Chain) : Nat := (c.w.extractLsb' 0 2).toNat
/-- The x field, four bits. -/
def Chain.x4 (c : Chain) : Nat := (c.w.extractLsb' 6 4).toNat
/-- The y field, four bits. -/
def Chain.y4 (c : Chain) : Nat := (c.w.extractLsb' 2 4).toNat
/-- The imm6 field. -/
def Chain.imm6 (c : Chain) : Nat := (c.w.extractLsb' 0 6).toNat
/-- The high bit PR gives x. -/
def Chain.xh (c : Chain) : Bool := match c.pr with | some p => p.xh | none => false
/-- The high bit PR gives y. -/
def Chain.yh (c : Chain) : Bool := match c.pr with | some p => p.yh | none => false
/-- The z field of PR; 0 without PR. -/
def Chain.z (c : Chain) : BitVec 5 := match c.pr with | some p => p.z | none => 0
/-- The mode field of PR; 0 without PR. -/
def Chain.mode (c : Chain) : Nat := match c.pr with | some p => p.mode.toNat | none => 0
/-- No PR word stands in the chain. -/
def Chain.noPr (c : Chain) : Bool := c.pr.isNone
/-- No PX word stands in the chain. -/
def Chain.noPx (c : Chain) : Bool := c.px.isEmpty

/-- X as a d or v register number. -/
def Chain.X (c : Chain) : Fin 32 := Fin.ofNat 32 ((if c.xh then 16 else 0) + c.x4)
/-- Y as a d or v register number. -/
def Chain.Y (c : Chain) : Fin 32 := Fin.ofNat 32 ((if c.yh then 16 else 0) + c.y4)
/-- Z as a d or v register number. -/
def Chain.Z (c : Chain) : Fin 32 := Fin.ofNat 32 c.z.toNat
/-- Z when PR is present: the third register of a two-source form (R95). -/
def Chain.Zopt (c : Chain) : Option (Fin 32) := if c.noPr then none else some c.Z

/-- X as an a register: its high bit must be 0 (R94). -/
def Chain.ax (c : Chain) : Option (Fin 16) := if c.xh then none else some (Fin.ofNat 16 c.x4)
/-- Y as an a register. -/
def Chain.ay (c : Chain) : Option (Fin 16) := if c.yh then none else some (Fin.ofNat 16 c.y4)
/-- Z as an a register; a0 without PR. -/
def Chain.az (c : Chain) : Option (Fin 16) :=
  if c.z.toNat ≥ 16 then none else some (Fin.ofNat 16 c.z.toNat)
/-- The third a register of a two-source form. -/
def Chain.azopt (c : Chain) : Option (Option (Fin 16)) :=
  if c.noPr then some none else (c.az).map some
/-- x&7 (R94). -/
def Chain.k3 (c : Chain) : Option (Fin 8) :=
  if c.xh || c.x4 ≥ 8 then none else some (Fin.ofNat 8 c.x4)
/-- A queue number in x (R115). -/
def Chain.queue (c : Chain) : Option (Fin 2) :=
  if c.xh || c.x4 ≥ 2 then none else some (Fin.ofNat 2 c.x4)
/-- The x field holds 0. -/
def Chain.x0 (c : Chain) : Bool := !c.xh && c.x4 == 0
/-- The y field holds 0. -/
def Chain.y0 (c : Chain) : Bool := !c.yh && c.y4 == 0
/-- The z field holds 0. -/
def Chain.z0 (c : Chain) : Bool := c.z == 0
/-- The mode field holds 0. -/
def Chain.m0 (c : Chain) : Bool := c.mode == 0
/-- The mask of a vector form (R98). -/
def Chain.mask (c : Chain) : Fin 8 := Fin.ofNat 8 c.mode

/-- The assembled immediate (R96) as a number of `10n + fw` bits, `field` being the base format's own. -/
def asmImm (px : List (BitVec 10)) (fw field : Nat) : Nat :=
  px.foldl (fun a b => a * 1024 + b.toNat) 0 * 2 ^ fw + field

/-- A number of `w` bits sign-extended to 64 (R96). -/
def sext64 (w v : Nat) : DWord :=
  if w = 0 then 0 else if v ≥ 2 ^ (w - 1) then BitVec.ofInt 64 ((v : Int) - 2 ^ w) else BitVec.ofNat 64 v

/-- The signed immediate. -/
def Chain.immS (c : Chain) (fw field : Nat) : DWord :=
  sext64 (10 * c.px.length + fw) (asmImm c.px fw field)
/-- The unsigned immediate. -/
def Chain.immU (c : Chain) (fw field : Nat) : DWord :=
  BitVec.ofNat 64 (asmImm c.px fw field)
/-- The signed immediate of RR: PX words only. -/
def Chain.immRR (c : Chain) : DWord := c.immS 0 0

/-- The memory operand of R101. -/
def Chain.mem (c : Chain) : Option Mem :=
  match c.ay, c.az with
  | some y, some z => some ⟨y, z, c.immRR⟩
  | _, _ => none
/-- The memory operand of a form without index. -/
def Chain.memB (c : Chain) : Option MemB := (c.ay).map fun y => ⟨y, c.immRR⟩

/-- Width from f (R110). -/
def widthOf : Nat → Width
  | 0 => .w8 | 1 => .w16 | 2 => .w32 | _ => .w64
/-- f from a width. -/
def Width.code : Width → Nat
  | .w8 => 0 | .w16 => 1 | .w32 => 2 | .w64 => 3
/-- Scope from a mode (R98). -/
def scopeOf : Nat → Option Scope
  | 0 => some .ctx | 1 => some .core | 2 => some .cluster | 3 => some .die | 4 => some .package
  | 5 => some .pod | _ => none
/-- Mode from a scope. -/
def Scope.code : Scope → Nat
  | .ctx => 0 | .core => 1 | .cluster => 2 | .die => 3 | .package => 4 | .pod => 5
/-- The scope of an instruction: PR.mode, package without PR (R98). -/
def Chain.scope (c : Chain) : Option Scope := if c.noPr then some .package else scopeOf c.mode
/-- Format from a code (R99). -/
def ffmtOf : Nat → Option FFmt
  | 0 => some .fp32 | 1 => some .bf16 | 2 => some .fp16 | 3 => some .e4m3 | 4 => some .e5m2
  | 5 => some .e2m1 | _ => none
/-- Code from a format. -/
def FFmt.code : FFmt → Nat
  | .fp32 => 0 | .bf16 => 1 | .fp16 => 2 | .e4m3 => 3 | .e5m2 => 4 | .e2m1 => 5
/-- FP32, BF16 and FP16: the formats arithmetic accepts (R158, R161, R162). -/
def FFmt.arith : FFmt → Bool
  | .fp32 | .bf16 | .fp16 => true | _ => false
/-- Rounding mode from a code (R99). -/
def rmodeOf : Nat → Option RMode
  | 0 => some .rne | 1 => some .rtz | 2 => some .sr | _ => none
/-- Code from a rounding mode. -/
def RMode.code : RMode → Nat
  | .rne => 0 | .rtz => 1 | .sr => 2
/-- Ordering from q[5:4] (R99). -/
def mordOf : Nat → MOrd
  | 0 => .rlx | 1 => .acq | 2 => .rel | _ => .ar
/-- q[5:4] from an ordering. -/
def MOrd.code : MOrd → Nat
  | .rlx => 0 | .acq => 1 | .rel => 2 | .ar => 3
/-- AMO operation from q[3:0] (R193). -/
def amoOf : Nat → Option AmoOp
  | 0 => some .add | 1 => some .and | 2 => some .or | 3 => some .xor | 4 => some .min | 5 => some .max
  | 6 => some .minz | 7 => some .maxz | 8 => some .swap | _ => none
/-- q[3:0] from an AMO operation. -/
def AmoOp.code : AmoOp → Nat
  | .add => 0 | .and => 1 | .or => 2 | .xor => 3 | .min => 4 | .max => 5 | .minz => 6 | .maxz => 7
  | .swap => 8

/-- The format and rounding of q on pages 1 and 2; q[6:5] must be 0 (R99). -/
def Chain.fmtRm (c : Chain) : Option (FFmt × RMode) :=
  if c.q.toNat ≥ 32 then none
  else match ffmtOf (c.q.toNat / 4), rmodeOf (c.q.toNat % 4) with
    | some f, some r => some (f, r)
    | _, _ => none
/-- A format without rounding. -/
def Chain.fmtOnly (c : Chain) : Option FFmt :=
  match c.fmtRm with
  | some (f, .rne) => some f
  | _ => none
/-- q is 0. -/
def Chain.q0 (c : Chain) : Bool := c.q == 0

/-- `some a` when the condition holds. -/
def need {α : Type} (b : Bool) (a : Option α) : Option α := if b then a else none

/-! ### Shared shapes -/

/-- RI on an a register, PR not accepted. -/
def Chain.ari (c : Chain) : Option ARI := need c.noPr (some ⟨Fin.ofNat 16 c.x4, c.immS 6 c.imm6⟩)
/-- RI on a d register, PR not accepted. -/
def Chain.dri (c : Chain) : Option DRI := need c.noPr (some ⟨Fin.ofNat 16 c.x4, c.immS 6 c.imm6⟩)
/-- Three a registers, PX not accepted. -/
def Chain.ar3 (c : Chain) : Option AR3 :=
  need (c.noPx && c.m0) <| match c.ax, c.ay, c.azopt with
    | some x, some y, some z => some ⟨x, y, z⟩
    | _, _, _ => none
/-- Two a registers, Z 0, PX not accepted. -/
def Chain.ar2 (c : Chain) : Option AR2 :=
  need (c.noPx && c.m0 && c.z0) <| match c.ax, c.ay with
    | some x, some y => some ⟨x, y⟩
    | _, _ => none
/-- One a register, Y and Z 0, PX not accepted. -/
def Chain.ar1 (c : Chain) : Option (Fin 16) := need (c.noPx && c.m0 && c.z0 && c.y0) c.ax
/-- No operand at all. -/
def Chain.bare (c : Chain) : Bool := c.noPx && c.m0 && c.z0 && c.y0 && c.x0
/-- Three d registers. -/
def Chain.dr3 (c : Chain) : Option DR3 := need (c.noPx && c.m0) (some ⟨c.X, c.Y, c.Zopt⟩)
/-- Two d registers. -/
def Chain.dr2 (c : Chain) : Option DR2 := need (c.noPx && c.m0 && c.z0) (some ⟨c.X, c.Y⟩)
/-- One d register. -/
def Chain.dr1 (c : Chain) : Option (Fin 32) := need (c.noPx && c.m0 && c.z0 && c.y0) (some c.X)

/-- Two-source floating point with rounding; SR needs PR (R99, R147). -/
def Chain.fp3 (c : Chain) : Option FP3 :=
  need c.noPx <| match c.fmtRm with
    | some (f, r) => need (f.arith && (r != .sr || !c.noPr)) (some ⟨c.X, c.Y, c.Zopt, f, r⟩)
    | none => none
/-- Two-source floating point without rounding. -/
def Chain.fp3n (c : Chain) : Option FP3 :=
  need c.noPx <| match c.fmtOnly with
    | some f => need f.arith (some ⟨c.X, c.Y, c.Zopt, f, .rne⟩)
    | none => none
/-- Single-source floating point with rounding: Z is the draw register under SR, else 0. FSQRT, FRCP and FRSQ accept the
formats of the other arithmetic (`all` false; DEDUCED, log entry 30). -/
def Chain.fp2 (c : Chain) (all : Bool) : Option FP2 :=
  need c.noPx <| match c.fmtRm with
    | some (f, r) =>
      need ((all || f.arith) && (if r == .sr then !c.noPr else c.z0)) (some ⟨c.X, c.Y, c.Z, f, r⟩)
    | none => none
/-- Single-source floating point without rounding. -/
def Chain.fp2n (c : Chain) : Option FP2 :=
  need (c.noPx && c.z0) <| match c.fmtOnly with
    | some f => need f.arith (some ⟨c.X, c.Y, 0, f, .rne⟩)
    | none => none
/-- Three-source floating point, RNE or RTZ. -/
def Chain.fma (c : Chain) : Option FMA :=
  need c.noPx <| match c.fmtRm with
    | some (f, r) => need (f.arith && r != .sr) (some ⟨c.X, c.Y, c.Z, f, r⟩)
    | none => none
/-- A format conversion: the source format stands in PR.mode, PR required (R163, R185). -/
def Chain.fcvt (c : Chain) : Option FCvt :=
  need (c.noPx && !c.noPr) <| match c.fmtRm, ffmtOf c.mode with
    | some (d, r), some s => need (r == .sr || c.z0) (some ⟨c.X, c.Y, c.Z, d, s, r⟩)
    | _, _ => none
/-- A comparison of d registers in a format. -/
def Chain.fcmp (c : Chain) : Option FCmp :=
  need (c.noPx && c.z0 && c.m0) <| match c.fmtOnly with
    | some f => need f.arith (some ⟨c.X, c.Y, f⟩)
    | none => none
/-- A fixed-point conversion (R165). -/
def Chain.fx (c : Chain) : Option FxF :=
  need (c.q0 && c.z0 && c.immU 0 0 ≤ 62) (some ⟨c.X, c.Y, Fin.ofNat 63 (c.immU 0 0).toNat⟩)

/-- A scalar access with the sign bit of LD in mode[0]. -/
def Chain.sxOk (c : Chain) : Bool := c.mode < 2

/-! ### The opcode map, page by page (R100) -/

/-- Page 0. -/
def decPage0 (c : Chain) : Option Instr :=
  match opOf c.w with
  | 0 =>
    need (c.noPr && c.noPx) <|
      match c.x4 with
      | 0 => need (c.imm6 == 1) (some .nop)
      | 1 => need (c.imm6 == 0) (some .halt)
      | 2 => need (c.imm6 == 0) (some .yield)
      | 3 => need (c.imm6 == 0) (some .isync)
      | 4 => need (c.imm6 == 0) (some .wfe)
      | 5 => need (c.imm6 == 0) (some .eret)
      | 6 => some (.trap (c.w.extractLsb' 0 6))
      | 7 => need (c.imm6 == 0) (some .brk)
      | _ => none
  | 1 => c.ari.map .ali
  | 2 => c.ari.map .aaddi
  | 3 => match c.f with
    | 0 => c.ar3.map .aadd | 1 => c.ar3.map .asub | 2 => c.ar3.map .amul | _ => c.ar3.map .aand
  | 4 => match c.f with
    | 0 => c.ar3.map .aor | 1 => c.ar3.map .axor | 2 => c.ar3.map .ashl | _ => c.ar3.map .ashr
  | 5 => match c.f with
    | 0 => c.ar3.map .asar
    | 1 => c.ar2.map .amov
    | 2 => c.ar1.map .xpop
    | _ => need (c.noPx && c.m0 && c.z0) <| match c.queue, c.ay with
      | some q, some y => some (.aqp q y)
      | _, _ => none
  | 6 => match c.f with
    | 0 => c.ar3.map .cbnd | 1 => c.ar3.map .cprm | 2 => c.ar3.map .cseal | _ => c.ar3.map .cunsl
  | 7 => match c.f with
    | 0 => c.ar2.map .ctag | 1 => c.ar2.map .cbase | 2 => c.ar2.map .clen | _ => c.ar2.map .cclr
  | 8 => need c.sxOk <| match c.ax, c.mem with
    | some x, some m => some (.ld ⟨x, widthOf c.f, c.mode == 1, m⟩)
    | _, _ => none
  | 9 => need c.sxOk <| match c.queue, c.mem with
    | some q, some m => some (.ldq ⟨q, widthOf c.f, c.mode == 1, m⟩)
    | _, _ => none
  | 10 => need c.m0 <| match c.ax, c.mem with
    | some x, some m => some (.st ⟨x, widthOf c.f, m⟩)
    | _, _ => none
  | 11 => need c.m0 <| match c.queue, c.mem with
    | some q, some m => some (.stq ⟨q, widthOf c.f, m⟩)
    | _, _ => none
  | 12 => need c.sxOk <| match c.queue, c.memB, c.az with
    | some q, some m, some z => some (.lds ⟨q, widthOf c.f, c.mode == 1, z, m⟩)
    | _, _, _ => none
  | 13 => need c.m0 <| match c.queue, c.memB, c.az with
    | some q, some m, some z => some (.sts ⟨q, widthOf c.f, false, z, m⟩)
    | _, _, _ => none
  | 14 => need c.m0 <| match c.f with
    | 0 => match c.ax, c.mem with
      | some x, some m => some (.ldc ⟨x, m⟩)
      | _, _ => none
    | 1 => match c.ax, c.mem with
      | some x, some m => some (.stc ⟨x, m⟩)
      | _, _ => none
    | 2 => need c.x0 (c.mem.map .touch)
    | _ => need c.x0 (c.mem.map .touchN)
  | 15 => decMulti c .ldm
  | 16 => decMulti c .stm
  | 17 => need c.noPr (some (.b (c.immS 10 (c.w.extractLsb' 0 10).toNat)))
  | 18 => need c.noPr (some (.call (c.immS 10 (c.w.extractLsb' 0 10).toNat)))
  | 19 => need c.noPr <| match c.x4 with
    | 0 => some (.bcqT (c.immS 6 c.imm6))
    | 1 => some (.bcqF (c.immS 6 c.imm6))
    | _ => none
  | 20 => c.ari.map .bz
  | 21 => c.ari.map .bnz
  | 22 =>
    need (c.noPr && !c.noPx) <|
      let o : CmpBrF := ⟨Fin.ofNat 16 c.x4, Fin.ofNat 16 c.y4, c.immRR⟩
      match c.f with
      | 0 => some (.beq o) | 1 => some (.bne o) | 2 => some (.blt o) | _ => some (.bge o)
  | 23 =>
    need (c.noPr && c.noPx) <|
      match c.f with
      | 0 => need (c.x0 && c.y0) (some .ret)
      | 1 => need c.y0 (some (.jr (Fin.ofNat 16 c.x4)))
      | 2 => some (.jlr ⟨Fin.ofNat 16 c.x4, Fin.ofNat 16 c.y4⟩)
      | _ => none
  | 24 => need c.noPr (some (.loop ⟨Fin.ofNat 16 c.x4, c.immU 6 c.imm6⟩))
  | 25 => match c.f with
    | 0 => c.mem.map fun m => .vld ⟨c.X, m, c.mask⟩
    | 1 => c.mem.map fun m => .vldBf ⟨c.X, m, c.mask⟩
    | 2 => need c.m0 <| match c.k3, c.mem with
      | some k, some m => some (.vldm ⟨k, m⟩)
      | _, _ => none
    | _ => need (!c.noPr) (c.memB.map fun m => .vldx ⟨c.X, c.Z, m, c.mask⟩)
  | 26 => match c.f with
    | 0 => c.mem.map fun m => .vst ⟨c.X, m, c.mask⟩
    | 1 => c.mem.map fun m => .vstBf ⟨c.X, m, c.mask⟩
    | 2 => need c.m0 <| match c.k3, c.mem with
      | some k, some m => some (.vstm ⟨k, m⟩)
      | _, _ => none
    | _ => need (!c.noPr) (c.memB.map fun m => .vstx ⟨c.X, c.Z, m, c.mask⟩)
  | 27 => match c.ax, c.mem, c.scope with
    | some x, some m, some s => some (.ldacq ⟨x, widthOf c.f, m, s⟩)
    | _, _, _ => none
  | 28 => match c.ax, c.mem, c.scope with
    | some x, some m, some s => some (.strel ⟨x, widthOf c.f, m, s⟩)
    | _, _, _ => none
  | 29 => need (c.f == 0) (c.dr1.map .xpush)
  | 30 => c.dri.map .li
  | 31 => c.dri.map .addi
  | 32 => match c.f with
    | 0 => c.dr3.map .add | 1 => c.dr3.map .sub | 2 => c.dr3.map .mul | _ => c.dr3.map .mulh
  | 33 => match c.f with
    | 0 => c.dr3.map .dand | 1 => c.dr3.map .dor | 2 => c.dr3.map .dxor | _ => c.dr3.map .shl
  | 34 => match c.f with
    | 0 => c.dr3.map .shr | 1 => c.dr3.map .sar | 2 => c.dr3.map .min | _ => c.dr3.map .max
  | 35 => match c.f with
    | 0 => c.dr3.map .minz | 1 => c.dr3.map .maxz | 2 => c.dr3.map .div | _ => c.dr3.map .rem
  | 36 => match c.f with
    | 0 => c.dr2.map .mov | 1 => c.dr3.map .sel | 2 => c.dr3.map .divz | _ => c.dr3.map .remz
  | 37 => match c.f with
    | 0 => c.dr2.map .cmpEq | 1 => c.dr2.map .cmpNe | 2 => c.dr2.map .cmpLt | _ => c.dr2.map .cmpLtz
  | 38 => need (c.f == 0) (c.dr1.map .cqp)
  | _ => none
where
  /-- LDM and STM: f + 1 words without PR, Z + 1 with PR (f then 0); X + n at most 32 (R115, R131). -/
  decMulti (c : Chain) (mk : MultiF → Instr) : Option Instr :=
    let n := if c.noPr then c.f + 1 else c.z.toNat + 1
    need (c.m0 && (c.noPr || c.f == 0) && c.X.val + n ≤ 32)
      (c.memB.map fun m => mk ⟨c.X, Fin.ofNat 33 n, m⟩)

/-- Page 1, scalar floating point. PR.mode must be 0 but for FCVT.F2F (R152). -/
def decPage1 (c : Chain) : Option Instr :=
  match opOf c.w with
  | 0 => need c.m0 <| match c.f with
    | 0 => c.fp3.map .fadd | 1 => c.fp3.map .fsub | 2 => c.fp3.map .fmul | _ => c.fp3n.map .fmin
  | 1 => need c.m0 <| match c.f with
    | 0 => c.fp3n.map .fmax | 1 => c.fp2n.map .fabs | 2 => c.fp2n.map .fneg
    | _ => (c.fp2 false).map .fsqrt
  | 2 => need (c.m0 && c.f == 0 && !c.noPr) (c.fma.map .ffma)
  | 3 => match c.f with
    | 0 => c.fcmp.map .fcmpEq | 1 => c.fcmp.map .fcmpLt | 2 => c.fcmp.map .fcmpLe
    | _ => c.fcmp.map .fcmpUn
  | 4 => match c.f with
    | 0 => c.fcvt.map .fcvtF2f
    | 1 => need c.m0 ((c.fp2 true).map .fcvtF2i)
    | 2 => need c.m0 ((c.fp2 true).map .fcvtI2f)
    | _ => none
  | 5 => need c.m0 <| match c.f with
    | 0 => (c.fp2 false).map .frcp | 1 => (c.fp2 false).map .frsq | 2 => c.fp3.map .fdiv
    | _ => none
  | 6 => need c.m0 <| match c.f with
    | 0 => c.fx.map .f2x | 1 => c.fx.map .x2f | _ => none
  | 7 => need (c.m0 && c.z0 && c.q0 && c.noPx) <| match c.f with
    | 0 => need (!c.yh && c.y4 < 2) (some (.rndfill ⟨c.X, c.y4 == 1⟩))
    | 1 => need c.x0 (some (.rndseed c.Y))
    | _ => none
  | _ => none

/-- Page 2, vector. PR.mode is the mask but for VCVT.F2F and VEXT. -/
def decPage2 (c : Chain) : Option Instr :=
  match opOf c.w with
  | 0 => match c.f with
    | 0 => c.fp3.map fun o => .vadd ⟨o, c.mask⟩
    | 1 => c.fp3.map fun o => .vsub ⟨o, c.mask⟩
    | 2 => c.fp3.map fun o => .vmul ⟨o, c.mask⟩
    | _ => c.fp3n.map fun o => .vmin ⟨o, c.mask⟩
  | 1 => match c.f with
    | 0 => c.fp3n.map fun o => .vmax ⟨o, c.mask⟩
    | 1 => c.fp2n.map fun o => .vabs ⟨o, c.mask⟩
    | 2 => c.fp2n.map fun o => .vneg ⟨o, c.mask⟩
    | _ => need (!c.noPr) (c.fma.map fun o => .vfma ⟨o, c.mask⟩)
  | 2 => need (c.q0 && c.noPx) <|
    let o : VR3 := ⟨⟨c.X, c.Y, c.Zopt⟩, c.mask⟩
    match c.f with
    | 0 => some (.viadd o) | 1 => some (.vand o) | 2 => some (.vor o) | _ => some (.vxor o)
  | 3 => need (c.q0 && c.noPx) <|
    let o : VR3 := ⟨⟨c.X, c.Y, c.Zopt⟩, c.mask⟩
    match c.f with
    | 0 => some (.vshl o) | 1 => some (.vshr o) | 2 => some (.vsar o) | _ => some (.vimul o)
  | 4 => need (c.q0 && c.noPx) <| match c.k3 with
    | some k =>
      let o : VCmpF := ⟨k, c.Y, c.Z, c.mask⟩
      match c.f with
      | 0 => some (.vcmpEq o) | 1 => some (.vcmpLt o) | 2 => some (.vcmpLe o) | _ => some (.vcmpUn o)
    | none => none
  | 5 => need c.q0 <| match c.f with
    | 0 => need c.noPx (some (.vsel ⟨⟨c.X, c.Y, c.Zopt⟩, c.mask⟩))
    | 1 => need (c.noPx && c.z0) (some (.vmov ⟨c.X, c.Y, c.mask⟩))
    | 2 => need (c.noPx && c.z0) (some (.vbcast ⟨c.X, c.Y, c.mask⟩))
    | _ => need (!c.noPx && c.z0 && c.m0 && c.immU 0 0 ≤ 63)
        (some (.vext ⟨c.X, c.Y, Fin.ofNat 64 (c.immU 0 0).toNat⟩))
  | 6 => need (c.noPx && c.z0) <| match c.fmtOnly with
    | some f => need f.arith <|
      let o : VRedF := ⟨c.X, c.Y, f, c.mask⟩
      match c.f with
      | 0 => some (.vsum o) | 1 => some (.vminr o) | 2 => some (.vmaxr o) | _ => some (.vsqn o)
    | none => none
  | 7 => match c.f with
    | 0 => c.fcvt.map .vcvtF2f
    | 1 => (c.fp2 true).map fun o => .vcvtF2i ⟨o, c.mask⟩
    | 2 => (c.fp2 true).map fun o => .vcvtI2f ⟨o, c.mask⟩
    | _ => need (c.X.val % 2 == 0) (c.fx.map fun o => .vf2x ⟨o, c.mask⟩)
  | 8 => need c.noPx <| match c.f with
    | 0 => need c.q0 (some (.vperm ⟨c.X, c.Y, c.Z, c.mask⟩))
    | 1 => need (c.q0 && c.z0 && c.y0) (some (.viota ⟨c.X, c.mask⟩))
    | 2 => match c.fma with
      | some o => need (o.fmt != .fp32) (some (.vdot ⟨o, c.mask⟩))
      | none => none
    | _ => need (c.q0 && c.z0) (c.k3.map fun k => .vmsk ⟨k, c.Y, c.mask⟩)
  | _ => none

/-- AMO and CAS operands: PR required, f 2 or 3 (R191). -/
def Chain.atom (c : Chain) : Option AtomF :=
  need (!c.noPr && c.f ≥ 2 && c.q.toNat < 64) <|
    match c.ax, c.az, c.memB, c.scope with
    | some x, some z, some m, some s => some ⟨x, z, m, c.f == 3, mordOf (c.q.toNat / 16), s⟩
    | _, _, _, _ => none

/-- A full/empty operation's operands. -/
def Chain.fe (c : Chain) : Option FeF :=
  match c.ax, c.mem, c.scope with
  | some x, some m, some s => some ⟨x, m, s⟩
  | _, _, _ => none

/-- A control register access: immediate × 16 + y (R96, R213), of at most three PX words behind the prefix of the page. A
number above 0xFFF is none of the map, and raises ILLEGAL as R213 says of those (DEDUCED, log entry 28). -/
def Chain.ctl (c : Chain) : Option CtlF :=
  need (c.m0 && c.z0 && !c.yh && asmImm c.px 0 0 * 16 + c.y4 < 2 ^ 34)
    (c.ax.map fun x => ⟨x, Fin.ofNat (2 ^ 34) (asmImm c.px 0 0 * 16 + c.y4)⟩)

/-- Page 3, synchronisation and system. -/
def decPage3 (c : Chain) : Option Instr :=
  match opOf c.w with
  | 0 => match c.atom, amoOf (c.q.toNat % 16) with
    | some o, some op => some (.amo op o)
    | _, _ => none
  | 1 => need (c.q.toNat % 16 == 0) (c.atom.map .cas)
  | 2 => need (c.q0 && !c.noPr && c.f == 0) <| match c.memB, c.scope with
    | some m, some s => some (.vamo ⟨c.X, c.Z, m, s⟩)
    | _, _ => none
  | 3 => need c.q0 <| match c.f with
    | 0 => c.fe.map .fetake | 1 => c.fe.map .feput | 2 => c.fe.map .fepeek | _ => c.fe.map .feinit
  | 4 => need (c.q0 && c.noPr && c.noPx && c.imm6 < 16) <| match scopeOf (c.imm6 % 8) with
    | some s => some (.fence ⟨c.x4 / 8 % 2 == 1, c.x4 / 4 % 2 == 1, c.x4 / 2 % 2 == 1, c.x4 % 2 == 1,
        c.imm6 / 8 == 1, s⟩)
    | none => none
  | 5 => need (c.q0 && c.noPr && c.noPx) <| match c.imm6 with
    | 0 => some (.barArv (Fin.ofNat 16 c.x4))
    | 1 => some (.barWt (Fin.ofNat 16 c.x4))
    | 2 => some (.barTst (Fin.ofNat 16 c.x4))
    | _ => none
  | 6 => need c.q0 <| match c.f with
    | 0 => need (!c.noPx && c.z0 && c.m0) <| match c.ax, c.ay with
      | some x, some y => some (.hstart ⟨x, y, c.immRR⟩)
      | _, _ => none
    | 1 => need c.bare (some .hend)
    | 2 => c.ar1.map .hjoin
    | _ => c.ar1.map .hkill
  | 7 => need c.q0 <| match c.f with
    | 0 => need (!c.noPx && c.m0 && c.z0 && c.y0 && c.x0) (some (.sends (c.immU 0 0)))
    | 1 => need (c.noPx && c.m0) <| match c.ax, c.ay, c.az with
      | some x, some y, some z => some (.sendp ⟨x, y, z⟩)
      | _, _, _ => none
    | 2 => c.ar1.map .rxwt
    | _ => need c.bare (some .rxrel)
  | 8 => need c.q0 <| match c.f with
    | 0 => c.ar1.map .pkopen | 1 => c.ar1.map .pkput | 2 => c.ar1.map .pkend
    | _ => need c.bare (some .pkabt)
  | 9 => need c.q0 <| match c.f with
    | 0 => c.ctl.map .ctlr | 1 => c.ctl.map .ctlw | 2 => c.ctl.map .ctls | _ => c.ctl.map .ctlc
  | 10 => need c.q0 <| match c.f with
    | 0 => c.ar1.map .pgatt
    | 1 => need c.bare (some .pgdet)
    | 2 => c.ar1.map .pgstat
    | _ => none
  | 11 => need c.q0 <| match c.f with
    | 0 => c.ar2.map .cmkw | 1 => c.ar2.map .cmkc | _ => none
  | _ => none

/-- The accumulator number of page 4. -/
def Chain.acc (c : Chain) : Option (Fin 2) :=
  if c.xh || c.x4 ≥ 2 then none else some (Fin.ofNat 2 c.x4)

/-- A product: accumulator, operand, mask pair; mode[2] must be 0 (R98). -/
def Chain.mma (c : Chain) : Option MxMmaF :=
  need (c.mode < 4) <| match c.acc, c.mem with
    | some a, some m => some ⟨a, m, Fin.ofNat 4 c.mode⟩
    | _, _ => none

/-- Page 4, matrix engine (R228). -/
def decPage4 (c : Chain) : Option Instr :=
  need c.q0 <|
  match opOf c.w with
  | 0 => need (c.f == 0 && c.m0 && c.x0) (c.mem.map .mxctx)
  | 1 => need (c.f == 0 && c.m0 && c.noPx && !c.noPr && !c.xh && c.x4 < 4) <| match c.ay, c.az with
    | some y, some z => some (.mxmsk ⟨Fin.ofNat 4 c.x4, y, z⟩)
    | _, _ => none
  | 2 => need c.m0 <| match c.f with
    | 0 => match c.ax, c.mem with
      | some x, some m => some (.mxldb ⟨x, m⟩)
      | _, _ => none
    | 1 => match c.ax, c.mem with
      | some x, some m => some (.mxldbT ⟨x, m⟩)
      | _, _ => none
    | 2 => need c.bare (some .mxrot)
    | _ => need c.bare (some .mxswp)
  | 3 => match c.f with
    | 0 => c.mma.map .mxmma | 1 => c.mma.map .mxmmaOw | 2 => c.mma.map .mxrun | _ => none
  | 4 => need c.m0 <| match c.f with
    | 0 => need (c.noPx && c.y0 && c.z0) (c.acc.map .mxzero)
    | 1 => match c.acc, c.mem with
      | some a, some m => some (.mxdrain ⟨a, m⟩)
      | _, _ => none
    | 2 => (part c).map .mxsave
    | _ => (part c).map .mxrest
  | 5 => need (c.f == 0 && c.m0 && c.x0) (c.mem.map .mxup)
  | 6 => need c.m0 <| match c.f with
    | 0 => need c.bare (some .mxwait)
    | 1 => need (!c.xh) <|
      if c.x4 = 7 then need (c.y0 && c.z0 && c.noPx) (some (.mxmbx ⟨none, ⟨0, 0, 0⟩⟩))
      else match scopeOf c.x4, c.mem with
        | some s, some m => some (.mxmbx ⟨some s, m⟩)
        | _, _ => none
    | _ => none
  | _ => none
where
  /-- Part 0 to 4 of the engine state (R245). -/
  part (c : Chain) : Option MxPartF :=
    need (!c.xh && c.x4 < 5) (c.mem.map fun m => ⟨Fin.ofNat 5 c.x4, m⟩)

/-- A copy command's operands (R254). -/
def Chain.copy (c : Chain) : Option CopyF :=
  need c.m0 <| match c.ax, c.ay, c.az with
    | some x, some y, some z => some ⟨x, y, z, c.immRR⟩
    | _, _, _ => none

/-- Page 5, copy engine (R254). -/
def decPage5 (c : Chain) : Option Instr :=
  need c.q0 <|
  match opOf c.w with
  | 0 => match c.f with
    | 0 => c.copy.map .cpy | 1 => c.copy.map .cpyw
    | 2 => need c.y0 (c.copy.map .cpfil)
    | _ => need c.x0 (c.copy.map .cpcode)
  | 1 => match c.f with
    | 0 => c.copy.map .crstep | 1 => c.copy.map .crstepSq
    | 2 => need (c.x0 && c.y0) (c.copy.map .crall)
    | _ => none
  | 2 => match c.f with
    | 0 => need c.bare (some .cpwait)
    | 1 => c.ar1.map .cpqry
    | _ => none
  | _ => none

/-- A promise command's operands (R307). -/
def Chain.prm (c : Chain) : Option PrF :=
  need c.m0 <| match c.ax, c.mem with
    | some x, some m => some ⟨x, m⟩
    | _, _ => none

/-- Page 6, promises (R307). -/
def decPage6 (c : Chain) : Option Instr :=
  need c.q0 <|
  match opOf c.w with
  | 0 => match c.f with
    | 0 => c.prm.map .priss | 1 => c.prm.map .prrdm
    | 2 => need c.bare (some .prapl)
    | _ => c.ar1.map .prsq
  | 1 => match c.f with
    | 0 => need c.noPx (c.prm.map .prstat)
    | 1 => need (c.m0 && c.x0) (c.mem.map .prls)
    | 2 => need (c.m0 && c.x0) (c.mem.map .prcfg)
    | _ => none
  | _ => none

/-- The instruction of a chain, by the map of R100 and the field checks of R94, R98 and R99. -/
def Chain.instr (c : Chain) : Option Instr :=
  match c.page with
  | 0 => decPage0 c
  | 1 => decPage1 c
  | 2 => decPage2 c
  | 3 => decPage3 c
  | 4 => decPage4 c
  | 5 => decPage5 c
  | 6 => decPage6 c
  | _ => none

/-- R102: the instruction that the halfwords from pc on hold. -/
def decode (ws : List Half) : Decoded :=
  match chainLoop none none [] 0 ws with
  | .error (k, w) => .bad k w
  | .ok c =>
    match c.instr with
    | some i => .ok i c.len
    | none => .bad (c.len - 1) (some c.w)

/-- The instruction the decoder reads from the `nbits` bits of `w`, halfword by halfword, the first in
the low bits; words beyond are 0. -/
def decodeTableWord (nbits w : Nat) : Option Instr :=
  match decode ((List.range (nbits / 16 + 4)).map fun k => BitVec.ofNat 16 (w / 2 ^ (16 * k))) with
  | .ok i _ => some i
  | .bad _ _ => none

/-! ### The encoder -/

/-- A signed value fits in `w` bits. -/
def fitsS (w : Nat) (v : DWord) : Bool :=
  if w = 0 then v == 0 else if w ≥ 64 then true
  else decide (-(2 ^ (w - 1) : Int) ≤ v.toInt) && decide (v.toInt < 2 ^ (w - 1))
/-- An unsigned value fits in `w` bits. -/
def fitsU (w : Nat) (v : DWord) : Bool := decide (v.toNat < 2 ^ w)

/-- The fewest PX words, at least `lo`, with which the value fits (R455). -/
def pxCount (fits : Nat → DWord → Bool) (fw lo : Nat) (v : DWord) : Nat :=
  ((List.range 4).find? fun n => decide (lo ≤ n) && fits (10 * n + fw) v).getD 4

/-- The PX words of a value whose low `fw` bits stand in the instruction word. -/
def pxWords (fw n : Nat) (v : DWord) : List (BitVec 10) :=
  (List.range n).reverse.map fun k => v.extractLsb' (fw + 10 * k) 10

/-- The instruction word of RR. -/
def wRR (op x y f : Nat) : Half := BitVec.ofNat 16 (op * 1024 + x % 16 * 64 + y % 16 * 4 + f)
/-- The instruction word of RI. -/
def wRI (op x i : Nat) : Half := BitVec.ofNat 16 (op * 1024 + x % 16 * 64 + i % 64)

/-- A PR word when a field of it is needed. -/
def prIf (x y z mode : Nat) (must : Bool) : Option PrWord :=
  if must || x ≥ 16 || y ≥ 16 || z != 0 || mode != 0 then
    some ⟨x ≥ 16, y ≥ 16, BitVec.ofNat 5 z, BitVec.ofNat 3 mode⟩
  else none

/-- A chain of an RR instruction with its PX words. -/
def mkRR (page q op x y f z mode : Nat) (must : Bool) (px : List (BitVec 10)) : Chain :=
  ⟨page, BitVec.ofNat 7 q, prIf x y z mode must, px, wRR op x y f⟩

/-- PX words of a signed RR immediate. -/
def pxRR (lo : Nat) (v : DWord) : List (BitVec 10) := pxWords 0 (pxCount fitsS 0 lo v) v
/-- PX words of an unsigned RR immediate. -/
def pxRRU (lo : Nat) (v : DWord) : List (BitVec 10) := pxWords 0 (pxCount fitsU 0 lo v) v

/-- A chain of an RI instruction with a signed immediate. -/
def mkRI (op x : Nat) (v : DWord) : Chain :=
  ⟨0, 0, none, pxWords 6 (pxCount fitsS 6 0 v) v, wRI op x (v.extractLsb' 0 6).toNat⟩
/-- A chain of a BR instruction. -/
def mkBR (op : Nat) (v : DWord) : Chain :=
  ⟨0, 0, none, pxWords 10 (pxCount fitsS 10 0 v) v,
    BitVec.ofNat 16 (op * 1024) ||| (v.extractLsb' 0 10).setWidth 16⟩

/-- Third register and the need of PR for a two-source form. -/
def zOf {n : Nat} : Option (Fin n) → Nat × Bool
  | none => (0, false)
  | some z => (z.val, true)

/-- A three-register chain. -/
def encAR3 (op f : Nat) (o : AR3) : Chain :=
  mkRR 0 0 op o.x.val o.y.val f (zOf o.z).1 0 (zOf o.z).2 []
/-- A two-register chain on the a registers. -/
def encAR2 (page op f : Nat) (o : AR2) : Chain := mkRR page 0 op o.x.val o.y.val f 0 0 false []
/-- A three-register chain on the d registers. -/
def encDR3 (op f : Nat) (o : DR3) : Chain :=
  mkRR 0 0 op o.x.val o.y.val f (zOf o.z).1 0 (zOf o.z).2 []
/-- A two-register chain on the d registers. -/
def encDR2 (op f : Nat) (o : DR2) : Chain := mkRR 0 0 op o.x.val o.y.val f 0 0 false []
/-- A chain with a memory operand. -/
def encMem (page q op x f mode : Nat) (must : Bool) (m : Mem) : Chain :=
  mkRR page q op x m.y.val f m.z.val mode must (pxRR 0 m.imm)
/-- A chain with a memory operand whose Z has another use. -/
def encMemB (page q op x f z mode : Nat) (must : Bool) (m : MemB) : Chain :=
  mkRR page q op x m.y.val f z mode must (pxRR 0 m.imm)
/-- q of a format and a rounding mode (R146). -/
def qOf (f : FFmt) (r : RMode) : Nat := f.code * 4 + r.code
/-- A two-source floating-point chain. -/
def encFP3 (page op f mode : Nat) (o : FP3) : Chain :=
  mkRR page (qOf o.fmt o.rm) op o.x.val o.y.val f (zOf o.z).1 mode (zOf o.z).2 []
/-- A single-source floating-point chain. -/
def encFP2 (page op f mode : Nat) (o : FP2) : Chain :=
  mkRR page (qOf o.fmt o.rm) op o.x.val o.y.val f o.z.val mode (o.rm == .sr) []
/-- A three-source floating-point chain. -/
def encFMA (page op f mode : Nat) (must : Bool) (o : FMA) : Chain :=
  mkRR page (qOf o.fmt o.rm) op o.x.val o.y.val f o.z.val mode must []
/-- A conversion between formats. -/
def encFCvt (page op f : Nat) (o : FCvt) : Chain :=
  mkRR page (qOf o.dst o.rm) op o.x.val o.y.val f o.z.val o.src.code true []
/-- A comparison in a format. -/
def encFCmp (f : Nat) (o : FCmp) : Chain := mkRR 1 (qOf o.fmt .rne) 3 o.x.val o.y.val f 0 0 false []
/-- A fixed-point conversion. -/
def encFx (page op f mode : Nat) (o : FxF) : Chain :=
  mkRR page 0 op o.x.val o.y.val f 0 mode false (pxRRU 0 (BitVec.ofNat 64 o.p.val))
/-- A vector integer chain. -/
def encVR3 (op f : Nat) (o : VR3) : Chain :=
  mkRR 2 0 op o.r.x.val o.r.y.val f (zOf o.r.z).1 o.mask.val (zOf o.r.z).2 []
/-- A vector comparison chain. -/
def encVCmp (f : Nat) (o : VCmpF) : Chain := mkRR 2 0 4 o.k.val o.y.val f o.z.val o.mask.val false []
/-- A reduction chain. -/
def encVRed (f : Nat) (o : VRedF) : Chain :=
  mkRR 2 (qOf o.fmt .rne) 6 o.x.val o.y.val f 0 o.mask.val false []
/-- The mode that carries a scope, and whether PR is needed for it: not for package, the default. -/
def scopeMode (s : Scope) (z : Nat) : Nat × Bool :=
  if s = .package ∧ z = 0 then (0, false) else (s.code, true)
/-- A chain with a memory operand and a scope. -/
def encScoped (page q op x f : Nat) (m : Mem) (s : Scope) : Chain :=
  mkRR page q op x m.y.val f m.z.val (scopeMode s m.z.val).1 (scopeMode s m.z.val).2 (pxRR 0 m.imm)
/-- AMO and CAS. -/
def encAtom (op qlow : Nat) (o : AtomF) : Chain :=
  encMemB 3 (o.ord.code * 16 + qlow) op o.x.val (if o.dbl then 3 else 2) o.z.val o.scope.code true o.m
/-- A control register access. -/
def encCtl (f : Nat) (o : CtlF) : Chain :=
  mkRR 3 0 9 o.x.val (o.num.val % 16) f 0 0 false (pxRRU 0 (BitVec.ofNat 64 (o.num.val / 16)))
/-- A chain of one a register. -/
def encA1 (page op f x : Nat) : Chain := mkRR page 0 op x 0 f 0 0 false []
/-- A copy command. -/
def encCopy (op f : Nat) (o : CopyF) : Chain :=
  mkRR 5 0 op o.x.val o.y.val f o.z.val 0 false (pxRR 0 o.imm)
/-- LDM and STM: without PR when the count and the first register allow it. -/
def encMulti (op : Nat) (o : MultiF) : Chain :=
  if o.n.val ≤ 4 ∧ o.x.val < 16 then encMemB 0 0 op o.x.val (o.n.val - 1) 0 0 false o.m
  else encMemB 0 0 op o.x.val 0 (o.n.val - 1) 0 true o.m
/-- A product. -/
def encMma (f : Nat) (o : MxMmaF) : Chain := encMem 4 0 3 o.acc.val f o.pair.val false o.m

/-- The chain of an instruction, by the encoding tables; none for an event. -/
def chainOf : Instr → Option Chain
  | .nop => some ⟨0, 0, none, [], 0x0001⟩
  | .halt => some ⟨0, 0, none, [], 0x0040⟩
  | .yield => some ⟨0, 0, none, [], 0x0080⟩
  | .isync => some ⟨0, 0, none, [], 0x00C0⟩
  | .wfe => some ⟨0, 0, none, [], 0x0100⟩
  | .eret => some ⟨0, 0, none, [], 0x0140⟩
  | .trap c => some ⟨0, 0, none, [], 0x0180 ||| c.setWidth 16⟩
  | .brk => some ⟨0, 0, none, [], 0x01C0⟩
  | .ali o => some (mkRI 1 o.x.val o.imm)
  | .aaddi o => some (mkRI 2 o.x.val o.imm)
  | .aadd o => some (encAR3 3 0 o)
  | .asub o => some (encAR3 3 1 o)
  | .amul o => some (encAR3 3 2 o)
  | .aand o => some (encAR3 3 3 o)
  | .aor o => some (encAR3 4 0 o)
  | .axor o => some (encAR3 4 1 o)
  | .ashl o => some (encAR3 4 2 o)
  | .ashr o => some (encAR3 4 3 o)
  | .asar o => some (encAR3 5 0 o)
  | .amov o => some (encAR2 0 5 1 o)
  | .xpop x => some (encA1 0 5 2 x.val)
  | .aqp q y => some (mkRR 0 0 5 q.val y.val 3 0 0 false [])
  | .cbnd o => some (encAR3 6 0 o)
  | .cprm o => some (encAR3 6 1 o)
  | .cseal o => some (encAR3 6 2 o)
  | .cunsl o => some (encAR3 6 3 o)
  | .ctag o => some (encAR2 0 7 0 o)
  | .cbase o => some (encAR2 0 7 1 o)
  | .clen o => some (encAR2 0 7 2 o)
  | .cclr o => some (encAR2 0 7 3 o)
  | .ld o => some (encMem 0 0 8 o.x.val o.w.code (if o.sx then 1 else 0) false o.m)
  | .ldq o => some (encMem 0 0 9 o.q.val o.w.code (if o.sx then 1 else 0) false o.m)
  | .st o => some (encMem 0 0 10 o.x.val o.w.code 0 false o.m)
  | .stq o => some (encMem 0 0 11 o.q.val o.w.code 0 false o.m)
  | .lds o => some (encMemB 0 0 12 o.q.val o.w.code o.desc.val (if o.sx then 1 else 0) false o.m)
  | .sts o => some (encMemB 0 0 13 o.q.val o.w.code o.desc.val 0 false o.m)
  | .ldc o => some (encMem 0 0 14 o.x.val 0 0 false o.m)
  | .stc o => some (encMem 0 0 14 o.x.val 1 0 false o.m)
  | .touch m => some (encMem 0 0 14 0 2 0 false m)
  | .touchN m => some (encMem 0 0 14 0 3 0 false m)
  | .ldm o => some (encMulti 15 o)
  | .stm o => some (encMulti 16 o)
  | .b v => some (mkBR 17 v)
  | .call v => some (mkBR 18 v)
  | .bcqT v => some (mkRI 19 0 v)
  | .bcqF v => some (mkRI 19 1 v)
  | .bz o => some (mkRI 20 o.x.val o.imm)
  | .bnz o => some (mkRI 21 o.x.val o.imm)
  | .beq o => some (mkRR 0 0 22 o.x.val o.y.val 0 0 0 false (pxRR 1 o.imm))
  | .bne o => some (mkRR 0 0 22 o.x.val o.y.val 1 0 0 false (pxRR 1 o.imm))
  | .blt o => some (mkRR 0 0 22 o.x.val o.y.val 2 0 0 false (pxRR 1 o.imm))
  | .bge o => some (mkRR 0 0 22 o.x.val o.y.val 3 0 0 false (pxRR 1 o.imm))
  | .ret => some (mkRR 0 0 23 0 0 0 0 0 false [])
  | .jr x => some (encA1 0 23 1 x.val)
  | .jlr o => some (encAR2 0 23 2 o)
  | .loop o =>
    some ⟨0, 0, none, pxWords 6 (pxCount fitsU 6 0 o.imm) o.imm,
      wRI 24 o.x.val (o.imm.extractLsb' 0 6).toNat⟩
  | .vld o => some (encMem 0 0 25 o.v.val 0 o.mask.val false o.m)
  | .vldBf o => some (encMem 0 0 25 o.v.val 1 o.mask.val false o.m)
  | .vldm o => some (encMem 0 0 25 o.k.val 2 0 false o.m)
  | .vldx o => some (encMemB 0 0 25 o.v.val 3 o.vz.val o.mask.val true o.m)
  | .vst o => some (encMem 0 0 26 o.v.val 0 o.mask.val false o.m)
  | .vstBf o => some (encMem 0 0 26 o.v.val 1 o.mask.val false o.m)
  | .vstm o => some (encMem 0 0 26 o.k.val 2 0 false o.m)
  | .vstx o => some (encMemB 0 0 26 o.v.val 3 o.vz.val o.mask.val true o.m)
  | .ldacq o => some (encScoped 0 0 27 o.x.val o.w.code o.m o.scope)
  | .strel o => some (encScoped 0 0 28 o.x.val o.w.code o.m o.scope)
  | .xpush x => some (mkRR 0 0 29 x.val 0 0 0 0 false [])
  | .li o => some (mkRI 30 o.x.val o.imm)
  | .addi o => some (mkRI 31 o.x.val o.imm)
  | .add o => some (encDR3 32 0 o)
  | .sub o => some (encDR3 32 1 o)
  | .mul o => some (encDR3 32 2 o)
  | .mulh o => some (encDR3 32 3 o)
  | .dand o => some (encDR3 33 0 o)
  | .dor o => some (encDR3 33 1 o)
  | .dxor o => some (encDR3 33 2 o)
  | .shl o => some (encDR3 33 3 o)
  | .shr o => some (encDR3 34 0 o)
  | .sar o => some (encDR3 34 1 o)
  | .min o => some (encDR3 34 2 o)
  | .max o => some (encDR3 34 3 o)
  | .minz o => some (encDR3 35 0 o)
  | .maxz o => some (encDR3 35 1 o)
  | .div o => some (encDR3 35 2 o)
  | .rem o => some (encDR3 35 3 o)
  | .mov o => some (encDR2 36 0 o)
  | .sel o => some (encDR3 36 1 o)
  | .divz o => some (encDR3 36 2 o)
  | .remz o => some (encDR3 36 3 o)
  | .cmpEq o => some (encDR2 37 0 o)
  | .cmpNe o => some (encDR2 37 1 o)
  | .cmpLt o => some (encDR2 37 2 o)
  | .cmpLtz o => some (encDR2 37 3 o)
  | .cqp x => some (mkRR 0 0 38 x.val 0 0 0 0 false [])
  | .fadd o => some (encFP3 1 0 0 0 o)
  | .fsub o => some (encFP3 1 0 1 0 o)
  | .fmul o => some (encFP3 1 0 2 0 o)
  | .fmin o => some (encFP3 1 0 3 0 o)
  | .fmax o => some (encFP3 1 1 0 0 o)
  | .fabs o => some (encFP2 1 1 1 0 o)
  | .fneg o => some (encFP2 1 1 2 0 o)
  | .fsqrt o => some (encFP2 1 1 3 0 o)
  | .ffma o => some (encFMA 1 2 0 0 true o)
  | .fcmpEq o => some (encFCmp 0 o)
  | .fcmpLt o => some (encFCmp 1 o)
  | .fcmpLe o => some (encFCmp 2 o)
  | .fcmpUn o => some (encFCmp 3 o)
  | .fcvtF2f o => some (encFCvt 1 4 0 o)
  | .fcvtF2i o => some (encFP2 1 4 1 0 o)
  | .fcvtI2f o => some (encFP2 1 4 2 0 o)
  | .frcp o => some (encFP2 1 5 0 0 o)
  | .frsq o => some (encFP2 1 5 1 0 o)
  | .fdiv o => some (encFP3 1 5 2 0 o)
  | .f2x o => some (encFx 1 6 0 0 o)
  | .x2f o => some (encFx 1 6 1 0 o)
  | .rndfill o => some (mkRR 1 0 7 o.x.val (if o.vec then 1 else 0) 0 0 0 false [])
  | .rndseed y => some (mkRR 1 0 7 0 y.val 1 0 0 false [])
  | .vadd o => some (encFP3 2 0 0 o.mask.val o.f)
  | .vsub o => some (encFP3 2 0 1 o.mask.val o.f)
  | .vmul o => some (encFP3 2 0 2 o.mask.val o.f)
  | .vmin o => some (encFP3 2 0 3 o.mask.val o.f)
  | .vmax o => some (encFP3 2 1 0 o.mask.val o.f)
  | .vabs o => some (encFP2 2 1 1 o.mask.val o.f)
  | .vneg o => some (encFP2 2 1 2 o.mask.val o.f)
  | .vfma o => some (encFMA 2 1 3 o.mask.val true o.f)
  | .viadd o => some (encVR3 2 0 o)
  | .vand o => some (encVR3 2 1 o)
  | .vor o => some (encVR3 2 2 o)
  | .vxor o => some (encVR3 2 3 o)
  | .vshl o => some (encVR3 3 0 o)
  | .vshr o => some (encVR3 3 1 o)
  | .vsar o => some (encVR3 3 2 o)
  | .vimul o => some (encVR3 3 3 o)
  | .vcmpEq o => some (encVCmp 0 o)
  | .vcmpLt o => some (encVCmp 1 o)
  | .vcmpLe o => some (encVCmp 2 o)
  | .vcmpUn o => some (encVCmp 3 o)
  | .vsel o => some (encVR3 5 0 o)
  | .vmov o => some (mkRR 2 0 5 o.x.val o.y.val 1 0 o.mask.val false [])
  | .vbcast o => some (mkRR 2 0 5 o.x.val o.y.val 2 0 o.mask.val false [])
  | .vext o => some (mkRR 2 0 5 o.x.val o.y.val 3 0 0 false (pxRRU 1 (BitVec.ofNat 64 o.idx.val)))
  | .vsum o => some (encVRed 0 o)
  | .vminr o => some (encVRed 1 o)
  | .vmaxr o => some (encVRed 2 o)
  | .vsqn o => some (encVRed 3 o)
  | .vcvtF2f o => some (encFCvt 2 7 0 o)
  | .vcvtF2i o => some (encFP2 2 7 1 o.mask.val o.f)
  | .vcvtI2f o => some (encFP2 2 7 2 o.mask.val o.f)
  | .vf2x o => some (encFx 2 7 3 o.mask.val o.f)
  | .vperm o => some (mkRR 2 0 8 o.x.val o.y.val 0 o.z.val o.mask.val false [])
  | .viota o => some (mkRR 2 0 8 o.x.val 0 1 0 o.mask.val false [])
  | .vdot o => some (encFMA 2 8 2 o.mask.val false o.f)
  | .vmsk o => some (mkRR 2 0 8 o.k.val o.y.val 3 0 o.mask.val false [])
  | .amo op o => some (encAtom 0 op.code o)
  | .cas o => some (encAtom 1 0 o)
  | .vamo o => some (encMemB 3 0 2 o.v.val 0 o.vz.val o.scope.code true o.m)
  | .fetake o => some (encScoped 3 0 3 o.x.val 0 o.m o.scope)
  | .feput o => some (encScoped 3 0 3 o.x.val 1 o.m o.scope)
  | .fepeek o => some (encScoped 3 0 3 o.x.val 2 o.m o.scope)
  | .feinit o => some (encScoped 3 0 3 o.x.val 3 o.m o.scope)
  | .fence o =>
    some ⟨3, 0, none, [], wRI 4 (o.predR.toNat * 8 + o.predW.toNat * 4 + o.succR.toNat * 2 + o.succW.toNat)
      (o.eng.toNat * 8 + o.scope.code)⟩
  | .barArv n => some ⟨3, 0, none, [], wRI 5 n.val 0⟩
  | .barWt n => some ⟨3, 0, none, [], wRI 5 n.val 1⟩
  | .barTst n => some ⟨3, 0, none, [], wRI 5 n.val 2⟩
  | .hstart o => some (mkRR 3 0 6 o.x.val o.y.val 0 0 0 false (pxRR 1 o.imm))
  | .hend => some (encA1 3 6 1 0)
  | .hjoin x => some (encA1 3 6 2 x.val)
  | .hkill x => some (encA1 3 6 3 x.val)
  | .sends v => some (mkRR 3 0 7 0 0 0 0 0 false (pxRRU 1 v))
  | .sendp o => some (mkRR 3 0 7 o.x.val o.y.val 1 o.z.val 0 false [])
  | .rxwt x => some (encA1 3 7 2 x.val)
  | .rxrel => some (encA1 3 7 3 0)
  | .pkopen x => some (encA1 3 8 0 x.val)
  | .pkput x => some (encA1 3 8 1 x.val)
  | .pkend x => some (encA1 3 8 2 x.val)
  | .pkabt => some (encA1 3 8 3 0)
  | .ctlr o => some (encCtl 0 o)
  | .ctlw o => some (encCtl 1 o)
  | .ctls o => some (encCtl 2 o)
  | .ctlc o => some (encCtl 3 o)
  | .pgatt x => some (encA1 3 10 0 x.val)
  | .pgdet => some (encA1 3 10 1 0)
  | .pgstat x => some (encA1 3 10 2 x.val)
  | .cmkw o => some (encAR2 3 11 0 o)
  | .cmkc o => some (encAR2 3 11 1 o)
  | .mxctx m => some (encMem 4 0 0 0 0 0 false m)
  | .mxmsk o => some (mkRR 4 0 1 o.p.val o.y.val 0 o.z.val 0 true [])
  | .mxldb o => some (encMem 4 0 2 o.x.val 0 0 false o.m)
  | .mxldbT o => some (encMem 4 0 2 o.x.val 1 0 false o.m)
  | .mxrot => some (encA1 4 2 2 0)
  | .mxswp => some (encA1 4 2 3 0)
  | .mxmma o => some (encMma 0 o)
  | .mxmmaOw o => some (encMma 1 o)
  | .mxrun o => some (encMma 2 o)
  | .mxzero a => some (encA1 4 4 0 a.val)
  | .mxdrain o => some (encMem 4 0 4 o.acc.val 1 0 false o.m)
  | .mxsave o => some (encMem 4 0 4 o.part.val 2 0 false o.m)
  | .mxrest o => some (encMem 4 0 4 o.part.val 3 0 false o.m)
  | .mxup m => some (encMem 4 0 5 0 0 0 false m)
  | .mxwait => some (encA1 4 6 0 0)
  | .mxmbx o => some (encMem 4 0 6 (match o.scope with | none => 7 | some s => s.code) 1 0 false o.m)
  | .cpy o => some (encCopy 0 0 o)
  | .cpyw o => some (encCopy 0 1 o)
  | .cpfil o => some (encCopy 0 2 o)
  | .cpcode o => some (encCopy 0 3 o)
  | .crstep o => some (encCopy 1 0 o)
  | .crstepSq o => some (encCopy 1 1 o)
  | .crall o => some (encCopy 1 2 o)
  | .cpwait => some (encA1 5 2 0 0)
  | .cpqry x => some (encA1 5 2 1 x.val)
  | .priss o => some (encMem 6 0 0 o.x.val 0 0 false o.m)
  | .prrdm o => some (encMem 6 0 0 o.x.val 1 0 false o.m)
  | .prapl => some (encA1 6 0 2 0)
  | .prsq x => some (encA1 6 0 3 x.val)
  | .prstat o => some (encMem 6 0 1 o.x.val 0 0 false o.m)
  | .prls m => some (encMem 6 0 1 0 1 0 false m)
  | .prcfg m => some (encMem 6 0 1 0 2 0 false m)
  | _ => none

/-- The words of a chain, first word first (R90 to R93). -/
def Chain.words (c : Chain) : List Half :=
  (if c.page = 0 then [] else [(62#6 ++ BitVec.ofNat 3 c.page ++ c.q : BitVec 16)]) ++
  (match c.pr with
    | none => []
    | some p => [(61#6 ++ BitVec.ofBool p.xh ++ BitVec.ofBool p.yh ++ p.z ++ p.mode : BitVec 16)]) ++
  c.px.map (fun b => (60#6 ++ b : BitVec 16)) ++ [c.w]

/-- The words of a well-formed instruction; empty for an event, which has no encoding. -/
def encode (i : Instr) : List Half :=
  match chainOf i with
  | some c => c.words
  | none => []

end Sys2Proof
end

