-- ==== Sys2Proof/Machine/Hash.lean ====
section
/-! DEFINITION. What the spec names and does not define: SHA-256 and HMAC-SHA-256 (R328, R460, R465), and ECDSA over
P-256 (R460, R465), each from its published definition (PRESUMED, log entry 13); and CRC-32C (R263). -/

namespace Sys2Proof

/-! ### SHA-256 -/

/-- The integer k-th root of a number, from its bits below bit `n` down, on top of those found. -/
def rootBits (k num : Nat) : Nat → Nat → Nat
  | 0, x => x
  | n + 1, x => rootBits k num n (if (x + 2 ^ n) ^ k ≤ num then x + 2 ^ n else x)

/-- The primes up to 311: the first 64. -/
def shaPrimes : List Nat :=
  (List.range 312).filter fun p => 2 ≤ p && (List.range p).all fun d => d < 2 || p % d != 0

/-- The first 32 bits of the fractional part of the k-th root of a prime. -/
def shaConst (k p : Nat) : Word := BitVec.ofNat 32 (rootBits k (p * 2 ^ (32 * k)) 40 0)

/-- What a block adds in its rounds: a constant of cube roots of primes each. -/
def cubeConsts : List Word := shaPrimes.map (shaConst 3)

/-- Three right turns of a word together, the last one a shift when `cut`. -/
def turned (x : Word) (i j k : Nat) (cut : Bool) : Word :=
  x.rotateRight i ^^^ x.rotateRight j ^^^ (if cut then x >>> k else x.rotateRight k)

/-- The chaining value: eight words. -/
structure Chain8 where
  a : Word
  b : Word
  c : Word
  d : Word
  e : Word
  f : Word
  g : Word
  h : Word
  deriving DecidableEq, Repr

/-- The first chaining value: the square roots of the first eight primes. -/
def Chain8.first : Chain8 :=
  let r (i : Nat) : Word := shaConst 2 (shaPrimes.getD i 0)
  ⟨r 0, r 1, r 2, r 3, r 4, r 5, r 6, r 7⟩

/-- Two chaining values added word by word. -/
def Chain8.plus (x y : Chain8) : Chain8 :=
  ⟨x.a + y.a, x.b + y.b, x.c + y.c, x.d + y.d, x.e + y.e, x.f + y.f, x.g + y.g, x.h + y.h⟩

/-- A round with a word of the message schedule and its constant, already added. -/
def Chain8.round (x : Chain8) (add : Word) : Chain8 :=
  let pick := x.g ^^^ (x.e &&& (x.f ^^^ x.g))
  let most := (x.a &&& x.b) ||| (x.c &&& (x.a ||| x.b))
  let t := add + x.h + pick + turned x.e 6 11 25 false
  ⟨t + most + turned x.a 2 13 22 false, x.a, x.b, x.c, x.d + t, x.e, x.f, x.g⟩

/-- The rounds of a block: `win` is the sliding window of sixteen words of the message schedule. -/
def blockRounds : List Word → List Word → Chain8 → Chain8
  | [], _, x => x
  | k :: ks, win, x =>
    let now := win.headD 0
    let next := now + turned (win.getD 1 0) 7 18 3 true + win.getD 9 0 + turned (win.getD 14 0) 17 19 10 true
    blockRounds ks (win.drop 1 ++ [next]) (x.round (k + now))

/-- The big-endian number of some bytes. -/
def beNat (b : List Byte) : Nat := leNat b.reverse
/-- The n low bytes of a number, the most significant first. -/
def beBytes (n v : Nat) : List Byte := (leBytes n v).reverse

/-- A chaining value after a block of 64 bytes. -/
def Chain8.block (x : Chain8) (b : List Byte) : Chain8 :=
  x.plus (blockRounds cubeConsts ((List.range 16).map fun i => BitVec.ofNat 32 (beNat ((b.drop (4 * i)).take 4))) x)

/-- SHA-256 of a message: the marker bit, zeros up to 8 bytes short of a block, and the length in bits are added. -/
def sha256 (m : List Byte) : List Byte :=
  let blocks := (m.length + 72) / 64
  let msg := m ++ 0x80 :: List.replicate (64 * blocks - m.length - 9) 0 ++ beBytes 8 (8 * m.length)
  let x := (List.range blocks).foldl (fun x i => x.block ((msg.drop (64 * i)).take 64)) Chain8.first
  [x.a, x.b, x.c, x.d, x.e, x.f, x.g, x.h].flatMap fun w => beBytes 4 w.toNat

/-! ### ECDSA over P-256 -/

/-- The field of the curve. -/
def p256 : Nat := 2 ^ 256 - 2 ^ 224 + 2 ^ 192 + 2 ^ 96 - 1
/-- The order of its base point. -/
def p256Order : Nat := 0xFFFFFFFF00000000FFFFFFFFFFFFFFFFBCE6FAADA7179E84F3B9CAC2FC632551
/-- The constant term of its equation y² = x³ − 3x + b. -/
def p256B : Nat := 0x5AC635D8AA3A93E7B3EBBD55769886BC651D06B0CC53B0F63BCE3C3E27D2604B
/-- Its base point. -/
def p256Base : Nat × Nat :=
  (0x6B17D1F2E12C4247F8BCE6E563A440F277037D812DEB33A0F4A13945D898C296,
   0x4FE342E2FE1A7F9B8EE7EB4A7C0F9E162BCE33576B315ECECBB6406837BF51F5)

/-- A power modulo q, over the low n bits of the exponent. -/
def powMod (q : Nat) : Nat → Nat → Nat → Nat
  | 0, _, _ => 1
  | n + 1, x, e => powMod q n (x * x % q) (e / 2) * (if e % 2 = 1 then x else 1) % q

/-- The inverse modulo a prime below 2^256. -/
def invMod (q x : Nat) : Nat := powMod q 256 (x % q) (q - 2)

/-- The sum of two points of the curve; none is the point at infinity. -/
def addPoint (u v : Option (Nat × Nat)) : Option (Nat × Nat) :=
  match u, v with
  | none, v => v
  | u, none => u
  | some (x1, y1), some (x2, y2) =>
    if x1 = x2 && (y1 + y2) % p256 = 0 then none
    else
      let m := if x1 = x2 then (3 * x1 * x1 + p256 - 3) * invMod p256 (2 * y1) % p256
        else (y2 + p256 - y1) * invMod p256 (x2 + p256 - x1) % p256
      let x := (m * m + 2 * p256 - x1 - x2) % p256
      some (x, (m * (x1 + p256 - x) + p256 - y1) % p256)

/-- A point taken k times, over the low n bits of k. -/
def timesPoint : Nat → Nat → Option (Nat × Nat) → Option (Nat × Nat)
  | 0, _, _ => none
  | n + 1, k, u => 
    let r := timesPoint n (k / 2) (addPoint u u)
    if k % 2 = 1 then addPoint u r else r

/-- A point lies on the curve. -/
def onCurve (x y : Nat) : Bool :=
  decide (x < p256) && decide (y < p256) && y * y % p256 == (x * x * x + (p256 - 3) * x + p256B) % p256

/-- A signature, r then s, of a digest is valid under a public key, x then y (R460); each of the four is a number whose most
significant byte comes first (PRESUMED, log entry 13: the order of FIPS 186). -/
def ecdsaValid (pubkey digest sig : List Byte) : Bool :=
  let x := beNat (pubkey.take 32)
  let y := beNat ((pubkey.drop 32).take 32)
  let r := beNat (sig.take 32)
  let s := beNat ((sig.drop 32).take 32)
  let in_ (v : Nat) : Bool := decide (1 ≤ v) && decide (v < p256Order)
  let w := invMod p256Order s
  in_ r && in_ s && onCurve x y &&
    match addPoint (timesPoint 256 (beNat digest * w % p256Order) (some p256Base))
        (timesPoint 256 (r * w % p256Order) (some (x, y))) with
    | some (u, _) => u % p256Order == r
    | none => false

/-- The signature of a digest under a private key with a nonce, r then s in the same byte order (PRESUMED, log entry 13). -/
def ecdsaSign (key nonce : Nat) (digest : List Byte) : List Byte :=
  let r := match timesPoint 256 nonce (some p256Base) with | some (u, _) => u % p256Order | none => 0
  beBytes 32 r ++ beBytes 32 (invMod p256Order nonce * (beNat digest + r * key) % p256Order)

/-- HMAC-SHA-256 under a key of at most 64 bytes. -/
def hmacSha (key m : List Byte) : List Byte :=
  let k := key ++ List.replicate (64 - key.length) 0
  sha256 ((k.map (· ^^^ 0x5C)) ++ sha256 ((k.map (· ^^^ 0x36)) ++ m))

/-- One bit of R263. -/
def crcBit (c : Word) : Word := if c.getLsbD 0 then (c >>> 1) ^^^ 0x82F63B78 else c >>> 1

/-- R263: the step of CRC-32C for a byte. -/
def crcStep (c : Word) (b : Byte) : Word :=
  crcBit (crcBit (crcBit (crcBit (crcBit (crcBit (crcBit (crcBit (c ^^^ b.setWidth 32))))))))

/-- CRC-32C of bytes (R263). -/
def crc32c (b : List Byte) : Word := ~~~ (b.foldl crcStep 0xFFFFFFFF)

end Sys2Proof
end

