-- ==== Sys2Proof/Machine/Ops.lean ====
section
/-! DEFINITION. The shared operations on contexts and cores: registers, queues, completion, taking a
trap and returning from one, reports, parking and the fault queue's intake, the ends of groups. -/

namespace Sys2Proof.Machine

/-- What a step of the machine answers. -/
abbrev Out := Host.Outcome State Fault Refusal

/-! ### Access to the parts of the state -/

/-- A logical core. -/
def State.core (s : State) (c : Nat) : CoreSt := s.cores.get c
/-- A logical core replaced. -/
def State.setCore (s : State) (c : Nat) (x : CoreSt) : State := { s with cores := s.cores.put c x }
/-- A context. -/
def State.ctx (s : State) (w : Who) : Ctx := (s.core w.core).ctxs.get w.ctx
/-- A context replaced. -/
def State.setCtx (s : State) (w : Who) (x : Ctx) : State :=
  s.setCore w.core { s.core w.core with ctxs := (s.core w.core).ctxs.put w.ctx x }
/-- The context that executes. -/
def State.me (s : State) : Ctx := s.ctx s.cur
/-- The context that executes, replaced. -/
def State.setMe (s : State) (x : Ctx) : State := s.setCtx s.cur x
/-- The core of the context that executes. -/
def State.myCore (s : State) : CoreSt := s.core s.cur.core
/-- That core replaced. -/
def State.setMyCore (s : State) (x : CoreSt) : State := s.setCore s.cur.core x
/-- A virtual device. -/
def State.vdev (s : State) (v : Nat) : VDev := s.vdevs.get v
/-- A virtual device replaced. -/
def State.setVdev (s : State) (v : Nat) (x : VDev) : State := { s with vdevs := s.vdevs.put v x }
/-- A queue. -/
def State.queue (s : State) (q : Nat) : Que := s.queues.get q
/-- A queue replaced. -/
def State.setQueue (s : State) (q : Nat) (x : Que) : State := { s with queues := s.queues.put q x }
/-- A launch. -/
def State.launchOf (s : State) (l : Nat) : LaunchSt := s.launches.get l
/-- A launch replaced. -/
def State.setLaunch (s : State) (l : Nat) (x : LaunchSt) : State :=
  { s with launches := s.launches.put l x }
/-- The signal of the latest turn. -/
def State.withSig (s : State) (g : Sig) : State := { s with sig := g }
/-- Every core listed, changed by a function of its number and state. -/
def State.mapCores (s : State) (f : Nat → CoreSt → CoreSt) : State :=
  s.cores.keys.foldl (fun t k => t.setCore k (f k (t.core k))) s

/-- The die of a logical core (R6). -/
def dieOf (core : Nat) : Nat := core / 576
/-- The logical cluster of a core, numbered die × 144 + cluster (R6). -/
def clusterOf (core : Nat) : Nat := core / 4

/-! ### a registers and capabilities (R14 to R17, R108) -/

/-- An untagged integer. -/
def AVal.ofInt (v : DWord) : AVal := ⟨false, v.setWidth 128⟩
/-- The integer view (R108). -/
def AVal.int (v : AVal) : DWord := v.bits.setWidth 64
/-- otype. -/
def AVal.otype (v : AVal) : BitVec 4 := v.bits.extractLsb' 124 4
/-- kind: 0 GLOBAL, 1 LOCAL, 2 CORE, 3 WINDOW, 4 REMOTE. -/
def AVal.kind (v : AVal) : Nat := (v.bits.extractLsb' 120 4).toNat
/-- target. -/
def AVal.target (v : AVal) : Nat := (v.bits.extractLsb' 104 16).toNat
/-- length. -/
def AVal.length (v : AVal) : Nat := (v.bits.extractLsb' 64 40).toNat
/-- Reserved bit 63. -/
def AVal.rsv (v : AVal) : Bool := v.bits.getLsbD 63
/-- L: local-only. -/
def AVal.permL (v : AVal) : Bool := v.bits.getLsbD 62
/-- S: sealed. -/
def AVal.sealed (v : AVal) : Bool := v.bits.getLsbD 61
/-- C. -/
def AVal.permC (v : AVal) : Bool := v.bits.getLsbD 60
/-- A. -/
def AVal.permA (v : AVal) : Bool := v.bits.getLsbD 59
/-- W. -/
def AVal.permW (v : AVal) : Bool := v.bits.getLsbD 58
/-- R. -/
def AVal.permR (v : AVal) : Bool := v.bits.getLsbD 57
/-- base, 57 bits. -/
def AVal.base (v : AVal) : BitVec 57 := v.bits.extractLsb' 0 57
/-- base sign-extended from bit 56 (R109). -/
def AVal.baseS (v : AVal) : DWord := v.base.signExtend 64
/-- A bit field of a 128-bit value replaced. -/
def setBits (b : BitVec 128) (lo w : Nat) (x : Nat) : BitVec 128 :=
  (b &&& ~~~(BitVec.ofNat 128 ((2 ^ w - 1) * 2 ^ lo))) ||| BitVec.ofNat 128 (x % 2 ^ w * 2 ^ lo)

/-- R16: the values hardware never tags. -/
def AVal.neverTagged (v : AVal) : Bool :=
  v.kind > 4 || v.rsv || ((v.kind == 2 || v.kind == 3) && (v.base.toNat % 65536) + v.length > 0xC000)

/-- An a register read; a0 reads untagged zero (R14). -/
def Ctx.ra (c : Ctx) (n : Fin 16) : AVal := if n = 0 then ⟨false, 0⟩ else c.a.get n.val
/-- The integer view of an a register. -/
def Ctx.ia (c : Ctx) (n : Fin 16) : DWord := (c.ra n).int
/-- An a register written; a0 discards the write, and R16 clears the tag of what is never tagged. -/
def Ctx.wa (c : Ctx) (n : Fin 16) (v : AVal) : Ctx :=
  if n = 0 then c
  else { c with a := c.a.put n.val (if v.tag && !v.neverTagged then v else AVal.ofInt v.int) }
/-- An untagged result (R108). -/
def Ctx.wi (c : Ctx) (n : Fin 16) (v : DWord) : Ctx := 
  if n = 0 then c else { c with a := c.a.put n.val (AVal.ofInt v) }
/-- The third operand rule of R95 and R117: without PR, x op y; with PR, y op z. -/
def AR3.fst (o : AR3) : Fin 16 := match o.z with | none => o.x | some _ => o.y
/-- The second operand of the same rule. -/
def AR3.snd (o : AR3) : Fin 16 := match o.z with | none => o.y | some z => z

/-! ### Queues (R9) -/

/-- The entries of a queue, oldest first, by its number in R386: 0 LQ0, 1 LQ1, 2 SQ0, 3 SQ1, 4 CQ,
5 XQ. -/
def Ctx.q (c : Ctx) : Nat → List DWord
  | 0 => c.lq0 | 1 => c.lq1 | 2 => c.sq0 | 3 => c.sq1
  | 4 => c.cq.map fun b => if b then 1 else 0
  | _ => c.xq
/-- A queue's entries replaced. -/
def Ctx.setQ (c : Ctx) (q : Nat) (l : List DWord) : Ctx :=
  match q with
  | 0 => { c with lq0 := l } | 1 => { c with lq1 := l } | 2 => { c with sq0 := l }
  | 3 => { c with sq1 := l } | 4 => { c with cq := l.map fun v => v != 0 } | _ => { c with xq := l }
/-- A queue's depth (R9). -/
def qDepth (q : Nat) : Nat := if q < 4 then 16 else 8
/-- Room for one more entry. -/
def Ctx.room (c : Ctx) (q : Nat) : Bool := (c.q q).length < qDepth q
/-- An entry pushed. -/
def Ctx.push (c : Ctx) (q : Nat) (v : DWord) : Ctx := c.setQ q (c.q q ++ [v])

/-! ### Discarding what stands beyond the boundary (R12, R129, R133, R151, R170) -/

/-- The pops of an instruction ahead undone: its entries go back to the heads of their queues. -/
def Ctx.unpop (c : Ctx) (r : Ahead) : Ctx :=
  r.pops.reverse.foldl (fun c p => c.setQ p.1 (p.2 :: c.q p.1)) c

/-- The entries an instruction ahead pushed dropped from the tails of their queues. -/
def Ctx.unpush (c : Ctx) (r : Ahead) : Ctx :=
  r.pushes.foldl (fun c q => c.setQ q (c.q q).dropLast) c

/-- How many entries of a queue a list of instructions ahead has pushed. -/
def pushedBy (l : List Ahead) (q : Nat) : Nat := (l.map fun r => r.pushes.count q).sum

/-- The instructions ahead, each that has pushed an entry which is consumed marked to last; `left` counts the entries of
each queue that are not. A pop of CQ is undone whatever becomes of the push (R151). -/
def markUsed (left : Nat → Nat) : List Ahead → List Ahead
  | [] => []
  | r :: rest =>
    let used := (List.range 6).any fun q => r.pushes.contains q && decide (pushedBy (r :: rest) q > left q)
    { r with lasting := r.lasting || (used && !r.pops.any (·.1 == 4)) } :: markUsed left rest

/-- The instructions ahead, those marked to last that stand as done: the vector instructions of R170, and those that have
pushed an entry which a retired instruction, or one that stands as done, has consumed (DEDUCED, log entry 10). -/
def Ctx.standing (c : Ctx) (l : List Ahead) : List Ahead :=
  (List.range l.length).foldl (fun l _ =>
    let u := (l.filter (!·.lasting)).reverse.foldl Ctx.unpop c
    markUsed (fun q => min (pushedBy l q) (u.q q).length) l) l

/-- The pushes of the latest stream that an instruction ahead has set up changed. -/
def markStream (f : List Nat → List Nat) : List Ahead → List Ahead
  | [] => []
  | r :: rest =>
    if rest.any (·.lds) then r :: markStream f rest
    else if r.lds then { r with pushes := f r.pushes } :: rest
    else r :: rest

/-- R129: an active LDS stream wound back to its first element not consumed, and its entries in LQ
discarded (DEDUCED, log entry 10). -/
def Ctx.rewind (c : Ctx) : Ctx :=
  match c.stream with
  | none => c
  | some t =>
    if t.store then c
    else
      let l := c.q t.q.val
      let k := min t.next l.length
      { c.setQ t.q.val (l.take (l.length - k)) with
        stream := some { t with next := t.next - k }, ahead := markStream (·.drop k) c.ahead }

/-- The instruction at the boundary when it was issued ahead to the vector queue and is still there, and the
instructions beyond the boundary. -/
def Ctx.beyond (c : Ctx) : List Ahead × List Ahead :=
  match c.ahead with
  | r :: rest => if c.vwait && r.vec == .queued && r.pc == c.pc then ([r], rest) else ([], r :: rest)
  | [] => ([], [])
/-- An instruction ahead that from now on stands as done: its pops and pushes with it. What the end of a loop body has
made of the counter (R140) is discarded with an earlier instruction of the access half (`undone`), and then comes again
with the boundary. -/
def Ahead.stand (undone : Bool) (r : Ahead) : Ahead :=
  let r := { r with pops := [], pushes := [], lds := false, oldV := [], oldM := [], oldC := [], lasting := true }
  if undone && r.acc then { r with acc := false, next := r.pc + BitVec.ofNat 16 (2 * r.len) } else r

/-- Those of a list of instructions ahead that stand as done, as they stand from now on. -/
def standAll (undone : Bool) : List Ahead → List Ahead
  | [] => []
  | r :: rest =>
    if r.lasting then r.stand undone :: standAll undone rest else standAll (undone || r.acc) rest

/-- R12, R129, R151: what stands beyond the boundary is discarded in the queues, the stream and the registers of
each half, which hold again what they held before the first of its instructions that is discarded; with the
instructions discarded. -/
def Ctx.discard (c : Ctx) : Ctx × List Ahead :=
  let b := c.beyond
  let l := c.standing b.2
  let out := l.filter (!·.lasting)
  let u := out.reverse.foldl Ctx.unpop c
  let u := { u with ahead := b.1 ++ standAll false l }
  let u := if out.any (·.lds) then { u with stream := none } else u.rewind
  let u := out.reverse.foldl Ctx.unpush u
  let u := match out.find? (·.acc) with
    | some r => { u with a := r.a, loop := r.loop }
    | none => u
  let u := match out.find? fun r => !r.acc with
    | some r => { u with d := r.d }
    | none => u
  (u, out)

/-- A control register of the core holds again what it held before a discarded instruction, unless another has
written it since. -/
def Ahead.before (r : Ahead) (n : Nat) (v : DWord) : DWord :=
  match r.oldC.find? (·.1 == n) with | some p => if v = p.2.2 then p.2.1 else v | none => v

/-- The vector words, masks and control registers of the core that a discarded instruction has overwritten hold again what
they held, unless another instruction has written them since (DEDUCED, log entry 10). -/
def CoreSt.undo (c : CoreSt) (r : Ahead) : CoreSt :=
  { c with
    rng := r.before 0 c.rng
    rxhead := r.before 1 c.rxhead
    v := r.oldV.foldl (fun v p => if v.get p.1 = p.2.2 then v.put p.1 p.2.1 else v) c.v
    vm := r.oldM.foldl (fun v p => if v.get p.1 = p.2.2 then v.put p.1 p.2.1 else v) c.vm }

/-- An item that a context has issued ahead of its boundary. -/
def VItem.isAhead (v : VItem) (w : Who) : Bool :=
  v.who == w && match v.place with | .ahead _ _ => true | _ => false

/-- The items that a context has issued ahead to the vector queue removed, but the first `keep` of them (R170). -/
def dropAhead (w : Who) : Nat → List VItem → List VItem
  | _, [] => []
  | keep, v :: rest =>
    if v.isAhead w then (if keep = 0 then dropAhead w 0 rest else v :: dropAhead w (keep - 1) rest)
    else v :: dropAhead w keep rest

/-- The context's boundary stands at an instruction that it has issued ahead to the vector queue and that is there
still. -/
def Ctx.atQueued (c : Ctx) : Bool :=
  match c.ahead with | r :: _ => r.vec == .queued && r.pc == c.pc && r.h == c.h | [] => false

/-- The boundary reaches such an instruction: from now on it is performed, or parks, as one issued there. -/
def reachVm (w : Who) (s : State) : State :=
  let c := s.ctx w
  let k := s.core w.core
  let i := k.vq.findIdx (·.isAhead w)
  match c.ahead, k.vq[i]? with
  | r :: rest, some v =>
    if c.atQueued && !c.vwait then
      let part := match v.place with | .ahead p _ => p | _ => 0
      (s.setCore w.core { k with vq := k.vq.set i { v with place := .reached } }).setCtx w
        { c with vwait := true, resume := part, ahead := { r with oldV := [], oldM := [] } :: rest }
    else s
  | _, _ => s

/-- The party of a fault, with contexts renamed. -/
def Party.rename (f : Who → Who) : Party → Party
  | .ctx w => .ctx (f w)
  | .stream w => .stream (f w)
  | .vector w => .vector (f w)
  | p => p

/-- The message with the party of a fault it answers renamed, when it is one of a virtual device. -/
def LinkMsg.rename (f : Party → Party) (vdev : Nat) : LinkMsg → LinkMsg
  | .answer v a x => .answer v a (if v = vdev then { x with party := f x.party } else x)
  | m => m

/-- The faults of a virtual device, waiting, outstanding or answered on a command link, with their parties renamed (R396). -/
def renameFaults (f : Party → Party) (vdev : Nat) (s : State) : State :=
  let v := s.vdev vdev
  let g (x : FaultRec) : FaultRec := { x with party := f x.party }
  let s := s.setVdev vdev { v with fwait := v.fwait.map g, fout := v.fout.map fun p => (p.1, p.2.map g) }
  { s with links := s.links.map fun p => (p.1, p.2.map (LinkMsg.rename f vdev)) }

/-- A fault of a virtual device, waiting, outstanding or answered on a command link, whose party satisfies `f`. -/
def faultOut (f : Party → Bool) (vdev : Nat) (s : State) : Bool :=
  let v := s.vdev vdev
  v.fwait.any (fun x => f x.party) || v.fout.any (fun p => match p.2 with | some x => f x.party | none => false) ||
    s.links.any fun p => p.2.any fun m => match m with | .answer d _ x => d == vdev && f x.party | _ => false

/-- A stream of a context that has been discarded while it was parked: its entry is still outstanding (R395). -/
def goneStream (w : Who) : Party := .stream ⟨w.core, 32 + w.ctx % 16⟩

/-- The entry of a context's parked stream is one of a discarded stream from now on. -/
def dropStreamEntry (w : Who) (s : State) : State :=
  match (s.core w.core).grp with
  | some g => renameFaults (fun p => if p == .stream w then goneStream w else p) g.vdev s
  | none => s

/-- An entry of a discarded stream of a context is outstanding. -/
def streamEntryOut (w : Who) (s : State) : Bool :=
  match (s.core w.core).grp with
  | some g => faultOut (· == goneStream w) g.vdev s
  | none => false

/-- The requests of agents that have gone: what has been sent can still be performed at its owner, so its answer is waited for
by nothing (R382); what its owner has answered, or has not performed and a port would repeat, is forgotten. -/
def forgetReqs (gone : Agent → Bool) (s : State) : State :=
  let f (x : Option Req) : Option Req := x.bind fun r =>
    if !gone r.agent then some r
    else if r.answer.isSome || r.moving then none
    else some { r with agent := .post 0, withdrawn := true }
  { s with fab := { s.fab with reqs := s.fab.reqs.filterMap fun p => (f p.2).map fun r => (p.1, some r) } }

/-- R12: everything beyond the precise boundary of a context is discarded. -/
def flushCtx (w : Who) (s : State) : State :=
  let c := s.ctx w
  let d := c.discard
  let parked := match c.stream with | some t => t.park != .free | none => false
  let s := if parked && d.1.stream.isNone then dropStreamEntry w s else s
  let k := s.core w.core
  let k := d.2.reverse.foldl CoreSt.undo k
  let vq := dropAhead w ((d.1.ahead.drop c.beyond.1.length).filter fun r => r.vec == .queued).length k.vq
  let cut := vq.length < k.vq.length && !c.vwait
  let s := s.setCore w.core { k with vq := vq }
  let s := s.setCtx w d.1
  if cut then forgetReqs (· == .vector w) s else s

/-! ### Completion -/

/-- The next address after an instruction of `n` halfwords with the counted-loop check of R140: the
context and the address. -/
def Ctx.after (c : Ctx) (n : Nat) : Ctx × BitVec 16 :=
  let nx := c.pc + BitVec.ofNat 16 (2 * n)
  match c.loop with
  | some l =>
    if !c.h && nx == l.stop then
      let v := c.ia l.ctr - 1
      let c := c.wi l.ctr v
      if v != 0 then (c, l.start) else ({ c with loop := none }, nx)
    else (c, nx)
  | none => (c, nx)

/-- A context past its instruction of `n` halfwords. -/
def Ctx.advance (c : Ctx) (n : Nat) : Ctx :=
  let r := c.after n
  { r.1 with pc := r.2 }

/-- The instruction of the executing context completes. -/
def finish (s : State) : Out := .next ((s.setMe (s.me.advance s.ilen)).withSig .done)

/-- The same, with the context changed first. -/
def finishWith (s : State) (c : Ctx) : Out := .next ((s.setMe (c.advance s.ilen)).withSig .done)

/-- R141: a taken branch or jump that leaves the body of an armed loop disarms it. -/
def Ctx.disarm (c : Ctx) (t : BitVec 16) : Ctx :=
  match c.loop with
  | some l => if l.start ≤ t && t < l.stop then c else { c with loop := none }
  | none => c

/-- A taken branch or jump completes; `dis` says whether it can disarm the loop (R141). -/
def finishJump (s : State) (c : Ctx) (t : BitVec 16) (dis : Bool) : Out :=
  .next ((s.setMe { (if dis then c.disarm t else c) with pc := t }).withSig .done)

/-- The instruction waits: nothing has happened and it stands at the boundary (R190). -/
def stall (s : State) : Out := .next (s.withSig .stalled)

/-- An action of a context is held in a tentative group (R359). -/
def heldAt (w : Who) (s : State) : Out :=
  .next ((s.setCtx w { s.ctx w with held := true }).withSig .held)

/-- It waits to pop an empty queue (R9). -/
def starve (s : State) (q : Nat) : Out := .next (s.withSig (.starved q))
/-- It waits to push into a full queue (R9). -/
def block (s : State) (q : Nat) : Out := .next (s.withSig (.blocked q))

/-- A half of a context, as one number: its access half, or, 16 on, its execute half. -/
def halfNo (e : Bool) (ctx : Nat) : Nat := if e then 16 + ctx else ctx

/-! ### Fetch (R27, R102) -/

/-- The overwritten halfwords that a context has not discarded by an ISYNC since. -/
def oldCode (k : CoreSt) (c : Ctx) : List (Nat × Half) := k.codeOld.drop c.synced

/-- A halfword as a context fetches it: its value, or, overwritten and no ISYNC executed since, that or a value
before (R27, R105). -/
def fetchHalf (k : CoreSt) (c : Ctx) (i : Nat) : Half :=
  let new := k.istore.get i
  let old := (oldCode k c).filterMap fun p => if p.1 = i then some p.2 else none
  if old.isEmpty then new else (new :: old).getD (Config.fetchOld c.fetchKey i % (old.length + 1)) new

/-- The halfwords a context fetches from a byte address to the end of the store, at most five; from an odd one, the halfword
that holds it is the first (DESIGN CHOICE, log entry 29). -/
def fetchWords (k : CoreSt) (c : Ctx) (pc : BitVec 16) : List Half :=
  (List.range (min 5 (16384 - pc.toNat / 2))).map fun j => fetchHalf k c (pc.toNat / 2 + j)

/-- The instruction a context fetches at an address. -/
def fetchAt (k : CoreSt) (c : Ctx) (pc : BitVec 16) : Decoded := decode (fetchWords k c pc)

/-- A context that is past an instruction: the next fetches choose anew between old and new halfwords. -/
def Ctx.counted (c : Ctx) : Ctx := { c with fetchKey := c.fetchKey + 1 }
/-- The context is past an instruction, when it is still live. -/
def refetch (w : Who) (s : State) : State :=
  if (s.ctx w).live then s.setCtx w (s.ctx w).counted else s

/-- The entries of a core's `codeOld` that no CPCODE still in progress has made: what an ISYNC now discards
(R217). -/
def syncedNow (k : CoreSt) : Nat :=
  match k.cp.queue with
  | x :: _ => (match x.ins with
    | .cpcode _ => k.codeOld.length - x.prog / 2
    | _ => k.codeOld.length)
  | [] => k.codeOld.length

/-- The length in halfwords of the instruction a context stands at. -/
def lenAt (s : State) (w : Who) : Nat :=
  match fetchAt (s.core w.core) (s.ctx w) (s.ctx w).pc with
  | .ok _ n => n
  | .bad _ _ => 0

/-- The last word of the chain of the executing instruction: its address in [31:16], itself in [15:0]
(R474). -/
def illegalTval (s : State) : DWord :=
  let a := s.me.pc + BitVec.ofNat 16 (2 * (s.ilen - 1))
  BitVec.ofNat 64 (a.toNat * 65536 + (fetchHalf s.myCore s.me (a.toNat / 2)).toNat)

/-! ### Packets out -/

/-- Bytes +0 to +59 of the header flit of a packet (R426). -/
def headerBytes (p : Packet) : List Byte :=
  leBytes 1 (p.cls * 64 + p.typ) ++ leBytes 1 ((if p.replay then 1 else 0) + 2 * p.hres.toNat) ++
  leBytes 2 (p.ddev + 4096 * p.dres.toNat) ++ leBytes 2 (p.sdev + 4096 * p.sres.toNat) ++
  leBytes 2 p.tvdev ++ leBytes 2 p.svdev ++ leBytes 2 p.space ++ leBytes 4 p.reqid ++ leBytes 8 p.addr.toNat ++
  leBytes 2 p.len ++ leBytes 2 (p.score + 4096 * p.sctx) ++ leBytes 1 p.scause.toNat ++ leBytes 1 p.sflags.toNat ++
  leBytes 2 p.lseq ++ leBytes 8 p.op0.toNat ++ leBytes 8 p.op1.toNat ++ leBytes 8 p.mres.toNat ++
  leBytes 4 p.pcrc.toNat

/-- A packet with its reserved bits 0 and its checksums (R426); no byte gives a checksum of 0. -/
def sealPkt (p : Packet) : Packet :=
  let p := { p with hres := 0, dres := 0, sres := 0, mres := 0, pcrc := crc32c p.payload }
  { p with hcrc := crc32c (headerBytes p) }

/-- A packet goes out on the port that carries its destination, with the next link sequence number of its
class (R426). The outbox lists every packet sent, and so is the replay buffer of R429. -/
def sendPkt (p : Packet) (s : State) : State :=
  let n := (Config.portOf p.ddev).val
  let q := s.fab.ports.get n
  let k := q.sent.get p.cls
  { s with fab := { s.fab with
      outbox := s.fab.outbox ++ [sealPkt { p with port := n, lseq := k }]
      ports := s.fab.ports.put n { q with sent := q.sent.put p.cls ((k + 1) % 65536) } } }

/-- The route to a device is lost: its port is down (R432). -/
def routeLost (dev : Nat) (s : State) : Bool := (s.fab.ports.get (Config.portOf dev).val).down

/-- An entry of a port's peer table written (R431). -/
def setPeer (port vdev entry : Nat) (s : State) : State :=
  let q := s.fab.ports.get port
  { s with fab := { s.fab with ports := s.fab.ports.put port { q with peers := q.peers.put vdev entry } } }

/-- The peer entry that the requests for a virtual device go by (R431). -/
def peerEntry (vdev : Nat) (s : State) : Nat :=
  (s.fab.ports.get (Config.peerPort vdev).val).peers.get vdev

/-- A request id that no outstanding request has (R433). -/
def freshId (s : State) : Nat :=
  (((List.range (s.fab.reqs.length + 1)).map fun i => (s.fab.nextReq + i) % 2 ^ 32).find? fun n =>
    (s.fab.reqs.get n).isNone).getD s.fab.nextReq

/-- The record of an outstanding request replaced; none when it is over. -/
def setReq (id : Nat) (r : Option Req) (s : State) : State :=
  { s with fab := { s.fab with reqs := s.fab.reqs.put id r } }

/-- The packet of an outstanding request sent, or, when its route is lost, the request ended with NACK 0x19
(R432). -/
def routeReq (id : Nat) (r : Req) (s : State) : State :=
  if routeLost r.pkt.ddev s then setReq id (some { r with answer := some (0x19, []), moving := false }) s
  else setReq id (some { r with moving := false }) (sendPkt r.pkt s)

/-- A request of an agent goes out under an id of its own (R432, R433). -/
def issueReq (ag : Agent) (p : Packet) (s : State) : State :=
  let n := freshId s
  let s := { s with fab := { s.fab with nextReq := (n + 1) % 2 ^ 32 } }
  routeReq n ⟨ag, { p with reqid := n }, none, false, false⟩ s

/-! ### Takes and returns (R198, R199, R219) -/

/-- The deferred takes of a context withdrawn from every owner's list. -/
def withdrawTake (w : Who) (s : State) : State :=
  if (s.ctx w).taking then
    let s := s.mapCores fun _ c => { c with takes := c.takes.filter fun t => !(t.pkt.isNone && t.who == w) }
    s.setCtx w { s.ctx w with taking := false }
  else s

/-- A request is a FETAKE at an owner on another device. -/
def Req.isTake (r : Req) : Bool := r.pkt.typ == 3 && bitAt r.pkt.scause.toNat 6 && r.pkt.sflags == 0

/-- R219: the takes of contexts that satisfy `p` at owners on other devices are withdrawn: one that a port still
repeats is dropped, and the owner of any other is told with the request's id in op0 (DESIGN CHOICE, log entry 12: form
4). The owner answers the take: DONE when it had served it, else MOVING. -/
def withdrawRemote (p : Who → Bool) (s : State) : State :=
  s.fab.reqs.foldl (fun s x =>
    match x.2 with
    | some r =>
      (match r.agent with
        | .ctx w =>
          if !p w || !r.isTake || r.withdrawn || r.answer.isSome then s
          else if r.moving then setReq x.1 none s
          else setReq x.1 (some { r with withdrawn := true })
            (sendPkt { r.pkt with sflags := 4, op0 := BitVec.ofNat 64 x.1 } s)
        | _ => s)
    | none => s) s

/-- The value ctl.tval holds for a NACK (R386). -/
def nackTval (sub : Nat) (low : DWord) : DWord :=
  BitVec.ofNat 64 (sub * 2 ^ 56 + low.toNat % 2 ^ 56)

/-- One deferred take returned to its requester: a context raises NACK 0x19, or WINGONE through a
WINDOW capability, the only kind that reaches a Trellis sender's (R199; DESIGN CHOICE, log entry 12). -/
def returnTake (owner : Nat) (s : State) (t : Take) : State :=
  match t.pkt with
  | some p =>
    sendPkt { p with typ := 0x10, ddev := p.sdev, sdev := s.fab.devid, scause := 0x42, sflags := 0
                     replay := false, len := 0, payload := [], op0 := 0, op1 := 0 } s
  | none =>
    if t.who.core = owner then s
    else
      let tv := BitVec.ofNat 64 t.addr
      let pk : Park := if t.window then .deliver 0x19 tv else .deliver 0x18 (nackTval 0x19 tv)
      s.setCtx t.who { s.ctx t.who with taking := false, park := pk }

/-! ### Barrier keys (R408, R409) -/

/-- The member bit of a ctl.domN value. -/
def domM (v : DWord) : Bool := v.getLsbD 8
/-- The key of a channel of a core under a ctl.domN value, as one number: channel, then virtual device or
pod domain, then tag. -/
def keyOf (n vdev : Nat) (v : DWord) : Nat :=
  n * 2 ^ 22 + (if n = 15 then bitsOf v.toNat 31 16 else vdev) * 64 + bitsOf v.toNat 7 0
/-- The virtual device of a core's group. -/
def CoreSt.vdevNo (c : CoreSt) : Nat := match c.grp with | some g => g.vdev | none => 0
/-- The key of a core on a channel, when it is a member. -/
def CoreSt.key (c : CoreSt) (n : Nat) : Option Nat :=
  if c.grp.isSome && domM (c.dom.get n) then some (keyOf n c.vdevNo (c.dom.get n)) else none
/-- The cores that are members of a key, running or saved: their states. -/
def members (n key : Nat) (s : State) : List CoreSt :=
  (s.cores.map Prod.snd ++ s.savedGroups.filterMap fun p => p.2.map fun v => v.img).filter
    fun c => c.key n == some key
/-- The active keys of a channel (R408). -/
def activeKeys (n : Nat) (s : State) : List Nat :=
  (s.cores.map Prod.snd ++ s.savedGroups.filterMap fun p => p.2.map fun v => v.img).foldl
    (fun l c => match c.key n with | some k => setIns l k | none => l) []

/-! ### The groups of a launch (R356, R365, R408) -/

/-- The groups a launch has created so far: 0 to N̂ − 1, and with its tail 0 to N − 1 (R356, R365). -/
def LaunchSt.created (l : LaunchSt) : Nat :=
  if l.tailRun then l.resolved.getD l.predicted
  else match l.resolved with
    | some n => if l.applied then min n l.predicted else l.predicted
    | none => l.predicted

/-- The first group that waits to start; none once the check at group start has failed (R413). -/
def LaunchSt.nextGroup (l : LaunchSt) : Option Nat :=
  if l.refused ≠ 0 then none
  else (List.range (min l.created (l.gst.length + 1))).find? fun g => l.gst.get g == .waiting

/-- The key of channel 0 of a bulk launch. -/
def LaunchSt.key0 (l : LaunchSt) : Nat := keyOf 0 l.vdev (BitVec.ofNat 64 l.tag)

/-- The keys of a channel that are active, or, on channel 0, held for a bulk launch, or its tail, that has still to start
(R408). -/
def usedKeys (n : Nat) (s : State) : List Nat :=
  if n ≠ 0 then activeKeys n s
  else s.launches.foldl (fun l p =>
    let x := p.2
    if x.alive && x.bulk && (x.nextGroup.isSome || (x.spec && !x.tailRun)) then setIns l x.key0 else l) (activeKeys 0 s)

/-! ### Phases (R409 to R412, R418) -/

/-- The arrivals of a member on a channel that the tree has received: those before the first one held (R418). -/
def delivered (n R : Nat) (c : CoreSt) : Nat :=
  let h := c.chans.get n
  match h.held with
  | p :: _ => p.1
  | [] => h.next.getD R

/-- Every member of a key on this device has made its arrival for the phase not yet released. -/
def allArrived (n key : Nat) (s : State) : Bool :=
  let ms := members n key s
  let R := s.keys.get key
  !ms.isEmpty && ms.all fun c => decide (delivered n R c > R)

/-- A group of a bulk launch. -/
def CoreSt.isBulk (c : CoreSt) : Bool := match c.grp with | some g => g.bulk | none => false

/-- Phase R released at one member: its bit of ctl.barph, and in a bulk launch the start of an exchange phase or
of the next superstep on channel 0 (R411, R412). The exchange phase of a core that has made its next arrival already
is over at once. -/
def CoreSt.released (c : CoreSt) (n R : Nat) : CoreSt :=
  let odd := !c.barph.getLsbD n
  let c := { c with barph := c.barph ^^^ (1 <<< n) }
  if n = 0 && c.isBulk then
    if odd then { c with xphase := decide ((c.chans.get 0).next.getD 0 ≤ R + 1), xcyc := 0 }
    else { c with xphase := false, step := c.step + 1 }
  else c

/-- A phase of a key released at every member of the package, running or saved. -/
def releaseKey (n key : Nat) (s : State) : State :=
  let up (c : CoreSt) : CoreSt := if c.key n == some key then c.released n (s.keys.get key) else c
  let s := s.mapCores fun _ c => up c
  { s with
    keys := s.keys.put key (s.keys.get key + 1)
    savedGroups := s.savedGroups.map fun p => (p.1, p.2.map fun v => { v with img := up v.img })
    fab := { s.fab with pods := s.fab.pods.put key { s.fab.pods.get key with sent := false, got := [] } } }

/-! ### Channel 15 over Trellis (R410, R430) -/

/-- A packet of class C0 of channel 15: type BARARV or BARREL, with the key's fields, the phase parity and
the number of devices combined in op0; a scalar all-reduce adds its operation, k and value as a payload, and what
devices tell one another of members is a payload of one byte (DESIGN CHOICE, log entry 15). -/
def podPkt (typ dst key R devs : Nat) (body : List Byte) (s : State) : Packet :=
  { (default : Packet) with
    cls := 0, typ := typ, ddev := dst, sdev := s.fab.devid, svdev := 0xFFFF, score := 0xFFF
    len := body.length, payload := body
    op0 := BitVec.ofNat 64 (bitsOf (key / 64) 15 0 + (key % 64) * 2 ^ 16 + R % 2 * 2 ^ 24 + devs * 2 ^ 32) }

/-- The key of channel 15 that a packet's op0 names. -/
def podKeyOf (op0 : DWord) : Nat :=
  15 * 2 ^ 22 + bitsOf op0.toNat 15 0 * 64 + bitsOf op0.toNat 23 16 % 64
/-- The pod barrier domain of a key of channel 15. -/
def pdomOf (key : Nat) : Nat := bitsOf (key / 64) 15 0

/-- The state of a pod barrier group replaced. -/
def setPod (key : Nat) (p : PodKey) (s : State) : State :=
  { s with fab := { s.fab with pods := s.fab.pods.put key p } }

/-- The parity of the present phase of a pod barrier group. -/
def podParity (key : Nat) (s : State) : Nat := (s.keys.get key + (s.fab.pods.get key).off) % 2

/-- A release of channel 15 takes effect here and is fanned out to the devices below. -/
def podRelease (key : Nat) (s : State) : State :=
  let R := podParity key s
  releaseKey 15 key ((s.fab.pods.get key).below.foldl (fun s d => sendPkt (podPkt 0x21 d key R 0 [] s) s) s)

/-- A member of a key of channel 15 is moving to another device, and its state has been sent: what it has contributed to
the present phase and to reductions counts there (R274, R443). -/
def podLeaves (key : Nat) (s : State) : Bool :=
  s.savedGroups.any fun p => match p.2 with
    | some v => v.img.key 15 == some key &&
        (s.fab.migs.get v.img.vdevNo).active && (s.fab.migs.get v.img.vdevNo).sent
    | none => false

/-- Every member of a pod barrier group here and below has arrived for the present phase. -/
def podReady (key : Nat) (s : State) : Bool :=
  let p := s.fab.pods.get key
  let here := !(members 15 key s).isEmpty
  p.synced && !p.sent && !podLeaves key s && (here || !p.below.isEmpty) && (!here || allArrived 15 key s) &&
    p.below.all fun d => p.got.any fun g => g.1 == d

/-- A device combines the arrivals of its members with those of every device below it that has one, and sends one
arrival upward, or releases at the root. -/
def podAdvance (key : Nat) (s : State) : State :=
  if !podReady key s then s
  else match Config.podParent (pdomOf key) with
    | none => podRelease key s
    | some up =>
      let p := s.fab.pods.get key
      let devs := (p.got.map Prod.snd).sum + if (members 15 key s).isEmpty then 0 else 1
      setPod key { p with sent := true } (sendPkt (podPkt 0x20 up key (podParity key s) devs [] s) s)

/-- What a device tells the one above or below of the members of a key: 254 a first one, 253 none is left, 252 the
parity of the present phase (DESIGN CHOICE, log entry 15). -/
def podTell (typ dst key code : Nat) (s : State) : State :=
  sendPkt (podPkt typ dst key (podParity key s) 0 (leBytes 1 code) s) s

/-- A member here or below has joined a key of channel 15: the device above is told of the first. -/
def podJoin (key : Nat) (s : State) : State :=
  let p := s.fab.pods.get key
  if p.told then s
  else match Config.podParent (pdomOf key) with
    | none => setPod key { p with told := true, synced := true } s
    | some up => podTell 0x20 up key 254 (setPod key { p with told := true } s)

/-- A key keeps no phase, and its reductions no contribution (R269, R409). -/
def forgetKey (key : Nat) (s : State) : State :=
  { s with keys := s.keys.drop key, reds := s.reds.filter fun p => p.1 / 2 ^ 32 != key
           fab := { s.fab with pods := s.fab.pods.drop key } }

/-- The core number of a sender whose group has ended: it names no core. -/
def goneCore : Nat := 4096

/-! ### Scalar all-reduces (R269) -/

/-- The number of a reduction: the key of its group and k. -/
def redNo (key k : Nat) : Nat := key * 2 ^ 32 + k

/-- op over two values (R269). -/
def redOp (op : Nat) (a b : DWord) : DWord :=
  match op with
  | 0 => a + b
  | 1 => if a.toInt ≤ b.toInt then a else b
  | _ => if a.toInt ≥ b.toInt then a else b

/-- The operation of a contribution whose value another device has sent upward before the group moved (DESIGN CHOICE, log
entry 15); 255 says that the operations of contributions differ. -/
def sentElsewhere : Nat := 254

/-- What contributions come to: their operation, and op over their values. -/
def redValue (l : List Contribution) : Nat × DWord :=
  match l.filter fun x => x.op != sentElsewhere with
  | [] => (sentElsewhere, 0)
  | c :: t => if t.all fun x => x.op == c.op then (c.op, t.foldl (fun a x => redOp c.op a x.v) c.v) else (255, 0)

/-- The core number that marks a contribution from a device below. -/
def fromDev (dev : Nat) : Nat := goneCore + 1 + dev
/-- The mark of a reduction sent upward. -/
def sentMark : Nat := goneCore
/-- The mark of a reduction's result. -/
def finalMark : Nat := 2 * goneCore + 1

/-- A reduction has a mark, or a contribution, of a number. -/
def hasRed (r m : Nat) (s : State) : Bool := (s.reds.get r).any fun x => x.core == m

/-- One more contribution, or mark, of a reduction. -/
def addRed (r : Nat) (x : Contribution) (s : State) : State := { s with reds := s.reds.put r (s.reds.get r ++ [x]) }

/-- Every member of the group on this device has delivered its k-th contribution; a device may have none and combine those
of the devices below. -/
def redHere (n key k : Nat) (s : State) : Bool :=
  (members n key s).all fun c => decide (c.cp.crall.get n > k)

/-- The body of a channel 15 packet of a reduction: operation (255 when they differ), k and value. -/
def redBody (op k : Nat) (v : DWord) : List Byte := leBytes 1 op ++ leBytes 7 k ++ leBytes 8 v.toNat

/-- The result of a pod-wide reduction fanned out to the devices below and kept here. -/
def redFinish (key k op : Nat) (v : DWord) (s : State) : State :=
  addRed (redNo key k) ⟨finalMark, op, v⟩ ((s.fab.pods.get key).below.foldl (fun s d =>
    sendPkt (podPkt 0x21 d key 0 0 (redBody op k v) s) s) s)

/-- A reduction that every member has contributed to is complete: its result stands from now on, whoever leaves the group
after that. One of channel 15 waits for every device below too, and is sent upward, or finished at the root. -/
def redAdvance (n key k : Nat) (s : State) : State :=
  let r := redNo key k
  let x := redValue (s.reds.get r)
  if hasRed r sentMark s || hasRed r finalMark s || !redHere n key k s then s
  else if n ≠ 15 then addRed r ⟨finalMark, x.1, x.2⟩ s
  else if podLeaves key s || !((s.fab.pods.get key).below.all fun d => hasRed r (fromDev d) s) then s
  else match Config.podParent (pdomOf key) with
    | none => redFinish key k x.1 x.2 s
    | some up => addRed r ⟨sentMark, x.1, x.2⟩ (sendPkt (podPkt 0x20 up key 0 0 (redBody x.1 k x.2) s) s)

/-- The reductions of a key after a member has left it. -/
def redsAdvance (n key : Nat) (s : State) : State :=
  (s.reds.keys.filter fun r => r / 2 ^ 32 == key).foldl (fun s r => redAdvance n key (r % 2 ^ 32) s) s

/-- R409, R410: members of a key have gone. A key with none keeps no phase; on channel 15 the pod keeps it while it has
one, and the phase whose only missing arrivals were theirs goes on, as do reductions (R269). -/
def dropEmptyKey (n key : Nat) (s : State) : State :=
  let p := s.fab.pods.get key
  if (members n key s).isEmpty && p.below.isEmpty then
    forgetKey key (match p.told && n == 15, Config.podParent (pdomOf key) with
      | true, some up => podTell 0x20 up key 253 s
      | _, _ => s)
  else
    let s := redsAdvance n key s
    if n = 15 then podAdvance key s else s
/-- The keys of a core left behind, when no member remains (R409). -/
def dropKeysOf (c : CoreSt) (s : State) : State :=
  (List.range 16).foldl (fun s n => match c.key n with
    | some k => dropEmptyKey n k s
    | none => s) s

/-! ### The ends of groups (R34, R199, R324, R389, R392) -/

/-- The promises of a table dropped: no OPEN or REDEEMED promise and no pending report stays (R324). -/
def dropPromises (m : Mx) : Mx :=
  let drop (t : SMap PrSlot) (k : Nat) := t.put k { t.get k with inUse := false, pend := none }
  { m with promises := m.promises.keys.foldl drop m.promises }


/-- A sender whose group, of a launch, has ended. -/
def goneGroup (launch : Nat) : Who := ⟨goneCore, launch + 1⟩
/-- A helper that has ended: a context that is never live, with its number in the low four bits. -/
def goneHelper (w : Who) : Who := ⟨w.core, 16 + w.ctx⟩

/-- The core of an agent; none for Belvedere. -/
def Agent.core : Agent → Nat
  | .ctx w => w.core | .stream w => w.core | .vector w => w.core | .message w => w.core
  | .matrix k => k | .copy k => k | .io _ | .post _ => goneCore

/-- The requests of a core's agents forgotten, its takes withdrawn; a message on its way stays. -/
def dropReqs (core : Nat) (s : State) : State :=
  let s := withdrawRemote (·.core == core) s
  forgetReqs (fun a => match a with | .message _ => false | a => a.core == core) s

/-- Messages and exchange transfers on their way from parties that have ended, renamed (R226, R392, R417): `f` renames a
party. -/
def renameSenders (f : Who → Who) (s : State) : State :=
  let s := s.mapCores fun _ c =>
    { c with
      rxIn := c.rxIn.map fun m => if m.pkt.isNone then { m with who := f m.who } else m
      xfers := c.xfers.map fun x => { x with who := f x.who }
      landFrom := f c.landFrom }
  let g (r : Option Req) : Option Req := match r with
    | some r => match r.agent with
      | .message w => some { r with agent := .message (f w) }
      | _ => some r
    | none => none
  { s with fab := { s.fab with reqs := s.fab.reqs.map fun p => (p.1, g p.2) } }

/-- SENDP and PKEND messages of contexts that satisfy `p`, not yet answered (R205, R392, R418). -/
def messagesOf (p : Who → Bool) (s : State) : Nat :=
  (s.cores.map fun k => (k.2.rxIn.filter fun m => m.pkt.isNone && p m.who).length).sum +
    (s.fab.reqs.filter fun r => match r.2 with
      | some r => match r.agent with | .message w => p w | _ => false
      | none => false).length

/-- A core without its group: contexts, engines' commands and barrier arrivals gone, the memory left as
it was until the next group starts, messages on their way to it kept, and the transfers that it has captured, which go on
(R416). -/
def CoreSt.freed (c : CoreSt) : CoreSt :=
  { c with grp := none, ctxs := [], vq := [], takes := [], chans := [], dom := [],
           landing := [], xphase := false, saved := false,
           mx := { dropPromises c.mx with queue := [] }, cp := { c.cp with queue := [] } }

/-- The group of a core runs there and has not ended: a DETACHING one has (R442). -/
def groupRuns (core : Nat) (s : State) : Bool :=
  match (s.core core).grp with
  | some g => (match (s.launchOf g.launch).gst.get g.idx with | .detaching _ => false | _ => true)
  | none => false

/-- R28: at a group start or end the Kiosk sets ctl.vshare of every core of the cluster. -/
def setVshare (core : Nat) (s : State) : State :=
  let at_ (i : Nat) : Nat := core / 4 * 4 + i
  let v := BitVec.ofNat 64 (((List.range 4).map fun i => if groupRuns (at_ i) s then 64 * 2 ^ (8 * i) else 0).sum)
  (List.range 4).foldl (fun s i => s.setCore (at_ i) { s.core (at_ i) with vshare := v }) s

/-- The number by which a group contributes to reductions. -/
def memberId (g : Grp) : Nat := 3 * goneCore + g.launch * 2 ^ 32 + g.idx

/-- The contributions of a core's group to reductions not yet complete go with it (R269); the result of a complete one
stays. -/
def dropContributions (c : CoreSt) (s : State) : State :=
  match c.grp with
  | none => s
  | some g => { s with reds := s.reds.keys.foldl (fun m k =>
      m.put k ((m.get k).filter fun x => x.core != memberId g)) s.reds }

/-- The group of a core leaves it: every deferred take of others on its words is returned, its own are
withdrawn with its contexts, and the core is free (R199, R269, R409). -/
def freeCore (core : Nat) (s : State) : State :=
  let s := (s.core core).takes.foldl (returnTake core) s
  let s := s.mapCores fun _ c =>
    { c with takes := c.takes.filter fun t => !(t.pkt.isNone && t.who.core == core) }
  let gone := match (s.core core).grp with | some g => goneGroup g.launch | none => ⟨goneCore, 0⟩
  let s := renameSenders (fun w => if w.core = core then gone else w) s
  let c := s.core core
  setVshare core (dropKeysOf c (dropContributions c (dropReqs core (s.setCore core c.freed))))

/-- A saved group discarded: its image goes, and the core it left is no longer saved. -/
def dropSaved (slot : Nat) (s : State) : State :=
  match s.savedGroups.get slot with
  | none => s
  | some v =>
    let s := { s with savedGroups := s.savedGroups.drop slot }
    let c := s.core v.core
    let s := if c.grp.isNone then s.setCore v.core { c with saved := false } else s
    dropKeysOf v.img (dropContributions v.img s)

/-- A helper ends (R205, R206): its deferred take is withdrawn, its stream stops, its open packet, loop
state and reports go; vector work and engine commands it issued run on without a live issuer, and its fault entries
are answered by nothing. -/
def endHelper (w : Who) (s : State) : State :=
  let s := flushCtx w (withdrawTake w s)
  let f (x : Who) : Who := if x == w then goneHelper w else x
  let s := match (s.core w.core).grp with
    | some g => renameFaults (Party.rename f) g.vdev s
    | none => s
  let s := renameSenders f s
  let s := forgetReqs (fun a => a == .ctx w || a == .stream w || a == .vector w) s
  let c := s.core w.core
  let cmd (q : List Cmd) : List Cmd := q.map fun x => { x with who := f x.who }
  let waits := (s.ctx w).vwait
  s.setCore w.core { c with
    ctxs := c.ctxs.drop w.ctx
    vq := (c.vq.filter fun v => !(waits && v.who == w && v.pc == (s.ctx w).pc)).map
      fun v => { v with who := f v.who }
    mx := { c.mx with
      queue := cmd c.mx.queue
      promises := c.mx.promises.map fun p => (p.1, if p.2.inUse && p.2.ctx == w.ctx then { p.2 with ctx := 0 } else p.2) }
    cp := { c.cp with queue := cmd c.cp.queue } }

/-- A change of a member's state, as PGCTL carries it between Belvederes (DESIGN CHOICE, log entry 12): 1 attached,
2 detached, 3 departed, 4 detaching, 5 moving, 9 saved, 10 its launch has completed, 11 and 12 it has an open packet, or none, 13 and 14 it is
stopped for a save, or has a core to resume on, or neither, 16 its group has been squashed. -/
def Member.mark (m : Member) : Nat → Member
  | 1 => { m with att := true }
  | 2 => { m with det := true }
  | 3 => { m with departed := true }
  | 4 => { m with detaching := true }
  | 5 => { m with moving := true }
  | 9 => { m with saves := m.saves + 1, ready := false }
  | 10 => { m with present := false, placed := false }
  | 11 => { m with pkOpen := true }
  | 12 => { m with pkOpen := false }
  | 13 => { m with ready := true }
  | 14 => { m with ready := false }
  | 16 => { m with core := goneCore }
  | _ => m

/-- A member of a pergola whose group has a core. The group of one that a speculative launch holds and has not created has
none (`goneCore`). -/
def Member.runs (m : Member) : Bool := m.present && m.placed && decide (m.core < goneCore)

/-- A member of a pergola marked in this device's table. -/
def markMember (pgid k op : Nat) (s : State) : State :=
  let p := s.fab.pergs.get pgid
  { s with fab := { s.fab with pergs := s.fab.pergs.put pgid { p with
      members := p.members.put k ((p.members.get k).mark op) } } }

/-- The devices of a pergola's members but this one. -/
def pergDevs (pgid : Nat) (s : State) : List Nat :=
  let p := s.fab.pergs.get pgid
  (List.range p.m).foldl (fun l i =>
    let d := (p.members.get i).dev
    if (p.members.get i).present && d ≠ s.fab.devid then setIns l d else l) []

/-- The device to which a virtual device of this one is moving, once its state has been sent, or has moved (R443). -/
def movesTo (v : Nat) (s : State) : Option Nat :=
  let m := s.fab.migs.get v
  if m.active && m.sent then some m.target
  else match s.fab.movedTo.get v with | 0 => none | n + 1 => some n

/-- A pair added to a list that does not hold it. -/
def addOnce (l : List (Nat × Nat)) (x : Nat × Nat) : List (Nat × Nat) := if l.contains x then l else l ++ [x]

/-- The devices to which members that the table still has here are moving, but those that have members already, each with a
virtual device that moves (R441). -/
def pergTargets (pgid : Nat) (s : State) : List (Nat × Nat) :=
  let p := s.fab.pergs.get pgid
  (List.range p.m).foldl (fun l i =>
    let m := p.members.get i
    match (if m.present && m.dev = s.fab.devid then movesTo m.vdev s else none) with
    | some d => if (pergDevs pgid s).contains d then l else addOnce l (d, m.vdev)
    | none => l) []

/-- A PGCTL packet to a device, about its members, or, with a virtual device in svdev, about those of one that moves there
(DESIGN CHOICE, log entry 12). -/
def pgPkt (pgid dst svdev : Nat) (body : List Byte) (s : State) : State :=
  sendPkt { (default : Packet) with
    cls := 0, typ := 0x22, ddev := dst, sdev := s.fab.devid, svdev := svdev, score := 0xFFF
    space := pgid, len := body.length, payload := body } s

/-- What is said of a pergola to the devices of its members, and to those to which members of this one are moving. -/
def pergTell (pgid : Nat) (body : List Byte) (s : State) : State :=
  let t := (pergTargets pgid s).foldl (fun s x => pgPkt pgid x.1 x.2 body s) s
  (pergDevs pgid s).foldl (fun s d => pgPkt pgid d 0xFFFF body s) t

/-- A member marked here and, over PGCTL, at every device of the pergola (R441). -/
def pergMark (pgid k op : Nat) (s : State) : State :=
  pergTell pgid [BitVec.ofNat 8 op, BitVec.ofNat 8 k] (markMember pgid k op s)

/-- The group of a core whose launch has the pergola flag, with its pergola id and member index. -/
def pergOf (core : Nat) (s : State) : Option (Nat × Nat) :=
  match (s.core core).grp with
  | some g =>
    if g.pergola then
      let l := s.launchOf g.launch
      some (l.pgid, l.pgF + g.idx)
    else none
  | none => none

/-- A DETACHING member whose every peer has detached, ended or departed leaves its core (R442). -/
def freeDetached (pgid : Nat) (s : State) : State :=
  let p := s.fab.pergs.get pgid
  let done (k : Nat) : Bool := (List.range p.m).all fun i =>
    i == k || (p.members.get i).det || (p.members.get i).detaching || (p.members.get i).departed || !(p.members.get i).runs
  s.cores.keys.foldl (fun s c =>
    match (s.core c).grp, pergOf c s with
    | some g, some (pg, k) =>
      let l := s.launchOf g.launch
      if pg = pgid && l.gst.get g.idx == .detaching c && (p.members.get k).detaching && done k then
        freeCore c (s.setLaunch g.launch { l with gst := l.gst.put g.idx .ended, endT := s.time })
      else s
    | _, _ => s) s

/-- The group of a member, by its index in its launch, has been squashed: it never attaches (R53), and no peer waits for it. -/
def memberSquashed (launch idx : Nat) (s : State) : State :=
  let l := s.launchOf launch
  if l.pergola then freeDetached l.pgid (pergMark l.pgid (l.pgF + idx) 16 s) else s

/-- A member of a pergola departs, which may be what a DETACHING one on this device waits for (R442). -/
def memberGone (pgid k : Nat) (s : State) : State := freeDetached pgid (pergMark pgid k 3 s)

/-- The group of a core, a member of a pergola, departs (R442). -/
def departMember (g : Grp) (s : State) : State :=
  let l := s.launchOf g.launch
  if g.pergola then memberGone l.pgid (l.pgF + g.idx) s else s

/-- R389: the group of a core is terminated with a cause. -/
def terminateGroup (core cause : Nat) (s : State) : State :=
  match (s.core core).grp with
  | none => s
  | some g =>
    let l := s.launchOf g.launch
    let first := !l.faulted || (!l.bulk && g.idx < l.fgroup)
    let s := s.setLaunch g.launch { l with
      gst := l.gst.put g.idx (.terminated cause)
      faulted := true
      cause := if first then cause else l.cause
      fgroup := if first then g.idx else l.fgroup
      endT := s.time }
    departMember g (freeCore core s)

/-- The cores that run groups of a launch. -/
def coresOf (launch : Nat) (s : State) : List Nat :=
  s.cores.keys.filter fun k => match (s.core k).grp with | some g => g.launch == launch | none => false

/-- The rest of a bulk launch terminated with a cause (R45). -/
def terminateRest (launch cause : Nat) (s : State) : State :=
  let s := (coresOf launch s).foldl (fun t k => terminateGroup k cause t) s
  let stop (s : State) (k : Nat) : State :=
    let l := s.launchOf launch
    let s' := s.setLaunch launch { l with gst := l.gst.put k (.terminated cause) }
    let s' := if l.pergola then memberGone l.pgid (l.pgF + k) s' else s'
    match l.gst.get k with
    | .waiting => s'
    | .saved slot => dropSaved slot s'
    | _ => s
  (List.range (s.launchOf launch).groups).foldl stop s

/-- R389: an open launch loses the group, a bulk launch ends whole, the trapping group first (R45). -/
def terminateFor (core cause : Nat) (s : State) : State :=
  match (s.core core).grp with
  | none => s
  | some g =>
    let s := terminateGroup core cause s
    if g.bulk then terminateRest g.launch cause s else s

/-! ### Traps (R388, R389) -/

/-- The handler entry of R388. The pc takes the low 16 bits of ctl.tvec, of an odd value too (DESIGN CHOICE, log entry 29). -/
def Ctx.enterHandler (c : Ctx) (cause : Nat) (tval : DWord) : Ctx :=
  { c with packet := none, epc := c.pc.setWidth 64, cause := BitVec.ofNat 64 cause, tval := tval, h := true,
           pc := c.tvec.setWidth 16, park := .free, yielded := [], held := false, planEnt := none }

/-- R388, R389: the one operation that takes a trap in a context, at its boundary. -/
def trapAt (w : Who) (cause : Nat) (tval : DWord) (s : State) : State :=
  let s := withdrawTake w s
  let s := flushCtx w s
  let c := s.ctx w
  if c.h || c.tvec == 0 then (terminateFor w.core cause s).withSig .trapped
  else (s.setCtx w (c.enterHandler cause tval)).withSig .trapped

/-- A trap of the executing context. -/
def trap (s : State) (cause : Nat) (tval : DWord) : Out := .next (trapAt s.cur cause tval s)

/-- ILLEGAL with the value of R474. -/
def illegal (s : State) : Out := trap s 0x01 (illegalTval s)

/-- R217: the return from a handler, to the low 16 bits of ctl.epc, of an odd value too (DESIGN CHOICE, log entry 29). -/
def Ctx.leaveHandler (c : Ctx) : Ctx := { c with pc := c.epc.setWidth 16, h := false }

/-! ### Reports (R391, R392) -/

/-- The context a report is held in: the one named, or context 0 when that is not live. -/
def reportWho (w : Who) (s : State) : Who := if (s.ctx w).live then w else ⟨w.core, 0⟩

/-- A report becomes pending; one for a group that has ended goes nowhere. -/
def addReport (w : Who) (cause : Nat) (tval : DWord) (s : State) : State :=
  if w.core = goneCore then s
  else
    let r := reportWho w s
    let c := s.ctx r
    let s := s.setCtx r { c with reports := c.reports ++ [⟨cause, tval, s.stamp⟩] }
    { s with stamp := s.stamp + 1 }

/-- The pending PREXPIRED reports that a context raises: those it issued, and in context 0 those of
contexts that are not live (R312). -/
def expiredFor (w : Who) (s : State) : List (Nat × Nat) :=
  let m := (s.core w.core).mx
  m.promises.keys.filterMap fun k =>
    let p := m.promises.get k
    match p.pend with
    | some o =>
      if p.ctx == w.ctx || (w.ctx == 0 && !(s.ctx ⟨w.core, p.ctx⟩).live) then some (o, k) else none
    | none => none

/-- The handle of a promise (R302). -/
def handleOf (seq : Word) (slot : Nat) : DWord := BitVec.ofNat 64 (seq.toNat * 2 ^ 32 + slot)

/-- The oldest pending report of a context: its rank, cause and value, and the state without it. -/
def nextReport (w : Who) (s : State) : Option (Nat × DWord × State) :=
  let c := s.ctx w
  let own : List (Nat × Nat × DWord × State) :=
    (match c.reports with
      | [] => []
      | r :: rest => [(r.order, r.cause, r.tval, s.setCtx w { c with reports := rest })]) ++
    (match c.lossfloor with
      | none => []
      | some r => [(r.order, r.cause, r.tval, s.setCtx w { c with lossfloor := none })]) ++
    (expiredFor w s).map fun p =>
      let core := s.core w.core
      let sl := core.mx.promises.get p.2
      (p.1, 0x20, handleOf sl.seq p.2,
        s.setCore w.core { core with mx := { core.mx with
          promises := core.mx.promises.put p.2 { sl with inUse := false, pend := none } } })
  match own with
  | [] => none
  | h :: t =>
    let b := t.foldl (fun b x => if x.1 < b.1 then x else b) h
    some (b.2.1, b.2.2.1, b.2.2.2)

/-- A remote access of the context's instruction is on its way: the instruction is not withdrawn, but for a take
(R219). -/
def reqOut (w : Who) (s : State) : Bool :=
  s.fab.reqs.any fun p => match p.2 with | some r => r.agent == .ctx w | none => false

/-- The contexts of a core are stopped for a save (R402). -/
def CoreSt.halted (c : CoreSt) : Bool := match c.grp with | some g => g.halted | none => false

/-- R391: a report waits in a context that can take one at its next boundary: live, at handler level 0, not
parked, its group neither saved nor stopped for a save, its oldest instruction no vector operation in the vector
queue. -/
def reportDue (w : Who) (s : State) : Bool :=
  let c := s.ctx w
  c.live && !c.h && !c.vwait && !c.atQueued && c.park == .free && !(s.core w.core).saved && !(s.core w.core).halted &&
    (nextReport w s).isSome

/-- R391: a report can be raised in a context now: no remote access of its instruction is on its way. -/
def reportReady (w : Who) (s : State) : Bool := reportDue w s && !reqOut w s

/-- R387: PEND. -/
def pendBit (w : Who) (s : State) : Bool := (nextReport w s).isSome

/-- R391: the oldest pending report is raised. -/
def raiseReport (w : Who) (s : State) : State :=
  match nextReport w s with
  | some (cause, tval, s') => trapAt w cause tval s'
  | none => s

/-! ### Parking (R393 to R395) -/

/-- A fault waits for its entry in the virtual device's fault queue (R393). -/
def addFault (vdev : Nat) (f : FaultRec) (s : State) : State :=
  let v := s.vdev vdev
  s.setVdev vdev { v with fwait := v.fwait ++ [f] }

/-- The entry of a party of a group (R394). -/
def groupFault (party : Party) (w : Who) (pc : BitVec 16) (cause sub acc prog source : Nat) (va : DWord)
    (s : State) : State :=
  match (s.core w.core).grp with
  | none => s
  | some g =>
    addFault g.vdev
      { party := party, cause := cause, ctx := w.ctx % 16, core := w.core, va := va, launch := g.id, group := g.idx,
        pc := pc.toNat, prog := prog, space := g.space, source := source, flags := sub + 16 * acc } s

/-- R395: a context parks at its boundary, with what stands beyond it discarded. -/
def parkCtx (w : Who) (cause sub acc prog : Nat) (va : DWord) (s : State) : State :=
  let s := flushCtx w s
  let c := s.ctx w
  let s := s.setCtx w { c with park := .parked }
  (groupFault (.ctx w) w c.pc cause sub acc prog 0 va s).withSig .parked

/-! ### Free values (DESIGN CHOICE, log entry 4) -/

/-- The next free value of the device and the state that has used it. -/
def State.bump (s : State) : State := { s with freeCtr := s.freeCtr + 1 }

end Sys2Proof.Machine
end

