-- ==== Sys2Proof/Machine/Memory.lean ====
section
/-! DEFINITION. Local memories with their guards and windows, physical memory, translation, remote
requests, and the reads and writes every instruction and engine makes through them. -/

namespace Sys2Proof.Machine

/-! ### Bytes -/

/-- The canonical form of a memory: addresses strictly rising, no byte listed that an unlisted address
reads as (0; DESIGN CHOICE, log entry 3). -/
def Memory.wf (m : List Host.Cell) : Bool := SMap.wf (α := Byte) m
/-- The bytes from an address. -/
def Memory.bytes (m : List Host.Cell) (a n : Nat) : List Byte := SMap.getList (α := Byte) m a n
/-- A little-endian number of n bytes. -/
def Memory.num (m : List Host.Cell) (a n : Nat) : Nat := leNat (Memory.bytes m a n)
/-- Bytes written from an address. -/
def Memory.store (m : List Host.Cell) (a : Nat) (bs : List Byte) : List Host.Cell :=
  SMap.putList (α := Byte) m a bs

/-- The tags of the granules that n bytes from an address touch, cleared (R22). -/
def clearTags (t : SMap Bool) (a n : Nat) : SMap Bool :=
  (rangeFrom (a / 16) ((a + n + 15) / 16)).foldl (fun t g => t.put g false) t

/-- Local memory read: bytes. -/
def CoreSt.bytes (c : CoreSt) (a n : Nat) : List Byte := c.lm.getList a n
/-- Local memory read: number. -/
def CoreSt.num (c : CoreSt) (a n : Nat) : Nat := leNat (c.bytes a n)
/-- Local memory write: the bytes, and the tags of their granules cleared (R22). -/
def CoreSt.store (c : CoreSt) (a : Nat) (bs : List Byte) : CoreSt :=
  { c with lm := c.lm.putList a bs, ltag := clearTags c.ltag a bs.length }

/-- The words of an exchange transfer that were still to be written are written (R415, R417). -/
def CoreSt.land (c : CoreSt) : CoreSt :=
  c.landing.foldl (fun c p => c.store p.1 p.2) { c with landing := [] }

/-- The end of the HBM range of R374. -/
def hbmEnd : Nat := 0x6000000000
/-- The wake window page of R434. -/
def wakeBase : Nat := 0xFFFFFFFFFF000

/-- Physical write: the bytes, and the tags of their granules cleared. -/
def State.physStore (s : State) (a : Nat) (bs : List Byte) : State :=
  { s with mem := Memory.store s.mem a bs, mtag := clearTags s.mtag a bs.length }
/-- Physical read: number. -/
def State.physNum (s : State) (a n : Nat) : Nat := Memory.num s.mem a n

/-! ### Rights and guards (R24, R113, R192) -/

/-- What an access needs: read, write, atomic, and the capability permission C; and whether it is a
full/empty operation, which takes the window right FE. -/
structure Need where
  r : Bool
  w : Bool
  a : Bool
  c : Bool
  fe : Bool
  deriving DecidableEq, Repr, Inhabited

/-- A read. -/
def needR : Need := ⟨true, false, false, false, false⟩
/-- A write. -/
def needW : Need := ⟨false, true, false, false, false⟩
/-- A read and a write. -/
def needRW : Need := ⟨true, true, false, false, false⟩
/-- An atomic. -/
def needA : Need := ⟨true, true, true, false, false⟩
/-- A full/empty operation but FEPEEK. -/
def needFE : Need := ⟨true, true, true, false, true⟩
/-- FEPEEK. -/
def needPeek : Need := ⟨true, false, false, false, true⟩
/-- A tagged store. -/
def needWC : Need := ⟨false, true, false, true, false⟩

/-- R24: one region of the guards covers every byte and grants the rights. -/
def guardOk (g : SMap DWord) (a n : Nat) (nd : Need) : Bool :=
  (List.range 4).any fun i =>
    let v := (g.get i).toNat
    decide (bitsOf v 15 0 ≤ a) && decide (a + n ≤ bitsOf v 31 16 + 1) &&
    (!nd.r || bitAt v 32) && (!nd.w || bitAt v 33) && (!nd.a || bitAt v 34)

/-- R18 and R24: every byte in 0x0000 to 0xBFFF and admitted by the guards. -/
def localOk (g : SMap DWord) (a n : Nat) (nd : Need) : Bool :=
  decide (a + n ≤ 0xC000) && guardOk g a n nd

/-- R17 after the tag: seal, kind, permissions and, when asked, bounds; the cause of the first test that
fails. -/
def capCheck (v : AVal) (ea : DWord) (n : Nat) (nd : Need) (kinds : List Nat) (bounds : Bool) : Option Nat :=
  if v.sealed then some 0x06
  else if !kinds.contains v.kind then some 0x05
  else if (nd.r && !v.permR) || (nd.w && !v.permW) || (nd.a && !v.permA) || (nd.c && !v.permC) then some 0x05
  else if bounds && !decide ((ea - v.baseS).toNat + n ≤ v.length) then some 0x04
  else none

/-- Where an access that passed its checks goes. -/
inductive Route where
  | loc
  | core (k : Nat)
  | glob
  | win (pgid member : Nat)
  | rem (vdev : Nat)
  deriving DecidableEq, Repr, Inhabited

/-- All five kinds. -/
def allKinds : List Nat := [0, 1, 2, 3, 4]

/-- R112 step 3: the checks of an access of n bytes at ea through an a register of a context of a core,
under guards; the cause of a failure or the route. -/
def route (core : Nat) (g : SMap DWord) (v : AVal) (ea : DWord) (n : Nat) (nd : Need) (kinds : List Nat) :
    Except Nat Route :=
  if !v.tag then (if localOk g ea.toNat n nd then .ok .loc else .error 0x08)
  else match capCheck v ea n nd kinds true with
    | some c => .error c
    | none =>
      let id := bitsOf ea.toNat 27 16
      match v.kind with
      | 0 => .ok .glob
      | 1 => if localOk g ea.toNat n nd then .ok .loc else .error 0x08
      | 2 =>
        if id = core then (if localOk g (ea.toNat % 65536) n nd then .ok (.core id) else .error 0x08)
        else .ok (.core id)
      | 3 => .ok (.win v.target id)
      | _ => .ok (.rem v.target)

/-! ### Windows (R25, R26) -/

/-- The sender of an access performed at an owner: device, logical core, virtual device. -/
structure Sender where
  dev : Nat
  core : Nat
  vdev : Nat
  deriving DecidableEq, Repr, Inhabited

/-- A core of this device as a sender. -/
def senderOf (core : Nat) (s : State) : Sender :=
  ⟨s.fab.devid, core, match (s.core core).grp with | some g => g.vdev | none => 0⟩

/-- A sender is a member of the pergola to which the owner's group is attached. -/
def pergPeer (s : State) (owner : Nat) (snd : Sender) : Bool :=
  match (s.core owner).grp with
  | none => false
  | some g =>
    let l := s.launchOf g.launch
    let p := s.fab.pergs.get l.pgid
    g.pergola && (p.members.get (l.pgF + g.idx)).att &&
      (List.range p.m).any fun i =>
        let m := p.members.get i
        m.runs && m.dev == snd.dev && m.core == snd.core

/-- The filter of a window admits a sender (R25). -/
def filterOk (s : State) (owner : Nat) (snd : Sender) (f : Nat) : Bool :=
  let here := snd.dev == s.fab.devid
  match f with
  | 0 => true
  | 1 => here && clusterOf snd.core == clusterOf owner
  | 2 => here && dieOf snd.core == dieOf owner
  | 3 => here
  | 4 => pergPeer s owner snd
  | _ => false

/-- R26: one window covers the bytes, grants the right and admits the sender. -/
def windowOk (s : State) (owner : Nat) (snd : Sender) (off n : Nat) (nd : Need) : Bool :=
  (List.range 4).any fun i =>
    let v := ((s.core owner).win.get i).toNat
    decide (bitsOf v 15 0 ≤ off) && decide (off + n ≤ bitsOf v 31 16 + 1) &&
    (if nd.fe then bitAt v 35 else if nd.a then bitAt v 34
     else (!nd.r || bitAt v 32) && (!nd.w || bitAt v 33)) &&
    filterOk s owner snd (bitsOf v 38 36)

/-- An access refused at an owner counts in ctl.winrej. -/
def refuseAt (owner : Nat) (s : State) : State :=
  s.setCore owner { s.core owner with winrej := satInc32 (s.core owner).winrej }

/-! ### Translation (R369 to R380) -/

/-- What an access to a page does: read, write, atomic, tagged store (R375, R394). -/
inductive Acc where
  | rd | wr | at | tagged
  deriving DecidableEq, Repr, Inhabited

/-- The access code of a fault queue entry (R394). -/
def Acc.code : Acc → Nat
  | .rd => 0 | .wr => 1 | .at => 2 | .tagged => 3

/-- R371: bits [63:57] all equal bit 56. -/
def canonical (va : Nat) : Bool := va < 2 ^ 56 || va ≥ 2 ^ 64 - 2 ^ 56

/-- A bit of a translation word. -/
def twBit (e : Nat) (i : Nat) : Bool := bitAt e i
/-- The frame field. -/
def twFrame (e : Nat) : Nat := bitsOf e 51 12
/-- The size field. -/
def twSize (e : Nat) : Nat := bitsOf e 11 8

/-- What a walk finds: the physical address of the governing entry, its word, and the page's first
virtual address. -/
structure Leaf where
  entry : Nat
  word : Nat
  page : Nat
  deriving DecidableEq, Repr, Inhabited

/-- The checks of R374 on a leaf at level L, index i of table t. -/
def walkLeaf (mem : List Host.Cell) (va t i L e : Nat) : Except Nat Leaf :=
  let k := twSize e
  if !(if L = 1 then decide (9 ≤ k) else decide (k ≤ 8)) then .error 3
  else
    let g := 2 ^ (if L = 1 then k - 9 else k)
    let f := i - i % g
    if f ≠ i && Memory.num mem (t + 16 * f) 8 ≠ e then .error 5
    else if twBit e 7 && !twBit e 6 then .error 3
    else if !twBit e 5 && twFrame e % 2 ^ k ≠ 0 then .error 4
    else if twBit e 5 && bitsOf e 51 28 ≠ 0 then .error 4
    else if !twBit e 5 && decide (twFrame e * 4096 + 4096 * 2 ^ k > hbmEnd) &&
        !(k == 0 && twFrame e * 4096 == wakeBase) then .error 6
    else .ok ⟨t + 16 * f, e, va - va % (4096 * 2 ^ k)⟩

/-- The descent of R374 through the levels listed. -/
def walkFrom (mem : List Host.Cell) (va : Nat) : Nat → List Nat → Except Nat Leaf
  | _, [] => .error 1
  | t, L :: rest =>
    let i := bitsOf va (9 * L + 20) (9 * L + 12)
    let e := Memory.num mem (t + 16 * i) 8
    if !twBit e 0 then .error 1
    else if bitsOf e 63 52 ≠ 0 then .error 2
    else if L ≥ 2 || (L = 1 && twSize e = 0) then
      if bitsOf e 11 1 ≠ 0 || twFrame e % 2 ≠ 0 then .error 3
      else if twFrame e * 4096 + 8192 > hbmEnd then .error 6
      else walkFrom mem va (twFrame e * 4096) rest
    else walkLeaf mem va t i L e

/-- R374: a walk from a root; the XLATE subcode of a failure. -/
def walk (mem : List Host.Cell) (root va : Nat) : Except Nat Leaf :=
  if !canonical va then .error 7
  else if root + 8192 > hbmEnd then .error 6
  else walkFrom mem va root [4, 3, 2, 1, 0]

/-- Bits ORed into the low byte of the companion word of an entry (R377). -/
def orCompanion (s : State) (entry : Nat) (bits : Nat) : State :=
  let b := Memory.num s.mem (entry + 8) 1
  s.physStore (entry + 8) [BitVec.ofNat 8 (b ||| bits)]

/-- The bit a walker of a place sets: DIE, REM, or none for the I/O die (R377). -/
def walkerBit : TlbPlace → Nat
  | .core k => 2 ^ dieOf k
  | .cluster c => 2 ^ (c / 144)
  | .port _ => 32
  | .io => 0

/-- An entry that maps an address in a space. -/
def Tlb.hits (t : Tlb) (pl : TlbPlace) (vdev space gen va : Nat) : Bool :=
  t.place == pl && t.vdev == vdev && t.space == space && t.gen == gen &&
    decide (t.page ≤ va) && decide (va < t.page + 4096 * 2 ^ t.size)

/-- R376, R378: a remote TLB entry's count added to rcount, and the latest requester written. -/
def flushCount (t : Tlb) (s : State) : State :=
  if t.count = 0 then s
  else
    let c := Memory.num s.mem (t.entry + 8) 8
    let rc := min 0xFFFF (bitsOf c 23 8 + t.count)
    let c' := c - bitsOf c 39 8 * 256 + rc * 256 + t.lastreq * 2 ^ 24
    s.physStore (t.entry + 8) (leBytes 8 c')

/-- R380: two sizes match in one TLB: every matching entry is dropped, else the one entry. -/
def tlbLookup (s : State) (pl : TlbPlace) (vdev space gen va : Nat) : Option Tlb × State :=
  match s.tlb.filter fun t => t.hits pl vdev space gen va with
  | [] => (none, s)
  | [t] => (some t, s)
  | ts => (none, ts.foldl (fun s t => flushCount t s)
      { s with tlb := s.tlb.filter fun t => !t.hits pl vdev space gen va })

/-- How many entries a TLB holds (R379); of the I/O die's no number is stated. -/
def TlbPlace.size : TlbPlace → Option Nat
  | .core _ => some 32
  | .cluster _ => some 2048
  | .port _ => some 4096
  | .io => none

/-- An entry enters its TLB; the oldest entry leaves a full one, its count flushed (R378; DESIGN CHOICE, log entry 21). -/
def tlbPut (t : Tlb) (s : State) : State :=
  let mine := s.tlb.filter fun u => u.place == t.place
  match t.place.size, mine with
  | some n, o :: _ =>
    if mine.length < n then { s with tlb := s.tlb ++ [t] }
    else
      let s := flushCount o s
      { s with tlb := s.tlb.erase o ++ [t] }
  | _, _ => { s with tlb := s.tlb ++ [t] }

/-- The answer of a TLB that walks on a miss: the leaf word and the entry it came from, with the state that has
made the walk and filled the TLB, or an XLATE subcode. -/
def walkFill (s : State) (pl : TlbPlace) (vdev space va : Nat) : Except (Nat × State) (Tlb × State) :=
  let sp := (s.vdev vdev).spaces.get space
  match tlbLookup s pl vdev space sp.gen va with
  | (some t, s) => .ok (t, s)
  | (none, s) =>
    match walk s.mem sp.root va with
    | .error c => .error (c, s)
    | .ok l =>
      let s := if walkerBit pl = 0 then s else orCompanion s l.entry (walkerBit pl)
      let t : Tlb := { place := pl, vdev := vdev, space := space, gen := sp.gen, page := l.page,
                       size := twSize l.word, word := BitVec.ofNat 64 l.word, entry := l.entry,
                       d := bitAt (Memory.num s.mem (l.entry + 8) 1) 4, count := 0, lastreq := 0 }
      .ok (t, tlbPut t s)

/-- The same at a place: a core's micro-TLB asks the TLB of its cluster, the others walk (R379). -/
def tlbFill (s : State) (pl : TlbPlace) (vdev space va : Nat) : Except (Nat × State) (Tlb × State) :=
  match pl with
  | .core k =>
    (match tlbLookup s pl vdev space ((s.vdev vdev).spaces.get space).gen va with
    | (some t, s) => .ok (t, s)
    | (none, s) =>
      match walkFill s (.cluster (clusterOf k)) vdev space va with
      | .error e => .error e
      | .ok (t, s) =>
        let t := { t with place := pl }
        .ok (t, tlbPut t s))
  | _ => walkFill s pl vdev space va

/-- R375: the first check an access fails: RETRACTED, or the XPERM subcode. -/
def pageCheck (e : Nat) (a : Acc) : Option (Nat × Nat) :=
  if twBit e 7 then some (0x12, 0)
  else match a with
    | .rd => if twBit e 1 then none else some (0x11, 1)
    | .wr => if twBit e 2 then none else some (0x11, 2)
    | .at => if twBit e 1 && twBit e 2 && twBit e 3 then none else some (0x11, 3)
    | .tagged => if !twBit e 2 then some (0x11, 2) else if twBit e 4 then none else some (0x11, 4)

/-- D recorded before the first write through an entry (R377). -/
def recordD (t : Tlb) (s : State) : State :=
  if t.d then s
  else
    let s := orCompanion s t.entry 16
    { s with tlb := s.tlb.map fun u => if u == t then { u with d := true } else u }

/-- What a translation answers. -/
inductive XRes where
  | phys (pa : Nat) (e : Nat) (s : State)
  | forward (owner e : Nat) (s : State)
  | fault (cause sub : Nat) (s : State)

/-- R374, R375, R377: translation and permission of one access that stays within a page. -/
def translate (pl : TlbPlace) (vdev space : Nat) (va : Nat) (a : Acc) (s : State) : XRes :=
  match tlbFill s pl vdev space va with
  | .error (c, s) => .fault 0x10 c s
  | .ok (t, s) =>
    let e := t.word.toNat
    match pageCheck e a with
    | some (c, sub) => .fault c sub s
    | none =>
      let s := if a = .rd then s else recordD t s
      if twBit e 5 then .forward (bitsOf e 27 12) e s
      else .phys (twFrame e * 4096 + (va - t.page)) e s

/-! ### Remote requests (R431 to R433) -/

/-- What an access answers: its value; a precise trap (for a stream or engine, the report of the same
cause); a translation fault that parks; a wait that has changed the state only by sending; a held
action of a tentative group (R359). -/
inductive MRes (α : Type) where
  | ok (v : α) (s : State)
  | trap (cause : Nat) (tval : DWord) (s : State)
  | fault (cause sub : Nat) (va : DWord) (acc : Nat) (s : State)
  | wait (s : State)
  | held (s : State)

/-- One access after another. -/
def MRes.bind {α β : Type} (r : MRes α) (f : α → State → MRes β) : MRes β :=
  match r with
  | .ok v s => f v s
  | .trap c t s => .trap c t s
  | .fault c b va a s => .fault c b va a s
  | .wait s => .wait s
  | .held s => .held s

/-- The requests an agent has outstanding. -/
def reqOf (s : State) (ag : Agent) : Option (Nat × Req) :=
  (s.fab.reqs.filterMap fun p => match p.2 with
    | some r => if r.agent == ag then some (p.1, r) else none
    | none => none).head?

/-- The context number a request of an agent carries; 0 for an engine. -/
def Agent.ctxNo : Agent → Nat
  | .ctx w => w.ctx | .stream w => w.ctx | .vector w => w.ctx | .message w => w.ctx | _ => 0

/-- The device a virtual device's peer-table entry names, when the entry is valid (R431). -/
def peerDev (s : State) (vdev : Nat) : Option Nat :=
  let e := peerEntry vdev s
  if bitAt e 15 then some (e % 4096) else none

/-- The header of a request of an agent. -/
def mkReq (ag : Agent) (typ ddev tvdev space : Nat) (addr : DWord) (s : State) : Packet :=
  let cls := match ag with | .copy _ => 3 | _ => 2
  let io := match ag with | .io _ | .post _ => true | _ => false
  { (default : Packet) with
    cls := cls, typ := typ, ddev := ddev, sdev := s.fab.devid, tvdev := tvdev,
    svdev := if io then 0xFFFF else (senderOf ag.core s).vdev, space := space, addr := addr,
    score := if io then 0xFFF else ag.core, sctx := ag.ctxNo }

/-- A request of an agent: sent once, waited for, and its answer taken when it has come. The trap of a
NACK carries the address (R386). -/
def remote (ag : Agent) (p : Packet) (va : DWord) (s : State) : MRes (List Byte) :=
  match reqOf s ag with
  | none => .wait (issueReq ag p s)
  | some (id, r) =>
    let s' := setReq id none s
    if r.pkt.typ ≠ p.typ || r.pkt.addr ≠ p.addr || r.pkt.len ≠ p.len then .wait (issueReq ag p s')
    else match r.answer with
      | none => .wait s
      | some (st, d) =>
        if st = 0 then .ok d s'
        else if st = 0x42 then .trap 0x19 va s'
        else if st = 0x0A then .trap 0x0A va s'
        else .trap 0x18 (nackTval st va) s'

/-- The packet of one remote access: READ, WRITE or ATOMIC; q, f and operands for an ATOMIC. -/
structure RemOp where
  typ : Nat
  n : Nat
  data : List Byte
  q : Nat
  f : Nat
  op0 : DWord
  op1 : DWord
  deriving DecidableEq, Repr, Inhabited

/-- A read of n bytes. -/
def remRead (n : Nat) : RemOp := ⟨1, n, [], 0, 0, 0, 0⟩
/-- A read of n bytes with the tags of their granules, which follow the bytes (DESIGN CHOICE, log entry 12). -/
def remReadTags (n : Nat) : RemOp := ⟨1, n, [], 0, 0, 1, 0⟩
/-- A write of 16 bytes with their tag, which follows them. -/
def remWriteTag (bs : List Byte) (tag : Bool) : RemOp :=
  ⟨2, 17, bs ++ [if tag then 1 else 0], 0, 0, 1, 0⟩
/-- A write of bytes. -/
def remWrite (bs : List Byte) : RemOp := ⟨2, bs.length, bs, 0, 0, 0, 0⟩

/-- A remote access to a virtual device in a space, or NACK 0x19 when no peer entry is valid (R431). -/
def remoteAcc (ag : Agent) (tvdev space : Nat) (va : DWord) (o : RemOp) (s : State) : MRes (List Byte) :=
  match peerDev s tvdev with
  | none => .trap 0x18 (nackTval 0x19 va) s
  | some d =>
    let p := mkReq ag o.typ d tvdev space va s
    remote ag { p with len := o.n, payload := o.data, scause := BitVec.ofNat 8 o.q, sflags := BitVec.ofNat 8 o.f,
                       op0 := o.op0, op1 := o.op1 } va s

/-! ### Tentative groups (R358) -/

/-- The bytes lie in the group's own slice of the retractable region. -/
def ownSlice (g : Grp) (ea n : Nat) : Bool :=
  g.slice ≠ 0 && decide (g.rtva.toNat + g.idx * g.slice ≤ ea) &&
    decide (ea + n ≤ g.rtva.toNat + (g.idx + 1) * g.slice)

/-- R358: a write or atomic of a core's group is held. -/
def isHeld (core : Nat) (rt : Route) (ea n : Nat) (s : State) : Bool :=
  match (s.core core).grp with
  | none => false
  | some g =>
    g.tent && (match rt with
      | .loc => false
      | .core k => k ≠ core
      | .glob => !ownSlice g ea n
      | _ => true)

/-! ### Performing an access -/

/-- What an access performed at a core of this device finds: the group's memory, MOVING, or a NACK
(R26, R401). -/
inductive AtCore where
  | here
  | moving
  | nack (sub : Nat)
  deriving DecidableEq, Repr, Inhabited

/-- The launch of a core's group. -/
def CoreSt.launchNo (c : CoreSt) : Option Nat := c.grp.map (·.launch)

/-- A group of a launch is saved that stood on a core (R401). -/
def savedFrom (k : Nat) (launch : Option Nat) (s : State) : Bool :=
  s.savedGroups.any fun p => match p.2 with
    | some v => v.core == k && some v.launch == launch
    | none => false

/-- R26, R192, R401: admission at a core. Through a CORE capability (`own`) the issuing core's own core is checked by
its guards alone. A core to which another group has come meanwhile answers MOVING to the launch of the saved one
(DEDUCED, log entry 25); a DETACHING core still runs its group (R442; DEDUCED, log entry 25). A core that runs a group of
another virtual device answers NACK 0x19, and no window is looked at (DESIGN CHOICE, log entry 25). -/
def atCore (s : State) (core k off n : Nat) (nd : Need) (own : Bool) : AtCore :=
  if own && k = core then .here
  else
    let c := s.core k
    if c.saved || (k ≠ core && savedFrom k (s.core core).launchNo s) then .moving
    else match c.grp with
    | none => .nack 0x19
    | some g =>
      if g.vdev ≠ (senderOf core s).vdev && !(pergPeer s k (senderOf core s)) then .nack 0x19
      else if windowOk s k (senderOf core s) off n nd then .here
      else .nack 0x18

/-- R441: what a WINDOW access finds: a stall until every member has attached, WINGONE, MOVING, the
member's core on this device, or the virtual device of a member on another. -/
inductive AtWin where
  | stall
  | gone
  | moving
  | here (core : Nat)
  | away (vdev : Nat)
  deriving DecidableEq, Repr, Inhabited

/-- The core of this device runs the group that is a member of a pergola. -/
def holdsMember (pgid b k : Nat) (s : State) : Bool :=
  match (s.core k).grp with
  | some g => g.pergola && (s.launchOf g.launch).pgid == pgid && (s.launchOf g.launch).pgF + g.idx == b
  | none => false

/-- R441, for the group of a core. A member whose core no longer holds it is on its way to another one. -/
def atWin (s : State) (core pgid b : Nat) : AtWin :=
  let p := s.fab.pergs.get pgid
  let own := match (s.core core).grp with
    | some g => let l := s.launchOf g.launch
      if g.pergola && l.pgid == pgid then some (p.members.get (l.pgF + g.idx)) else none
    | none => none
  match own with
  | none => .gone
  | some me =>
    let m := p.members.get b
    if (List.range p.m).any fun i => !(p.members.get i).att then .stall
    else if me.det then .gone
    else if m.departed then .gone
    else if m.moving then .moving
    else if m.dev = s.fab.devid then (if holdsMember pgid b m.core s then .here m.core else .moving)
    else .away m.vdev

/-- The access of an agent performed by a function on the local memory of a core of this device. -/
def onCore {α : Type} (s : State) (core k off n : Nat) (nd : Need) (own : Bool) (ea : DWord)
    (f : CoreSt → MRes α) : MRes α :=
  match atCore s core k off n nd own with
  | .here => f (s.core k)
  | .moving => .wait s
  | .nack 0x18 => .trap 0x18 (nackTval 0x18 ea) (refuseAt k s)
  | .nack sub => .trap 0x18 (nackTval sub ea) s

/-- A packet is an access through a WINDOW capability, which its space, a pergola id, does not tell (DESIGN CHOICE, log entry
12). -/
def pktWindow (p : Packet) : Bool := if p.typ = 3 then bitAt p.scause.toNat 5 else bitAt p.op0.toNat 1

/-- The packet of an access to a pergola member on another device (DESIGN CHOICE, log entry 12): the address is the
member id and the offset, the space the pergola id, and bit 5 of scause, or, of what is no ATOMIC, bit 1 of op0 marks it. Without a valid peer entry it ends with NACK 0x19 (R431). -/
def windowAcc (ag : Agent) (vdev pgid : Nat) (ea : DWord) (o : RemOp) (s : State) : MRes (List Byte) :=
  match peerDev s vdev with
  | none => .trap 0x18 (nackTval 0x19 ea) s
  | some dev =>
    let p := mkReq ag o.typ dev vdev pgid (BitVec.ofNat 64 (ea.toNat % 2 ^ 28)) s
    remote ag { p with len := o.n, payload := o.data, scause := BitVec.ofNat 8 (o.q + if o.typ = 3 then 32 else 0)
                       sflags := BitVec.ofNat 8 o.f, op0 := if o.typ = 3 then o.op0 else o.op0 + 2, op1 := o.op1 } ea s

/-! ### The order of a context's accesses and its stream (R280, R286) -/

/-- The bytes of an access width (R110). -/
def Width.bytes : Width → Nat
  | .w8 => 1 | .w16 => 2 | .w32 => 4 | .w64 => 8

/-- A byte of the range is one of an element of a stream that is not yet performed. The elements lie at a lowest
address and steps of the size of the stride from there. -/
def Stream.meets (t : Stream) (a n : Nat) : Bool :=
  let w := Width.bytes t.w
  let m := t.count - t.next
  let lo : Nat := ((t.ea.toNat : Int) +
    (if t.stride < 0 then (t.count - 1 : Nat) * t.stride else t.next * t.stride)).toNat
  let st := t.stride.natAbs
  let j := if a < lo + w || st = 0 then 0 else (a - w - lo) / st + 1
  decide (j < m) && decide (lo + j * st < a + n) && decide (a < lo + j * st + w)

/-- An address of the table walk as the 64-bit address it stands for. -/
def canonOf (va : Nat) : Nat := if va ≥ 2 ^ 56 then va + (2 ^ 64 - 2 ^ 57) else va

/-- The entries of a leaf's group (R373). -/
def groupSize (size : Nat) : Nat := 2 ^ (if size ≥ 9 then size - 9 else size)

/-- The leaves below a table, each with the address it maps and its word; the list names the levels. -/
def leavesOf (mem : List Host.Cell) : List Nat → Nat → Nat → List (Nat × Nat)
  | [], _, _ => []
  | L :: rest, t, va =>
    (List.range 512).flatMap fun i =>
      let e := Memory.num mem (t + 16 * i) 8
      let a := va + i * 2 ^ (9 * L + 12)
      if !twBit e 0 then []
      else if L ≥ 2 || (L = 1 && twSize e = 0) then leavesOf mem rest (twFrame e * 4096) a
      else if i % groupSize (twSize e) = 0 then [(canonOf a, e)]
      else []

/-- The addresses of a space that lie on the byte of an address, by the pages of this device that it maps. -/
def sameByte (mem : List Host.Cell) (root a : Nat) : List Nat :=
  let ps := (leavesOf mem [4, 3, 2, 1, 0] root 0).filter fun p => !twBit p.2 5
  let size (p : Nat × Nat) : Nat := 4096 * 2 ^ twSize p.2
  match ps.find? fun p => decide (p.1 ≤ a) && decide (a < p.1 + size p) with
  | none => []
  | some p =>
    let pa := twFrame p.2 * 4096 + (a - p.1)
    ps.filterMap fun q =>
      let f := twFrame q.2 * 4096
      if f ≤ pa && pa < f + size q then some (q.1 + (pa - f)) else none

/-- A stream of a core's group has an element not yet performed on a byte of the range, by the same address or by another
that maps the byte (R277). -/
def Stream.meetsGlob (t : Stream) (core a n : Nat) (s : State) : Bool :=
  t.meets a n || match (s.core core).grp with
    | some g => (sameByte s.mem ((s.vdev g.vdev).spaces.get g.space).root a).any fun b => t.meets b n
    | none => false

/-- Writes of a context to the memory of a core of this device that it has posted and that are not yet placed: messages
(R290) and exchange transfers (R207). -/
def postedTo (w : Who) (k : Nat) (s : State) : Bool :=
  let c := s.core k
  c.rxIn.any (fun m => m.pkt.isNone && m.who == w) || (!c.landing.isEmpty && c.landFrom == w) ||
    (s.core w.core).xfers.any fun x => x.who == w && match c.grp with
      | some g => g.launch == x.launch && g.idx == x.peer
      | none => false

/-- A message of a context is on its way to another device. -/
def postedAway (w : Who) (dev : Nat) (s : State) : Bool :=
  s.fab.reqs.any fun p => match p.2 with
    | some r => r.agent == .message w && r.pkt.ddev == dev
    | none => false

/-- The context whose program order an agent's accesses stand in. -/
def Agent.orderedIn : Agent → Option Who
  | .ctx w => some w
  | .vector w => some w
  | .stream w => some w
  | _ => none

/-- Where the elements of a stream of a core lie: its own memory in every case by `loc`. -/
def Stream.route (t : Stream) (core : Nat) : Route :=
  let id := bitsOf t.ea.toNat 27 16
  if !t.cap.tag then .loc
  else match t.cap.kind with
    | 0 => .glob
    | 1 => .loc
    | 2 => if id = core then .loc else .core id
    | 3 => .win t.cap.target id
    | _ => .rem t.cap.target

/-- The core of this device in whose memory they lie. -/
def Stream.coreHere (t : Stream) (core : Nat) (s : State) : Option Nat :=
  match t.route core with
  | .loc => some core
  | .core k => some k
  | .win pg b => (match atWin s core pg b with | .here k => some k | _ => none)
  | _ => none

/-- A byte of a range of a core's memory is one of an element not yet performed. -/
def Stream.meetsAt (t : Stream) (off n : Nat) : Bool :=
  { t with ea := BitVec.ofNat 64 (t.ea.toNat % 65536) }.meets off n

/-- The owner of the page of an address, when it is another virtual device (F = 1). -/
def ownerAt (core a : Nat) (s : State) : Option Nat :=
  match (s.core core).grp with
  | none => none
  | some g => match walk s.mem ((s.vdev g.vdev).spaces.get g.space).root a with
    | .ok l => if twBit l.word 5 then some (twFrame l.word % 65536) else none
    | .error _ => none

/-- R280, R286: an access of a context, of its vector operation or of its stream to the memory of a core of this device meets
what the context has posted there, or, but for the stream, an element of its active stream that is not yet performed. Such an
access waits. -/
def behindAt (ag : Agent) (k off n : Nat) (s : State) : Bool :=
  match ag.orderedIn with
  | none => false
  | some w => postedTo w k s || match (if ag == .stream w then none else (s.ctx w).stream) with
    | some t => t.coreHere w.core s == some k && t.meetsAt off n
    | none => false

/-- The same of an access to global memory of this device, or to the core's own. -/
def behindStream (ag : Agent) (glob : Bool) (a n : Nat) (s : State) : Bool :=
  if !glob then behindAt ag ag.core a n s
  else match ag.orderedIn with
    | none => false
    | some w => match (if ag == .stream w then none else (s.ctx w).stream) with
      | some t => t.route w.core == .glob && t.meetsGlob w.core a n s
      | none => false

/-- The same of an access to a pergola member on another device. -/
def behindAway (ag : Agent) (vdev pgid b off n : Nat) (s : State) : Bool :=
  match ag.orderedIn with
  | none => false
  | some w => (match peerDev s vdev with | some d => postedAway w d s | none => false) ||
    match (if ag == .stream w then none else (s.ctx w).stream) with
    | some t => t.route w.core == .win pgid b && t.meetsAt off n
    | none => false

/-- The same of an access to an address of a virtual device on another device, through a page that it owns or a REMOTE
capability. Which of its addresses lie on one byte only that device knows (DEDUCED, log entry 5). -/
def behindRem (ag : Agent) (v a n : Nat) (s : State) : Bool :=
  match ag.orderedIn with
  | none => false
  | some w => match (if ag == .stream w then none else (s.ctx w).stream) with
    | some t => t.meets a n && match t.route w.core with
      | .rem o => o == v
      | .glob => ownerAt w.core a s == some v
      | _ => false
    | none => false

/-- A request of an agent for an access to a page of another device is outstanding: its owner was found by the translation
with which it was sent, which stands for the access (R383); its owner, and whether a tag may come with it. -/
def sentGlob (ag : Agent) (space : Nat) (ea : DWord) (o : RemOp) (s : State) : Option (Nat × Bool) :=
  match reqOf s ag with
  | some (_, r) =>
    if r.pkt.typ = o.typ && r.pkt.addr == ea && r.pkt.len = o.n && r.pkt.space = space && space ≠ 0xFFFF &&
        !pktWindow r.pkt then
      some (r.pkt.tvdev, r.pkt.op0 == 1)
    else none
  | none => none

/-- A page without T gives no tag (R124, R370). -/
def RemOp.untag (o : RemOp) (t : Bool) : RemOp := if o.typ = 1 && !t then { o with op0 := 0 } else o

/-- One access of an agent by its route: local memory of the own or another core by `f`, global memory
by `h` on the physical address and leaf word, or a remote request whose answer `k` reads, with the bit that says
whether a tag may come with it: a WINDOW access, or a page with T = 1. -/
def perform {α : Type} (ag : Agent) (rt : Route) (ea : DWord) (n : Nat) (nd : Need) (acc : Acc) (o : RemOp)
    (f : Nat → Nat → CoreSt → MRes α) (h : Nat → Nat → State → MRes α) (k : Bool → List Byte → State → MRes α)
    (s : State) : MRes α :=
  let core := ag.core
  let off := ea.toNat % 65536
  if (nd.w || nd.a) && isHeld core rt ea.toNat n s then .held s
  else match rt with
    | .loc => if behindStream ag false ea.toNat n s then .wait s else f core ea.toNat (s.core core)
    | .core c => if behindAt ag c off n s then .wait s else onCore s core c off n nd true ea (f c off)
    | .win pg b =>
      match atWin s core pg b with
      | .stall => .wait s
      | .gone => .trap 0x19 ea s
      | .moving => .wait s
      | .here c => if behindAt ag c off n s then .wait s else onCore s core c off n nd false ea (f c off)
      | .away v => if behindAway ag v pg b off n s then .wait s else (windowAcc ag v pg ea o s).bind (k true)
    | .rem v => if behindRem ag v ea.toNat n s then .wait s else (remoteAcc ag v 0xFFFF ea o s).bind (k false)
    | .glob =>
      match (s.core core).grp with
      | none => .fault 0x10 1 ea acc.code s
      | some g =>
        if behindStream ag true ea.toNat n s then .wait s
        else match sentGlob ag g.space ea o s with
        | some (owner, t) => (remoteAcc ag owner g.space ea o s).bind (k t)
        | none =>
          match translate (.core core) g.vdev g.space ea.toNat acc s with
          | .fault 0x12 _ s => .trap 0x12 ea s
          | .fault c sub s => .fault c sub ea acc.code s
          | .forward owner e s =>
            if behindRem ag owner ea.toNat n s then .wait s
            else (remoteAcc ag owner g.space ea (o.untag (twBit e 4)) s).bind (k (twBit e 4))
          | .phys pa e s => h pa e s

/-- A read of n bytes: the number they hold (MemRead of R106 after its checks). -/
def readN (ag : Agent) (rt : Route) (ea : DWord) (n : Nat) (s : State) : MRes Nat :=
  perform ag rt ea n needR .rd (remRead n)
    (fun _ off c => .ok (c.num off n) s)
    (fun pa _ s => .ok (if pa ≥ wakeBase then 0 else s.physNum pa n) s)
    (fun _ d s => .ok (leNat (d.take n)) s) s

/-- A write of bytes (MemWrite of R106 after its checks). A write to the wake window that is no wake
write is discarded (R330). -/
def writeN (ag : Agent) (rt : Route) (ea : DWord) (bs : List Byte) (s : State) : MRes Unit :=
  perform ag rt ea bs.length needW .wr (remWrite bs)
    (fun k off c => .ok () (s.setCore k (c.store off bs)))
    (fun pa _ s => .ok () (if pa ≥ wakeBase then s else s.physStore pa bs))
    (fun _ _ s => .ok () s) s

/-- An atomic of n bytes: the old value; `g` gives the new one, or none for no write. -/
def rmwN (ag : Agent) (rt : Route) (ea : DWord) (n : Nat) (g : Nat → Option Nat) (q f : Nat)
    (op0 op1 : DWord) (s : State) : MRes Nat :=
  perform ag rt ea n needA .at ⟨3, 0, [], q, f, op0, op1⟩
    (fun k off c =>
      let old := c.num off n
      match g old with
      | some v => .ok old (s.setCore k (c.store off (leBytes n v)))
      | none => .ok old s)
    (fun pa _ s =>
      if pa ≥ wakeBase then .ok 0 s
      else
        let old := s.physNum pa n
        match g old with
        | some v => .ok old (s.physStore pa (leBytes n v))
        | none => .ok old s)
    (fun _ d s => .ok (leNat (d.take n)) s) s

/-- The operation is one of a REMOTE capability, with which no tag travels (R124). -/
def Route.isRem : Route → Bool
  | .rem _ => true
  | _ => false

/-- A 16-byte capability read: the value and the granule's tag (R124). A REMOTE access and a page with
T = 0 read it as clear. -/
def readCap (ag : Agent) (rt : Route) (ea : DWord) (s : State) : MRes AVal :=
  perform ag rt ea 16 needR .rd (if rt.isRem then remRead 16 else remReadTags 16)
    (fun _ off c => .ok ⟨c.ltag.get (off / 16), BitVec.ofNat 128 (c.num off 16)⟩ s)
    (fun pa e s =>
      if pa ≥ wakeBase then .ok ⟨false, 0⟩ s
      else .ok ⟨s.mtag.get (pa / 16) && twBit e 4, BitVec.ofNat 128 (s.physNum pa 16)⟩ s)
    (fun t d s => .ok ⟨t && d.getD 16 0 != 0, BitVec.ofNat 128 (leNat (d.take 16))⟩ s) s

/-- A 16-byte capability write: the bytes, and the granule's tag set when the value is tagged (R124). -/
def writeCap (ag : Agent) (rt : Route) (ea : DWord) (v : AVal) (s : State) : MRes Unit :=
  let bs := leBytes 16 (if v.tag then v.bits.toNat else v.int.toNat)
  perform ag rt ea 16 needW (if v.tag then .tagged else .wr) (if v.tag then remWriteTag bs true else remWrite bs)
    (fun k off c =>
      let c := c.store off bs
      .ok () (s.setCore k (if v.tag then { c with ltag := c.ltag.put (off / 16) true } else c)))
    (fun pa _ s =>
      if pa ≥ wakeBase then .ok () s
      else
        let s := s.physStore pa bs
        .ok () (if v.tag then { s with mtag := s.mtag.put (pa / 16) true } else s))
    (fun _ _ s => .ok () s) s

end Sys2Proof.Machine
end

