-- ==== Sys2Proof/Machine/Operands.lean ====
section
/-! DEFINITION. The operand forms: d registers with their queue aliases (R10, R144, R189), addresses of
memory operands (R101, R109), and the shared shapes of execute-half and access-half instructions. -/

namespace Sys2Proof.Machine

/-! ### d registers (R10, R19) -/

/-- A d register read: 0 is zero, 14 pops LQ0, 15 pops LQ1; the number of an empty queue otherwise. -/
def Ctx.rd (c : Ctx) (r : Fin 32) : Except Nat (DWord × Ctx) :=
  if r.val = 0 then .ok (0, c)
  else if r.val = 14 ∨ r.val = 15 then
    match c.q (r.val - 14) with
    | [] => .error (r.val - 14)
    | v :: rest => .ok (v, c.setQ (r.val - 14) rest)
  else .ok (c.d.get r.val, c)

/-- Several d registers read in order. -/
def Ctx.rds (c : Ctx) : List (Fin 32) → Except Nat (List DWord × Ctx)
  | [] => .ok ([], c)
  | r :: rest =>
    match c.rd r with
    | .error q => .error q
    | .ok (v, c) =>
      match Ctx.rds c rest with
      | .error q => .error q
      | .ok (vs, c) => .ok (v :: vs, c)

/-- A d register written: 0 discards, 14 pushes SQ0, 15 pushes SQ1; the number of a full queue
otherwise. -/
def Ctx.wd (c : Ctx) (r : Fin 32) (v : DWord) : Except Nat Ctx :=
  if r.val = 0 then .ok c
  else if r.val = 14 ∨ r.val = 15 then
    if c.room (r.val - 12) then .ok (c.push (r.val - 12) v) else .error (r.val - 12)
  else .ok { c with d := c.d.put r.val v }

/-- The first source of a two-source form (R95). -/
def DR3.fst (o : DR3) : Fin 32 := match o.z with | none => o.x | some _ => o.y
/-- The second source. -/
def DR3.snd (o : DR3) : Fin 32 := match o.z with | none => o.y | some z => z
/-- The first source of a two-source floating-point form. -/
def FP3.fst (o : FP3) : Fin 32 := match o.z with | none => o.x | some _ => o.y
/-- The second source. -/
def FP3.snd (o : FP3) : Fin 32 := match o.z with | none => o.y | some z => z

/-- The shape of an execute-half instruction: sources read in order, one result written to d[X], flags
ORed into ctl.fflags (R72, R149). -/
def exOp (s : State) (src : List (Fin 32)) (x : Fin 32) (f : List DWord → DWord × Flags) : Out :=
  match s.me.rds src with
  | .error q => starve s q
  | .ok (vs, c) =>
    match c.wd x (f vs).1 with
    | .error q => block s q
    | .ok c => finishWith s { c with fflags := c.fflags ||| (f vs).2.setWidth 64 }

/-- A list's first three entries, 0 where it is shorter. -/
def op1 (l : List DWord) : DWord := l.getD 0 0
/-- The second. -/
def op2 (l : List DWord) : DWord := l.getD 1 0
/-- The third. -/
def op3 (l : List DWord) : DWord := l.getD 2 0

/-- A binary integer instruction (R155). -/
def intOp (s : State) (o : DR3) (f : DWord → DWord → DWord) : Out :=
  exOp s [DR3.fst o, DR3.snd o] o.x fun vs => (f (op1 vs) (op2 vs), 0)

/-- The shape of an execute-half instruction that pushes CQ or XQ (R153, R157, R162). -/
def exPush (s : State) (src : List (Fin 32)) (q : Nat) (f : List DWord → DWord) : Out :=
  match s.me.rds src with
  | .error e => starve s e
  | .ok (vs, c) => if c.room q then finishWith s (c.push q (f vs)) else block s q

/-! ### a registers -/

/-- The shape of an access-half instruction with one untagged result. -/
def acOp (s : State) (x : Fin 16) (v : DWord) : Out := finishWith s (s.me.wi x v)

/-- A two-source a form (R117). -/
def acOp3 (s : State) (o : AR3) (f : DWord → DWord → DWord) : Out :=
  acOp s o.x (f (s.me.ia (AR3.fst o)) (s.me.ia (AR3.snd o)))

/-! ### Addresses (R17, R101, R109) -/

/-- The base part of EA(): the capability's base sign-extended, or the integer view. -/
def AVal.addr (v : AVal) : DWord := if v.tag then v.baseS else v.int

/-- EA() of a memory operand. -/
def Ctx.ea (c : Ctx) (m : Mem) : DWord := (c.ra m.y).addr + c.ia m.z + m.imm
/-- EA() of a form without index. -/
def Ctx.eaB (c : Ctx) (m : MemB) : DWord := (c.ra m.y).addr + m.imm

/-- Ext(v) of R121. -/
def extVal (w : Width) (sx : Bool) (v : Nat) : DWord :=
  let n := 8 * Width.bytes w
  if sx then BitVec.ofInt 64 (signedOf n v) else BitVec.ofNat 64 (v % 2 ^ n)

/-- The address is a multiple of n. -/
def aligned (ea : DWord) (n : Nat) : Bool := ea.toNat % n == 0

/-- The outcome of an access of the executing context: a trap, a parking, a wait or a held action, or
what follows. -/
def access {α : Type} (s : State) (prog : Nat) (r : MRes α) (k : α → State → Out) : Out :=
  match r with
  | .ok v s => k v s
  | .trap c t s => trap s c t
  | .fault c sub va acc s' => .next (parkCtx s.cur c sub acc prog va s')
  | .wait s => stall s
  | .held s' => heldAt s'.cur s'

/-- The checks of R112 steps 2 and 3 on one access of the executing context, then what follows on its
route. -/
def checked (s : State) (v : AVal) (ea : DWord) (n al : Nat) (nd : Need) (kinds : List Nat)
    (k : Route → Out) : Out :=
  if !aligned ea al then trap s 0x07 ea
  else match route s.cur.core s.me.guards v ea n nd kinds with
    | .error c => trap s c ea
    | .ok rt => k rt

/-- A conversion of a context's agent. -/
def State.agent (s : State) : Agent := .ctx s.cur

end Sys2Proof.Machine
end

