-- ==== Sys2Proof/Machine/Flags.lean ====
section
/-! DEFINITION. The crediting of floating-point flags (R72 to R74, R171, R399). -/

namespace Sys2Proof.Machine

/-- Flags ORed into ctl.fflags of a context; those of a vector instruction whose issuer has ended go
nowhere else (R171). -/
def creditF (w : Who) (f : Flags) (s : State) : State :=
  if f = 0 || !(s.ctx w).live then s
  else s.setCtx w { s.ctx w with fflags := (s.ctx w).fflags ||| f.setWidth 64 }

/-- Flags of engine work ORed into ctl.eflags of the issuing context, or of context 0 when that context
is no longer live (R399). -/
def creditE (w : Who) (f : Flags) (s : State) : State :=
  let r := reportWho w s
  if f = 0 then s
  else s.setCtx r { s.ctx r with eflags := (s.ctx r).eflags ||| f.setWidth 64 }

end Sys2Proof.Machine
end

