-- ==== Sys2Proof/Machine/Access.lean ====
section
/-! DEFINITION. The access-half instructions but vector memory and control flow: address arithmetic
(R116 to R118), capabilities (R119, R120), loads and stores (R121 to R125), streams (R126 to R130), and
multi-register spill and fill (R131, R132). -/

namespace Sys2Proof.Machine

/-! ### Address arithmetic -/

/-- R116. -/
def execAli (o : ARI) (s : State) : Out := acOp s o.x o.imm
/-- R116. -/
def execAaddi (o : ARI) (s : State) : Out := acOp s o.x (s.me.ia o.x + o.imm)
/-- R117. -/
def execAadd (o : AR3) (s : State) : Out := acOp3 s o fun u v => u + v
/-- R117. -/
def execAsub (o : AR3) (s : State) : Out := acOp3 s o fun u v => u - v
/-- R117. -/
def execAmul (o : AR3) (s : State) : Out := acOp3 s o fun u v => u * v
/-- R117. -/
def execAand (o : AR3) (s : State) : Out := acOp3 s o fun u v => u &&& v
/-- R117. -/
def execAor (o : AR3) (s : State) : Out := acOp3 s o fun u v => u ||| v
/-- R117. -/
def execAxor (o : AR3) (s : State) : Out := acOp3 s o fun u v => u ^^^ v
/-- R117. -/
def execAshl (o : AR3) (s : State) : Out := acOp3 s o fun u v => u <<< (v.toNat % 64)
/-- R117. -/
def execAshr (o : AR3) (s : State) : Out := acOp3 s o fun u v => u >>> (v.toNat % 64)
/-- R117. -/
def execAsar (o : AR3) (s : State) : Out := acOp3 s o fun u v => u.sshiftRight (v.toNat % 64)
/-- R118: all 128 bits and the tag. -/
def execAmov (o : AR2) (s : State) : Out := finishWith s (s.me.wa o.x (s.me.ra o.y))
/-- R118: the pop takes place for a0 too. -/
def execXpop (x : Fin 16) (s : State) : Out :=
  match s.me.xq with
  | [] => starve s 5
  | v :: rest => finishWith s ({ s.me with xq := rest }.wi x v)

/-- R128: the context's active stream feeds or drains a queue (0 to 3). -/
def Ctx.streamOn (c : Ctx) (q : Nat) : Bool :=
  match c.stream with
  | none => false
  | some t => (if t.store then 2 + t.q.val else t.q.val) == q

/-- R118. -/
def execAqp (q : Fin 2) (y : Fin 16) (s : State) : Out :=
  if s.me.streamOn q.val then stall s
  else if s.me.room q.val then finishWith s (s.me.push q.val (s.me.ia y)) else block s q.val

/-! ### Capabilities -/

/-- The capability and the integer operand of R119, untagged operands trapping with CAPTAG. -/
def capOp (s : State) (o : AR3) (f : AVal → DWord → Except Nat AVal) : Out :=
  let c := s.me.ra (AR3.fst o)
  let t := s.me.ia (AR3.snd o)
  if !c.tag then trap s 0x03 t
  else match f c t with
    | .error e => trap s e t
    | .ok v => finishWith s (s.me.wa o.x v)

/-- R119. -/
def execCbnd (o : AR3) (s : State) : Out :=
  capOp s o fun c t =>
    if c.sealed then .error 0x06
    else if t.toNat > c.length then .error 0x04
    else .ok ⟨true, setBits c.bits 64 40 t.toNat⟩
/-- R119. -/
def execCprm (o : AR3) (s : State) : Out :=
  capOp s o fun c t =>
    if c.sealed then .error 0x06
    else
      let b (x : Bool) : Nat := if x then 1 else 0
      .ok ⟨true, setBits (setBits (setBits (setBits (setBits c.bits 57 1 (b (c.permR && t.getLsbD 0)))
        58 1 (b (c.permW && t.getLsbD 1))) 59 1 (b (c.permA && t.getLsbD 2)))
        60 1 (b (c.permC && t.getLsbD 3))) 62 1 (b (c.permL || t.getLsbD 4))⟩
/-- R119. -/
def execCseal (o : AR3) (s : State) : Out :=
  capOp s o fun c t =>
    if c.sealed then .error 0x06
    else if t.toNat < 1 || t.toNat > 15 then .error 0x05
    else .ok ⟨true, setBits (setBits c.bits 61 1 1) 124 4 t.toNat⟩
/-- R119. -/
def execCunsl (o : AR3) (s : State) : Out :=
  capOp s o fun c t =>
    if !c.sealed || c.otype.toNat ≠ t.toNat then .error 0x05
    else .ok ⟨true, setBits (setBits c.bits 61 1 0) 124 4 0⟩
/-- R120. -/
def execCtag (o : AR2) (s : State) : Out := acOp s o.x (if (s.me.ra o.y).tag then 1 else 0)
/-- R120. -/
def execCbase (o : AR2) (s : State) : Out :=
  acOp s o.x (if (s.me.ra o.y).tag then (s.me.ra o.y).baseS else 0)
/-- R120. -/
def execClen (o : AR2) (s : State) : Out :=
  acOp s o.x (if (s.me.ra o.y).tag then BitVec.ofNat 64 (s.me.ra o.y).length else 0)
/-- R120. -/
def execCclr (o : AR2) (s : State) : Out := acOp s o.x (s.me.ia o.y)

/-! ### Scalar loads and stores -/

/-- A load of n bytes through a[Y]: R112, then the value. -/
def loadVal (s : State) (m : Mem) (w : Width) (k : Nat → State → Out) : Out :=
  let ea := s.me.ea m
  checked s (s.me.ra m.y) ea (Width.bytes w) (Width.bytes w) needR allKinds fun rt =>
    access s 0 (readN s.agent rt ea (Width.bytes w) s) k

/-- A store of the low bytes of a value through a[Y]. -/
def storeVal (s : State) (m : Mem) (w : Width) (v : DWord) (k : State → Out) : Out :=
  let ea := s.me.ea m
  let n := Width.bytes w
  checked s (s.me.ra m.y) ea n n needW allKinds fun rt =>
    access s 0 (writeN s.agent rt ea (leBytes n v.toNat) s) fun _ s => k s

/-- R121, R122: the access is made in full for a0 too. -/
def execLd (o : LdF) (s : State) : Out :=
  loadVal s o.m o.w fun v s => finishWith s (s.me.wi o.x (extVal o.w o.sx v))
/-- R121, R128: waits for the stream that feeds the queue, and after its checks and its read for room. A read that is
answered from another device stands until there is room. -/
def execLdq (o : LdqF) (s : State) : Out :=
  if s.me.streamOn o.q.val then stall s
  else loadVal s o.m o.w fun v t =>
    if s.me.room o.q.val then finishWith t (t.me.push o.q.val (extVal o.w o.sx v)) else block s o.q.val
/-- R121. -/
def execSt (o : StF) (s : State) : Out := storeVal s o.m o.w (s.me.ia o.x) finish
/-- R121: waits for the entry before any check; a store that traps or parks leaves it. -/
def execStq (o : StqF) (s : State) : Out :=
  if s.me.streamOn (2 + o.q.val) then stall s
  else match s.me.q (2 + o.q.val) with
    | [] => starve s (2 + o.q.val)
    | v :: rest => storeVal s o.m o.w v fun s => finishWith s (s.me.setQ (2 + o.q.val) rest)
/-- R123: zero-extended; its ordering is that of the model's single order of accesses (DEDUCED, log entry 5). -/
def execLdacq (o : SyncMemF) (s : State) : Out :=
  loadVal s o.m o.w fun v s => finishWith s (s.me.wi o.x (extVal o.w false v))
/-- Writes of a context that it has posted and that are not yet placed: the bytes of its messages (R290) and of its
exchange transfers (R207). -/
def postedOut (w : Who) (s : State) : Bool :=
  decide (messagesOf (· == w) s > 0) || (s.core w.core).xfers.any (·.who == w) ||
    s.cores.any fun k => !k.2.landing.isEmpty && k.2.landFrom == w
/-- A release waits until the context's active stream is complete, and its posted writes are placed (R123, R282,
R286, R290, R294). -/
def releaseWait (s : State) : Bool := s.me.stream.isSome || postedOut s.cur s
/-- R123. -/
def execStrel (o : SyncMemF) (s : State) : Out :=
  if releaseWait s then stall s else storeVal s o.m o.w (s.me.ia o.x) finish

/-- R124. The capability used has C, or is untagged (R368). -/
def execLdc (o : CapMemF) (s : State) : Out :=
  let ea := s.me.ea o.m
  let b := s.me.ra o.m.y
  checked s b ea 16 16 needR allKinds fun rt =>
    access s 0 (readCap s.agent rt ea s) fun v s =>
      let tag := v.tag && (!b.tag || b.permC)
      finishWith s (s.me.wa o.x (if tag then v else AVal.ofInt v.int))
/-- R124. -/
def execStc (o : CapMemF) (s : State) : Out :=
  let ea := s.me.ea o.m
  let b := s.me.ra o.m.y
  let v := s.me.ra o.x
  checked s b ea 16 16 (if v.tag then needWC else needW) allKinds fun rt =>
    if v.tag && v.permL && rt != .loc then trap s 0x05 ea
    else if v.tag && b.tag && b.kind == 4 then trap s 0x05 ea
    else access s 0 (writeCap s.agent rt ea v s) fun _ s => finish s

/-- R125: the translation a TOUCH makes; the line it requests is a cache matter and changes nothing. -/
def touchXlate (s : State) (rt : Route) (ea : DWord) : MRes Unit :=
  match rt, s.myCore.grp with
  | .glob, some g =>
    match translate (.core s.cur.core) g.vdev g.space ea.toNat .rd s with
    | .fault 0x12 _ s => .trap 0x12 ea s
    | .fault c sub s => .fault c sub ea 0 s
    | .forward _ _ s => .ok () s
    | .phys _ _ s => .ok () s
  | .glob, none => .fault 0x10 1 ea 0 s
  | _, _ => .ok () s
/-- R125. -/
def execTouch (m : Mem) (s : State) : Out :=
  let ea := s.me.ea m
  checked s (s.me.ra m.y) ea 1 1 needR allKinds fun rt =>
    access s 0 (touchXlate s rt ea) fun _ s => finish s
/-- R125: a check or translation that fails ends it without effect. -/
def execTouchN (m : Mem) (s : State) : Out :=
  let ea := s.me.ea m
  match route s.cur.core s.me.guards (s.me.ra m.y) ea 1 needR allKinds with
  | .error _ => finish s
  | .ok rt =>
    match touchXlate s rt ea with
    | .ok _ s => finish s
    | .trap _ _ s => finish s
    | .fault _ _ _ _ s => finish s
    | .wait s => finish s
    | .held s => finish s

/-! ### Streams (R126 to R130) -/

/-- The set-up of R126. A stream instruction waits while a stream is active (R128). -/
def setupStream (o : StrmF) (store : Bool) (s : State) : Out :=
  if s.me.stream.isSome then stall s
  else
    let d := s.me.ia (if o.desc = 0 then 13 else o.desc)
    let b := s.me.ra o.m.y
    let ea := s.me.eaB o.m
    let n := Width.bytes o.w
    let c := d.toNat % 2 ^ 32
    let st := signedOf 32 (d.toNat / 2 ^ 32)
    if c = 0 then finish s
    else if !aligned ea n || st % n ≠ 0 then trap s 0x07 ea
    else
      let last : Int := ea.toNat + (c - 1 : Nat) * st
      let lo : Int := min (ea.toNat : Int) last
      let hi : Int := max (ea.toNat : Int) last + n - 1
      if lo < 0 || hi ≥ 2 ^ 64 then trap s (if b.tag then 0x04 else 0x08) ea
      else match route s.cur.core s.me.guards b (BitVec.ofInt 64 lo) (hi - lo + 1).toNat
          (if store then needW else needR) [0, 1] with
        | .error cause => trap s cause (BitVec.ofInt 64 lo)
        | .ok _ =>
          finishWith s { s.me with stream := some {
            store := store, q := o.q, w := o.w, sx := o.sx, next := 0, count := c, ea := ea, stride := st,
            cap := b, guards := s.me.guards, pc := s.me.pc, park := .free, ends := none } }
/-- R126. -/
def execLds (o : StrmF) (s : State) : Out := setupStream o false s
/-- R126. -/
def execSts (o : StrmF) (s : State) : Out := setupStream o true s

/-- The address of a stream's next element. -/
def Stream.addr (t : Stream) : DWord := BitVec.ofInt 64 ((t.ea.toNat : Int) + t.next * t.stride)

/-- R130: the stream ends at its element with a report. -/
def endStream (w : Who) (cause : Nat) (tval : DWord) (s : State) : State :=
  addReport w cause tval (s.setCtx w { s.ctx w with stream := none })

/-- A stream past an element; idle after the last. -/
def Stream.past (t : Stream) : Option Stream :=
  if t.next + 1 ≥ t.count then none else some { t with next := t.next + 1 }

/-- What an element's access ends in but its performance (R130, R359). While an entry of an earlier stream of the context,
discarded while it was parked, is outstanding, the element is tried again after its answer (R395). -/
def streamMiss {α : Type} (w : Who) (t : Stream) (r : MRes α) (k : α → State → Out) : Out :=
  match r with
  | .ok v s => k v s
  | .trap c tv s => .next (endStream w c tv s)
  | .fault c sub va acc s =>
    if streamEntryOut w s then .next s
    else
    let s := s.setCtx w { s.ctx w with stream := some { t with park := .parked } }
    .next (groupFault (.stream w) w t.pc c sub acc t.next 0 va s)
  | .wait s => .next s
  | .held s => .next s

/-- An element that a stream has pushed counts among the pushes of its LDS, while that stands ahead of the
boundary (R12, R129). -/
def Ctx.streamPush (c : Ctx) (q : Nat) (v : DWord) : Ctx :=
  let c := c.push q v
  { c with ahead := markStream (· ++ [q]) c.ahead }

/-- R127 to R130: one element of a context's active stream, performed by its stream unit. After an answer DELIVER
the elements below the one that faulted, discarded since, are performed again, and at that one the stream ends with
the cause. Every element lies in the span checked at set-up. -/
def execStreamElement (w : Who) (s : State) : Out :=
  let c := s.ctx w
  match c.stream with
  | none => .next s
  | some t =>
    let ea := t.addr
    let n := Width.bytes t.w
    let rt : Route := if t.cap.tag && t.cap.kind == 0 then .glob else .loc
    let go : Out :=
      if t.store then
        match c.q (2 + t.q.val) with
        | [] => .next s
        | v :: rest =>
          streamMiss w t (writeN (.stream w) rt ea (leBytes n v.toNat) s) fun _ s =>
            .next (s.setCtx w { (s.ctx w).setQ (2 + t.q.val) rest with stream := t.past })
      else if c.room t.q.val then
        streamMiss w t (readN (.stream w) rt ea n s) fun v s =>
          .next (s.setCtx w { (s.ctx w).streamPush t.q.val (extVal t.w t.sx v) with stream := t.past })
      else .next s
    if (s.core w.core).saved || t.park == .parked then .next s
    else match t.ends with
      | some (e, cause, va) => if t.next ≥ e then .next (endStream w cause va s) else go
      | none => go

/-! ### Multi-register spill and fill (R114, R131, R132) -/

/-- R114: the checks of the parts of an operation, in order; the first failure's cause and address. -/
def checkParts (s : State) (g : SMap DWord) (core : Nat) (v : AVal) (n al : Nat) (nd : Need) :
    List DWord → Option (Nat × DWord)
  | [] => none
  | a :: rest =>
    if !aligned a al then some (0x07, a)
    else match route core g v a n nd allKinds with
      | .error c => some (c, a)
      | .ok _ => checkParts s g core v n al nd rest

/-- R114: the translation of a page an operation touches, without setting D. -/
def xlateOnly (core : Nat) (a : DWord) (acc : Acc) (s : State) : MRes Unit :=
  match (s.core core).grp with
  | none => .fault 0x10 1 a acc.code s
  | some g =>
    match tlbFill s (.core core) g.vdev g.space a.toNat with
    | .error (c, s) => .fault 0x10 c a acc.code s
    | .ok (t, s) =>
      match pageCheck t.word.toNat acc with
      | some (0x12, _) => .trap 0x12 a s
      | some (c, sub) => .fault c sub a acc.code s
      | none => .ok () s

/-- The first of each run of addresses that lie in one 4 KiB page. -/
def pageFirsts : List DWord → List DWord
  | [] => []
  | a :: rest =>
    match pageFirsts rest with
    | [] => [a]
    | b :: t => if a.toNat / 4096 = b.toNat / 4096 then a :: t else a :: b :: t

/-- The translation of every page that addresses of a GLOBAL operand touch. -/
def xlatePages (core : Nat) (v : AVal) (acc : Acc) : List DWord → State → MRes Unit
  | [], s => .ok () s
  | a :: rest, s =>
    if v.tag && v.kind == 0 then
      (xlateOnly core a acc s).bind fun _ s => xlatePages core v acc rest s
    else .ok () s

/-- The resume index of the executing context. -/
def withResume (i : Nat) (s : State) : State := s.setMe { s.me with resume := i }

/-- The parts listed performed in order; the part that fails stands in the resume index (R114). -/
def runParts (f : Nat → State → MRes Unit) : List Nat → State → Out
  | [], s => finish (withResume 0 s)
  | i :: rest, s =>
    match f i s with
    | .ok _ s => runParts f rest s
    | .trap c t s => trap (withResume i s) c t
    | .fault c sub va acc s => .next (parkCtx s.cur c sub acc i va (withResume i s))
    | .wait s => stall (withResume i s)
    | .held s => heldAt s.cur (withResume i s)

/-- LDM and STM: checks and translation of every word, then the words from the resume index on (R131, R132). -/
def multiOp (s : State) (o : MultiF) (nd : Need) (acc : Acc) (f : Nat → DWord → Route → State → MRes Unit) :
    Out :=
  let b := s.me.ra o.m.y
  let ea := s.me.eaB o.m
  let at_ (i : Nat) : DWord := ea + BitVec.ofNat 64 (8 * i)
  let all := (List.range o.n.val).map at_
  if !aligned ea 8 then trap s 0x07 ea
  else match checkParts s s.me.guards s.cur.core b 8 8 nd all with
    | some (c, a) => trap s c a
    | none =>
      access s s.me.resume (xlatePages s.cur.core b acc (pageFirsts all) s) fun _ s =>
        runParts (fun i s =>
          match route s.cur.core s.me.guards b (at_ i) 8 nd allKinds with
          | .error c => .trap c (at_ i) s
          | .ok rt => f i (at_ i) rt s) (rangeFrom s.me.resume o.n.val) s

/-- A d register number that LDM and STM pass over (R131). -/
def multiSkip (n : Nat) : Bool := n == 0 || n == 14 || n == 15

/-- R131. -/
def execLdm (o : MultiF) (s : State) : Out :=
  multiOp s o needR .rd fun i a rt s =>
    (readN s.agent rt a 8 s).bind fun v s =>
      .ok () (if multiSkip (o.x.val + i) then s
        else s.setMe { s.me with d := s.me.d.put (o.x.val + i) (BitVec.ofNat 64 v) })
/-- R131. -/
def execStm (o : MultiF) (s : State) : Out :=
  multiOp s o needW .wr fun i a rt s =>
    writeN s.agent rt a (leBytes 8 (if multiSkip (o.x.val + i) then 0 else (s.me.d.get (o.x.val + i)).toNat)) s

end Sys2Proof.Machine
end

