-- ==== Sys2Proof/Machine/Control.lean ====
section
/-! DEFINITION. Control flow of the access half: branches and jumps (R137, R138) and the counted loop
(R139 to R141). -/

namespace Sys2Proof.Machine

/-- The target of R97: the instruction's address + 2 × immediate, modulo 2^16. -/
def target (s : State) (imm : DWord) : BitVec 16 := s.me.pc + (imm <<< 1).setWidth 16
/-- A target lies in the instruction store. -/
def targetOk (t : BitVec 16) : Bool := t.toNat < 0x8000

/-- A branch of R137: the target is checked whether or not it is taken. -/
def branch (s : State) (imm : DWord) (taken : Bool) : Out :=
  let t := target s imm
  if !targetOk t then illegal s
  else if taken then finishJump s s.me t true
  else finish s

/-- R137. -/
def execB (imm : DWord) (s : State) : Out := branch s imm true
/-- The address of the next instruction. -/
def nextPc (s : State) : BitVec 16 := s.me.pc + BitVec.ofNat 16 (2 * s.ilen)
/-- R137: never disarms the loop (R141). -/
def execCall (imm : DWord) (s : State) : Out :=
  let t := target s imm
  if !targetOk t then illegal s
  else finishJump s (s.me.wi 15 ((nextPc s).setWidth 64)) t false
/-- A branch on the oldest bit of CQ. -/
def branchCq (s : State) (imm : DWord) (want : Bool) : Out :=
  let t := target s imm
  if !targetOk t then illegal s
  else match s.me.cq with
    | [] => starve s 4
    | b :: rest =>
      let s' := s.setMe { s.me with cq := rest }
      if b == want then finishJump s' s'.me t true else finish s'
/-- R137. -/
def execBcqT (imm : DWord) (s : State) : Out := branchCq s imm true
/-- R137. -/
def execBcqF (imm : DWord) (s : State) : Out := branchCq s imm false
/-- R137. -/
def execBz (o : ARI) (s : State) : Out := branch s o.imm (s.me.ia o.x == 0)
/-- R137. -/
def execBnz (o : ARI) (s : State) : Out := branch s o.imm (s.me.ia o.x != 0)
/-- R137. -/
def execBeq (o : CmpBrF) (s : State) : Out := branch s o.imm (s.me.ia o.x == s.me.ia o.y)
/-- R137. -/
def execBne (o : CmpBrF) (s : State) : Out := branch s o.imm (s.me.ia o.x != s.me.ia o.y)
/-- R137. -/
def execBlt (o : CmpBrF) (s : State) : Out := branch s o.imm ((s.me.ia o.x).slt (s.me.ia o.y))
/-- R137. -/
def execBge (o : CmpBrF) (s : State) : Out := branch s o.imm (!(s.me.ia o.x).slt (s.me.ia o.y))

/-- R138: a jump to a register's value, with its link written after the value is read. -/
def jumpReg (s : State) (t : DWord) (c : Ctx) (dis : Bool) : Out :=
  if t.toNat ≥ 0x8000 || t.getLsbD 0 then trap s 0x01 t
  else finishJump s c (t.setWidth 16) dis
/-- R138. -/
def execRet (s : State) : Out := jumpReg s (s.me.ia 15) s.me false
/-- R138, R141. -/
def execJr (x : Fin 16) (s : State) : Out := jumpReg s (s.me.ia x) s.me true
/-- R138. -/
def execJlr (o : AR2) (s : State) : Out :=
  jumpReg s (s.me.ia o.x) (s.me.wi o.y ((nextPc s).setWidth 64)) false

/-- R97, R139: end ≤ start, a last halfword beyond 0x7FFE and an armed loop are ILLEGAL. -/
def execLoop (o : ARI) (s : State) : Out :=
  let start := s.me.pc.toNat + 2 * s.ilen
  let last := (target s o.imm).toNat
  if last + 2 ≤ start || last > 0x7FFE || s.me.loop.isSome then illegal s
  else if s.me.ia o.x = 0 then finishJump s s.me (BitVec.ofNat 16 (last + 2)) false
  else
    finishWith s { s.me with loop := some ⟨BitVec.ofNat 16 start, BitVec.ofNat 16 (last + 2), o.x⟩ }

end Sys2Proof.Machine
end

