-- ==== Sys2Proof/Machine/Execute.lean ====
section
/-! DEFINITION. The execute-half instructions on d registers: integer (R153 to R157), scalar floating
point and conversions (R158 to R165), and the generator's scalar forms (R166, R167). -/

namespace Sys2Proof.Machine

/-! ### Integer arithmetic (R155) -/

/-- High 64 bits of the signed product. -/
def mulHigh (u v : DWord) : DWord := BitVec.ofInt 64 (u.toInt * v.toInt / 2 ^ 64)
/-- The lesser as signed. -/
def minS (u v : DWord) : DWord := if u.toInt ≤ v.toInt then u else v
/-- The greater as signed. -/
def maxS (u v : DWord) : DWord := if u.toInt ≤ v.toInt then v else u
/-- The lesser as unsigned. -/
def minU (u v : DWord) : DWord := if u.toNat ≤ v.toNat then u else v
/-- The greater as unsigned. -/
def maxU (u v : DWord) : DWord := if u.toNat ≤ v.toNat then v else u
/-- DIV of R155. -/
def divS (u v : DWord) : DWord :=
  if v = 0 then BitVec.allOnes 64
  else if u.toInt = -(2 ^ 63) ∧ v.toInt = -1 then u
  else BitVec.ofInt 64 (u.toInt.tdiv v.toInt)
/-- REM of R155. -/
def remS (u v : DWord) : DWord :=
  if v = 0 then u
  else if u.toInt = -(2 ^ 63) ∧ v.toInt = -1 then 0
  else BitVec.ofInt 64 (u.toInt.tmod v.toInt)
/-- DIVZ of R155. -/
def divU (u v : DWord) : DWord :=
  if v = 0 then BitVec.allOnes 64 else BitVec.ofNat 64 (u.toNat / v.toNat)
/-- REMZ of R155. -/
def remU (u v : DWord) : DWord := if v = 0 then u else BitVec.ofNat 64 (u.toNat % v.toNat)
/-- The shift amount: bits [5:0]. -/
def sh6 (v : DWord) : Nat := v.toNat % 64
/-- Shift right with copies of bit 63. -/
def sarD (u v : DWord) : DWord := u.sshiftRight (sh6 v)

/-- R153. -/
def execXpush (x : Fin 32) (s : State) : Out := exPush s [x] 5 op1
/-- R153. -/
def execCqp (x : Fin 32) (s : State) : Out := exPush s [x] 4 fun v => if op1 v = 0 then 0 else 1
/-- A register of the two RI forms as a d register. -/
def d16 (x : Fin 16) : Fin 32 := Fin.castLE (by decide) x
/-- R154. -/
def execLi (o : DRI) (s : State) : Out := exOp s [] (d16 o.x) fun _ => (o.imm, 0)
/-- R154. -/
def execAddi (o : DRI) (s : State) : Out := exOp s [d16 o.x] (d16 o.x) fun v => (op1 v + o.imm, 0)
/-- R155. -/
def execAdd (o : DR3) (s : State) : Out := intOp s o fun u v => u + v
/-- R155. -/
def execSub (o : DR3) (s : State) : Out := intOp s o fun u v => u - v
/-- R155. -/
def execMul (o : DR3) (s : State) : Out := intOp s o fun u v => u * v
/-- R155. -/
def execMulh (o : DR3) (s : State) : Out := intOp s o mulHigh
/-- R155. -/
def execAnd (o : DR3) (s : State) : Out := intOp s o fun u v => u &&& v
/-- R155. -/
def execOr (o : DR3) (s : State) : Out := intOp s o fun u v => u ||| v
/-- R155. -/
def execXor (o : DR3) (s : State) : Out := intOp s o fun u v => u ^^^ v
/-- R155. -/
def execShl (o : DR3) (s : State) : Out := intOp s o fun u v => u <<< sh6 v
/-- R155. -/
def execShr (o : DR3) (s : State) : Out := intOp s o fun u v => u >>> sh6 v
/-- R155. -/
def execSar (o : DR3) (s : State) : Out := intOp s o sarD
/-- R155. -/
def execMin (o : DR3) (s : State) : Out := intOp s o minS
/-- R155. -/
def execMax (o : DR3) (s : State) : Out := intOp s o maxS
/-- R155. -/
def execMinz (o : DR3) (s : State) : Out := intOp s o minU
/-- R155. -/
def execMaxz (o : DR3) (s : State) : Out := intOp s o maxU
/-- R155. -/
def execDiv (o : DR3) (s : State) : Out := intOp s o divS
/-- R155. -/
def execRem (o : DR3) (s : State) : Out := intOp s o remS
/-- R155. -/
def execDivz (o : DR3) (s : State) : Out := intOp s o divU
/-- R155. -/
def execRemz (o : DR3) (s : State) : Out := intOp s o remU
/-- R156. -/
def execMov (o : DR2) (s : State) : Out := exOp s [o.y] o.x fun v => (op1 v, 0)
/-- R156: the pop of CQ comes first; both candidates are read whatever the bit. -/
def execSel (o : DR3) (s : State) : Out :=
  match s.me.cq with
  | [] => starve s 4
  | b :: rest =>
    let s' := s.setMe { s.me with cq := rest }
    match s'.me.rds [DR3.fst o, DR3.snd o] with
    | .error q => starve s q
    | .ok (vs, c) =>
      match c.wd o.x (if b then op1 vs else op2 vs) with
      | .error q => block s q
      | .ok c => finishWith s' c
/-- A bit as a CQ entry. -/
def bitD (b : Bool) : DWord := if b then 1 else 0
/-- R157. -/
def execCmpEq (o : DR2) (s : State) : Out := exPush s [o.x, o.y] 4 fun v => bitD (op1 v == op2 v)
/-- R157. -/
def execCmpNe (o : DR2) (s : State) : Out := exPush s [o.x, o.y] 4 fun v => bitD (op1 v != op2 v)
/-- R157. -/
def execCmpLt (o : DR2) (s : State) : Out := exPush s [o.x, o.y] 4 fun v => bitD ((op1 v).slt (op2 v))
/-- R157. -/
def execCmpLtz (o : DR2) (s : State) : Out := exPush s [o.x, o.y] 4 fun v => bitD ((op1 v).ult (op2 v))

/-! ### Scalar floating point (R145, R158 to R162) -/

/-- Val(fmt, ·) of the low bits of a register (R145). -/
def vof (f : FFmt) (v : DWord) : Val := valOf f (v.toNat % 2 ^ (FFmt.param f).width)
/-- A pattern and flags as a result written with zeros above the format (R145). -/
def resD (r : Nat × Flags) : DWord × Flags := (BitVec.ofNat 64 r.1, r.2)
/-- The draw of bits [15:0] (R77). -/
def draw16 (v : DWord) : Nat := v.toNat % 65536

/-- The two-source operations: sources by R95 without SR, x and y and the draw z under SR (R147). -/
def fp3Op (s : State) (o : FP3) (f : Val → Val → Val × Flags) : Out :=
  if o.rm = .sr then
    exOp s [o.x, o.y, o.z.getD 0] o.x fun v =>
      resD (roundOp o.fmt .sr (f (vof o.fmt (op1 v)) (vof o.fmt (op2 v))) (draw16 (op3 v)))
  else
    exOp s [FP3.fst o, FP3.snd o] o.x fun v =>
      resD (roundOp o.fmt o.rm (f (vof o.fmt (op1 v)) (vof o.fmt (op2 v))) 0)

/-- The sources of a single-source form: y, and the draw z under SR (R147). -/
def FP2.srcs (o : FP2) : List (Fin 32) := if o.rm = .sr then [o.y, o.z] else [o.y]

/-- The single-source operations that round (R160, R164): `dst` gives the pattern from an exact value
and a draw. -/
def fp2Op (s : State) (o : FP2) (f : DWord → Val × Flags) (t : Target) : Out :=
  exOp s (FP2.srcs o) o.x fun v =>
    let a := f (op1 v)
    let r := round t o.rm a.1 (draw16 (op2 v))
    resD (r.1, a.2 ||| r.2)

/-- R161 on patterns: the lesser operand, −0 below +0, the canonical NaN for a NaN. -/
def fminPat (f : FFmt) (a b : Nat) : Nat :=
  let x := valOf f a
  let y := valOf f b
  if x.isNan || y.isNan then (FFmt.param f).canon
  else if x.lt y then a else if y.lt x then b
  else if x.neg then a else b
/-- R161 on patterns: the greater operand. -/
def fmaxPat (f : FFmt) (a b : Nat) : Nat :=
  let x := valOf f a
  let y := valOf f b
  if x.isNan || y.isNan then (FFmt.param f).canon
  else if x.lt y then b else if y.lt x then a
  else if x.neg then b else a
/-- R161: the sign bit cleared. -/
def fabsPat (f : FFmt) (a : Nat) : Nat :=
  if (valOf f a).isNan then (FFmt.param f).canon else a % 2 ^ ((FFmt.param f).width - 1)
/-- R161: the sign bit inverted. -/
def fnegPat (f : FFmt) (a : Nat) : Nat :=
  if (valOf f a).isNan then (FFmt.param f).canon else a ^^^ 2 ^ ((FFmt.param f).width - 1)

/-- The low bits of a register that hold a value of a format (R145). -/
def lowPat (f : FFmt) (v : DWord) : Nat := v.toNat % 2 ^ (FFmt.param f).width

/-- R158. -/
def execFadd (o : FP3) (s : State) : Out := fp3Op s o Val.add
/-- R158. -/
def execFsub (o : FP3) (s : State) : Out := fp3Op s o Val.sub
/-- R158. -/
def execFmul (o : FP3) (s : State) : Out := fp3Op s o Val.mul
/-- R158. -/
def execFdiv (o : FP3) (s : State) : Out := fp3Op s o Val.div
/-- R161. -/
def execFmin (o : FP3) (s : State) : Out :=
  exOp s [FP3.fst o, FP3.snd o] o.x fun v =>
    resD (fminPat o.fmt (lowPat o.fmt (op1 v)) (lowPat o.fmt (op2 v)), 0)
/-- R161. -/
def execFmax (o : FP3) (s : State) : Out :=
  exOp s [FP3.fst o, FP3.snd o] o.x fun v =>
    resD (fmaxPat o.fmt (lowPat o.fmt (op1 v)) (lowPat o.fmt (op2 v)), 0)
/-- R161. -/
def execFabs (o : FP2) (s : State) : Out :=
  exOp s [o.y] o.x fun v => resD (fabsPat o.fmt (lowPat o.fmt (op1 v)), 0)
/-- R161. -/
def execFneg (o : FP2) (s : State) : Out :=
  exOp s [o.y] o.x fun v => resD (fnegPat o.fmt (lowPat o.fmt (op1 v)), 0)
/-- R160. -/
def execFsqrt (o : FP2) (s : State) : Out := fp2Op s o (fun v => (vof o.fmt v).sqrt) (.flt o.fmt)
/-- R160. -/
def execFrcp (o : FP2) (s : State) : Out := fp2Op s o (fun v => (vof o.fmt v).rcp) (.flt o.fmt)
/-- R160. -/
def execFrsq (o : FP2) (s : State) : Out := fp2Op s o (fun v => (vof o.fmt v).rsqrt) (.flt o.fmt)
/-- R159: d[X] + d[Y] × d[Z]. -/
def execFfma (o : FMA) (s : State) : Out :=
  exOp s [o.x, o.y, o.z] o.x fun v =>
    resD (roundOp o.fmt o.rm ((vof o.fmt (op2 v)).fma (vof o.fmt (op3 v)) (vof o.fmt (op1 v))) 0)

/-- A comparison of R162: the bit and whether a NaN operand records invalid. -/
def fcmp (s : State) (o : FCmp) (f : Val → Val → Bool) (inv : Bool) : Out :=
  match s.me.rds [o.x, o.y] with
  | .error e => starve s e
  | .ok (vs, c) =>
    let a := vof o.fmt (op1 vs)
    let b := vof o.fmt (op2 vs)
    if c.room 4 then
      let fl : Flags := if inv && (a.isNan || b.isNan) then flInvalid else 0
      finishWith s { c.push 4 (bitD (f a b)) with fflags := c.fflags ||| fl.setWidth 64 }
    else block s 4
/-- a ≤ b of R162. -/
def leVal (a b : Val) : Bool := a.lt b || a.eq b
/-- One of them is NaN. -/
def unVal (a b : Val) : Bool := a.isNan || b.isNan
/-- R162. -/
def execFcmpEq (o : FCmp) (s : State) : Out := fcmp s o Val.eq false
/-- R162. -/
def execFcmpLt (o : FCmp) (s : State) : Out := fcmp s o Val.lt true
/-- R162. -/
def execFcmpLe (o : FCmp) (s : State) : Out := fcmp s o leVal true
/-- R162. -/
def execFcmpUn (o : FCmp) (s : State) : Out := fcmp s o unVal false

/-! ### Conversions (R163 to R165) -/

/-- R163. -/
def execFcvtF2f (o : FCvt) (s : State) : Out :=
  exOp s (if o.rm = .sr then [o.y, o.z] else [o.y]) o.x fun v =>
    resD (round (.flt o.dst) o.rm (vof o.src (op1 v)) (draw16 (op2 v)))
/-- R164. -/
def execFcvtF2i (o : FP2) (s : State) : Out := fp2Op s o (fun v => (vof o.fmt v, 0)) (.int 64)
/-- R164. -/
def execFcvtI2f (o : FP2) (s : State) : Out := fp2Op s o (fun v => (valOfInt v.toInt, 0)) (.flt o.fmt)
/-- R84, R165. -/
def execF2x (o : FxF) (s : State) : Out :=
  exOp s [o.y] o.x fun v => resD (round (.int 64) .rne ((vof .fp32 (op1 v)).scale o.p.val) 0)
/-- R85, R165. -/
def execX2f (o : FxF) (s : State) : Out :=
  exOp s [o.y] o.x fun v => resD (round32 ((valOfInt (op1 v).toInt).scale (-(o.p.val : Int))))

/-! ### The generator (R76, R166, R167) -/

/-- The increment of R76. -/
def rngStep : DWord := 0x9E3779B97F4A7C15
/-- `n` draws from a generator state, in order: the values and the state after (R76). -/
def draws : Nat → DWord → List DWord × DWord
  | 0, r => ([], r)
  | n + 1, r =>
    let d := draws n (r + rngStep)
    (mix (r + rngStep) :: d.1, d.2)

/-- RNDFILL dx (R166). -/
def rndScalar (x : Fin 32) (s : State) : Out :=
  let d := draws 1 s.myCore.rng
  let s' := s.setMyCore { s.myCore with rng := d.2 }
  match s'.me.wd x (op1 d.1) with
  | .error q => block s q
  | .ok c => finishWith s' c

/-- R167. -/
def execRndseed (y : Fin 32) (s : State) : Out :=
  match s.me.rds [y] with
  | .error q => starve s q
  | .ok (vs, c) => 
    finishWith (s.setMyCore { s.myCore with rng := op1 vs }) c

end Sys2Proof.Machine
end

