-- ==== Sys2Proof/Machine/Vector.lean ====
section
/-! DEFINITION. The vector instructions: their entry into the core's vector queue and their performance
at its head (R19, R133 to R136, R166, R168 to R187, R195). -/

namespace Sys2Proof.Machine

/-- An instruction that enters the vector queue (R168, R170). -/
def isVector : Instr → Bool
  | .vld _ | .vldBf _ | .vldm _ | .vldx _ | .vst _ | .vstBf _ | .vstm _ | .vstx _ | .vamo _ | .vext _ => true
  | .vadd _ | .vsub _ | .vmul _ | .vmin _ | .vmax _ | .vabs _ | .vneg _ | .vfma _ | .viadd _ => true
  | .vand _ | .vor _ | .vxor _ | .vshl _ | .vshr _ | .vsar _ | .vimul _ => true
  | .vcmpEq _ | .vcmpLt _ | .vcmpLe _ | .vcmpUn _ | .vsel _ | .vmov _ | .vbcast _ => true
  | .vsum _ | .vminr _ | .vmaxr _ | .vsqn _ | .vcvtF2f _ | .vcvtF2i _ | .vcvtI2f _ | .vf2x _ => true
  | .vperm _ | .viota _ | .vdot _ | .vmsk _ => true
  | .rndfill o => o.vec
  | _ => false

/-! ### Vector and mask registers -/

/-- Element e of width w bits of a vector register, at the position of R66. -/
def CoreSt.velem (c : CoreSt) (r w e : Nat) : Nat :=
  (c.v.get (r * 64 + e * w / 32)).toNat / 2 ^ (e * w % 32) % 2 ^ w
/-- That element written. -/
def CoreSt.setElem (c : CoreSt) (r w e v : Nat) : CoreSt :=
  let k := r * 64 + e * w / 32
  let o := (c.v.get k).toNat
  let sh := 2 ^ (e * w % 32)
  { c with v := c.v.put k (BitVec.ofNat 32 (o - o / sh % 2 ^ w * sh + v % 2 ^ w * sh)) }
/-- A word of a vector register. -/
def CoreSt.vw (c : CoreSt) (r k : Nat) : Word := c.v.get (r * 64 + k)
/-- A word written. -/
def CoreSt.setVw (c : CoreSt) (r k : Nat) (v : Word) : CoreSt := { c with v := c.v.put (r * 64 + k) v }
/-- A mask register; vm0 reads all ones (R19). -/
def CoreSt.mask (c : CoreSt) (k : Nat) : DWord := if k = 0 then BitVec.allOnes 64 else c.vm.get k
/-- A mask register written; vm0 discards. -/
def CoreSt.setMask (c : CoreSt) (k : Nat) (v : DWord) : CoreSt :=
  if k = 0 then c else { c with vm := c.vm.put k v }

/-! ### Issue (R168 to R170) -/

/-- The item of the executing context's instruction. -/
def mkItem (s : State) (i : Instr) : VItem :=
  { who := s.cur, pc := s.me.pc, ins := i, ea := 0, cap := ⟨false, 0⟩, guards := s.me.guards, dv := 0,
    vals := [], len := s.ilen, place := .here }

/-- The core's vector queue has room for one more (R19). -/
def vqRoom (s : State) : Bool := s.myCore.vq.length < 8

/-- An item enters the executing core's vector queue. -/
def enterVq (v : VItem) (s : State) : State := s.setMyCore { s.myCore with vq := s.myCore.vq ++ [v] }

/-- A vector instruction that is complete on entering the queue (R170). -/
def issueV (s : State) (i : Instr) : Out :=
  if vqRoom s then finish (enterVq (mkItem s i) s) else stall s

/-- The same with a d operand read at issue (R169, R189). -/
def issueVd (s : State) (i : Instr) (y : Fin 32) : Out :=
  if vqRoom s then
    match s.me.rds [y] with
    | .error q => starve s q
    | .ok (vs, c) => finishWith (enterVq { mkItem s i with dv := op1 vs } s)
        (let t := enterVq { mkItem s i with dv := op1 vs } (s.setMe c)
         t.me)
  else stall s

/-! ### Vector arithmetic at its place in the queue (R172 to R187) -/

/-- The elements of a format in a register (R172). -/
def elems (f : FFmt) : Nat := if f = .fp32 then 64 else 128
/-- An element is enabled (R172). -/
def enabled (f : FFmt) (m : DWord) (e : Nat) : Bool := m.getLsbD (if f = .fp32 then e else e / 2)

/-- Every enabled element of a list computed from the old registers and written: the core and the
flags. -/
def vmap (c : CoreSt) (x w : Nat) (es : List Nat) (en : Nat → Bool) (g : Nat → Nat × Flags) :
    CoreSt × Flags :=
  (es.filter en).foldl (fun a e => let r := g e; (a.1.setElem x w e r.1, a.2 ||| r.2)) (c, 0)

/-- The draw of R77 for element e of a format from v[Z]. -/
def vdraw (c : CoreSt) (f : FFmt) (z e : Nat) : Nat :=
  if f = .fp32 then c.velem z 32 e % 65536 else c.velem z 16 e

/-- R173: R158 on every enabled element. -/
def vfp3 (c : CoreSt) (o : VF3) (f : Val → Val → Val × Flags) : CoreSt × Flags :=
  let fm := o.f.fmt
  let w := (FFmt.param fm).width
  let a := if o.f.rm = .sr then o.f.x else FP3.fst o.f
  let b := if o.f.rm = .sr then o.f.y else FP3.snd o.f
  let z := match o.f.z with | some z => z.val | none => 0
  vmap c o.f.x.val w (List.range (elems fm)) (enabled fm (c.mask o.mask.val)) fun e =>
    roundOp fm o.f.rm (f (valOf fm (c.velem a.val w e)) (valOf fm (c.velem b.val w e)))
      (if o.f.rm = .sr then vdraw c fm z e else 0)

/-- R175: R161's two-operand forms on patterns. -/
def vpat3 (c : CoreSt) (o : VF3) (f : FFmt → Nat → Nat → Nat) : CoreSt × Flags :=
  let fm := o.f.fmt
  let w := (FFmt.param fm).width
  vmap c o.f.x.val w (List.range (elems fm)) (enabled fm (c.mask o.mask.val)) fun e =>
    (f fm (c.velem (FP3.fst o.f).val w e) (c.velem (FP3.snd o.f).val w e), 0)

/-- R175: R161's one-operand forms on patterns. -/
def vpat2 (c : CoreSt) (o : VF2) (f : FFmt → Nat → Nat) : CoreSt × Flags :=
  let fm := o.f.fmt
  let w := (FFmt.param fm).width
  vmap c o.f.x.val w (List.range (elems fm)) (enabled fm (c.mask o.mask.val)) fun e =>
    (f fm (c.velem o.f.y.val w e), 0)

/-- R174. -/
def vfma (c : CoreSt) (o : VFMAF) : CoreSt × Flags :=
  let fm := o.f.fmt
  let w := (FFmt.param fm).width
  let el (r : Fin 32) (e : Nat) := valOf fm (c.velem r.val w e)
  vmap c o.f.x.val w (List.range (elems fm)) (enabled fm (c.mask o.mask.val)) fun e =>
    roundOp fm o.f.rm ((el o.f.y e).fma (el o.f.z e) (el o.f.x e)) 0

/-- R176: 64 words. -/
def vint (c : CoreSt) (o : VR3) (f : Word → Word → Word) : CoreSt × Flags :=
  vmap c o.r.x.val 32 (List.range 64) (fun e => (c.mask o.mask.val).getLsbD e) fun e =>
    ((f (c.vw (DR3.fst o.r).val e) (c.vw (DR3.snd o.r).val e)).toNat, 0)
/-- The shift amount of R176: bits [4:0]. -/
def sh5 (v : Word) : Nat := v.toNat % 32

/-- R177: the comparison bits of the enabled elements written to a mask register. -/
def vcmp (c : CoreSt) (o : VCmpF) (f : Val → Val → Bool) (inv : Bool) : CoreSt × Flags :=
  let m := c.mask o.mask.val
  let el (r : Fin 32) (k : Nat) := valOf .fp32 (c.vw r.val k).toNat
  let ks := (List.range 64).filter fun k => m.getLsbD k
  let old := c.mask o.k.val
  let new := ks.foldl (fun v k =>
    let bit := BitVec.ofNat 64 (2 ^ k)
    if f (el o.y k) (el o.z k) then v ||| bit else v &&& ~~~bit) old
  let fl : Flags := if inv && ks.any fun k => (el o.y k).isNan || (el o.z k).isNan then flInvalid else 0
  (c.setMask o.k.val new, fl)

/-- R178: VSEL. -/
def vsel (c : CoreSt) (o : VR3) : CoreSt × Flags :=
  let m := c.mask o.mask.val
  match o.r.z with
  | none =>
    vmap c o.r.x.val 32 (List.range 64) (fun e => m.getLsbD e) fun e => ((c.vw o.r.y.val e).toNat, 0)
  | some z =>
    vmap c o.r.x.val 32 (List.range 64) (fun _ => true) fun e =>
      ((c.vw (if m.getLsbD e then o.r.y.val else z.val) e).toNat, 0)

/-- The steps of the tree of R183 over a list whose length is a power of two. -/
def treeStep (f : Nat → Nat → Nat × Flags) : List Nat → List Nat × Flags
  | a :: b :: t =>
    let r := f a b
    let q := treeStep f t
    (r.1 :: q.1, r.2 ||| q.2)
  | l => (l, 0)
/-- The tree of R183, `n` halvings. -/
def treeFold (f : Nat → Nat → Nat × Flags) : Nat → List Nat → List Nat × Flags
  | 0, l => (l, 0)
  | n + 1, l =>
    let r := treeStep f l
    let q := treeFold f n r.1
    (q.1, r.2 ||| q.2)

/-- Addition in FP32, RNE, on patterns. -/
def add32 (a b : Nat) : Nat × Flags := roundOp .fp32 .rne ((valOf .fp32 a).add (valOf .fp32 b)) 0
/-- Multiplication in FP32, RNE, on patterns. -/
def mul32 (a b : Nat) : Nat × Flags := roundOp .fp32 .rne ((valOf .fp32 a).mul (valOf .fp32 b)) 0

/-- R183: a reduction, with its step, neutral element, empty result, and the squaring of VSQN. -/
def vred (c : CoreSt) (o : VRedF) (f : Nat → Nat → Nat × Flags) (neutral empty : Nat) (sq : Bool) :
    CoreSt × Flags :=
  let w := (FFmt.param o.fmt).width
  let m := c.mask o.mask.val
  let es := List.range (elems o.fmt)
  let t (e : Nat) : Nat × Flags :=
    if enabled o.fmt m e then
      let v := widen32 o.fmt (c.velem o.y.val w e)
      if sq then mul32 v v else (v, 0)
    else (neutral, 0)
  let leaves := es.map fun e => (t e).1
  let fl0 := es.foldl (fun a e => a ||| (t e).2) 0
  let r := treeFold f 7 leaves
  let res := if es.any (enabled o.fmt m) then r.1.headD 0 else empty
  let c' := (List.range 64).foldl (fun c k => c.setVw o.x.val k (if k = 0 then BitVec.ofNat 32 res else 0)) c
  (c', fl0 ||| r.2)

/-- R163, R185: VCVT.F2F, whose mask is vm0. -/
def vcvtF2f (c : CoreSt) (o : FCvt) : CoreSt × Flags :=
  vmap c o.x.val (FFmt.param o.dst).width (List.range 64) (fun _ => true) fun e =>
    round (.flt o.dst) o.rm (valOf o.src (c.velem o.y.val (FFmt.param o.src).width e))
      (c.velem o.z.val 32 e % 65536)
/-- R185: VCVT.F2I into INT32. -/
def vcvtF2i (c : CoreSt) (o : VF2) : CoreSt × Flags :=
  vmap c o.f.x.val 32 (List.range 64) (fun e => (c.mask o.mask.val).getLsbD e) fun e =>
    round (.int 32) o.f.rm (valOf o.f.fmt (c.velem o.f.y.val (FFmt.param o.f.fmt).width e))
      (c.velem o.f.z.val 32 e % 65536)
/-- R185: VCVT.I2F from s32. -/
def vcvtI2f (c : CoreSt) (o : VF2) : CoreSt × Flags :=
  vmap c o.f.x.val (FFmt.param o.f.fmt).width (List.range 64) (fun e => (c.mask o.mask.val).getLsbD e) fun e =>
    round (.flt o.f.fmt) o.f.rm (valOfInt (signedOf 32 (c.vw o.f.y.val e).toNat)) (c.velem o.f.z.val 32 e % 65536)

/-- R186: each 64-bit result in two words of v[X + k div 32]. -/
def vf2x (c : CoreSt) (o : VFxF) : CoreSt × Flags :=
  ((List.range 64).filter fun k => (c.mask o.mask.val).getLsbD k).foldl (fun a k =>
    let r := round (.int 64) .rne ((valOf .fp32 (c.vw o.f.y.val k).toNat).scale o.f.p.val) 0
    let reg := (o.f.x.val + k / 32) % 32
    ((a.1.setVw reg (2 * (k % 32)) (BitVec.ofNat 32 r.1)).setVw reg (2 * (k % 32) + 1)
      (BitVec.ofNat 32 (r.1 / 2 ^ 32)), a.2 ||| r.2)) (c, 0)

/-- R187. The products are added first, and each step records what it raises, beside a NaN too (DESIGN CHOICE, log entry
36). -/
def vdot (c : CoreSt) (o : VFMAF) : CoreSt × Flags :=
  let el (r : Fin 32) (e : Nat) := valOf o.f.fmt (c.velem r.val 16 e)
  vmap c o.f.x.val 32 (List.range 64) (fun e => (c.mask o.mask.val).getLsbD e) fun k =>
    let p0 := (el o.f.y (2 * k)).mul (el o.f.z (2 * k))
    let p1 := (el o.f.y (2 * k + 1)).mul (el o.f.z (2 * k + 1))
    let q := p0.1.add p1.1
    let t := (valOf .fp32 (c.vw o.f.x.val k).toNat).add q.1
    roundOp .fp32 o.f.rm (t.1, p0.2 ||| p1.2 ||| q.2 ||| t.2) 0

/-- The number of set bits of a mask below bit k. -/
def popBelow (m : DWord) (k : Nat) : Nat := ((List.range k).filter fun i => m.getLsbD i).length

/-- A vector instruction without memory access performed on its core: the registers and the flags. -/
def vectorOp (c : CoreSt) (v : VItem) : CoreSt × Flags :=
  let words (x : Fin 32) (mask : Fin 8) (g : Nat → Word) : CoreSt × Flags :=
    vmap c x.val 32 (List.range 64) (fun e => (c.mask mask.val).getLsbD e) fun e => ((g e).toNat, 0)
  match v.ins with
  | .vadd o => vfp3 c o Val.add
  | .vsub o => vfp3 c o Val.sub
  | .vmul o => vfp3 c o Val.mul
  | .vmin o => vpat3 c o fminPat
  | .vmax o => vpat3 c o fmaxPat
  | .vabs o => vpat2 c o fabsPat
  | .vneg o => vpat2 c o fnegPat
  | .vfma o => vfma c o
  | .viadd o => vint c o fun u v => u + v
  | .vand o => vint c o fun u v => u &&& v
  | .vor o => vint c o fun u v => u ||| v
  | .vxor o => vint c o fun u v => u ^^^ v
  | .vshl o => vint c o fun u v => u <<< sh5 v
  | .vshr o => vint c o fun u v => u >>> sh5 v
  | .vsar o => vint c o fun u v => u.sshiftRight (sh5 v)
  | .vimul o => vint c o fun u v => u * v
  | .vcmpEq o => vcmp c o Val.eq false
  | .vcmpLt o => vcmp c o Val.lt true
  | .vcmpLe o => vcmp c o leVal true
  | .vcmpUn o => vcmp c o unVal false
  | .vsel o => vsel c o
  | .vmov o => words o.x o.mask fun e => c.vw o.y.val e
  | .vbcast o => words o.x o.mask fun _ => v.dv.setWidth 32
  | .vsum o => vred c o add32 0x80000000 0 false
  | .vsqn o => vred c o add32 0x80000000 0 true
  | .vminr o => vred c o (fun a b => (fminPat .fp32 a b, 0)) 0x7F800000 0x7F800000 false
  | .vmaxr o => vred c o (fun a b => (fmaxPat .fp32 a b, 0)) 0xFF800000 0xFF800000 false
  | .vcvtF2f o => vcvtF2f c o
  | .vcvtF2i o => vcvtF2i c o
  | .vcvtI2f o => vcvtI2f c o
  | .vf2x o => vf2x c o
  | .vperm o => words o.x o.mask fun e => c.vw o.y.val ((c.vw o.z.val e).toNat % 64)
  | .viota o => words o.x o.mask fun e => BitVec.ofNat 32 (popBelow (c.mask o.mask.val) e)
  | .vdot o => vdot c o
  | .vmsk o => (c.setMask o.k.val (v.dv &&& c.mask o.mask.val), 0)
  | .rndfill o =>
    ((List.range 64).foldl (fun c k => c.setVw o.x.val k (v.vals.getD k 0)) c, 0)
  | _ => (c, 0)

/-! ### Vector memory operations at their place in the queue (R133 to R136, R195) -/

/-- The parts of a vector memory operation: alignment, bytes checked as one span (or each part when
`indexed`), rights, access, the enabled parts with their addresses, and the effect of one. -/
structure VPlan where
  al : Nat
  span : Nat
  indexed : Bool
  nd : Need
  acc : Acc
  part : Nat
  parts : List (Nat × DWord)

/-- The addresses of an indexed form (R136, R195). -/
def idxAddr (c : CoreSt) (ea : DWord) (z k : Nat) : DWord :=
  ea + 4 * BitVec.ofInt 64 (signedOf 32 (c.vw z k).toNat)

/-- The enabled elements of a mask with their addresses at a step from ea. -/
def stepParts (m : DWord) (ea : DWord) (step : Nat) : List (Nat × DWord) :=
  ((List.range 64).filter fun k => m.getLsbD k).map fun k => (k, ea + BitVec.ofNat 64 (step * k))

/-- The plan of a vector memory instruction; none for another. -/
def vplan (c : CoreSt) (v : VItem) : Option VPlan :=
  let cont (n part : Nat) (nd : Need) (a : Acc) (mask : Fin 8) : Option VPlan :=
    some ⟨part, n, false, nd, a, part, stepParts (c.mask mask.val) v.ea part⟩
  let gath (z : Fin 32) (nd : Need) (a : Acc) (m : DWord) : Option VPlan :=
    some ⟨4, 4, true, nd, a, 4,
      ((List.range 64).filter fun k => m.getLsbD k).map fun k => (k, idxAddr c v.ea z.val k)⟩
  match v.ins with
  | .vld o => cont 256 4 needR .rd o.mask
  | .vldBf o => cont 128 2 needR .rd o.mask
  | .vldm _ => some ⟨8, 8, false, needR, .rd, 8, [(0, v.ea)]⟩
  | .vldx o => gath o.vz needR .rd (c.mask o.mask.val)
  | .vst o => cont 256 4 needW .wr o.mask
  | .vstBf o => cont 128 2 needW .wr o.mask
  | .vstm _ => some ⟨8, 8, false, needW, .wr, 8, [(0, v.ea)]⟩
  | .vstx o => gath o.vz needW .wr (c.mask o.mask.val)
  | .vamo o => gath o.vz needA .at (BitVec.allOnes 64)
  | _ => none

/-- The effect of one element at its address. -/
def vpart (v : VItem) (core k : Nat) (a : DWord) (rt : Route) (s : State) : MRes Unit :=
  let ag : Agent := .vector v.who
  let c := s.core core
  let setW (r : Fin 32) (x : Nat) (s : State) : MRes Unit :=
    .ok () (s.setCore core ((s.core core).setVw r.val k (BitVec.ofNat 32 x)))
  match v.ins with
  | .vld o => (readN ag rt a 4 s).bind fun x s => setW o.v x s
  | .vldBf o => (readN ag rt a 2 s).bind fun x s => setW o.v (widen32 .bf16 x) s
  | .vldm o => (readN ag rt a 8 s).bind fun x s =>
      .ok () (s.setCore core ((s.core core).setMask o.k.val (BitVec.ofNat 64 x)))
  | .vldx o => (readN ag rt a 4 s).bind fun x s => setW o.v x s
  | .vst o => writeN ag rt a (leBytes 4 (c.vw o.v.val k).toNat) s
  | .vstBf o =>
    let r := round (.flt .bf16) .rne (valOf .fp32 (c.vw o.v.val k).toNat) 0
    (writeN ag rt a (leBytes 2 r.1) s).bind fun _ s => .ok () (creditF v.who r.2 s)
  | .vstm o => writeN ag rt a (leBytes 8 (c.mask o.k.val).toNat) s
  | .vstx o => writeN ag rt a (leBytes 4 (c.vw o.v.val k).toNat) s
  | .vamo o =>
    let x := (c.vw o.v.val k).toNat
    (rmwN ag rt a 4 (fun old => some ((old + x) % 2 ^ 32)) 0 2 (BitVec.ofNat 64 x) 0 s).bind fun _ s => .ok () s
  | _ => .ok () s

/-- The i-th item leaves the core's vector queue. -/
def dropItem (core i : Nat) (s : State) : State :=
  s.setCore core { s.core core with vq := (s.core core).vq.eraseIdx i }

/-- The oldest instruction ahead of a context that is in the vector queue, changed. -/
def markQueued (f : Ahead → Ahead) : List Ahead → List Ahead
  | [] => []
  | r :: rest => if r.vec == .queued then f r :: rest else r :: markQueued f rest

/-- An instruction issued ahead of its context's boundary has been performed. -/
def aheadDone (c : Ctx) : Ctx :=
  { c with ahead := markQueued (fun r => { r with vec := .performed }) c.ahead }

/-- The context of a vector memory operation or VEXT that has been performed: past it, when it was issued at the
boundary; else the instruction is recorded as performed (R12, R170). -/
def vDone (v : VItem) (c : Ctx) (s : State) : State :=
  match v.place with
  | .here => (s.setCtx v.who ({ c with vwait := false, resume := 0 }.advance v.len).counted).withSig .done
  | .reached => (s.setCtx v.who (aheadDone { c with vwait := false, resume := 0 })).withSig .done
  | .ahead _ _ => s.setCtx v.who (aheadDone c)

/-- The i-th item has not been performed: it goes on at part k, which the resume index of its context holds, or,
ahead of the boundary, the item (R114). -/
def vStop (i : Nat) (v : VItem) (k : Nat) (stuck : Bool) (s : State) : State :=
  match v.place with
  | .ahead _ _ =>
    s.setCore v.who.core { s.core v.who.core with
      vq := (s.core v.who.core).vq.set i { v with place := .ahead k stuck } }
  | _ => s.setCtx v.who { s.ctx v.who with resume := k }

/-- The part an item goes on at. -/
def vPart (v : VItem) (s : State) : Nat :=
  match v.place with | .ahead k _ => k | _ => (s.ctx v.who).resume

/-- A precise trap at part k of the i-th item, which leaves the queue; ahead of the boundary the failure waits until the
boundary stands there. -/
def vTrap (i : Nat) (v : VItem) (cause k : Nat) (tval : DWord) (s : State) : State :=
  let s := vStop i v k true s
  match v.place with
  | .ahead _ _ => s
  | _ =>
    let s := dropItem v.who.core i s
    trapAt v.who cause tval (s.setCtx v.who { s.ctx v.who with vwait := false })

/-- A translation fault of the i-th item parks its context and holds the queue (R395); ahead of the boundary it waits
until the boundary stands there. -/
def vFault (i : Nat) (v : VItem) (cause sub acc k : Nat) (va : DWord) (s : State) : State :=
  match v.place with
  | .ahead _ _ => vStop i v k true s
  | _ =>
    let s := flushCtx v.who (vStop i v k false s)
    let s := s.setCtx v.who { s.ctx v.who with park := .parked }
    (groupFault (.vector v.who) v.who v.pc cause sub acc k 3 va s).withSig .parked

/-- The signal of an item that waits, when it is the instruction of its context's boundary. -/
def vWaits (v : VItem) (s : State) : State :=
  match v.place with | .ahead _ _ => s | _ => s.withSig .stalled

/-- Where part k of a vector load goes: a word of the vector registers, or a mask register. -/
def vloadTo (i : Instr) (k : Nat) : Option (Bool × Nat) :=
  match i with
  | .vld o => some (false, o.v.val * 64 + k)
  | .vldBf o => some (false, o.v.val * 64 + k)
  | .vldx o => some (false, o.v.val * 64 + k)
  | .vldm o => some (true, o.k.val)
  | _ => none

/-- What a vector load has overwritten ahead of the boundary is noted with its instruction (R12). -/
def noteOld (v : VItem) (k : Nat) (old : CoreSt) (s : State) : State :=
  match v.place, vloadTo v.ins k with
  | .ahead _ _, some (m, j) =>
    let c := s.ctx v.who
    let new := s.core v.who.core
    let f (r : Ahead) : Ahead :=
      if m then { r with oldM := (j, old.vm.get j, new.vm.get j) :: r.oldM }
      else { r with oldV := (j, old.v.get j, new.v.get j) :: r.oldV }
    s.setCtx v.who { c with ahead := markQueued f c.ahead }
  | _, _ => s

/-- The elements of the i-th item from where it goes on, one after another, or one of them (R114, R133). -/
def vparts (i : Nat) (v : VItem) (p : VPlan) (g : SMap DWord) : List (Nat × DWord) → State → Out
  | [], s => .next (vDone v (s.ctx v.who) (dropItem v.who.core i s))
  | (k, a) :: rest, s =>
    let core := v.who.core
    let n := p.part
    let old := s.core core
    match (match route core g v.cap a n p.nd allKinds with
      | .error c => (.trap c a s : MRes Unit)
      | .ok rt => vpart v core k a rt s) with
    | .ok _ s =>
      let s := noteOld v k old s
      (match rest with
        | x :: _ => if s.fine then .next (vWaits v (vStop i v x.1 false s)) else vparts i v p g rest s
        | [] => vparts i v p g rest s)
    | .trap c t s => .next (vTrap i v c k t s)
    | .fault c sub va acc s => .next (vFault i v c sub acc k va s)
    | .wait s => .next (vWaits v (vStop i v k false s))
    | .held s => heldAt v.who (vStop i v k false s)

/-- A gather into the register that holds its indexes: each element performed has overwritten its own. -/
def ownIndexes : Instr → Bool
  | .vldx o => o.v == o.vz
  | _ => false

/-- A vector memory operation at its place in the queue: its checks, the translation of a contiguous span, and its
elements. The checks of a span do not look at the mask (R134). A gather into the register of its indexes that goes on
checks the elements that are left: the indexes of the others are no longer there (DEDUCED, log entry 10). -/
def vmemOp (i : Nat) (v : VItem) (p : VPlan) (s : State) : Out :=
  let core := v.who.core
  let k := vPart v s
  let todo := p.parts.filter fun x => k ≤ x.1
  if !aligned v.ea p.al then .next (vTrap i v 0x07 k v.ea s)
  else
    let bad := if p.indexed then
        checkParts s v.guards core v.cap 4 4 p.nd ((if ownIndexes v.ins then todo else p.parts).map Prod.snd)
      else match route core v.guards v.cap v.ea p.span p.nd allKinds with
        | .error c => some (c, v.ea)
        | .ok _ => none
    match bad with
    | some (c, a) => .next (vTrap i v c k a s)
    | none =>
      let first := v.ea
      let last := v.ea + BitVec.ofNat 64 (p.span - 1)
      let pages := if p.indexed then [] else pageFirsts [first, last]
      match xlatePages core v.cap p.acc pages s with
      | .ok _ s => vparts i v p v.guards todo s
      | .trap c t s => .next (vTrap i v c k t s)
      | .fault c sub va acc s => .next (vFault i v c sub acc k va s)
      | .wait s => .next s
      | .held s => .next s

/-- VEXT performed ahead of the boundary: a push that it makes is noted with its instruction. -/
def notePush (v : VItem) (x : Fin 32) (c : Ctx) : Ctx :=
  match v.place with
  | .here => c
  | _ =>
    if x.val = 14 ∨ x.val = 15 then
      { c with ahead := markQueued (fun r => { r with pushes := r.pushes ++ [x.val - 12] }) c.ahead }
    else c

/-- The i-th item of a core's vector queue performed, unless its context is parked or it has failed ahead of the
boundary (R168 to R171, R395). -/
def performItem (core i : Nat) (v : VItem) (s : State) : Out :=
  let c := s.core core
  match vplan c v with
  | some p =>
    (match v.place, (s.ctx v.who).park with
    | .ahead _ true, _ => .next s
    | .ahead _ false, _ => vmemOp i v p s
    | _, .free => vmemOp i v p s
    | _, .parked => .next s
    | _, .deliver cause va => .next (vTrap i v cause (vPart v s) va s))
  | none =>
    match v.ins with
    | .vext o =>
      (match (s.ctx v.who).wd o.x ((c.vw o.y.val o.idx.val).setWidth 64) with
      | .ok x => .next (vDone v (notePush v o.x x) (dropItem core i s))
      | .error _ => .next s)
    | _ =>
      let r := vectorOp c v
      .next (creditF v.who r.2 (dropItem core i (s.setCore core r.1)))

/-- A vector memory operation or VEXT that stays in the queue at a save: its context is parked, it is held in a
tentative group, or its push finds the queue full (R170, R402). -/
def VItem.stays (v : VItem) (s : State) : Bool :=
  let c := s.ctx v.who
  !v.isAhead v.who && c.vwait && match v.ins with
    | .vext o => c.park == .parked || c.held || (c.wd o.x 0).toOption.isNone
    | _ => (vplan (s.core v.who.core) v).isSome && (c.park == .parked || c.held)

/-- The next item of a core's vector queue performed: the head, or, while the core's contexts are stopped for a save,
the first that does not stay in the queue (R168 to R171, R402). -/
def performHead (core : Nat) (s : State) : Out :=
  let c := s.core core
  let i := if c.halted then c.vq.findIdx fun v => !v.stays s else 0
  if c.saved then .next s
  else match c.vq[i]? with
    | some v => performItem core i v s
    | none => .next s

/-- A context waits for its vector memory operation or VEXT: on a full queue, when VEXT stands at the head and finds
no room for its push (R150, R189). -/
def waitVm (s : State) : Out :=
  match s.myCore.vq with
  | v :: _ =>
    if v.who == s.cur then
      match v.ins with
      | .vext o => (match s.me.wd o.x 0 with | .error q => block s q | .ok _ => stall s)
      | _ => stall s
    else stall s
  | [] => stall s

/-- The instruction that a context waits for leaves the vector queue (R150). -/
def leaveVq (w : Who) (s : State) : State :=
  let k := s.core w.core
  if (s.ctx w).vwait then
    (s.setCore w.core { k with vq := k.vq.filter fun v => !(v.who == w && !v.isAhead w && match v.ins with
      | .vext _ => true
      | i => (vplan k { v with ins := i }).isSome) }).setCtx w { s.ctx w with vwait := false }
  else s

/-- A vector memory operation, VAMO or VEXT is issued: it enters the queue, and is performed at once
when nothing stands before it; its context waits for it (R170, R391). -/
def issueVm (s : State) (i : Instr) (ea : DWord) (cap : AVal) : Out :=
  if s.me.vwait then waitVm s
  else if !vqRoom s then stall s
  else
    let alone := s.myCore.vq.isEmpty
    let s := enterVq { mkItem s i with ea := ea, cap := cap } s
    let s := s.setMe { s.me with vwait := true }
    if alone then performHead s.cur.core (s.withSig .stalled) else stall s

/-! ### The instructions -/

/-- R133, R134. -/
def execVld (o : VMemF) (s : State) : Out := issueVm s (.vld o) (s.me.ea o.m) (s.me.ra o.m.y)
/-- R134. -/
def execVldBf (o : VMemF) (s : State) : Out := issueVm s (.vldBf o) (s.me.ea o.m) (s.me.ra o.m.y)
/-- R135. -/
def execVldm (o : VMaskF) (s : State) : Out := issueVm s (.vldm o) (s.me.ea o.m) (s.me.ra o.m.y)
/-- R136. -/
def execVldx (o : VIdxF) (s : State) : Out := issueVm s (.vldx o) (s.me.eaB o.m) (s.me.ra o.m.y)
/-- R134. -/
def execVst (o : VMemF) (s : State) : Out := issueVm s (.vst o) (s.me.ea o.m) (s.me.ra o.m.y)
/-- R134. -/
def execVstBf (o : VMemF) (s : State) : Out := issueVm s (.vstBf o) (s.me.ea o.m) (s.me.ra o.m.y)
/-- R135. -/
def execVstm (o : VMaskF) (s : State) : Out := issueVm s (.vstm o) (s.me.ea o.m) (s.me.ra o.m.y)
/-- R136. -/
def execVstx (o : VIdxF) (s : State) : Out := issueVm s (.vstx o) (s.me.eaB o.m) (s.me.ra o.m.y)
/-- R195. -/
def execVamo (o : VAmoF) (s : State) : Out := issueVm s (.vamo o) (s.me.eaB o.m) (s.me.ra o.m.y)
/-- R179. -/
def execVext (o : VExtF) (s : State) : Out := issueVm s (.vext o) 0 ⟨false, 0⟩

/-- R173. -/
def execVadd (o : VF3) (s : State) : Out := issueV s (.vadd o)
/-- R173. -/
def execVsub (o : VF3) (s : State) : Out := issueV s (.vsub o)
/-- R173. -/
def execVmul (o : VF3) (s : State) : Out := issueV s (.vmul o)
/-- R175. -/
def execVmin (o : VF3) (s : State) : Out := issueV s (.vmin o)
/-- R175. -/
def execVmax (o : VF3) (s : State) : Out := issueV s (.vmax o)
/-- R175. -/
def execVabs (o : VF2) (s : State) : Out := issueV s (.vabs o)
/-- R175. -/
def execVneg (o : VF2) (s : State) : Out := issueV s (.vneg o)
/-- R174. -/
def execVfma (o : VFMAF) (s : State) : Out := issueV s (.vfma o)
/-- R176. -/
def execViadd (o : VR3) (s : State) : Out := issueV s (.viadd o)
/-- R176. -/
def execVand (o : VR3) (s : State) : Out := issueV s (.vand o)
/-- R176. -/
def execVor (o : VR3) (s : State) : Out := issueV s (.vor o)
/-- R176. -/
def execVxor (o : VR3) (s : State) : Out := issueV s (.vxor o)
/-- R176. -/
def execVshl (o : VR3) (s : State) : Out := issueV s (.vshl o)
/-- R176. -/
def execVshr (o : VR3) (s : State) : Out := issueV s (.vshr o)
/-- R176. -/
def execVsar (o : VR3) (s : State) : Out := issueV s (.vsar o)
/-- R176. -/
def execVimul (o : VR3) (s : State) : Out := issueV s (.vimul o)
/-- R177. -/
def execVcmpEq (o : VCmpF) (s : State) : Out := issueV s (.vcmpEq o)
/-- R177. -/
def execVcmpLt (o : VCmpF) (s : State) : Out := issueV s (.vcmpLt o)
/-- R177. -/
def execVcmpLe (o : VCmpF) (s : State) : Out := issueV s (.vcmpLe o)
/-- R177. -/
def execVcmpUn (o : VCmpF) (s : State) : Out := issueV s (.vcmpUn o)
/-- R178. -/
def execVsel (o : VR3) (s : State) : Out := issueV s (.vsel o)
/-- R178. -/
def execVmov (o : VR2) (s : State) : Out := issueV s (.vmov o)
/-- R178: d[Y] is taken at issue. -/
def execVbcast (o : VR2) (s : State) : Out := issueVd s (.vbcast o) o.y
/-- R183. -/
def execVsum (o : VRedF) (s : State) : Out := issueV s (.vsum o)
/-- R183. -/
def execVminr (o : VRedF) (s : State) : Out := issueV s (.vminr o)
/-- R183. -/
def execVmaxr (o : VRedF) (s : State) : Out := issueV s (.vmaxr o)
/-- R183. -/
def execVsqn (o : VRedF) (s : State) : Out := issueV s (.vsqn o)
/-- R185. -/
def execVcvtF2f (o : FCvt) (s : State) : Out := issueV s (.vcvtF2f o)
/-- R185. -/
def execVcvtF2i (o : VF2) (s : State) : Out := issueV s (.vcvtF2i o)
/-- R185. -/
def execVcvtI2f (o : VF2) (s : State) : Out := issueV s (.vcvtI2f o)
/-- R186. -/
def execVf2x (o : VFxF) (s : State) : Out := issueV s (.vf2x o)
/-- R180. -/
def execVperm (o : VPermF) (s : State) : Out := issueV s (.vperm o)
/-- R181. -/
def execViota (o : VIotaF) (s : State) : Out := issueV s (.viota o)
/-- R187. -/
def execVdot (o : VFMAF) (s : State) : Out := issueV s (.vdot o)
/-- R182: d[Y] is taken at issue. -/
def execVmsk (o : VMskF) (s : State) : Out := issueVd s (.vmsk o) o.y
/-- R166: RNDFILL in both forms; the vector form takes its 64 draws at issue. -/
def execRndfill (o : RndF) (s : State) : Out :=
  if !o.vec then rndScalar o.x s
  else if vqRoom s then
    let d := draws 64 s.myCore.rng
    let s := s.setMyCore { s.myCore with rng := d.2 }
    finish (enterVq { mkItem s (.rndfill o) with vals := d.1.map fun x => x.setWidth 32 } s)
  else stall s

/-- R168 to R171: the head of a core's vector queue is performed. -/
def execVectorPerform (core : Nat) (s : State) : Out := performHead core s

end Sys2Proof.Machine
end

