-- ==== Sys2Proof/Machine/Ctl.lean ====
section
/-! DEFINITION. The control registers (R30, R31, R213): the map, its access rights, the value checks of
each register, and the writes that act on more than the register. -/

namespace Sys2Proof.Machine

/-! ### Reading -/

/-- n different entries of a list, each picked of those that are left. -/
def pickFrom (pick : Nat → Nat) : Nat → List Nat → List Nat
  | 0, _ => []
  | n + 1, l =>
    let k := pick n % max 1 l.length
    l.getD k 0 :: pickFrom pick n (l.eraseIdx k)

/-- The physical places of the 144 logical clusters of a die on a part with no repairs, each row × 12 + column on the
13 × 12 array (R3, R473). -/
def clusterPlaces (die : Nat) : List Nat := pickFrom (Config.clusterPick die) 144 (List.range 156)
/-- The physical cores of the four logical cores of a cluster on a part with no repairs (R3, R473). -/
def corePlaces (cl : Nat) : List Nat := pickFrom (Config.corePick cl) 4 (List.range 5)

/-- The physical cluster of a logical one. -/
def physCluster (cl : Nat) (s : State) : Nat :=
  match s.plat.pcluster.get cl with | 0 => (clusterPlaces (cl / 144)).getD (cl % 144) 0 | n + 1 => n
/-- The physical core of a logical core in its cluster; in a spare cluster that has taken over, the cores in the places of the
logical cluster's first unit are the enabled ones (DESIGN CHOICE, log entry 26). -/
def physCore (k : Nat) (s : State) : Nat :=
  match s.plat.pcore.get k with | 0 => (corePlaces (clusterOf k)).getD (k % 4) 0 | n + 1 => n

/-- ctl.pcore (R473): the physical unit of a logical core. -/
def pcoreVal (s : State) (core : Nat) : DWord :=
  BitVec.ofNat 64 (dieOf core * 2 ^ 14 + physCluster (clusterOf core) s * 2 ^ 6 + physCore core s)

/-- A product of the core is held by the governor now: in an exchange phase none is (R251, R252). -/
def CoreSt.heldNow (k : CoreSt) : Bool := k.mx.govHeld ≠ 0 && !k.xphase

/-- ctl.gov (R252). -/
def govVal (k : CoreSt) : DWord :=
  BitVec.ofNat 64 ((if k.heldNow then 2 ^ 48 else 0) + min k.mx.govLast 0xFFFF * 2 ^ 32 + min k.heldcyc.toNat 0xFFFFFFFF)

/-- ctl.spec (R357). -/
def specVal (g : Grp) : DWord :=
  BitVec.ofNat 64 ((if g.tent then 1 else 0) + (if g.isTail then 2 else 0) + (if g.res then 4 else 0))

/-- status (R387). -/
def statusVal (s : State) (w : Who) : DWord :=
  let c := s.ctx w
  let b (x : Bool) (n : Nat) : Nat := if x then n else 0
  BitVec.ofNat 64 (b c.h 1 + b c.packet.isSome 2 + b c.stream.isSome 4 + b c.loop.isSome 8 + b (pendBit w s) 16)

/-- A field of the group a core runs, 0 without one. -/
def CoreSt.ofGrp (c : CoreSt) (f : Grp → DWord) : DWord := match c.grp with | some g => f g | none => 0

/-- A control register as a context reads it; none for a number that is not in the map (R30). -/
def ctlRead (w : Who) (num : Nat) (s : State) : Option DWord :=
  let c := s.ctx w
  let k := s.core w.core
  match num with
  | 0x000 => some (statusVal s w)
  | 0x001 => some c.cause
  | 0x002 => some c.epc
  | 0x003 => some c.tval
  | 0x004 => some c.tvec
  | 0x005 => some c.scratch
  | 0x008 => some c.fflags
  | 0x009 => some c.eflags
  | 0x010 => some (BitVec.ofNat 64 w.ctx)
  | 0x011 => some (BitVec.ofNat 64 w.core)
  | 0x012 => some (k.ofGrp fun g => BitVec.ofNat 64 g.idx)
  | 0x013 => some (k.ofGrp fun g => BitVec.ofNat 64 g.n)
  | 0x014 => some (k.ofGrp fun g => BitVec.ofNat 64 g.id)
  | 0x015 => some k.step
  | 0x016 => some k.cycle
  | 0x017 => some (pcoreVal s w.core)
  | 0x018 => some (k.ofGrp fun g => BitVec.ofNat 64 g.vdev)
  | 0x020 => some k.rng
  | 0x021 => some k.srseed
  | 0x030 => some (k.win.get 0)
  | 0x031 => some (k.win.get 1)
  | 0x032 => some (k.win.get 2)
  | 0x033 => some (k.win.get 3)
  | 0x038 => some k.rxbase
  | 0x039 => some k.rxsize
  | 0x03A => some k.rxhead
  | 0x03B => some k.rxtail
  | 0x03C => some k.rxflags
  | 0x03D => some k.rxdrop
  | 0x050 => some k.barph
  | 0x058 => some k.plan
  | 0x059 => some k.xcyc
  | 0x060 => some k.ring
  | 0x061 => some k.vshare
  | 0x062 => some (govVal k)
  | 0x070 => some (c.guards.get 0)
  | 0x071 => some (c.guards.get 1)
  | 0x072 => some (c.guards.get 2)
  | 0x073 => some (c.guards.get 3)
  | 0x080 => some 0
  | 0x081 => some (k.ofGrp specVal)
  | 0x100 => some k.winrej
  | 0x101 => some k.ferefuse
  | n => if 0x040 ≤ n ∧ n < 0x050 then some (k.dom.get (n - 0x040)) else none

/-! ### Writing -/

/-- The registers of the map that are RO. -/
def ctlRO : List Nat :=
  [0x010, 0x011, 0x012, 0x013, 0x014, 0x015, 0x016, 0x017, 0x018, 0x03B, 0x050, 0x059, 0x061, 0x062, 0x080, 0x081]
/-- The registers of the map that are RW-H. -/
def ctlRWH : List Nat := [0x000, 0x001, 0x002, 0x003, 0x004, 0x070, 0x071, 0x072, 0x073]

/-- The bits of a register that a write may not set: a nonzero value there is ILLEGAL (R31). Bits [63:8] of cause, 0 by
R386, and those above the 32 of winrej and ferefuse count as reserved; bits [63:5] of fflags and eflags, of which no
rule says so, hold what is written (DEDUCED, log entry 33). -/
def ctlReserved (num : Nat) : DWord :=
  match num with
  | 0x000 => ~~~(0x1F : DWord)
  | 0x001 => ~~~(0xFF : DWord)
  | 0x100 | 0x101 => ~~~(0xFFFFFFFF : DWord)
  | 0x030 | 0x031 | 0x032 | 0x033 => ~~~(0x7FFFFFFFFF : DWord)
  | 0x038 | 0x039 | 0x03A => ~~~(0xFFFF : DWord)
  | 0x03C => ~~~(7 : DWord)
  | 0x03D => ~~~(0xFFFFFFFF : DWord)
  | 0x070 | 0x071 | 0x072 | 0x073 => ~~~(0x7FFFFFFFF : DWord)
  | 0x04F => ~~~(0xFFFF01FF : DWord)
  | n => if 0x040 ≤ n ∧ n < 0x04F then ~~~(0x1FF : DWord) else 0

/-- The value an instruction leaves in a register by its plain rule (R213). -/
def CtlOp.apply (op : CtlOp) (old v : DWord) : DWord :=
  match op with
  | .write => v
  | .set => old ||| v
  | .clear => old &&& ~~~v

/-- R408: a new key on a channel while 64 others are active. -/
def keyOverflow (w : Who) (n : Nat) (v : DWord) (s : State) : Bool :=
  let c := s.core w.core
  domM v && decide ((usedKeys n (s.setCore w.core { c with dom := c.dom.put n v })).length > 64) &&
    !(usedKeys n s).contains (keyOf n c.vdevNo v)

/-- R270: a CRALL on a channel waits in the copy engine of a core. -/
def crallWaits (c : CoreSt) (n : Nat) : Bool :=
  match c.cp.queue with
  | x :: _ => x.begun && x.slot == n && (match x.ins with | .crall _ => true | _ => false)
  | [] => false

/-- The value checks of R213 step 4 beyond the reserved bits: whether a register may not hold a value. -/
def ctlBad (w : Who) (num : Nat) (v : DWord) (s : State) : Bool :=
  let c := s.core w.core
  let rx (base size : DWord) : Bool :=
    base.toNat % 8 ≠ 0 || size.toNat % 8 ≠ 0 || (size.toNat ≠ 0 && size.toNat < 16) ||
      decide (base.toNat + size.toNat > 0xC000)
  match num with
  | 0x038 => rx v c.rxsize
  | 0x039 => rx c.rxbase v
  | 0x03A => v.toNat % 8 ≠ 0 || !(decide (c.rxbase.toNat ≤ v.toNat) &&
      decide (v.toNat < c.rxbase.toNat + c.rxsize.toNat))
  | 0x060 => decide (v.toNat > 2303) || dieOf v.toNat ≠ dieOf w.core ||
      v.toNat % 576 / 48 ≠ w.core % 576 / 48
  | n =>
    if 0x040 ≤ n ∧ n < 0x050 then
      let k := n - 0x040
      let bulk := match c.grp with | some g => g.bulk | none => false
      (k == 0 && bulk) || decide (bitsOf v.toNat 7 0 > 63) ||
        decide (bitsOf v.toNat 31 16 ≠ bitsOf (c.dom.get k).toNat 31 16) ||
        !(c.chans.get k).arrived.isEmpty || (crallWaits c k && v != c.dom.get k) || keyOverflow w k v s
    else false

/-- The checks of R213 in their order: the failing cause and value, or the value the register is left
with. The status register keeps all but H, and OVF of rxflags is W1C. -/
def ctlCheck (w : Who) (num : Nat) (op : CtlOp) (v : DWord) (s : State) : Except (Nat × DWord) DWord :=
  match ctlRead w num s with
  | none => .error (0x01, BitVec.ofNat 64 num)
  | some old =>
    let nv := CtlOp.apply op old v
    if ctlRO.contains num then .error (0x01, BitVec.ofNat 64 num)
    else if ctlRWH.contains num && !(s.ctx w).h then .error (0x02, 0)
    else if nv &&& ctlReserved num ≠ 0 then .error (0x01, nv)
    else if ctlBad w num nv s then .error (0x01, nv)
    else if num = 0x03C then
      let clear := op != .clear && v.getLsbD 2
      .ok ((nv &&& 3) ||| (if clear then 0 else old &&& 4))
    else .ok nv

/-- The phase that the first arrival of a core that joins a key now goes to: past those for which every member has arrived,
which are released (R409). -/
def joinPhase (n key : Nat) (s : State) : Option Nat :=
  let R := s.keys.get key
  match (members n key s).map fun c => delivered n R c with
  | [] => none
  | x :: rest =>
    let p := rest.foldl min x
    if n ≠ 15 && decide (p > R) then some p else none

/-- R409, R410: a core leaves or joins a key by a write of ctl.domN. -/
def setDom (core n : Nat) (v : DWord) (s : State) : State :=
  let c := s.core core
  let old := c.key n
  let c' := { c with dom := c.dom.put n v }
  if c'.key n == old then s.setCore core c'
  else
    let gone := s.setCore core { c' with dom := c'.dom.put n 0, chans := c'.chans.put n default }
    let gone := match old with
      | some k => dropEmptyKey n k gone
      | none => gone
    match c'.key n with
    | some k =>
      let h : Chan := { (default : Chan) with next := joinPhase n k gone }
      let s := gone.setCore core { gone.core core with dom := c'.dom, chans := c'.chans.put n h }
      if n = 15 then podJoin k s else s
    | none => gone.setCore core { gone.core core with dom := c'.dom }

/-- What stands as done beyond the boundary that a handler returns to, when it returns to another one: kept only where
that lies before it on the way (DEDUCED, log entry 10). -/
def Ctx.aheadOf (c : Ctx) (epc : DWord) : List Ahead :=
  if epc == c.epc then c.ahead
  else c.ahead.filter fun r => r.h || (decide (c.epc ≤ epc) && decide (epc.toNat ≤ r.pc.toNat))

/-- The effect of an accepted write that leaves `v` in the register. -/
def ctlApply (w : Who) (num : Nat) (v : DWord) (s : State) : State :=
  let c := s.ctx w
  let k := s.core w.core
  match num with
  | 0x000 => s.setCtx w { c with h := v.getLsbD 0 }
  | 0x001 => s.setCtx w { c with cause := v }
  | 0x002 => s.setCtx w { c with epc := v, resume := 0, ahead := c.aheadOf v }
  | 0x003 => s.setCtx w { c with tval := v }
  | 0x004 => s.setCtx w { c with tvec := v }
  | 0x005 => s.setCtx w { c with scratch := v }
  | 0x008 => s.setCtx w { c with fflags := v }
  | 0x009 => s.setCtx w { c with eflags := v }
  | 0x020 => s.setCore w.core { k with rng := v }
  | 0x021 => s.setCore w.core { k with srseed := v }
  | 0x030 => s.setCore w.core { k with win := k.win.put 0 v }
  | 0x031 => s.setCore w.core { k with win := k.win.put 1 v }
  | 0x032 => s.setCore w.core { k with win := k.win.put 2 v }
  | 0x033 => s.setCore w.core { k with win := k.win.put 3 v }
  | 0x038 => s.setCore w.core { k with rxbase := v, rxhead := v, rxtail := v }
  | 0x039 => s.setCore w.core { k with rxsize := v, rxhead := k.rxbase, rxtail := k.rxbase }
  | 0x03A => s.setCore w.core { k with rxhead := v }
  | 0x03C => s.setCore w.core { k with rxflags := v }
  | 0x03D => s.setCore w.core { k with rxdrop := v }
  | 0x058 => s.setCore w.core { k with plan := v }
  | 0x060 => s.setCore w.core { k with ring := v }
  | 0x070 => s.setCtx w { c with guards := c.guards.put 0 v }
  | 0x071 => s.setCtx w { c with guards := c.guards.put 1 v }
  | 0x072 => s.setCtx w { c with guards := c.guards.put 2 v }
  | 0x073 => s.setCtx w { c with guards := c.guards.put 3 v }
  | 0x100 => s.setCore w.core { k with winrej := v }
  | 0x101 => s.setCore w.core { k with ferefuse := v }
  | n => if 0x040 ≤ n ∧ n < 0x050 then setDom w.core (n - 0x040) v s else s

/-- A CTLW, CTLS or CTLC of the executing context. -/
def ctlInstr (op : CtlOp) (o : CtlF) (s : State) : Out :=
  match ctlCheck s.cur o.num.val op (s.me.ia o.x) s with
  | .error e => trap s e.1 e.2
  | .ok v => finish (ctlApply s.cur o.num.val v s)

/-- R213. -/
def execCtlr (o : CtlF) (s : State) : Out :=
  match ctlRead s.cur o.num.val s with
  | none => trap s 0x01 (BitVec.ofNat 64 o.num.val)
  | some v => finishWith s (s.me.wi o.x v)
/-- R213. -/
def execCtlw (o : CtlF) (s : State) : Out := ctlInstr .write o s
/-- R213. -/
def execCtls (o : CtlF) (s : State) : Out := ctlInstr .set o s
/-- R213. -/
def execCtlc (o : CtlF) (s : State) : Out := ctlInstr .clear o s

/-! ### The writes as events -/

/-- The write that an event stands for: made by a context of a core that runs a group, and without effect
where R213 refuses it. -/
def ctlEvent (w : Who) (num : Nat) (op : CtlOp) (v : DWord) (s : State) : Out :=
  if (s.core w.core).grp.isNone then .next s
  else match ctlCheck w num op v s with
    | .error _ => .next s
    | .ok v => .next (ctlApply w num v s)

/-- R76. -/
def execRngWrite (core : Nat) (op : CtlOp) (v : DWord) (s : State) : Out := ctlEvent ⟨core, 0⟩ 0x020 op v s
/-- R407 to R409. -/
def execDomWrite (core : Nat) (n : Fin 16) (op : CtlOp) (v : DWord) (s : State) : Out :=
  ctlEvent ⟨core, 0⟩ (0x040 + n.val) op v s
/-- R26. -/
def execWinWrite (core : Nat) (n : Fin 4) (op : CtlOp) (v : DWord) (s : State) : Out :=
  ctlEvent ⟨core, 0⟩ (0x030 + n.val) op v s
/-- R29. -/
def execRingWrite (core : Nat) (op : CtlOp) (v : DWord) (s : State) : Out := ctlEvent ⟨core, 0⟩ 0x060 op v s
/-- R419: rxbase, or rxsize when `size`. -/
def execRxbaseWrite (core : Nat) (size : Bool) (op : CtlOp) (v : DWord) (s : State) : Out :=
  ctlEvent ⟨core, 0⟩ (if size then 0x039 else 0x038) op v s
/-- R419. -/
def execRxheadWrite (core : Nat) (op : CtlOp) (v : DWord) (s : State) : Out := ctlEvent ⟨core, 0⟩ 0x03A op v s
/-- R419. -/
def execRxflagsWrite (core : Nat) (op : CtlOp) (v : DWord) (s : State) : Out := ctlEvent ⟨core, 0⟩ 0x03C op v s
/-- R387. -/
def execStatusWrite (w : Who) (op : CtlOp) (v : DWord) (s : State) : Out :=
  if (s.ctx w).live then ctlEvent w 0x000 op v s else .next s
/-- R114: the resume index is cleared. -/
def execEpcWrite (w : Who) (op : CtlOp) (v : DWord) (s : State) : Out :=
  if (s.ctx w).live then ctlEvent w 0x002 op v s else .next s

end Sys2Proof.Machine
end

