-- ==== Sys2Proof/Machine/Sync.lean ====
section
/-! DEFINITION. Synchronisation and system instructions but the control registers (R190 to R221):
atomics, full/empty words, fences, barriers, helpers, sends, packets, pergola attachment, SYS. -/

namespace Sys2Proof.Machine

/-! ### Answers to packets (R428, R433) -/

/-- The answer to a request that came on a port: its status and payload. The answers of ATOMIC requests
that were performed are kept, the latest 4,096. -/
def reply (p : Packet) (status : Nat) (data : List Byte) (s : State) : State :=
  let a : Packet := { p with
    typ := 0x10, ddev := p.sdev, sdev := s.fab.devid, scause := BitVec.ofNat 8 status
    sflags := 0, replay := false, len := data.length, payload := data, op0 := 0, op1 := 0 }
  let s := sendPkt a s
  if p.typ = 3 ∧ status = 0 then
    let q := s.fab.ports.get p.port
    let k : Kept := ⟨p.sdev, p.score, p.sctx, p.reqid, data⟩
    let kept := k :: q.kept
    { s with fab := { s.fab with ports := s.fab.ports.put p.port { q with kept := kept.take 4096 } } }
  else s

/-! ### Atomics (R193, R194) -/

/-- The bytes of an AMO or CAS. -/
def atomBytes (o : AtomF) : Nat := if o.dbl then 8 else 4

/-- R193: the operation on n-byte patterns. -/
def amoVal (op : AmoOp) (n old b : Nat) : Nat :=
  let w := 8 * n
  match op with
  | .add => (old + b) % 2 ^ w
  | .and => old &&& b
  | .or => old ||| b
  | .xor => old ^^^ b
  | .min => if signedOf w old ≤ signedOf w b then old else b
  | .max => if signedOf w old ≥ signedOf w b then old else b
  | .minz => Nat.min old b
  | .maxz => Nat.max old b
  | .swap => b

/-- The number of an operation in q[3:0]. -/
def AmoOp.code : AmoOp → Nat
  | .add => 0 | .and => 1 | .or => 2 | .xor => 3 | .min => 4 | .max => 5 | .minz => 6 | .maxz => 7 | .swap => 8
/-- The number of an ordering in q[5:4]. -/
def MOrd.code : MOrd → Nat
  | .rlx => 0 | .acq => 1 | .rel => 2 | .ar => 3
/-- A release is part of the ordering. -/
def MOrd.release (o : MOrd) : Bool := o == .rel || o == .ar

/-- The shape of AMO and CAS: the checks of R192, the atomic, the old value zero-extended. -/
def atomOp (s : State) (o : AtomF) (g : Nat → Option Nat) (q : Nat) (op0 op1 : DWord) : Out :=
  let ea := s.me.eaB o.m
  let n := atomBytes o
  if MOrd.release o.ord && releaseWait s then stall s
  else checked s (s.me.ra o.m.y) ea n n needA allKinds fun rt =>
    access s 0 (rmwN s.agent rt ea n g q (if o.dbl then 3 else 2) op0 op1 s) fun v s =>
      finishWith s (s.me.wi o.x (BitVec.ofNat 64 v))

/-- R193. -/
def execAmo (op : AmoOp) (o : AtomF) (s : State) : Out :=
  let b := (s.me.ia o.z).toNat % 2 ^ (8 * atomBytes o)
  atomOp s o (fun old => some (amoVal op (atomBytes o) old b)) (MOrd.code o.ord * 16 + AmoOp.code op)
    (BitVec.ofNat 64 b) 0
/-- R194. -/
def execCas (o : AtomF) (s : State) : Out :=
  let w := 2 ^ (8 * atomBytes o)
  let e := (s.me.ia o.x).toNat % w
  let v := (s.me.ia o.z).toNat % w
  atomOp s o (fun old => if old = e then some v else none) (128 + MOrd.code o.ord * 16) (BitVec.ofNat 64 e)
    (BitVec.ofNat 64 v)

/-! ### Full/empty words (R197 to R199) -/

/-- The full/empty bit of the word at an offset set. -/
def setFe (k off : Nat) (v : Bool) (s : State) : State :=
  s.setCore k { s.core k with fe := (s.core k).fe.put (off / 8) v }
/-- The word at an offset is full. -/
def isFull (k off : Nat) (s : State) : Bool := (s.core k).fe.get (off / 8)

/-- A deferred take completes with a value (R198, R219): the requester's FETAKE is done, or its packet is
answered. -/
def serveTake (t : Take) (v : DWord) (s : State) : State :=
  match t.pkt with
  | some p => reply p 0 (leBytes 8 v.toNat) s
  | none =>
    let c := { s.ctx t.who with taking := false }
    match fetchAt (s.core t.who.core) c c.pc with
    | .ok (.fetake o) n => s.setCtx t.who ((c.wi o.x v).advance n).counted
    | _ => s.setCtx t.who c

/-- A FETAKE at its owner: the value of a full word, which becomes empty; else a place in the deferred
list, or a refusal counted in ctl.ferefuse (R197, R198). -/
def takeAt (t : Take) (k off : Nat) (s : State) : MRes DWord :=
  let c := s.core k
  if isFull k off s then .ok (BitVec.ofNat 64 (c.num off 8)) (setFe k off false s)
  else
    let wait (s : State) : MRes DWord :=
      .wait (if t.pkt.isNone then s.setCtx t.who { s.ctx t.who with taking := true } else s)
    if c.takes.length ≥ 16 then wait (s.setCore k { c with ferefuse := satInc32 c.ferefuse })
    else wait (s.setCore k { c with takes := c.takes ++ [t] })

/-- The oldest deferred take on a word taken from an owner's list. -/
def takeFirst (off : Nat) : List Take → Option (Take × List Take)
  | [] => none
  | t :: rest =>
    if t.addr % 65536 = off then some (t, rest)
    else (takeFirst off rest).map fun r => (r.1, t :: r.2)

/-- A FEPUT at its owner. -/
def putAt (ea : DWord) (v : DWord) (k off : Nat) (s : State) : MRes Unit :=
  if isFull k off s then .trap 0x0A ea s
  else
    let s := s.setCore k ((s.core k).store off (leBytes 8 v.toNat))
    match takeFirst off (s.core k).takes with
    | some (t, rest) => .ok () (serveTake t v (s.setCore k { s.core k with takes := rest }))
    | none => .ok () (setFe k off true s)

/-- A FEINIT at its owner. -/
def initAt (v : DWord) (k off : Nat) (s : State) : MRes Unit :=
  .ok () (setFe k off false (s.setCore k ((s.core k).store off (leBytes 8 v.toNat))))

/-- The shape of a full/empty instruction: the checks of R192, then `f` at the owner and offset; the
number of the form, f, goes in the packet of an owner on another device (DESIGN CHOICE, log entry 12). -/
def feOp {α : Type} (s : State) (o : FeF) (nd : Need) (form : Nat) (v : DWord)
    (f : DWord → Bool → Nat → Nat → MRes α) (r : List Byte → α) (k : α → State → Out) : Out :=
  let ea := s.me.ea o.m
  checked s (s.me.ra o.m.y) ea 8 8 nd [1, 2, 3] fun rt =>
    let win := match rt with | .win _ _ => true | _ => false
    access s 0 (perform s.agent rt ea 8 nd .at ⟨3, 0, [], 0x40, form, v, 0⟩
      (fun c off _ => f ea win c off) (fun _ _ s => .wait s) (fun _ d s => .ok (r d) s) s) k

/-- R197, R198. -/
def execFetake (o : FeF) (s : State) : Out :=
  if s.me.taking then stall s
  else feOp s o needFE 0 0 (fun ea win k off => takeAt ⟨s.cur, none, ea.toNat, win⟩ k off s)
    (fun d => BitVec.ofNat 64 (leNat d)) fun v s => finishWith s (s.me.wi o.x v)
/-- R197, R198. -/
def execFeput (o : FeF) (s : State) : Out :=
  if releaseWait s then stall s
  else
    let v := s.me.ia o.x
    feOp s o needFE 1 v (fun ea _ k off => putAt ea v k off s) (fun _ => ()) fun _ s => finish s
/-- R197. -/
def execFepeek (o : FeF) (s : State) : Out :=
  feOp s o needPeek 2 0 (fun _ _ k off => .ok (if isFull k off s then 1 else 0) s)
    (fun d => BitVec.ofNat 64 (leNat d)) fun v s => finishWith s (s.me.wi o.x v)
/-- R197. -/
def execFeinit (o : FeF) (s : State) : Out :=
  let v := s.me.ia o.x
  feOp s o needFE 3 v (fun _ _ k off => initAt v k off s) (fun _ => ()) fun _ s => finish s

/-- A refused take of a context waits for its repetition: it stands in no owner's list. -/
def refusedTake (w : Who) (s : State) : Bool :=
  (s.ctx w).taking && !(s.cores.any fun k => k.2.takes.any fun t => t.pkt.isNone && t.who == w)

/-- R198: a refused take is repeated. -/
def execFetakeRetry (w : Who) (s : State) : Out :=
  if !(s.ctx w).live || (s.core w.core).saved || !refusedTake w s then .next s
  else match fetchAt (s.core w.core) (s.ctx w) (s.ctx w).pc with
    | .ok (.fetake o) n =>
      execFetake o { s.setCtx w { s.ctx w with taking := false } with cur := w, ilen := n }
    | _ => .next s

/-! ### Fences (R200) -/

/-- A command of an engine was issued by a context and has not completed. -/
def engineBusy (w : Who) (s : State) : Bool :=
  let c := s.core w.core
  (c.mx.queue.any fun x => x.who == w) || c.cp.queue.any fun x => x.who == w

/-- A context has a message on its way to another device (R294). -/
def messageAway (w : Who) (s : State) : Bool :=
  s.fab.reqs.any fun p => match p.2 with | some r => r.agent == .message w | none => false

/-- R200, R286, R290, R294: accesses of the context are performed as they execute; a stream and posted writes in the
predecessor set are waited for, with .eng engine commands, and at pod scope every write that may be on its way to
another device. -/
def execFence (o : FenceF) (s : State) : Out :=
  let pod := o.scope == .pod
  let strm := match s.me.stream with
    | some t => if t.store then o.predW || (pod && t.cap.tag && t.cap.kind == 0) else o.predR
    | none => false
  if strm || (o.predW && postedOut s.cur s) || (pod && messageAway s.cur s) || (o.eng && engineBusy s.cur s)
  then stall s
  else finish s

/-! ### Barriers (R201 to R203) -/

/-- An ILLEGAL of a BAR instruction carries the channel number. -/
def barIllegal (s : State) (n : Fin 16) : Out := trap s 0x01 (BitVec.ofNat 64 n.val)

/-- The phases of a channel's key released so far, at a core. -/
def releasedOf (c : CoreSt) (n : Nat) (s : State) : Nat :=
  match c.key n with | some k => s.keys.get k | none => 0

/-- In a bulk launch, the arrival of a core for phase p of channel 0 ends an exchange phase: of phases R, R + 1, …,
not yet released, the first ends what bit 0 of ctl.barph says (R41, R411). -/
def endsExchange (c : CoreSt) (p R : Nat) : Bool := c.barph.getLsbD 0 != ((p - R) % 2 == 1)

/-- R202, R409, R418, R430. -/
def execBarArv (n : Fin 16) (s : State) : Out :=
  let c := s.myCore
  let bulk0 := n.val == 0 && c.isBulk
  let h := c.chans.get n.val
  if (c.key n.val).isNone then barIllegal s n
  else if bulk0 && s.cur.ctx ≠ 0 then barIllegal s n
  else if h.arrived.length ≥ 2 || releaseWait s then stall s
  else
    let p := h.next.getD (releasedOf c n.val s)
    let hold := bulk0 && endsExchange c p (releasedOf c n.val s)
    let h' : Chan := { h with arrived := h.arrived ++ [p], next := some (p + 1)
                              held := if hold then h.held ++ [(p, c.cp.seq.toNat)] else h.held }
    let t := s.setMyCore { c with chans := c.chans.put n.val h', xphase := if bulk0 then false else c.xphase }
    finish (match n.val == 15, c.key 15 with | true, some key => podAdvance key t | _, _ => t)
/-- R202. -/
def execBarWt (n : Fin 16) (s : State) : Out :=
  let c := s.myCore
  let h := c.chans.get n.val
  if (c.key n.val).isNone then barIllegal s n
  else match h.arrived with
    | [] => barIllegal s n
    | p :: rest =>
      if p < releasedOf c n.val s then
        finish (s.setMyCore { c with chans := c.chans.put n.val { h with arrived := rest } })
      else stall s
/-- R202. -/
def execBarTst (n : Fin 16) (s : State) : Out :=
  let c := s.myCore
  if (c.key n.val).isNone then barIllegal s n
  else match (c.chans.get n.val).arrived with
    | [] => barIllegal s n
    | p :: _ =>
      if s.me.room 4 then finishWith s (s.me.push 4 (if p < releasedOf c n.val s then 1 else 0))
      else block s 4

/-! ### Helpers (R204 to R206) -/

/-- The lowest-numbered free helper of a core. -/
def freeHelper (c : CoreSt) : Option Nat := (rangeFrom 1 11).find? fun i => !(c.ctxs.get i).live

/-- R204. -/
def execHstart (o : HStartF) (s : State) : Out :=
  if s.cur.ctx ≠ 0 then illegal s
  else
    let t := target s o.imm
    if !targetOk t then illegal s
    else if releaseWait s then stall s
    else match freeHelper s.myCore with
      | none => stall s
      | some h =>
        let me := s.me
        let c : Ctx := { (default : Ctx) with live := true, pc := t, guards := me.guards, tvec := me.tvec }
        let s := s.setCtx ⟨s.cur.core, h⟩ (c.wa 1 (me.ra o.y))
        finishWith s (s.me.wi o.x (BitVec.ofNat 64 h))

/-- The end of the executing helper (R205), which releases and so waits for its messages too. -/
def endMe (s : State) : Out :=
  if releaseWait s then stall s
  else .next ((endHelper s.cur s).withSig .done)
/-- R205. -/
def execHend (s : State) : Out := if s.cur.ctx = 0 then illegal s else endMe s

/-- R34, R217: context 0 waits for its helpers and for an active STS stream; a helper acts as HEND. -/
def execHalt (s : State) : Out :=
  if s.cur.ctx ≠ 0 then endMe s
  else
    let sts := match s.me.stream with | some t => t.store | none => false
    if sts || (rangeFrom 1 11).any fun i => (s.myCore.ctxs.get i).live then stall s
    else .next ((s.setMe { s.me with live := false, stream := none }).withSig .done)

/-- The checks of HJOIN and HKILL, then what follows with the helper's number. -/
def helperOp (s : State) (x : Fin 16) (k : Nat → Out) : Out :=
  let v := s.me.ia x
  if s.cur.ctx ≠ 0 then illegal s
  else if v.toNat < 1 || v.toNat > 10 then trap s 0x01 v
  else k v.toNat
/-- R206. -/
def execHjoin (x : Fin 16) (s : State) : Out :=
  helperOp s x fun h => if (s.myCore.ctxs.get h).live then stall s else finish s
/-- R206: the helper ends at its next boundary. A vector memory operation in the queue that is not parked,
and a remote access on its way, are performed first, and what it has posted is placed (R290); a take that waits at an owner on another device is
withdrawn (R219). -/
def execHkill (x : Fin 16) (s : State) : Out :=
  helperOp s x fun h =>
    let w : Who := ⟨s.cur.core, h⟩
    let c := s.ctx w
    if !c.live then finish s
    else if (c.vwait && c.park == .free) || reqOut w s || postedOut w s then
      stall (withdrawRemote (· == w) (s.setCtx w { c with killed := true }))
    else finish (endHelper w s)

/-! ### Sends (R207 to R212) -/

/-- An exchange plan entry (R413). -/
structure PlanEnt where
  cycle : Nat
  peer : Nat
  dir : Nat
  len : Nat
  loff : Nat
  roff : Nat
  ok : Bool

/-- The fields of the 16 bytes of an entry, and whether they meet the limits for `n` groups. -/
def planEnt (b : List Byte) (n : Nat) : PlanEnt :=
  let f (o k : Nat) : Nat := leNat ((b.drop o).take k)
  let len := f 8 2
  let loff := f 10 2
  let roff := f 12 2
  { cycle := f 0 4, peer := f 4 2, dir := f 6 1, len := len, loff := loff, roff := roff,
    ok := decide (f 4 2 < n) && decide (f 6 1 ≤ 1) && f 7 1 == 0 && f 14 2 == 0 && len % 8 == 0 &&
      decide (8 ≤ len) && decide (len ≤ 4096) && loff % 8 == 0 && roff % 8 == 0 &&
      decide (loff + len ≤ 0xC000) && decide (roff + len ≤ 0xC000) }

/-- The plan entry a SENDS names, when R207 and R414 let it be one of this core's sends: of the bytes read when it was
issued, or of those in local memory when it is issued now. -/
def sendsEntry (c : CoreSt) (read : Option (List Byte)) (groups : Nat) (slot : DWord) :
    Option (PlanEnt × List Byte) :=
  match c.grp with
  | none => none
  | some g =>
    let a := c.plan.toNat + 16 * slot.toNat
    if !g.bulk || !c.xphase || decide (slot.toNat ≥ g.entries) || (read.isNone && decide (a + 15 > 0xBFFF)) then none
    else
      let b := read.getD (c.bytes a 16)
      let e := planEnt b groups
      if e.ok && e.dir == 0 then some (e, b) else none

/-- The limit of the peer field: Nmax in a speculative launch, else the group count (R413). -/
def planGroups (c : CoreSt) (s : State) : Nat :=
  match c.grp with | some g => (s.launchOf g.launch).groups | none => 0

/-- R207, R414, R415. The entry is read once, when the SENDS is issued. The source is read in the slot cycle, and after
every earlier event of the context: its stream is complete and its messages are placed (R298). The writes of its earlier
transfers are their own (DEDUCED, log entry 23). -/
def execSends (slot : DWord) (s : State) : Out :=
  let c := s.myCore
  match sendsEntry c s.me.planEnt (planGroups c s) slot with
  | none => trap s 0x1B slot
  | some (e, b) =>
    if c.xcyc.toNat > e.cycle then trap s 0x1A slot
    else if c.xcyc.toNat < e.cycle || s.me.stream.isSome || decide (messagesOf (· == s.cur) s > 0) then
      stall (s.setMe { s.me with planEnt := some b })
    else if !localOk s.me.guards e.loff e.len needR then trap s 0x08 (BitVec.ofNat 64 e.loff)
    else
      let (launch, idx) := match c.grp with | some g => (g.launch, g.idx) | none => (0, 0)
      let x : Xfer := ⟨s.cur, launch, idx, slot.toNat, e.cycle, e.peer, e.roff, c.bytes e.loff e.len⟩
      let s := s.setMyCore { c with xfers := c.xfers ++ [x] }
      finishWith s { s.me with planEnt := none }

/-- A destination word of R208 is well-formed. -/
def destOk (v : DWord) : Bool :=
  decide (v.toNat < 2 ^ 32) && bitsOf v.toNat 15 12 == 0 && decide (bitsOf v.toNat 11 0 ≤ 2303)

/-- The virtual device a destination word names is on this device. -/
def destHere (v : DWord) (s : State) : Bool := (s.vdev (bitsOf v.toNat 31 16)).alive

/-- R392: reports pending and operations issued that can still leave one. -/
def reportLoad (w : Who) (s : State) : Nat :=
  let c := s.core w.core
  (s.ctx w).reports.length + messagesOf (· == w) s + (c.mx.queue.filter fun x => x.who == w).length +
    (c.cp.queue.filter fun x => x.who == w).length

/-- A message of a core goes to another device as an MSG packet; with its route lost it ends with NACK 0x19. -/
def sendAway (w : Who) (dev core vdev : Nat) (dest : DWord) (isPkt : Bool) (bs : List Byte) (s : State) : State :=
  if routeLost dev s then addReport w 0x18 (nackTval 0x19 dest) s
  else issueReq (.message w) { mkReq (.message w) 4 dev (bitsOf dest.toNat 31 16) 0xFFFF dest s with
    cls := 1, len := bs.length, payload := bs, op0 := if isPkt then 1 else 0, score := core, svdev := vdev } s

/-- A message leaves the core (R208, R209): to a core of this device, or as an MSG packet; without a valid
peer entry it ends with NACK 0x19. -/
def sendMessage (w : Who) (dest : DWord) (isPkt : Bool) (bs : List Byte) (s : State) : State :=
  let core := bitsOf dest.toNat 11 0
  let v := bitsOf dest.toNat 31 16
  let me := s.core w.core
  if destHere dest s then
    s.setCore core { s.core core with rxIn := (s.core core).rxIn ++
      [⟨w, none, dest, isPkt, w.core, me.vdevNo, bs⟩] }
  else match peerDev s v with
    | none => addReport w 0x18 (nackTval 0x19 dest) s
    | some d => sendAway w d w.core me.vdevNo dest isPkt bs s

/-- The waits of SENDP and PKEND: for the stream (release), and for room for a report (R392). -/
def sendWaits (s : State) : Bool :=
  releaseWait s || decide (reportLoad s.cur s ≥ 16)

/-- The group of a core is tentative. -/
def CoreSt.tentative (c : CoreSt) : Bool := match c.grp with | some g => g.tent | none => false

/-- R208. -/
def execSendp (o : SendpF) (s : State) : Out :=
  let dest := s.me.ia o.x
  let src := s.me.ra o.y
  let len := s.me.ia o.z
  if !destOk dest then trap s 0x01 dest
  else if src.tag then trap s 0x05 src.int
  else if len.toNat % 8 ≠ 0 || len.toNat < 8 || len.toNat > 2048 then trap s 0x01 len
  else if !localOk s.me.guards src.int.toNat len.toNat needR then trap s 0x08 src.int
  else if sendWaits s then stall s
  else if s.myCore.tentative && !destHere dest s then heldAt s.cur s
  else finish (sendMessage s.cur dest false (s.myCore.bytes src.int.toNat len.toNat) s)

/-- The header word at a local address, and the size in bytes of its record (R420). -/
def recordSize (c : CoreSt) (a : Nat) : Nat := 8 + 8 * bitsOf (c.num a 8) 40 32
/-- The record at head is a pad record. -/
def isPad (c : CoreSt) (a : Nat) : Bool := bitAt (c.num a 8) 28
/-- The head moved past the record that stands there. -/
def pastRecord (c : CoreSt) : CoreSt :=
  let base := c.rxbase.toNat
  let h := c.rxhead.toNat
  { c with rxhead := BitVec.ofNat 64 (base + (h - base + recordSize c h) % max 1 c.rxsize.toNat) }
/-- The head moved past a pad record, when the buffer is not empty and one stands there. -/
def pastPad (c : CoreSt) : CoreSt :=
  if c.rxhead != c.rxtail && isPad c c.rxhead.toNat then pastRecord c else c

/-- R210. -/
def execRxwt (x : Fin 16) (s : State) : Out :=
  let c := pastPad s.myCore
  if c.rxhead == c.rxtail then stall s
  else
    let s := s.setMyCore c
    finishWith s (s.me.wi x c.rxhead)
/-- R210. -/
def execRxrel (s : State) : Out :=
  if releaseWait s then stall s
  else
    let c := pastPad s.myCore
    if c.rxhead == c.rxtail then finish s
    else finish (s.setMyCore (pastPad (pastRecord c)))

/-- R211. A bad destination word is found before an open packet (DESIGN CHOICE, log entry 35). -/
def execPkopen (x : Fin 16) (s : State) : Out :=
  let d := s.me.ia x
  if !destOk d then trap s 0x01 d
  else if s.me.packet.isSome then illegal s
  else finishWith s { s.me with packet := some ⟨d, []⟩ }
/-- R211: a 64th PKPUT is ILLEGAL and abandons the packet. -/
def execPkput (x : Fin 16) (s : State) : Out :=
  match s.me.packet with
  | none => illegal s
  | some p =>
    if p.words.length ≥ 63 then illegal (s.setMe { s.me with packet := none })
    else finishWith s { s.me with packet := some { p with words := p.words ++ [s.me.ia x] } }
/-- R211. -/
def execPkend (x : Fin 16) (s : State) : Out :=
  match s.me.packet with
  | none => illegal s
  | some p =>
    if sendWaits s then stall s
    else if s.myCore.tentative && !destHere p.dest s then heldAt s.cur s
    else
      let bs := (p.words ++ [s.me.ia x]).flatMap fun v => leBytes 8 v.toNat
      finish (sendMessage s.cur p.dest true bs (s.setMe { s.me with packet := none }))
/-- R211. -/
def execPkabt (s : State) : Out := finishWith s { s.me with packet := none }

/-! ### Pergola attachment (R214 to R216) -/

/-- R214. -/
def execPgatt (x : Fin 16) (s : State) : Out :=
  match pergOf s.cur.core s with
  | none => illegal s
  | some (pg, k) =>
    if s.myCore.tentative then heldAt s.cur s
    else
      let s := if ((s.fab.pergs.get pg).members.get k).att then s else pergMark pg k 1 s
      finishWith s (s.me.wi x (BitVec.ofNat 64 k))
/-- R214. -/
def execPgdet (s : State) : Out :=
  match pergOf s.cur.core s with
  | none => illegal s
  | some (pg, k) => finish (freeDetached pg (pergMark pg k 2 s))

/-- The word of R215 for a member. -/
def pgstatVal (p : Perg) (pgid k : Nat) : DWord :=
  let n (f : Member → Bool) : Nat := ((List.range p.m).filter fun i => f (p.members.get i)).length
  let b (x : Bool) : Nat := if x then 1 else 0
  let me := p.members.get k
  BitVec.ofNat 64 (pgid * 2 ^ 48 + b me.det * 2 ^ 42 + b (decide (n (·.att) = p.m)) * 2 ^ 41 +
    b me.att * 2 ^ 40 + n (·.departed) * 2 ^ 32 + n (·.att) * 2 ^ 24 + p.m * 2 ^ 16 + k)
/-- R215. -/
def execPgstat (x : Fin 16) (s : State) : Out :=
  finishWith s (s.me.wi x (match pergOf s.cur.core s with
    | none => 0
    | some (pg, k) => pgstatVal (s.fab.pergs.get pg) pg k))

/-- The capability of R216: kind, target, base v × 2^16, length 0xC000, R, W, A and L. -/
def peerCap (kind tgt : Nat) (v : DWord) : AVal :=
  ⟨true, BitVec.ofNat 128 (kind * 2 ^ 120 + tgt * 2 ^ 104 + 0xC000 * 2 ^ 64 + 2 ^ 62 + 7 * 2 ^ 57 +
    v.toNat * 2 ^ 16)⟩
/-- R216. -/
def execCmkw (o : AR2) (s : State) : Out :=
  let v := s.me.ia o.y
  match pergOf s.cur.core s with
  | none => illegal s
  | some (pg, _) =>
    if v.toNat ≥ (s.fab.pergs.get pg).m then trap s 0x04 v
    else finishWith s (s.me.wa o.x (peerCap 3 pg v))
/-- The quarter of a logical core, d × 4 + q (R37). -/
def quarterOf (core : Nat) : Nat := dieOf core * 4 + core % 576 / 144
/-- A core belongs to a virtual device. -/
def vdevHas (v : VDev) (core : Nat) : Bool := decide (core ≤ 2303) && v.quarters.getLsbD (quarterOf core)
/-- R216. -/
def execCmkc (o : AR2) (s : State) : Out :=
  let v := s.me.ia o.y
  if v.toNat > 2303 then trap s 0x04 v
  else if !vdevHas (s.vdev s.myCore.vdevNo) v.toNat then trap s 0x05 v
  else finishWith s (s.me.wa o.x (peerCap 2 0 v))

/-! ### System instructions (R217, R218) -/

/-- R217. -/
def execNop (s : State) : Out := finish s
/-- R217: the other live contexts of the core issue once, in each half, before that half of this one is ready again. -/
def execYield (s : State) : Out :=
  let others := (List.range 11).filter fun i => i ≠ s.cur.ctx && (s.myCore.ctxs.get i).live
  finishWith s { s.me with yielded := others ++ others.map (halfNo true) }
/-- R217: the words fetched ahead are discarded: later fetches see every halfword that a completed CPCODE has
written. -/
def execIsync (s : State) : Out :=
  if s.myCore.cp.queue.any fun c => c.who == s.cur && (match c.ins with | .cpcode _ => true | _ => false)
  then stall s
  else finishWith s { s.me with synced := syncedNow s.myCore }
/-- R218: WFE may complete with no event, and this one always does (DESIGN CHOICE, log entry 32). -/
def execWfe (s : State) : Out := finish s
/-- R217. -/
def execEret (s : State) : Out :=
  if s.me.h then .next ((s.setMe s.me.leaveHandler).withSig .done) else trap s 0x02 0
/-- R217. -/
def execTrap (code : BitVec 6) (s : State) : Out := trap s 0x30 (code.setWidth 64)
/-- R217. -/
def execBrk (s : State) : Out := trap s 0x31 0

end Sys2Proof.Machine
end

