-- ==== Sys2Proof/Machine/Matrix.lean ====
section
/-! DEFINITION. The matrix engine: the issue of engine commands (R223, R225) and what each page 4 command
does when the engine performs it (R226 to R247). -/

namespace Sys2Proof.Machine

/-! ### What an engine command ends in -/

/-- What the performance of an engine command answers: done with the flags it raised; ended early with a
report; parked on a translation fault; waiting. -/
inductive EngRes where
  | done (f : Flags) (s : State)
  | fail (cause : Nat) (tval : DWord) (f : Flags) (s : State)
  | fault (cause sub acc : Nat) (va : DWord) (s : State)
  | wait (s : State)

/-- ENGARG with a subcode (R227). -/
def engarg (sub : Nat) (s : State) : EngRes := .fail 0x0B (BitVec.ofNat 64 sub) 0 s

/-- Of n bytes from an address, the pieces that do not cross a 2,048-byte boundary: a packet carries no
more (R426). `fuel` bounds their number. -/
def pieces : Nat → Nat → Nat → List (Nat × Nat)
  | 0, _, _ => []
  | fuel + 1, a, n =>
    let k := 2048 - a % 2048
    if n = 0 then [] else if n ≤ k then [(a, n)] else (a, k) :: pieces fuel (a + k) (n - k)

/-- The pieces of several rows. -/
def piecesOf (rows : List (Nat × Nat)) : List (Nat × Nat) := rows.flatMap fun r => pieces (r.2 / 2048 + 2) r.1 r.2

/-- The pieces from a byte position on, a boundary of a piece (R226, R265: progress). -/
def piecesFrom : Nat → List (Nat × Nat) → List (Nat × Nat)
  | 0, l => l
  | _, [] => []
  | p + 1, r :: t => piecesFrom (p + 1 - r.2) t

/-- Bytes read by an agent on a route. -/
def readBytes (ag : Agent) (rt : Route) (ea n : Nat) (s : State) : MRes (List Byte) :=
  perform ag rt (BitVec.ofNat 64 ea) n needR .rd (remRead n)
    (fun _ off c => .ok (c.lm.getRange off n) s)
    (fun pa _ s => .ok (if pa ≥ wakeBase then List.replicate n 0 else SMap.getRange (α := Byte) s.mem pa n) s)
    (fun _ d s => .ok (d.take n) s) s

/-- Pieces read in order onto the bytes read before: what has been read, and how it ended. -/
def readPieces (ag : Agent) (rt : Route) : List (Nat × Nat) → List Byte → State → List Byte × MRes Unit
  | [], buf, s => (buf, .ok () s)
  | (a, n) :: rest, buf, s =>
    match readBytes ag rt a n s with
    | .ok bs s => readPieces ag rt rest (buf ++ bs) s
    | .trap c t s => (buf, .trap c t s)
    | .fault c sub va acc s => (buf, .fault c sub va acc s)
    | .wait s => (buf, .wait s)
    | .held s => (buf, .held s)

/-- Pieces written in order with the bytes given: how many bytes stand written, and how it ended. -/
def writePieces (ag : Agent) (rt : Route) : List (Nat × Nat) → List Byte → Nat → State → Nat × MRes Unit
  | [], _, pos, s => (pos, .ok () s)
  | (a, n) :: rest, bs, pos, s =>
    match writeN ag rt (BitVec.ofNat 64 a) (bs.take n) s with
    | .ok _ s => writePieces ag rt rest (bs.drop n) (pos + n) s
    | .trap c t s => (pos, .trap c t s)
    | .fault c sub va acc s => (pos, .fault c sub va acc s)
    | .wait s => (pos, .wait s)
    | .held s => (pos, .held s)

/-! ### The queue of the matrix engine -/

/-- The command at the head of a core's matrix queue replaced. -/
def setMxHead (core : Nat) (c : Cmd) (s : State) : State :=
  let k := s.core core
  s.setCore core { k with mx := { k.mx with queue := c :: k.mx.queue.tail } }
/-- The matrix engine of a core, changed. -/
def setMx (core : Nat) (f : Mx → Mx) (s : State) : State :=
  let k := s.core core
  s.setCore core { k with mx := f k.mx }
/-- The matrix engine of a core. -/
def mxOf (s : State) (core : Nat) : Mx := (s.core core).mx

/-- Room for a command: at most one that has not begun stands in the queue (R223). -/
def cmdRoom (q : List Cmd) : Bool := decide ((q.filter fun c => !c.begun).length < 2)

/-- A fresh command of the executing context (R223). -/
def mkCmd (s : State) (ins : Instr) (ea : DWord) (x y z : AVal) (num : DWord) : Cmd :=
  { (default : Cmd) with
    who := s.cur, pc := s.me.pc, ins := ins, ea := ea, capX := x, capY := y, capZ := z
    guards := s.me.guards, num := num }

/-- A command enters the matrix queue and takes its number. -/
def enterMx (c : Cmd) (s : State) : State :=
  let k := s.core c.who.core
  s.setCore c.who.core { k with mx := { k.mx with queue := k.mx.queue ++ [c], seq := k.mx.seq + 1 } }

/-- The precise checks of a memory operand at issue (R225): alignment, then tests 1 to 4 of CapCheck. -/
def issueCheck (v : AVal) (ea : DWord) (al : Nat) (nd : Need) (kinds : List Nat) : Option Nat :=
  if !aligned ea al then some 0x07
  else if v.tag then capCheck v ea 0 nd kinds false else none

/-- The waits of an engine command at issue: the stream (R284, R286), room for a report (R392), room in
the queue (R223, R253). -/
def cmdWaits (s : State) (q : List Cmd) : Bool :=
  releaseWait s || decide (reportLoad s.cur s ≥ 16) || !cmdRoom q

/-- The issue of a page 4 command without a memory operand. -/
def issueMx (s : State) (ins : Instr) (x y z : AVal) : Out :=
  if cmdWaits s s.myCore.mx.queue then stall s
  else finish (enterMx (mkCmd s ins 0 x y z s.myCore.mx.seq) s)

/-- The issue of a page 4 command with a memory operand. -/
def issueMxM (s : State) (ins : Instr) (m : Mem) (x : AVal) (al : Nat) (nd : Need) (kinds : List Nat) : Out :=
  let ea := s.me.ea m
  let v := s.me.ra m.y
  match issueCheck v ea al nd kinds with
  | some c => trap s c ea
  | none =>
    if cmdWaits s s.myCore.mx.queue then stall s
    else finish (enterMx (mkCmd s ins ea x v ⟨false, 0⟩ s.myCore.mx.seq) s)

/-- An untagged zero operand. -/
def noCap : AVal := ⟨false, 0⟩

/-- R230. -/
def execMxctx (m : Mem) (s : State) : Out := issueMxM s (.mxctx m) m noCap 8 needR [1]
/-- R234. -/
def execMxmsk (o : MxMskF) (s : State) : Out := issueMx s (.mxmsk o) noCap (s.me.ra o.y) (s.me.ra o.z)
/-- R236. -/
def execMxldb (o : MxLdbF) (s : State) : Out := issueMxM s (.mxldb o) o.m (s.me.ra o.x) 16 needR [0, 1]
/-- R236. -/
def execMxldbT (o : MxLdbF) (s : State) : Out := issueMxM s (.mxldbT o) o.m (s.me.ra o.x) 16 needR [0, 1]
/-- R238. -/
def execMxrot (s : State) : Out := issueMx s .mxrot noCap noCap noCap
/-- R237. -/
def execMxswp (s : State) : Out := issueMx s .mxswp noCap noCap noCap
/-- R239. -/
def execMxmma (o : MxMmaF) (s : State) : Out := issueMxM s (.mxmma o) o.m noCap 16 needR [1]
/-- R239. -/
def execMxmmaOw (o : MxMmaF) (s : State) : Out := issueMxM s (.mxmmaOw o) o.m noCap 16 needR [1]
/-- R239, R243. -/
def execMxrun (o : MxMmaF) (s : State) : Out := issueMxM s (.mxrun o) o.m noCap 16 needR [1]
/-- R244. -/
def execMxzero (acc : Fin 2) (s : State) : Out := issueMx s (.mxzero acc) noCap noCap noCap
/-- R244. -/
def execMxdrain (o : MxDrainF) (s : State) : Out := issueMxM s (.mxdrain o) o.m noCap 16 needW [1]
/-- R245. -/
def execMxsave (o : MxPartF) (s : State) : Out := issueMxM s (.mxsave o) o.m noCap 16 needW [0, 1]
/-- R245. -/
def execMxrest (o : MxPartF) (s : State) : Out := issueMxM s (.mxrest o) o.m noCap 16 needR [0, 1]
/-- R242. -/
def execMxup (m : Mem) (s : State) : Out := issueMxM s (.mxup m) m noCap 8 needR [1]
/-- R247. -/
def execMxmbx (o : MxMbxF) (s : State) : Out :=
  match o.scope with
  | none => issueMx s (.mxmbx o) noCap noCap noCap
  | some _ => issueMxM s (.mxmbx o) o.m noCap 8 needW [1]
/-- R248. -/
def execMxwait (s : State) : Out :=
  if s.myCore.mx.queue.any fun x => x.who == s.cur then stall s else finish s

/-! ### Formats (R231 to R233) -/

/-- The element width of a format code. -/
def codeW (c : Nat) : Nat := if c ≤ 1 then 16 else if c ≤ 7 || c = 10 then 8 else 4
/-- MX block scales. -/
def codeMX (c : Nat) : Bool := c == 4 || c == 5 || c == 8
/-- SQ block scales. -/
def codeSQ (c : Nat) : Bool := c == 6 || c == 7 || c == 9

/-- The value of an element pattern of a format code under a C4 table (R55 to R57, R62, R63). -/
def elemVal (c4 : List Byte) (code x : Nat) : Val :=
  match code with
  | 0 => valOf .bf16 x
  | 1 => valOf .fp16 x
  | 2 | 4 | 6 => valOf .e4m3 x
  | 3 | 5 | 7 => valOf .e5m2 x
  | 8 | 9 => valOf .e2m1 x
  | 10 => valOfInt (signedOf 8 x)
  | _ => valOfInt ((c4.getD (x % 16) 0).toInt)

/-- The value of an INT8 or C4 pattern. -/
def elemInt (c4 : List Byte) (code x : Nat) : Int :=
  if code = 10 then signedOf 8 x else (c4.getD (x % 16) 0).toInt

/-- A format context (R230). -/
structure FmtCtx where
  af : Nat
  bf : Nat
  accf : Nat
  ofm : Nat
  ast : Nat
  dst : Nat
  ta : Nat
  tb : Nat
  c4 : List Byte

/-- The fields of its 32 bytes. -/
def fmtCtx (b : List Byte) : FmtCtx :=
  let f (o k : Nat) : Nat := leNat ((b.drop o).take k)
  ⟨f 0 1, f 1 1, f 2 1, f 3 1, f 4 2, f 6 2, f 8 4, f 12 4, (b.drop 16).take 16⟩

/-- The K-groups of an accepted pair (R232), 0 for a pair that is not accepted. -/
def pairG (a b : Nat) : Nat :=
  if a ≤ 1 then (if a = b then 2 else 0)
  else if a ≤ 7 then (if 2 ≤ b && b ≤ 7 then 4 else 0)
  else if a ≤ 9 then (if b = 8 || b = 9 then 8 else 0)
  else if a = 10 then (if b = 10 then 4 else 0)
  else if a = 11 then (if b = 11 then 8 else 0) else 0

/-- The bit width of a drain format code. -/
def ofmW (c : Nat) : Nat := match c with | 0 => 32 | 1 => 16 | 2 => 16 | 3 => 8 | 4 => 8 | 5 => 4 | 6 => 8 | _ => 32
/-- The rounding target of a drain format code. -/
def ofmTarget (c : Nat) : Target :=
  match c with
  | 0 => .flt .fp32 | 1 => .flt .bf16 | 2 => .flt .fp16 | 3 => .flt .e4m3 | 4 => .flt .e5m2
  | 5 => .flt .e2m1 | 6 => .int 8 | _ => .int 32

/-- R233. -/
def fmtValid (c : FmtCtx) : Bool :=
  pairG c.af c.bf != 0 && (if c.af ≥ 10 then c.accf == 3 else decide (c.accf ≤ 2)) && decide (c.ofm ≤ 7) &&
    (c.ast == 0 || (c.ast % 16 == 0 && decide (c.ast ≥ 128))) &&
    (c.dst == 0 || (c.dst % 16 == 0 && decide (c.dst ≥ 8 * ofmW c.ofm)))

/-- The latched format context of an engine. -/
def Mx.fmt (m : Mx) : FmtCtx := fmtCtx m.fctx

/-- R241, on the 8 bytes of a microprogram block. -/
def progValid (b : List Byte) : Bool :=
  let op (i : Nat) : Nat := (b.getD i 0).toNat / 16
  let slot (i : Nat) : Bool := decide (op i ≤ 6) && (op i ≠ 4 || (b.getD i 0).toNat % 4 == 3)
  let red := (b.getD 4 0).toNat
  (List.range 4).all slot &&
    ((List.range 4).all fun i => (List.range i).all fun j => op j ≠ 0 || b.getD i 0 == 0) &&
    red / 4 % 32 == 0 && red % 4 != 3 && ((b.drop 5).all (· == 0))

/-- The words of an accumulator tile. -/
def Mx.tile (m : Mx) (t : Nat) : List Word := m.acc.getRange (2048 * t) 2048
/-- An accumulator tile replaced. -/
def Mx.setTile (m : Mx) (t : Nat) (l : List Word) : Mx := { m with acc := m.acc.setRange (2048 * t) l }
/-- The number of a bank. -/
def bankNo (b : Bool) : Nat := if b then 1 else 0
/-- The bytes of a bank: 8,192 of data and 512 of scales. -/
def Mx.bank (m : Mx) (b : Nat) : List Byte := m.latch.getRange (8704 * b) 8704
/-- The bytes of a bank replaced, from an offset. -/
def Mx.setBank (m : Mx) (b off : Nat) (l : List Byte) : Mx :=
  { m with latch := m.latch.setRange (8704 * b + off) l }
/-- The row and column masks of a pair; m0 reads all ones. -/
def Mx.mask (m : Mx) (p : Nat) : Word × DWord :=
  if p = 0 then (BitVec.allOnes 32, BitVec.allOnes 64) else m.masks.getD (p - 1) (0, 0)

/-! ### Products (R79, R80, R239, R243) -/

/-- A list cut into groups of 32. -/
def groups32 {α : Type} (n : Nat) (l : List α) : List (List α) :=
  (List.range n).map fun g => (l.drop (32 * g)).take 32

/-- The elements of a row packed in a number (R66). -/
def unpackRow (w n v : Nat) : List Nat := (List.range n).map fun k => v / 2 ^ (w * k) % 2 ^ w

/-- A scale byte as a factor: s = e − 127; 0xFF is NaN (R60, R61). -/
def scaleVal (e : Nat) (v : Val) : Val := if e = 255 then .nan else v.scale ((e : Int) - 127)

/-- The exact sum of a list of values, −0 when every value is −0. It is made from the last value down, which decides whether
+Inf and −Inf beside a NaN raise invalid (DESIGN CHOICE, log entry 27). -/
def sumVals : List (Val × Flags) → Val × Flags
  | [] => (.fin false 0 0 false, 0)
  | [x] => x
  | x :: t =>
    let r := sumVals t
    let z := x.1.add r.1
    (z.1, x.2 ||| r.2 ||| z.2)

/-- The part of R79 for one K-group with its scale bytes: a NaN element or scale makes it NaN with no
flag, also where another row of R80 that raises invalid applies to the group too (DESIGN CHOICE, log entry 27). -/
def mmaPart (a b : List Val) (sa sb : Nat) : Val × Flags :=
  if sa = 255 || sb = 255 || a.any Val.isNan || b.any Val.isNan then (.nan, 0)
  else
    let r := sumVals ((a.zip b).map fun p => p.1.mul p.2)
    (r.1.scale ((sa : Int) + sb - 254), r.2)

/-- The value of an accumulator word under an accumulator format 0 to 2. -/
def accVal (accf : Nat) (w : Word) : Val := if accf = 0 then valOf .fp32 w.toNat else valOfA20 w.toNat

/-- DrawM (R78). -/
def drawM (seed : DWord) (n : Word) (g i j : Nat) : Nat :=
  let x := seed ^^^ ((n.setWidth 64) <<< 32) ^^^ BitVec.ofNat 64 (g * 2 ^ 11) ^^^ BitVec.ofNat 64 (i * 2 ^ 6) ^^^
    BitVec.ofNat 64 j
  (mix x).toNat % 2 ^ 16

/-- An accumulation rounded into the accumulator format; invalid and overflow are recorded (R74). -/
def accRound (accf : Nat) (x : Val × Flags) (r : Nat) : Word × Flags :=
  let y := match accf with
    | 0 => round (.flt .fp32) .rne x.1 0
    | 1 => round .a20 .rne x.1 0
    | _ => round .a20 .sr x.1 r
  (BitVec.ofNat 32 y.1, (x.2 ||| y.2) &&& (flInvalid ||| flOverflow))

/-- Sat32 (R79). -/
def sat32 (v : Int) : Int := max (-(2 ^ 31)) (min (2 ^ 31 - 1) v)

/-- What a product reads: the context, the groups of every A row and B column with their scale bytes. -/
structure Operands where
  c : FmtCtx
  g : Nat
  a : Array (List (List Nat))
  b : Array (List (List Nat))
  sa : Array (List Nat)
  sb : Array (List Nat)

/-- The span of the A operand from EA() (R239). -/
def aSpan (c : FmtCtx) : Nat :=
  let sA := if c.ast = 0 then 128 else c.ast
  let g := pairG c.af c.bf
  if codeMX c.af then 32 * sA + 32 * g else if codeSQ c.af then 32 * sA + g else 31 * sA + 128

/-- The A bytes of the 32 rows at a local address. -/
def aRows (c : FmtCtx) (k : CoreSt) (ea : Nat) : List (List Byte) :=
  let sA := if c.ast = 0 then 128 else c.ast
  (List.range 32).map fun i => k.lm.getRange (ea + i * sA) 128

/-- The operands of a product at a local address (R239). -/
def operands (k : CoreSt) (rows : List (List Byte)) (ea : Nat) : Operands :=
  let c := k.mx.fmt
  let g := pairG c.af c.bf
  let n := 32 * g
  let sA := if c.ast = 0 then 128 else c.ast
  let S := ea + 32 * sA
  let wb := codeW c.bf
  let bank := k.mx.bank (bankNo k.mx.cur)
  let brow (r : Nat) : List Nat := unpackRow wb 64 (leNat ((bank.drop (8 * wb * r)).take (8 * wb)))
  let bm : Array (Array Nat) := ((List.range n).map fun r => (brow r).toArray).toArray
  let scA (i h : Nat) : Nat :=
    if codeMX c.af then (k.lm.get (S + 32 * h + i)).toNat
    else if codeSQ c.af then (k.lm.get (S + h)).toNat else 127
  let scB (h j : Nat) : Nat :=
    if codeMX c.bf || codeSQ c.bf then (bank.getD (8192 + 64 * h + j) 0).toNat else 127
  { c := c, g := g
    a := (rows.map fun r => groups32 g (unpackRow (codeW c.af) n (leNat r))).toArray
    b := ((List.range 64).map fun j =>
      groups32 g ((List.range n).map fun r => (bm.getD r #[]).getD j 0)).toArray
    sa := ((List.range 32).map fun i => (List.range g).map (scA i)).toArray
    sb := ((List.range 64).map fun j => (List.range g).map fun h => scB h j).toArray }

/-- The groups of an element with their numbers: A elements, B elements, scale bytes. -/
def Operands.at (o : Operands) (i j : Nat) : List (Nat × List Nat × List Nat × Nat × Nat) :=
  (List.range o.g).map fun h =>
    (h, (o.a.getD i []).getD h [], (o.b.getD j []).getD h [], (o.sa.getD i []).getD h 127,
      (o.sb.getD j []).getD h 127)

/-- One element of an MXMMA (R79). -/
def mmaElem (o : Operands) (seed : DWord) (n : Word) (i j : Nat) (acc : Word) : Word × Flags :=
  let c := o.c
  if c.accf = 3 then
    (o.at i j |>.foldl (fun w x =>
      let s := ((x.2.1.zip x.2.2.1).map fun p => elemInt c.c4 c.af p.1 * elemInt c.c4 c.bf p.2).sum
      BitVec.ofInt 32 (sat32 (w.toInt + s))) acc, 0)
  else
    (o.at i j).foldl (fun w x =>
      let p := mmaPart (x.2.1.map (elemVal c.c4 c.af)) (x.2.2.1.map (elemVal c.c4 c.bf)) x.2.2.2.1 x.2.2.2.2
      let z := (accVal c.accf w.1).add p.1
      let r := accRound c.accf (z.1, p.2 ||| z.2) (drawM seed n x.1 i j)
      (r.1, w.2 ||| r.2)) (acc, 0)

/-- Whether one value lies below another, −0 below +0; neither is NaN (R240). -/
def below (x y : Val) : Bool := x.lt y || (x.isZero && y.isZero && x.neg && !y.neg)
/-- max of R240: NaN when an operand is. -/
def maxVal (x y : Val) : Val := if x.isNan || y.isNan then .nan else if below x y then y else x
/-- min of R240. -/
def minVal (x y : Val) : Val := if x.isNan || y.isNan then .nan else if below y x then y else x

/-- Cell of R243: the slots left, t, and the flags so far. -/
def cell (a b : Val) : List Byte → Val × Flags → Val × Flags
  | [], t => t
  | s :: rest, t =>
    let arg (k : Nat) : Val := match k with | 0 => a | 1 => b | 2 => t.1 | _ => .fin false 0 0 false
    let x := arg (s.toNat / 4 % 4)
    let y := arg (s.toNat % 4)
    let go (r : Val × Flags) : Val × Flags := cell a b rest (r.1, t.2 ||| r.2)
    match s.toNat / 16 with
    | 0 => t
    | 1 => go (x.add y)
    | 2 => go (x.sub y)
    | 3 => go (x.mul y)
    | 4 => go (x.abs, 0)
    | 5 => go (maxVal x y, 0)
    | _ => go (minVal x y, 0)

/-- The reduction of the cells of a group by the reduce code. -/
def reduceCells (red : Nat) (l : List (Val × Flags)) : Val × Flags :=
  match red with
  | 0 => sumVals l
  | r =>
    let f := l.foldl (fun f x => f ||| x.2) 0
    match l with
    | [] => (.fin false 0 0 false, 0)
    | x :: t => (t.foldl (fun m y => if r = 1 then maxVal m y.1 else minVal m y.1) x.1, f)

/-- One element of an MXRUN (R243). -/
def runElem (o : Operands) (prog : List Byte) (seed : DWord) (n : Word) (i j : Nat) (acc : Word) :
    Word × Flags :=
  let c := o.c
  let redB := (prog.getD 4 0).toNat
  let red := redB % 4
  let start : Word :=
    if redB ≥ 128 then (match red with | 0 => 0 | 1 => 0xFF800000 | _ => 0x7F800000) else acc
  (o.at i j).foldl (fun w x =>
    let cells := (x.2.1.zip x.2.2.1).map fun p =>
      cell (scaleVal x.2.2.2.1 (elemVal c.c4 c.af p.1)) (scaleVal x.2.2.2.2 (elemVal c.c4 c.bf p.2))
        (prog.take 4) (.fin false 0 0 false, 0)
    let p := reduceCells red cells
    let a := accVal c.accf w.1
    let z : Val × Flags := match red with
      | 0 => a.add p.1
      | 1 => (maxVal a p.1, 0)
      | _ => (minVal a p.1, 0)
    let r := accRound c.accf (z.1, p.2 ||| z.2) (drawM seed n x.1 i j)
    (r.1, w.2 ||| r.2)) (start, 0)

/-- Every element of a tile that the masks select, by a function of i, j and the word. -/
def tileMap (rows : Word) (cols : DWord) (f : Nat → Nat → Word → Word × Flags) (t : List Word) :
    List Word × Flags :=
  let l := t.zipIdx.map fun x =>
    let i := x.2 / 64
    let j := x.2 % 64
    if rows.getLsbD i && cols.getLsbD j then f i j x.1 else (x.1, 0)
  (l.map Prod.fst, l.foldl (fun g x => g ||| x.2) 0)

/-! ### The commands -/

/-- The span of a command's operand checked when the engine begins it (R225), then what follows. -/
def spanOk (core : Nat) (c : Cmd) (n : Nat) (nd : Need) (kinds : List Nat) (s : State) (k : Route → EngRes) :
    EngRes :=
  match route core c.guards c.capY c.ea n nd kinds with
  | .error e => .fail e c.ea 0 s
  | .ok rt => k rt

/-- How an access of an engine ended, when it did not succeed: a parking, a report, or a wait. The state
given has the command's progress. -/
def engMiss {α : Type} (r : MRes α) (upd : State → State) (k : α → State → EngRes) : EngRes :=
  match r with
  | .ok v s => k v s
  | .trap c t s => .fail c t 0 (upd s)
  | .fault c sub va acc s => .fault c sub acc va (upd s)
  | .wait s => .wait (upd s)
  | .held s => .wait (upd s)

/-- MXCTX (R233, R81). -/
def runMxctx (core : Nat) (c : Cmd) (s : State) : EngRes :=
  spanOk core c 32 needR [1] s fun _ =>
    let k := s.core core
    let b := k.lm.getRange c.ea.toNat 32
    let f := fmtCtx b
    if !fmtValid f then engarg 1 s
    else
      let p := (valOf .fp32 f.ta).mul (valOf .fp32 f.tb)
      let t := round32 p.1
      .done (p.2 ||| t.2) (setMx core (fun m =>
        { m with fctx := b, t := BitVec.ofNat 32 t.1, n := 0, seed := k.srseed }) s)

/-- MXMSK (R234). -/
def runMxmsk (core : Nat) (o : MxMskF) (c : Cmd) (s : State) : EngRes :=
  .done 0 (if o.p = 0 then s else setMx core (fun m =>
    { m with masks := listSet m.masks (o.p.val - 1) (c.capY.int.setWidth 32, c.capZ.int) }) s)

/-- The operand of an MXLDB or MXLDB.T (R236): its rows, its row size, and the scale rows. -/
structure LdbPlan where
  rows : Nat
  rlen : Nat
  stride : Nat
  scales : Nat
  k : Nat
  g : Nat
  w : Nat

/-- R236, from the latched formats and the stride operand. -/
def ldbPlan (f : FmtCtx) (tr : Bool) (s : DWord) : LdbPlan :=
  let w := codeW f.bf
  let g := pairG f.af f.bf
  let rows := if tr then 64 else 32 * g
  let rlen := if tr then 128 else 8 * w
  { rows := rows, rlen := rlen, stride := if s = 0 then rlen else s.toNat, k := 32 * g, g := g, w := w
    scales := if codeMX f.bf then (if tr then 0 else 64 * g) else if codeSQ f.bf then 2 * g else 0 }

/-- The bank with the operand bytes read so far at their places (R236). -/
def ldbPut (f : FmtCtx) (tr : Bool) (p : LdbPlan) (old : List Byte) (buf : List Byte) : List Byte :=
  let body := buf.take (p.rows * p.rlen)
  let sc := buf.drop (p.rows * p.rlen)
  let data :=
    if !tr then body ++ (old.take 8192).drop body.length
    else
      let rowsN : Array Nat := ((List.range 64).map fun j => leNat ((body.drop (128 * j)).take 128)).toArray
      let got (j : Nat) : Nat := min 128 (body.length - 128 * j) * 8 / p.w
      ((List.range p.k).flatMap fun k =>
        let o := unpackRow p.w 64 (leNat ((old.drop (8 * p.w * k)).take (8 * p.w)))
        leBytes (8 * p.w) ((o.zipIdx.map fun x =>
          (if k < got x.2 then rowsN.getD x.2 0 / 2 ^ (p.w * k) % 2 ^ p.w else x.1) * 2 ^ (p.w * x.2)).sum)) ++
        (old.take 8192).drop (8 * p.w * p.k)
  let oldSc := old.drop 8192
  let scales :=
    if codeMX f.bf then sc ++ oldSc.drop sc.length
    else if codeSQ f.bf then
      oldSc.zipIdx.map fun x =>
        let h := x.2 / 64
        let j := x.2 % 64
        let i := if tr then j / 32 * p.g + h else 2 * h + j / 32
        if h < p.g && i < sc.length then sc.getD i 0 else x.1
    else oldSc
  data ++ scales

/-- MXLDB and MXLDB.T (R236). Of a stride and a format that are both refused, the stride is reported (DESIGN CHOICE, log entry
38). -/
def runMxldb (core : Nat) (tr : Bool) (c : Cmd) (s : State) : EngRes :=
  let m := mxOf s core
  let f := m.fmt
  let p := ldbPlan f tr c.capX.int
  let B := p.rows * p.stride
  let span := max ((p.rows - 1) * p.stride + p.rlen) (if p.scales = 0 then 0 else B + p.scales)
  if m.inc == .loading && !c.begun then .wait s
  else spanOk core c span needR [0, 1] s fun rt =>
    if p.stride % 16 ≠ 0 || p.stride < p.rlen then engarg 4 s
    else if tr && codeMX f.bf then engarg 5 s
    else
      let e := c.ea.toNat
      let rows := (List.range p.rows).map fun i => (e + i * p.stride, p.rlen)
      let all := piecesOf (rows ++ (if p.scales = 0 then [] else [(e + B, p.scales)]))
      let s := setMx core (fun m => { m with inc := .loading }) s
      let r := readPieces (.matrix core) rt (piecesFrom c.buf.length all) c.buf s
      let bank := bankNo (!m.cur)
      let put (s : State) : State :=
        setMx core (fun m => m.setBank bank 0 (ldbPut f tr p (m.bank bank) r.1)) s
      let save (s : State) : State :=
        setMxHead core { c with buf := r.1, prog := r.1.length, begun := true } (put s)
      engMiss r.2 save fun _ s => .done 0 (setMx core (fun m => { m with inc := .full }) (put s))

/-- MXSWP (R237). -/
def runMxswp (core : Nat) (s : State) : EngRes :=
  if (mxOf s core).inc == .full then .done 0 (setMx core (fun m => { m with cur := !m.cur, inc := .empty }) s)
  else .wait s

/-- MXROT (R238). A target whose group is saved is waited for. -/
def runMxrot (core : Nat) (s : State) : EngRes :=
  let t := (s.core core).ring.toNat
  let launch := match (s.core core).grp with | some g => g.launch | none => 0
  let here := match (s.core t).grp with | some g => g.launch == launch | none => false
  let saved := s.savedGroups.any fun p =>
    match p.2 with | some v => v.core == t && v.launch == launch | none => false
  if !here then (if saved then .wait s else engarg 6 s)
  else if (s.core t).saved || (mxOf s t).inc != .empty then .wait s
  else
    let m := mxOf s core
    let bytes := m.bank (bankNo m.cur)
    .done 0 (setMx t (fun n => { n.setBank (bankNo (!n.cur)) 0 bytes with inc := .full }) s)

/-- The shape of MXMMA and MXRUN: span, operands, tile, n. -/
def runProduct (core : Nat) (o : MxMmaF) (c : Cmd) (s : State)
    (f : Operands → DWord → Word → Nat → Nat → Word → Word × Flags) : EngRes :=
  let k := s.core core
  let m := k.mx
  spanOk core c (aSpan m.fmt) needR [1] s fun _ =>
    let ops := operands k (aRows m.fmt k c.ea.toNat) c.ea.toNat
    let mk := m.mask o.pair.val
    let r := tileMap mk.1 mk.2 (f ops m.seed m.n) (m.tile o.acc.val)
    .done r.2 (setMx core (fun m => { m.setTile o.acc.val r.1 with n := m.n + 1 }) s)

/-- MXMMA and its overwrite form (R79, R239). -/
def runMxmma (core : Nat) (o : MxMmaF) (ow : Bool) (c : Cmd) (s : State) : EngRes :=
  runProduct core o c s fun ops seed n i j w => mmaElem ops seed n i j (if ow then 0 else w)
/-- MXRUN (R243). -/
def runMxrun (core : Nat) (o : MxMmaF) (c : Cmd) (s : State) : EngRes :=
  let m := mxOf s core
  spanOk core c (aSpan m.fmt) needR [1] s fun _ =>
    if m.fmt.accf = 3 then engarg 3 s
    else runProduct core o c s fun ops seed n i j w => runElem ops m.prog seed n i j w

/-- MXZERO (R244). -/
def runMxzero (core : Nat) (t : Fin 2) (s : State) : EngRes :=
  .done 0 (setMx core (fun m => m.setTile t.val (List.replicate 2048 0)) s)

/-- The drained pattern of an accumulator word, and its flags (R82, R244). -/
def drainElem (f : FmtCtx) (t : Word) (w : Word) : Nat × Flags :=
  let v := if f.accf = 3 then valOfInt w.toInt else accVal f.accf w
  let p := v.mul (valOf .fp32 t.toNat)
  let r := round (ofmTarget f.ofm) .rtz p.1 0
  (r.1 % 2 ^ ofmW f.ofm, p.2 ||| r.2)

/-- MXDRAIN (R244). -/
def runMxdrain (core : Nat) (t : Fin 2) (c : Cmd) (s : State) : EngRes :=
  let m := mxOf s core
  let f := m.fmt
  let wo := ofmW f.ofm
  let ob := 8 * wo
  let sd := if f.dst = 0 then ob else f.dst
  spanOk core c (31 * sd + ob) needW [1] s fun _ =>
    let words := m.tile t.val
    let r := (List.range 32).foldl (fun (a : Flags × State) i =>
      let row := ((words.drop (64 * i)).take 64).map (drainElem f m.t)
      let v := (row.zipIdx.map fun x => x.1.1 * 2 ^ (wo * x.2)).sum
      (row.foldl (fun g x => g ||| x.2) a.1,
        a.2.setCore core ((a.2.core core).store (c.ea.toNat + i * sd) (leBytes ob v)))) (0, s)
    .done r.1 r.2

/-- The bytes of each part (R245). -/
def partBytes (p : Nat) : Nat := match p with | 0 => 8192 | 1 => 8192 | 2 => 8704 | 3 => 8704 | _ => 128

/-- The control block (R246). -/
def controlBlock (m : Mx) : List Byte :=
  let banks := bankNo m.cur + (if m.inc == .full then (if m.cur then 2 else 4) else 0)
  m.fctx ++ leBytes 4 m.t.toNat ++ leBytes 1 banks ++ leBytes 1 m.mbScope ++ leBytes 2 m.mbAddr ++
    leBytes 4 m.n.toNat ++ leBytes 4 0 ++ leBytes 8 m.seed.toNat ++ leBytes 8 m.seq.toNat ++
    (m.masks.flatMap fun p => leBytes 8 p.1.toNat ++ leBytes 8 p.2.toNat) ++ m.prog ++ leBytes 11 0

/-- A word as an A20 accumulator holds it: bits [11:0] are zero, and an exponent field of 0 is a zero of the given sign
(R58). -/
def a20Word (w : Word) : Word :=
  if w.extractLsb' 23 8 = 0 then w &&& 0x80000000 else w &&& 0xFFFFF000
/-- A word as an accumulator of the latched format holds it. -/
def Mx.accWord (m : Mx) (w : Word) : Word :=
  if m.fmt.accf = 1 ∨ m.fmt.accf = 2 then a20Word w else w
/-- The engine with its accumulator words as they leave it in a save (R58, R83). -/
def Mx.saved (m : Mx) : Mx :=
  if m.fmt.accf = 1 ∨ m.fmt.accf = 2 then { m with acc := m.acc.keys.foldl (fun a k => a.put k (a20Word (a.get k))) m.acc }
  else m

/-- The bytes of a part of the engine state. -/
def partOf (m : Mx) (p : Nat) : List Byte :=
  match p with
  | 0 => (m.tile 0).flatMap fun w => leBytes 4 (m.accWord w).toNat
  | 1 => (m.tile 1).flatMap fun w => leBytes 4 (m.accWord w).toNat
  | 2 => m.bank 0
  | 3 => m.bank 1
  | _ => controlBlock m

/-- R246: a control block that MXREST accepts. -/
def controlValid (b : List Byte) : Bool :=
  let f (o k : Nat) : Nat := leNat ((b.drop o).take k)
  let banks := f 36 1
  fmtValid (fmtCtx (b.take 32)) && progValid ((b.drop 112).take 8) && decide (banks < 8) &&
    !bitAt banks (1 + banks % 2) && (decide (f 37 1 ≤ 5) || f 37 1 == 7) && f 38 2 % 8 == 0 &&
    decide (f 38 2 ≤ 0xBFF8) && f 44 4 == 0 && f 68 4 == 0 && f 84 4 == 0 && f 100 4 == 0 && f 117 11 == 0

/-- The words that little-endian bytes hold, four bytes each. -/
def wordsOf : List Byte → List Word
  | a :: b :: c :: d :: t => BitVec.ofNat 32 (leNat [a, b, c, d]) :: wordsOf t
  | _ => []

/-- A part of the engine state restored from bytes, the rest of the part as it is: an accumulator word takes its bits whatever
format is latched (R83, R245, R246). -/
def restorePart (m : Mx) (p : Nat) (b : List Byte) : Mx :=
  let f (o k : Nat) : Nat := leNat ((b.drop o).take k)
  match p with
  | 0 => { m with acc := m.acc.setRange 0 (wordsOf b) }
  | 1 => { m with acc := m.acc.setRange 2048 (wordsOf b) }
  | 2 => m.setBank 0 0 b
  | 3 => m.setBank 1 0 b
  | _ =>
    let cur := bitAt (f 36 1) 0
    let mk (o : Nat) : Word × DWord := (BitVec.ofNat 32 (f o 4), BitVec.ofNat 64 (f (o + 8) 8))
    { m with
      fctx := b.take 32, t := BitVec.ofNat 32 (f 32 4), cur := cur
      inc := if bitAt (f 36 1) (if cur then 1 else 2) then .full else .empty
      mbScope := f 37 1, mbAddr := f 38 2, n := BitVec.ofNat 32 (f 40 4), seed := BitVec.ofNat 64 (f 48 8)
      seq := BitVec.ofNat 64 (f 56 8), masks := [mk 64, mk 80, mk 96], prog := (b.drop 112).take 5 }

/-- MXSAVE to global memory outside the group's own slice is held in a tentative group (R250). -/
def mxHeld (core : Nat) (c : Cmd) (s : State) : Bool :=
  match c.ins with
  | .mxsave o => c.capY.tag && c.capY.kind == 0 && isHeld core .glob c.ea.toNat (partBytes o.part.val) s
  | _ => false

/-- MXSAVE (R245). -/
def runMxsave (core : Nat) (p : Nat) (c : Cmd) (s : State) : EngRes :=
  let n := partBytes p
  if mxHeld core c s then .wait s
  else spanOk core c n needW [0, 1] s fun rt =>
    let bytes := partOf (mxOf s core) p
    let todo := piecesFrom c.prog (piecesOf [(c.ea.toNat, n)])
    let r := writePieces (.matrix core) rt todo (bytes.drop c.prog) c.prog s
    engMiss r.2 (setMxHead core { c with prog := r.1, begun := true }) fun _ s => .done 0 s

/-- MXREST (R245, R246). -/
def runMxrest (core : Nat) (p : Nat) (c : Cmd) (s : State) : EngRes :=
  let n := partBytes p
  spanOk core c n needR [0, 1] s fun rt =>
    let todo := piecesFrom c.buf.length (piecesOf [(c.ea.toNat, n)])
    let r := readPieces (.matrix core) rt todo c.buf s
    let put (s : State) : State := if p ≥ 4 then s else setMx core (fun m => restorePart m p r.1) s
    let save (s : State) : State :=
      setMxHead core { c with buf := r.1, prog := r.1.length, begun := true } (put s)
    engMiss r.2 save fun _ s =>
      if p ≥ 4 && !controlValid r.1 then engarg 7 s
      else .done 0 (setMx core (fun m => restorePart m p r.1) s)

/-- MXUP (R242). -/
def runMxup (core : Nat) (c : Cmd) (s : State) : EngRes :=
  spanOk core c 8 needR [1] s fun _ =>
    let b := (s.core core).lm.getRange c.ea.toNat 8
    if progValid b then .done 0 (setMx core (fun m => { m with prog := b.take 5 }) s) else engarg 2 s

/-- The number of a scope. -/
def Scope.num : Scope → Nat
  | .ctx => 0 | .core => 1 | .cluster => 2 | .die => 3 | .package => 4 | .pod => 5

/-- MXMBX (R247). -/
def runMxmbx (core : Nat) (o : MxMbxF) (c : Cmd) (s : State) : EngRes :=
  match o.scope with
  | none => .done 0 (setMx core (fun m => { m with mbScope := 7 }) s)
  | some sc =>
    spanOk core c 8 needW [1] s fun _ =>
      .done 0 (setMx core (fun m => { m with mbScope := Scope.num sc, mbAddr := c.ea.toNat }) s)

/-- A page 4 command performed. -/
def runMx4 (core : Nat) (c : Cmd) (s : State) : EngRes :=
  match c.ins with
  | .mxctx _ => runMxctx core c s
  | .mxmsk o => runMxmsk core o c s
  | .mxldb _ => runMxldb core false c s
  | .mxldbT _ => runMxldb core true c s
  | .mxrot => runMxrot core s
  | .mxswp => runMxswp core s
  | .mxmma o => runMxmma core o false c s
  | .mxmmaOw o => runMxmma core o true c s
  | .mxrun o => runMxrun core o c s
  | .mxzero t => runMxzero core t s
  | .mxdrain o => runMxdrain core o.acc c s
  | .mxsave o => runMxsave core o.part.val c s
  | .mxrest o => runMxrest core o.part.val c s
  | .mxup _ => runMxup core c s
  | .mxmbx o => runMxmbx core o c s
  | _ => .done 0 s

end Sys2Proof.Machine
end

