-- ==== Sys2Proof/Machine/Promise.lean ====
section
/-! DEFINITION. Gradient promises (R301 to R326), the beginning and completion of matrix engine commands
(R224 to R226, R247), and the power governor (R251, R252). -/

namespace Sys2Proof.Machine

/-! ### Records (R304, R305) -/

/-- The fields of a promise record. -/
structure PrRec where
  at_ : Nat
  state : Nat
  mode : Nat
  policy : Nat
  flags : Nat
  k : Nat
  kmax : Nat
  smax : Nat
  m : Nat
  n : Nat
  b : Nat
  zero : Nat
  eta : Nat
  alpha : Nat
  beta : Nat
  scale : Nat
  offW : Nat
  offX : Nat
  offY : Nat
  offM : Nat
  offGh : Nat
  offG : Nat
  offV : Nat
  offP : Nat
  istep : Nat

/-- The record at a local address. -/
def prRec (c : CoreSt) (a : Nat) : PrRec :=
  let b := c.lm.getRange a 64
  let f (o k : Nat) : Nat := leNat ((b.drop o).take k)
  { at_ := a, state := f 4 1, mode := f 5 1, policy := f 6 1, flags := f 7 1, k := f 8 2, kmax := f 10 1
    smax := f 11 1, m := f 12 1, n := f 13 1, b := f 14 1, zero := f 15 1 + f 52 12, eta := f 16 4
    alpha := f 20 4, beta := f 24 4, scale := f 28 4, offW := f 32 2, offX := f 34 2, offY := f 36 2
    offM := f 38 2, offGh := f 40 2, offG := f 42 2, offV := f 44 2, offP := f 46 2, istep := f 48 4 }

/-- TRAIN. -/
def PrRec.train (r : PrRec) : Bool := bitAt r.flags 0

/-- A region: its offset, its bytes, and the rights it is checked for. -/
abbrev Region := Nat × Nat × Need

/-- The regions in use of a record as PRISS checks them (R305, R309). -/
def PrRec.regions (r : PrRec) : List Region :=
  [(r.offW, 4 * r.m * r.n, needRW), (r.offX, 4 * r.b * r.n, needR), (r.offY, 4 * r.b * r.m, needR),
    (r.offM, 4 * r.m * r.m, if r.train then needRW else needR), (r.offGh, 4 * r.b * r.m, needRW)] ++
  (if r.mode = 1 then [(r.offV, 4 * r.m * r.n, needRW)] else []) ++
  (if r.mode = 2 then [(r.offP, 4 * r.m * r.n, needR)] else [])

/-- Two ranges do not overlap. -/
def apart (a n b m : Nat) : Bool := decide (a + n ≤ b) || decide (b + m ≤ a)

/-- Every two of the ranges listed lie apart. -/
def allApart : List (Nat × Nat) → Bool
  | [] => true
  | x :: t => t.all (fun y => apart x.1 x.2 y.1 y.2) && allApart t

/-- R305 for the record of a slot. -/
def PrRec.valid (r : PrRec) (m : Mx) (slot : Nat) : Bool :=
  let spans := (r.offG, 4 * r.b * r.m) :: r.regions.map fun x => (x.1, x.2.1)
  decide (r.mode ≤ 2) && decide (r.policy ≤ 1) && decide (r.flags ≤ 1) && r.zero == 0 &&
    decide (1 ≤ r.m) && decide (r.m ≤ 32) && decide (1 ≤ r.n) && decide (r.n ≤ 64) && decide (1 ≤ r.b) &&
    decide (r.b ≤ 32) && (r.mode == 1 || r.offV == 0) && (r.mode == 2 || r.offP == 0) &&
    spans.all (fun x => x.1 % 4 == 0 && decide (x.1 + x.2 ≤ 0xC000)) && allApart ((r.at_, 64) :: spans) &&
    (List.range 16).all fun i => i == slot || !(m.promises.get i).inUse || (m.promises.get i).roff != r.at_

/-! ### Arithmetic in FP32, RNE (R69, R310, R313) -/

/-- An FP32 value of local memory. -/
def rdF (c : CoreSt) (a : Nat) : Val := valOf .fp32 (leNat (c.lm.getRange a 4))
/-- The address of element [r][j] of a matrix. -/
def elAt (off cols r j : Nat) : Nat := off + 4 * (r * cols + j)
/-- An FP32 pattern stored in local memory. -/
def wrF (c : CoreSt) (a : Nat) (w : Nat) : CoreSt := c.store a (leBytes 4 w)

/-- A value rounded to FP32: the value, and the flags gathered. -/
def rnd (f : Flags) (x : Val × Flags) : Val × Flags :=
  let y := round32 x.1
  (valOf .fp32 y.1, f ||| x.2 ||| y.2)
/-- Its pattern. -/
def rndPat (f : Flags) (x : Val × Flags) : Nat × Flags :=
  let y := round32 x.1
  (y.1, f ||| x.2 ||| y.2)

/-- Σ of products over r, each step rounded: t := RoundTo(t + u(r) × v(r)). -/
def macSum (n : Nat) (u v : Nat → Val) (f : Flags) : Val × Flags :=
  (List.range n).foldl (fun t r => rnd t.2 ((u r).fma (v r) t.1)) (.fin false 0 0 false, f)

/-- w − p × q with the flags of the product. -/
def subMul (w : Val) (p : Val × Flags) (q : Val) : Val × Flags :=
  let x := p.1.mul q
  let y := w.sub x.1
  (y.1, p.2 ||| x.2 ||| y.2)

/-- g / s − h exactly (R313): for finite nonzero values as (g − h × s) / s, so that one rounding sees the
exact difference. -/
def quoSub (g s h : Val) : Val × Flags :=
  let plain (v : Val) : Bool := !v.isNan && !v.isInf && !v.isZero
  if plain g && plain s && plain h then
    let d := g.sub (h.mul s).1
    if d.1.isZero then (.fin false 0 0 false, 0) else d.1.div s
  else
    let q := g.div s
    let r := q.1.sub h
    (r.1, q.2 ||| r.2)

/-- The loops over i and j of an m × n matrix. -/
def overM {α : Type} (m n : Nat) (a : α) (f : α → Nat → Nat → α) : α :=
  (List.range m).foldl (fun a i => (List.range n).foldl (fun a j => f a i j) a) a

/-- The update of W[i][j], and V under MOMENTUM, of a PRISS with ĜW = u (R310). -/
def issueUpdate (r : PrRec) (k : CoreSt) (f : Flags) (i j : Nat) (u : Val) : CoreSt × Flags :=
  let eta := valOf .fp32 r.eta
  let aW := elAt r.offW r.n i j
  match r.mode with
  | 0 =>
    let w := rndPat f (subMul (rdF k aW) (eta, 0) u)
    (wrF k aW w.1, w.2)
  | 1 =>
    let aV := elAt r.offV r.n i j
    let v := rndPat f ((valOf .fp32 r.beta).fma (rdF k aV) u)
    let k := wrF k aV v.1
    let w := rndPat v.2 (subMul (rdF k aW) (eta, 0) (rdF k aV))
    (wrF k aW w.1, w.2)
  | _ =>
    let w := rndPat f (subMul (rdF k aW) (eta.mul u) (rdF k (elAt r.offP r.n i j)))
    (wrF k aW w.1, w.2)

/-- The prediction and the update of PRISS (R310). -/
def predict (r : PrRec) (k : CoreSt) : CoreSt × Flags :=
  let a := overM r.b r.m (k, (0 : Flags)) fun a b i =>
    let t := macSum r.m (fun j => rdF a.1 (elAt r.offY r.m b j)) (fun j => rdF a.1 (elAt r.offM r.m i j)) a.2
    let p := rndPat t.2 (t.1, 0)
    (wrF a.1 (elAt r.offGh r.m b i) p.1, p.2)
  overM r.m r.n a fun a i j =>
    let u := macSum r.b (fun b => rdF a.1 (elAt r.offGh r.m b i)) (fun b => rdF a.1 (elAt r.offX r.n b j)) a.2
    issueUpdate r a.1 u.2 i j u.1

/-- p and c of R313 after k steps. -/
def momentum (beta : Val) : Nat → Val × Val × Flags → Val × Val × Flags
  | 0, x => x
  | k + 1, x =>
    let p := rnd x.2.2 (x.1.mul beta)
    let c := rnd p.2 (x.2.1.add p.1)
    momentum beta k (p.1, c.1, c.2)

/-- The update of W[i][j] of Correct with δ = d; the pseudocode has none for a mode above 2. -/
def correctUpdate (r : PrRec) (p ec : Val) (k : CoreSt) (f : Flags) (i j : Nat) (d : Val) : CoreSt × Flags :=
  let eta := valOf .fp32 r.eta
  let aW := elAt r.offW r.n i j
  match r.mode with
  | 0 =>
    let w := rndPat f (subMul (rdF k aW) (eta, 0) d)
    (wrF k aW w.1, w.2)
  | 1 =>
    let aV := elAt r.offV r.n i j
    let v := rndPat f (p.fma d (rdF k aV))
    let k := wrF k aV v.1
    let w := rndPat v.2 (subMul (rdF k aW) (ec, 0) d)
    (wrF k aW w.1, w.2)
  | 2 =>
    let w := rndPat f (subMul (rdF k aW) (eta.mul d) (rdF k (elAt r.offP r.n i j)))
    (wrF k aW w.1, w.2)
  | _ => (k, f)

/-- Correct of R313. -/
def correct (r : PrRec) (useG train : Bool) (k : CoreSt) : CoreSt × Flags :=
  let sc := valOf .fp32 r.scale
  let one := valOf .fp32 0x3F800000
  let ef := (List.range (r.b * r.m)).foldl (fun (a : List Val × Flags) x =>
    let gh := rdF k (r.offGh + 4 * x)
    let e := rnd a.2 (if useG then quoSub (rdF k (r.offG + 4 * x)) sc gh
      else (Val.fin false 0 0 false).sub gh)
    (a.1 ++ [e.1], e.2)) ([], (0 : Flags))
  let e : Array Val := ef.1.toArray
  let eAt (b i : Nat) : Val := e.getD (b * r.m + i) .nan
  let mo := momentum (valOf .fp32 r.beta) r.k (one, one, ef.2)
  let ec := rnd mo.2.2 ((valOf .fp32 r.eta).mul mo.2.1)
  let a := overM r.m r.n (k, ec.2) fun a i j =>
    let d := macSum r.b (fun b => eAt b i) (fun b => rdF a.1 (elAt r.offX r.n b j)) a.2
    correctUpdate r mo.1 ec.1 a.1 d.2 i j d.1
  if !train then a
  else overM r.m r.m a fun a i j =>
    let h := macSum r.b (fun b => (eAt b i).negate) (fun b => rdF a.1 (elAt r.offY r.m b j)) a.2
    let w := rndPat h.2 (subMul (rdF a.1 (elAt r.offM r.m i j)) (valOf .fp32 r.alpha, 0) h.1)
    (wrF a.1 (elAt r.offM r.m i j) w.1, w.2)

/-- The regions Correct reads and writes, with the record. -/
def PrRec.correctRegions (r : PrRec) (useG train : Bool) : List Region :=
  [(r.at_, 64, needRW), (r.offX, 4 * r.b * r.n, needR), (r.offGh, 4 * r.b * r.m, needR),
    (r.offW, 4 * r.m * r.n, needRW)] ++
  (if r.mode = 1 then [(r.offV, 4 * r.m * r.n, needRW)] else []) ++
  (if r.mode = 2 then [(r.offP, 4 * r.m * r.n, needR)] else []) ++
  (if useG then [(r.offG, 4 * r.b * r.m, needR)] else []) ++
  (if train then [(r.offY, 4 * r.b * r.m, needR), (r.offM, 4 * r.m * r.m, needRW)] else [])

/-- The first region that captured guards refuse (R309). -/
def badRegion (g : SMap DWord) (l : List Region) : Option Nat :=
  (l.find? fun x => !localOk g x.1 x.2.1 x.2.2).map Prod.fst

/-! ### The table (R301 to R303, R311) -/

/-- A slot of a core's promise table. -/
def prSlot (s : State) (core slot : Nat) : PrSlot := (mxOf s core).promises.get slot
/-- A slot changed. -/
def setSlot (core slot : Nat) (f : PrSlot → PrSlot) (s : State) : State :=
  setMx core (fun m => { m with promises := m.promises.put slot (f (m.promises.get slot)) }) s

/-- The number of a record state (R304). -/
def PrState.num : PrState → Nat
  | .free => 0 | .opened => 1 | .redeemed => 2 | .applied => 3 | .expired => 4 | .reverted => 5

/-- The in-use slots in given states, in ascending seq: the order of issue (R301). -/
def slotsIn (m : Mx) (st : List PrState) : List Nat :=
  let l := (List.range 16).filter fun i => (m.promises.get i).inUse && st.contains (m.promises.get i).last
  sortBy (fun a b => decide ((m.promises.get a).issue ≤ (m.promises.get b).issue)) l

/-- The state of a promise set in its slot and its record; a final state but EXPIRED frees the slot. -/
def setPrState (core slot : Nat) (st : PrState) (s : State) : State :=
  let a := (prSlot s core slot).roff
  let s := setSlot core slot (fun x =>
    { x with last := st, inUse := x.inUse && st != .applied && st != .reverted }) s
  s.setCore core ((s.core core).store (a + 4) [BitVec.ofNat 8 (PrState.num st)])

/-- The expiry limit is met (R311). -/
def expiredRec (r : PrRec) (step : DWord) (k : Nat) : Bool :=
  decide (k > r.kmax) || decide ((step.toNat + 2 ^ 32 - r.istep) % 2 ^ 32 > r.smax)

/-- Correct performed on the record of a slot. -/
def correctSlot (core slot : Nat) (useG train : Bool) (a : State × Flags) : State × Flags :=
  let k := a.1.core core
  let r := correct (prRec k (prSlot a.1 core slot).roff) useG train k
  (a.1.setCore core r.1, a.2 ||| r.2)

/-- Expire of R311: PREXPIRED is held in the slot. -/
def expire (core slot : Nat) (a : State × Flags) : State × Flags :=
  let r := prRec (a.1.core core) (prSlot a.1 core slot).roff
  let a := if r.policy = 1 then correctSlot core slot false false a else a
  let s := setPrState core slot .expired a.1
  let s := setSlot core slot (fun x => { x with pend := some s.stamp }) s
  ({ s with stamp := s.stamp + 1 }, a.2)

/-- What the test of the expiry limit reads of the record of a slot: k, kmax and smax, and istep (R309, R311). -/
def limitRegions (m : Mx) (slot : Nat) : List Region :=
  let a := (m.promises.get slot).roff
  [(a + 8, 4, needR), (a + 48, 4, needR)]
/-- The same of every OPEN promise. -/
def openRegions (m : Mx) : List Region := (slotsIn m [.opened]).flatMap (limitRegions m)

/-- What an expiry reads and writes: the record alone under KEEP. -/
def expireRegions (r : PrRec) : List Region :=
  if r.policy = 1 then r.correctRegions false false else [(r.at_, 64, needRW)]

/-! ### Issue (R302, R307, R308) -/

/-- A handle operand that R302 accepts. -/
def handleOk (h : DWord) : Bool := h.toNat / 16 % 2 ^ 28 == 0 && h.toNat / 2 ^ 32 != 0
/-- The seq of a handle. -/
def handleSeq (h : DWord) : Word := (h >>> 32).setWidth 32
/-- The slot of a handle. -/
def handleSlot (h : DWord) : Nat := h.toNat % 16

/-- The issue of a page 6 command with a memory operand and, where it takes one, a handle. -/
def issuePr (s : State) (ins : Instr) (m : Mem) (h : Option DWord) (al : Nat) (nd : Need) (kinds : List Nat) :
    Out :=
  let ea := s.me.ea m
  let v := s.me.ra m.y
  match issueCheck v ea al nd kinds with
  | some c => trap s c ea
  | none =>
    if !handleOk (h.getD (2 ^ 32)) then trap s 0x01 (h.getD 0)
    else if cmdWaits s s.myCore.mx.queue then stall s
    else finish (enterMx (mkCmd s ins ea (AVal.ofInt (h.getD 0)) v noCap s.myCore.mx.seq) s)

/-- The lowest-numbered slot that is not in use (R303). -/
def freeSlot (m : Mx) : Option Nat := (List.range 16).find? fun i => !(m.promises.get i).inUse

/-- R308, R310: a PRISS takes its slot and seq as it enters the queue. -/
def execPriss (o : PrF) (s : State) : Out :=
  let ea := s.me.ea o.m
  let v := s.me.ra o.m.y
  match issueCheck v ea 8 needRW [1] with
  | some c => trap s c ea
  | none =>
    match freeSlot s.myCore.mx with
    | none => trap s 0x22 0
    | some k =>
      if cmdWaits s s.myCore.mx.queue then stall s
      else
        let m := s.myCore.mx
        let seq := m.nextSeq
        let c := { mkCmd s (.priss o) ea noCap v noCap m.seq with slot := k, seq := seq }
        let sl : PrSlot := ⟨true, seq, ea.toNat, 0, s.cur.ctx, .free, none, m.issues⟩
        let s := setMx s.cur.core (fun m => { m with
          promises := m.promises.put k sl, issues := m.issues + 1
          nextSeq := if seq = BitVec.allOnes 32 then 1 else seq + 1 }) (enterMx c s)
        finishWith s (s.me.wi o.x (handleOf seq k))
/-- R314. -/
def execPrrdm (o : PrF) (s : State) : Out := issuePr s (.prrdm o) o.m (some (s.me.ia o.x)) 4 needR [0, 1]
/-- R315. -/
def execPrapl (s : State) : Out := issueMx s .prapl noCap noCap noCap
/-- R316. -/
def execPrsq (x : Fin 16) (s : State) : Out :=
  let h := s.me.ia x
  if !handleOk h then trap s 0x01 h else issueMx s (.prsq x) (AVal.ofInt h) noCap noCap
/-- R317. -/
def execPrstat (o : PrF) (s : State) : Out := issuePr s (.prstat o) o.m (some (s.me.ia o.x)) 8 needW [1]
/-- R318. -/
def execPrls (m : Mem) (s : State) : Out := issuePr s (.prls m) m none 8 needR [1]
/-- R319. -/
def execPrcfg (m : Mem) (s : State) : Out := issuePr s (.prcfg m) m none 8 needW [1]

/-! ### The commands -/

/-- The k field of a record counts one more update, saturating (R310). -/
def bumpK (core : Nat) (s : State) (slot : Nat) : State :=
  let r := prRec (s.core core) (prSlot s core slot).roff
  s.setCore core ((s.core core).store (r.at_ + 8) (leBytes 2 (min (r.k + 1) 0xFFFF)))

/-- PRISS (R309, R310). -/
def runPriss (core : Nat) (c : Cmd) (s : State) : EngRes :=
  let k := s.core core
  spanOk core c 64 needRW [1] s fun _ =>
    let a := c.ea.toNat
    let r := prRec k a
    if !r.valid k.mx c.slot then engarg 12 s
    else
      let live := slotsIn k.mx [.opened, .redeemed]
      let bump := live.filter fun i => (k.mx.promises.get i).offW == r.offW
      let rec_ (i : Nat) : PrRec := prRec k (k.mx.promises.get i).roff
      let due := live.filter fun i =>
        (k.mx.promises.get i).last == .opened &&
          expiredRec (rec_ i) k.step (if bump.contains i then min ((rec_ i).k + 1) 0xFFFF else (rec_ i).k)
      let regs := r.regions ++ openRegions k.mx ++ (bump.map fun i => ((rec_ i).at_, 64, needRW)) ++
        due.flatMap fun i => expireRegions (rec_ i)
      match badRegion c.guards regs with
      | some _ => .fail 0x08 c.ea 0 s
      | none =>
        let k := k.store a (leBytes 4 c.seq.toNat)
        let k := k.store (a + 48) (leBytes 4 k.step.toNat)
        let k := k.store (a + 28) (k.mx.loss.take 4)
        let s := setSlot core c.slot (fun x => { x with offW := r.offW }) (s.setCore core k)
        let s := bump.foldl (bumpK core) s
        let e := due.foldl (fun x i => expire core i x) (s, (0 : Flags))
        let p := predict (prRec (e.1.core core) a) (e.1.core core)
        let k := p.1.store (a + 8) (leBytes 2 0)
        .done (e.2 ||| p.2) (setPrState core c.slot .opened (e.1.setCore core k))

/-- The loss-scale block of R86 after a redemption (R88), and whether it raises LOSSFLOOR. -/
def lossUpdate (b : List Byte) (rejected : Bool) : List Byte × Bool :=
  let f (o k : Nat) : Nat := leNat ((b.drop o).take k)
  let S := f 0 4
  let fl := f 15 1
  let put (S clean fl : Nat) : List Byte :=
    leBytes 4 S ++ (b.drop 4).take 10 ++ leBytes 1 clean ++ leBytes 1 fl
  let ceil := fl / 16 % 2 * 16
  if rejected then
    if S > f 4 4 then (put (S - 2 ^ 23) 0 0, false)
    else if fl % 16 + 1 = 3 then (put S 0 0, true) else (put S 0 (fl % 16 + 1), false)
  else
    let clean := if f 14 1 < f 12 2 then f 14 1 + 1 else f 14 1
    if clean = f 12 2 then
      (if S < f 8 4 then (put (S + 2 ^ 23) 0 ceil, false) else (put S clean 16, false))
    else (put S clean ceil, false)

/-- LOSSFLOOR becomes pending for a context, or context 0 when it is not live (R312). -/
def raiseLoss (w : Who) (h : DWord) (s : State) : State :=
  let r := reportWho w s
  let s := s.setCtx r { s.ctx r with lossfloor := some ⟨0x21, h, s.stamp⟩ }
  { s with stamp := s.stamp + 1 }

/-- A pattern is NaN or infinite. -/
def notFinite (x : Nat) : Bool := x / 2 ^ 23 % 256 == 255

/-- The copied source bytes put in the G region, from the bytes written before. -/
def putG (core off pos : Nat) (bs : List Byte) (s : State) : State :=
  s.setCore core ((s.core core).store (off + pos) (bs.drop pos))

/-- The copy from local memory, element by element in ascending order: a source that overlaps G is read as the elements
before have left it (R314). -/
def copyG (core src off n : Nat) (s : State) : List Byte × State :=
  (List.range (n / 4)).foldl (fun x i =>
    let b := (x.2.core core).lm.getRange (src + 4 * i) 4
    (x.1 ++ b, x.2.setCore core ((x.2.core core).store (off + 4 * i) b))) ([], s)

/-- PRRDM (R314). -/
def runPrrdm (core : Nat) (c : Cmd) (s : State) : EngRes :=
  let k := s.core core
  let h := c.capX.int
  let sl := k.mx.promises.get (handleSlot h)
  let r := prRec k sl.roff
  let n := if sl.seq = 0 then 0 else 4 * (r.b * r.m)
  let go (rt : Route) : EngRes :=
    if !c.begun && (sl.seq ≠ handleSeq h || sl.last != .opened) then engarg 13 s
    else
      let regs : List Region := [(r.at_, 64, needRW), (r.offG, n, needW)]
      match if c.begun then none else badRegion c.guards regs with
      | some _ => .fail 0x08 c.ea 0 s
      | none =>
        let todo := piecesFrom c.buf.length (piecesOf [(c.ea.toNat, n)])
        let l := copyG core c.ea.toNat r.offG n s
        let x := if rt = .loc then (l.1, .ok () l.2) else readPieces (.matrix core) rt todo c.buf s
        let put (s : State) : State := if rt = .loc then s else putG core r.offG c.buf.length x.1 s
        let save (s : State) : State :=
          setMxHead core { c with buf := x.1, prog := x.1.length, begun := true } (put s)
        engMiss x.2 save fun _ s =>
          let s := put s
          let rejected := (wordsOf x.1).any fun w => notFinite w.toNat
          let l := lossUpdate (mxOf s core).loss rejected
          let s := setMx core (fun m => { m with loss := l.1 }) s
          let s := if l.2 then raiseLoss c.who h s else s
          .done 0 (if rejected then s else setPrState core (handleSlot h) .redeemed s)
  if n = 0 then go .loc else spanOk core c n needR [0, 1] s go

/-- PRAPL (R315). -/
def runPrapl (core : Nat) (c : Cmd) (s : State) : EngRes :=
  let k := s.core core
  let rec_ (i : Nat) : PrRec := prRec k (k.mx.promises.get i).roff
  let acts := (slotsIn k.mx [.opened, .redeemed]).filter fun i =>
    (k.mx.promises.get i).last == .redeemed || expiredRec (rec_ i) k.step (rec_ i).k
  let red (i : Nat) : Bool := (k.mx.promises.get i).last == .redeemed
  let regs := openRegions k.mx ++ acts.flatMap fun i =>
    if red i then (rec_ i).correctRegions true (rec_ i).train else expireRegions (rec_ i)
  match badRegion c.guards regs with
  | some a => .fail 0x08 (BitVec.ofNat 64 a) 0 s
  | none =>
    let x := acts.foldl (fun x i =>
      if red i then
        let y := correctSlot core i true (prRec (x.1.core core) (prSlot x.1 core i).roff).train x
        (setPrState core i .applied y.1, y.2)
      else expire core i x) (s, (0 : Flags))
    .done x.2 x.1

/-- PRSQ (R316). -/
def runPrsq (core : Nat) (c : Cmd) (s : State) : EngRes :=
  let k := s.core core
  let h := c.capX.int
  let i := handleSlot h
  let sl := k.mx.promises.get i
  if sl.seq ≠ handleSeq h || !(sl.last == .opened || sl.last == .redeemed) || !sl.inUse then engarg 13 s
  else match badRegion c.guards ((prRec k sl.roff).correctRegions false false) with
    | some a => .fail 0x08 (BitVec.ofNat 64 a) 0 s
    | none =>
      let x := correctSlot core i false false (s, (0 : Flags))
      .done x.2 (setPrState core i .reverted x.1)

/-- PRSTAT (R317). A refusal of the record's k is a check failure, with EA() in ctl.tval (R226). -/
def runPrstat (core : Nat) (c : Cmd) (s : State) : EngRes :=
  spanOk core c 8 needW [1] s fun _ =>
    let k := s.core core
    let h := c.capX.int
    let sl := k.mx.promises.get (handleSlot h)
    let mt := sl.seq == handleSeq h
    if mt && sl.inUse && (badRegion c.guards [(sl.roff + 8, 2, needR)]).isSome then .fail 0x08 c.ea 0 s
    else
    let bytes := leBytes 4 (handleSeq h).toNat ++
      leBytes 1 (if mt then PrState.num sl.last else 0xFF) ++ leBytes 1 (if mt && sl.inUse then 1 else 0) ++
      leBytes 2 (if mt && sl.inUse then (prRec k sl.roff).k else 0)
    .done 0 (s.setCore core (k.store c.ea.toNat bytes))

/-- A positive normal FP32 power of two. -/
def pow2Pat (x : Nat) : Bool := x % 2 ^ 23 == 0 && decide (1 ≤ x / 2 ^ 23) && decide (x / 2 ^ 23 ≤ 254)

/-- R87. -/
def lossValid (b : List Byte) : Bool :=
  let f (o k : Nat) : Nat := leNat ((b.drop o).take k)
  pow2Pat (f 0 4) && pow2Pat (f 4 4) && pow2Pat (f 8 4) && decide (f 4 4 ≤ f 0 4) && decide (f 0 4 ≤ f 8 4) &&
    decide (1 ≤ f 12 2) && decide (f 12 2 ≤ 255) && decide (f 14 1 ≤ f 12 2) && decide (f 15 1 % 16 ≤ 2) &&
    decide (f 15 1 < 32)

/-- PRLS (R318). -/
def runPrls (core : Nat) (c : Cmd) (s : State) : EngRes :=
  spanOk core c 16 needR [1] s fun _ =>
    let b := (s.core core).lm.getRange c.ea.toNat 16
    if lossValid b then .done 0 (setMx core (fun m => { m with loss := b }) s) else engarg 14 s

/-- PRCFG (R319). -/
def runPrcfg (core : Nat) (c : Cmd) (s : State) : EngRes :=
  spanOk core c 32 needW [1] s fun _ =>
    let m := mxOf s core
    let bits (st : PrState) : Nat := ((slotsIn m [st]).map fun i => 2 ^ i).sum
    let free := ((List.range 16).filter fun i => !(m.promises.get i).inUse).length
    let bytes := m.loss ++ leBytes 4 m.nextSeq.toNat ++ leBytes 2 (bits .opened) ++ leBytes 2 (bits .redeemed) ++
      leBytes 8 free
    .done 0 (s.setCore core ((s.core core).store c.ea.toNat bytes))

/-- A matrix engine command performed. -/
def runMx (core : Nat) (c : Cmd) (s : State) : EngRes :=
  match c.ins with
  | .priss _ => runPriss core c s
  | .prrdm _ => runPrrdm core c s
  | .prapl => runPrapl core c s
  | .prsq _ => runPrsq core c s
  | .prstat _ => runPrstat core c s
  | .prls _ => runPrls core c s
  | .prcfg _ => runPrcfg core c s
  | _ => runMx4 core c s

/-- A squashed group's promises (R316, R326): every OPEN and REDEEMED one is reverted in ascending seq,
and nothing stays in use or pending. Bytes outside local memory are not written. -/
def squashPromises (core : Nat) (s : State) : State :=
  let s := (slotsIn (mxOf s core) [.opened, .redeemed]).foldl (fun s i =>
    let r := prRec (s.core core) (prSlot s core i).roff
    let s := if (r.correctRegions false false).all fun x => decide (x.1 + x.2.1 ≤ 0xC000) then
        (correctSlot core i false false (s, 0)).1 else s
    setPrState core i .reverted s) s
  setMx core dropPromises s

/-! ### Beginning and completion (R224 to R226, R247, R399) -/

/-- The command at the head completes: flags credited, its report, the mailbox store. -/
def mxFinish (core : Nat) (c : Cmd) (f : Flags) (rep : Option (Nat × DWord)) (s : State) : State :=
  let s := setMx core (fun m => { m with queue := m.queue.tail }) s
  let s := match c.ins, rep with
    | .mxldb _, some _ => setMx core (fun m => { m with inc := .empty }) s
    | .mxldbT _, some _ => setMx core (fun m => { m with inc := .empty }) s
    | .priss _, some _ => setSlot core c.slot (fun x => { x with inUse := false }) s
    | _, _ => s
  let s := creditE c.who f s
  let s := match rep with
    | some r => addReport c.who r.1 r.2 s
    | none => s
  let m := mxOf s core
  if m.mbScope = 7 then s
  else s.setCore core ((s.core core).store m.mbAddr (leBytes 8 (c.num + 1).toNat))

/-- What the performance of the head command leads to. -/
def mxAfter (core : Nat) (c : Cmd) (r : EngRes) : State :=
  match r with
  | .done f s => mxFinish core c f none s
  | .fail cause tval f s => mxFinish core c f (some (cause, tval)) s
  | .wait s => s
  | .fault cause sub acc va s =>
    let c' := (mxOf s core).queue.headD c
    groupFault (.matrix core) c.who c.pc cause sub acc c'.prog 1 va
      (setMxHead core { c' with park := .parked, begun := true } s)

/-- The number of ones of a byte. -/
def onesOf (b : Byte) : Nat := ((List.range 8).filter fun i => b.getLsbD i).length

/-- The bits that differ between two lists of bytes, the shorter taken as continued by zeros. -/
def bitDiff : List Byte → List Byte → Nat
  | [], l => (l.map onesOf).sum
  | a :: t, [] => onesOf a + bitDiff t []
  | a :: t, b :: u => onesOf (a ^^^ b) + bitDiff t u

/-- The A bytes of a product and the data of the current bank, which the estimate compares (R251). -/
def govBytes (k : CoreSt) (c : Cmd) : List Byte × SMap Byte :=
  ((aRows k.mx.fmt k c.ea.toNat).flatten, SMap.ofList 0 ((k.mx.bank (bankNo k.mx.cur)).take 8192))

/-- The estimate E of a product (R251). -/
def govEst (k : CoreSt) (c : Cmd) : Nat :=
  let g := govBytes k c
  let h := bitDiff g.1 k.mx.prevA + bitDiff (g.2.getRange 0 8192) (k.mx.prevB.getRange 0 8192)
  (h + 63) / 64

/-- The budget of a cluster in the present window; one that firmware has lowered is never above that of PL (R471). -/
def budgetOf (s : State) (cluster : Nat) : Nat :=
  match s.plat.budget.get cluster with
  | 0 => 4 * s.plat.powerNow
  | n + 1 => min n (4 * s.plat.powerNow)

/-- The command is a product, which the governor acts on, outside an exchange phase. -/
def governed (k : CoreSt) (c : Cmd) : Bool :=
  !k.xphase && !c.begun && (match c.ins with
    | .mxmma _ => true | .mxmmaOw _ => true | .mxrun _ => true | _ => false)

/-- A product is charged, its A bytes and bank remembered, and it begins. -/
def chargeRun (core : Nat) (c : Cmd) (e : Nat) (s : State) : State :=
  let k := s.core core
  let g := govBytes k c
  let cl := clusterOf core
  let s := { s with plat := { s.plat with spent := s.plat.spent.put cl (s.plat.spent.get cl + e) } }
  let s := setMx core (fun m =>
    { m with prevA := g.1, prevB := g.2, govHeld := 0, govCharged := m.govCharged + e }) s
  mxAfter core c (runMx core c s)

/-- R224 to R227: the matrix engine of a core begins, or goes on with, the command at the head of its queue. The governor
holds a product while the units spent and its estimate exceed the budget together, so one with E = 0 too once a starved command
has overspent it (R251; DESIGN CHOICE, log entry 38). -/
def execMxCommandBegin (core : Nat) (s : State) : Out :=
  let k := s.core core
  match k.mx.queue with
  | [] => .next s
  | c :: _ =>
    if k.saved then .next s
    else match c.park with
      | .parked => .next s
      | .deliver cause va => .next (mxFinish core c 0 (some (cause, va)) s)
      | .free =>
        if governed k c then
          let e := govEst k c
          if k.mx.govHeld ≠ 0 then .next s
          else if s.plat.spent.get (clusterOf core) + e ≤ budgetOf s (clusterOf core) then
            .next (chargeRun core c e s)
          else .next (setMx core (fun m => { m with govHeld := 1 }) s)
        else
          let g := govBytes k c
          let s := match c.ins with
            | .mxmma _ => setMx core (fun m => { m with prevA := g.1, prevB := g.2, govHeld := 0 }) s
            | .mxmmaOw _ => setMx core (fun m => { m with prevA := g.1, prevB := g.2, govHeld := 0 }) s
            | .mxrun _ => setMx core (fun m => { m with prevA := g.1, prevB := g.2, govHeld := 0 }) s
            | _ => s
          .next (mxAfter core c (runMx core c s))

/-- The cores whose engine holds a product for the governor, of one cluster, in ascending estimate, ties in
ascending core number; none of a core in an exchange phase, which the governor does not hold. -/
def heldCores (cluster : Nat) (s : State) : List (Nat × Cmd × Nat) :=
  let l := (rangeFrom (4 * cluster) (4 * cluster + 4)).filterMap fun k =>
    match (mxOf s k).queue with
    | c :: _ => if (mxOf s k).govHeld ≠ 0 && !(s.core k).xphase then some (k, c, govEst (s.core k) c) else none
    | [] => none
  sortBy (fun a b => decide (a.2.2 ≤ b.2.2)) l

/-- One held command at a window start: it begins when the budget lasts, or when it has waited through a
whole window; otherwise it waits through this one. -/
def windowOne (cluster : Nat) (s : State) (x : Nat × Cmd × Nat) : State :=
  let core := x.1
  let c := x.2.1
  if (s.core core).saved then s
  else if c.waited || decide (s.plat.spent.get cluster + x.2.2 ≤ budgetOf s cluster) then
    chargeRun core c x.2.2 s
  else setMxHead core { c with waited := true } s

/-- R251, R252, R471: a new 1 µs window starts; what a saved group has been charged belongs to a window that is over. -/
def execGovernorWindow (s : State) : Out :=
  let s := s.mapCores fun _ c => { c with mx := { c.mx with govLast := c.mx.govCharged, govCharged := 0 } }
  let s := { s with savedGroups := s.savedGroups.map fun (p : Nat × Option Saved) =>
    (p.1, p.2.map fun (v : Saved) => { v with img := { v.img with mx := { v.img.mx with govCharged := 0 } } }) }
  let s := { s with plat := { s.plat with spent := [], powerNow := s.plat.power } }
  let clusters := s.cores.keys.foldl (fun l k => setIns l (clusterOf k)) []
  .next (clusters.foldl (fun s cl => (heldCores cl s).foldl (windowOne cl) s) s)

end Sys2Proof.Machine
end

