-- ==== Sys2Proof/Machine/Queue.lean ====
section
/-! DEFINITION. Belvedere's own accesses to memory, the hardware queues with their control blocks and wake
writes (R328 to R332), and the events (R342 to R344). -/

namespace Sys2Proof.Machine

/-- A virtual device of this device is being moved, between quiesce and commit (R448): Belvedere does nothing
more for it here. -/
def migrating (v : Nat) (s : State) : Bool := (s.fab.migs.get v).active && (s.fab.migs.get v).sent

/-! ### Accesses of Belvedere -/

/-- The requests of a task of Belvedere forgotten, once the task has ended. -/
def ioDone (k : Nat) (s : State) : State :=
  let mine (r : Option Req) : Bool := match r with | some r => r.agent == .io k | none => true
  { s with fab := { s.fab with reqs := s.fab.reqs.filter fun p => !mine p.2 } }

/-- A request of a task of Belvedere: sent once; its answer stays until the task ends. -/
def ioRemote (k owner space : Nat) (va : DWord) (o : RemOp) (s : State) : MRes (List Byte) :=
  match peerDev s owner with
  | none => .trap 0x18 (nackTval 0x19 va) s
  | some d =>
    let p : Packet := { mkReq (.io k) o.typ d owner space va s with
      len := o.n, payload := o.data, op0 := o.op0, op1 := o.op1 }
    let same (r : Option Req) : Bool := match r with
      | some r => r.agent == .io k && r.pkt.typ == p.typ && r.pkt.addr == p.addr && r.pkt.len == p.len &&
          r.pkt.payload == p.payload
      | none => false
    match (s.fab.reqs.filter fun r => same r.2).head? with
    | some (_, some r) =>
      match r.answer with
      | none => .wait s
      | some (0, d) => .ok d s
      | some (st, _) => .trap 0x18 (nackTval st va) s
    | _ => .wait (issueReq (.io k) p s)

/-- What Belvedere does in a page: reads n bytes, reads n bytes with the tags of their granules after them, or
writes bytes. -/
inductive IoOp where
  | read (n : Nat)
  | tags (n : Nat)
  | write (bs : List Byte)

/-- Its remote operation. -/
def IoOp.rem : IoOp → RemOp
  | .read n => remRead n
  | .tags n => remReadTags n
  | .write bs => remWrite bs

/-- The bytes of n granule tags from a physical address. -/
def tagBytes (s : State) (pa n : Nat) : List Byte :=
  (List.range n).map fun i => if s.mtag.get (pa / 16 + i) then 1 else 0

/-- One access of Belvedere within a page, through an address space (R372). A page with T = 0 gives no tag. -/
def ioPiece (k vdev space va : Nat) (o : IoOp) (s : State) : MRes (List Byte) :=
  let acc : Acc := match o with | .write _ => .wr | _ => .rd
  let bytes (s : State) (pa n : Nat) : List Byte :=
    if pa ≥ wakeBase then List.replicate n 0 else SMap.getRange (α := Byte) s.mem pa n
  let a := BitVec.ofNat 64 va
  if ((s.vdev vdev).spaces.get space).st != .opened then .fault 0x10 1 a acc.code s
  else match translate .io vdev space va acc s with
    | .fault 0x12 _ s => .trap 0x12 a s
    | .fault c sub s => .fault c sub a acc.code s
    | .forward owner e s =>
      (ioRemote k owner space a o.rem s).bind fun b s =>
        .ok (match o with | .tags n => if twBit e 4 then b else b.take n | _ => b) s
    | .phys pa e s =>
      match o with
      | .read n => .ok (bytes s pa n) s
      | .tags n => .ok (bytes s pa n ++ (if twBit e 4 then tagBytes s pa (n / 16) else [])) s
      | .write bs => .ok [] (if pa ≥ wakeBase then s else s.physStore pa bs)

/-- The pieces of an access that stay within 2,048 bytes; `fuel` bounds their number. -/
def ioPieces : Nat → Nat → Nat → List (Nat × Nat)
  | 0, _, _ => []
  | fuel + 1, a, n =>
    let k := 2048 - a % 2048
    if n = 0 then [] else if n ≤ k then [(a, n)] else (a, k) :: ioPieces fuel (a + k) (n - k)

/-- Pieces read in order. -/
def ioReadList (k vdev space : Nat) : List (Nat × Nat) → State → MRes (List Byte)
  | [], s => .ok [] s
  | (a, n) :: t, s =>
    (ioPiece k vdev space a (.read n) s).bind fun b s =>
      (ioReadList k vdev space t s).bind fun bs s => .ok (b.take n ++ bs) s

/-- Bytes read by Belvedere from a virtual address. -/
def ioRead (k vdev space va n : Nat) (s : State) : MRes (List Byte) :=
  ioReadList k vdev space (ioPieces (n / 2048 + 2) va n) s

/-- Bytes written by Belvedere within one page. -/
def ioWrite (k vdev space va : Nat) (bs : List Byte) (s : State) : MRes (List Byte) :=
  ioPiece k vdev space va (.write bs) s

/-- The fault of a task of a virtual device that has no core: an entry of source 4 (R394). -/
def ioFault (party : Party) (vdev space launch : Nat) (cause sub acc : Nat) (va : DWord) (s : State) : State :=
  addFault vdev { party := party, cause := cause, ctx := 0, core := 0, va := va, launch := launch, group := 0,
                  pc := 0, prog := 0, space := space, source := 4, flags := sub + 16 * acc } s

/-! ### Command bodies (R336) -/

/-- A field of a command body: k bytes at an offset. -/
def bodyF (b : List Byte) (o k : Nat) : Nat := leNat ((b.drop o).take k)
/-- kind. -/
def bKind (b : List Byte) : Nat := bodyF b 0 1
/-- priority. -/
def bPrio (b : List Byte) : Nat := bodyF b 1 1
/-- flags. -/
def bFlags (b : List Byte) : Nat := bodyF b 2 2
/-- evA and evB, each with the count it needs (R344). -/
def bNeeds (b : List Byte) : List (Nat × Nat) :=
  let a := bodyF b 4 2
  let c := bodyF b 6 2
  if a = c then (if a = 0 then [] else [(a, 2)])
  else ([(a, 1), (c, 1)] : List (Nat × Nat)).filter fun p => p.1 ≠ 0
/-- image. -/
def bImage (b : List Byte) : Nat := bodyF b 8 8
/-- groups. -/
def bGroups (b : List Byte) : Nat := bodyF b 16 4
/-- floor. -/
def bFloor (b : List Byte) : Nat := bodyF b 20 4
/-- shapeva. -/
def bShapeva (b : List Byte) : Nat := bodyF b 24 8
/-- shapeev. -/
def bShapeev (b : List Byte) : Nat := bodyF b 32 2
/-- pslot. -/
def bPslot (b : List Byte) : Nat := bodyF b 34 1
/-- margin. -/
def bMargin (b : List Byte) : Nat := bodyF b 35 1
/-- sigev. -/
def bSigev (b : List Byte) : Nat := bodyF b 36 2
/-- gang. -/
def bGang (b : List Byte) : Nat := bodyF b 38 2
/-- args. -/
def bArgs (b : List Byte) : Nat := bodyF b 40 8
/-- rec. -/
def bRec (b : List Byte) : Nat := bodyF b 48 8

/-! ### Control blocks (R328, R329) -/

/-- The address space of a queue. -/
def Que.space (q : Que) : Nat := bitsOf q.w2.toNat 31 16
/-- Its slot count. -/
def Que.slots (q : Que) : Nat := bitsOf q.w1.toNat 31 0
/-- A right of a queue: bit i of w1. -/
def Que.right (q : Que) (i : Nat) : Bool := bitAt q.w1.toNat i

/-- The 64 bytes of a control block. -/
def Que.block (q : Que) : List Byte :=
  leBytes 8 q.tail ++ leBytes 8 q.head ++ leBytes 4 q.stale ++ leBytes 4 q.refused ++
    [BitVec.ofNat 8 (if q.opened then 1 else 0), BitVec.ofNat 8 q.level] ++ leBytes 2 q.age ++ leBytes 4 q.gen ++
    leBytes 8 q.w0.toNat ++ leBytes 8 q.w1.toNat ++ leBytes 8 q.w2.toNat ++ leBytes 8 0

/-- The control block of a queue written, at its owner on another device when its page is there; a translation
fault holds the queue (R329). Through a space that is not open Belvedere begins no walk (R369, R385). -/
def syncBlock (n : Nat) (s : State) : State :=
  let q := s.queue n
  if q.blkPark != .free || ((s.vdev q.vdev).spaces.get q.space).st != .opened then s
  else match translate .io q.vdev q.space q.qcb.toNat .wr s with
    | .phys pa _ s => if pa ≥ wakeBase then s else s.physStore pa q.block
    | .forward owner _ s => (match peerDev s owner with
      | none => s
      | some d => issueReq (.post n) { mkReq (.post n) 2 d owner q.space q.qcb s with
          len := q.block.length, payload := q.block } s)
    | .fault 0x12 _ s => s
    | .fault c sub s =>
      ioFault (.block n) q.vdev q.space 0 c sub Acc.wr.code q.qcb
        (s.setQueue n { s.queue n with blkPark := .parked })

/-- A queue changed, and its control block written. -/
def putQueue (n : Nat) (q : Que) (s : State) : State := syncBlock n (s.setQueue n q)

/-- w3: the first 8 bytes of the HMAC under the per-boot device key (R328). -/
def queueTag (starts : Nat) (w0 w1 w2 : DWord) : DWord :=
  let m := leBytes 8 w0.toNat ++ leBytes 8 w1.toNat ++ leBytes 8 w2.toNat
  BitVec.ofNat 64 (leNat ((hmacSha (Config.bootKey starts) m).take 8))

/-! ### Wake writes (R330 to R332) -/

/-- A saturating 32-bit count. -/
def satCount (n : Nat) : Nat := min (n + 1) 0xFFFFFFFF

/-- A wake write reaches Belvedere, from a context's virtual device of the pod or from the host. Between the
quiesce and the commit of a migration it has no effect here (DESIGN CHOICE, log entry 16). -/
def wakeOp (writer : Option Nat) (b : List Byte) (s : State) : State :=
  let f (o : Nat) : DWord := BitVec.ofNat 64 (bodyF b o 8)
  let n := bitsOf (f 8).toNat 47 32
  let q := s.queue n
  let t := bodyF b 32 8
  let mine := match writer with | some v => v == q.vdev | none => true
  if q.alive && migrating q.vdev s then s
  else if !q.alive || decide (n ≥ 4096) || queueTag s.plat.starts (f 0) (f 8) (f 16) != f 24 then
    { s with plat := { s.plat with badWakes := s.plat.badWakes + 1 } }
  else if (b.drop 40).any (· != 0) || !bitAt (f 8).toNat 48 || f 0 != q.w0 || f 8 != q.w1 || f 16 != q.w2 ||
      !mine || !q.opened then
    if q.blkPark != .free then s else putQueue n { q with refused := satCount q.refused } s
  else if t > q.tail then putQueue n { q with tail := t, woken := true, fresh := true } s
  else if q.blkPark != .free then s
  else putQueue n { q with stale := satCount q.stale } s

/-- R330 to R332, R350: a 64-byte write to the wake window. -/
def execWakeWrite (writer : Option Nat) (bytes : List Byte) (s : State) : Out :=
  .next (if bytes.length = 64 then wakeOp writer bytes s else s)

/-! ### Notices (R439) -/

/-- The 16 bytes of a management header (R435). -/
def mgmtHeader (mop len tag stat dir vdev : Nat) : List Byte :=
  leBytes 2 mop ++ leBytes 2 len ++ leBytes 4 tag ++ leBytes 1 stat ++ leBytes 1 dir ++ leBytes 2 vdev ++ leBytes 4 0

/-- A packet of the management class to a device. -/
def mgmtPkt (dst : Nat) (body : List Byte) (s : State) : State :=
  sendPkt { (default : Packet) with
    cls := 2, typ := 6, ddev := dst, sdev := s.fab.devid, svdev := 0xFFFF, score := 0xFFF
    len := body.length, payload := body } s

/-- A notice to the host that the latest NOTIFYTO named. -/
def notice (mop vdev : Nat) (body : List Byte) (s : State) : State :=
  match s.fab.notify with
  | none => s
  | some h => mgmtPkt h (mgmtHeader mop body.length 0 0 2 vdev ++ body) s

/-! ### Events (R342 to R344) -/

/-- The virtual device of a waiter and the events it needs, each with its count. -/
def waiterNeeds (w : Waiter) (s : State) : List (Nat × Nat) :=
  match w with
  | .cmd q idx => match (s.queue q).cmds.find? fun c => c.idx == idx with
    | some c => bNeeds c.body
    | none => []
  | .shape l => [((s.launchOf l).shapeev, 1)]

/-- A waiter leaves every wait list of a virtual device. -/
def leaveWaits (v : Nat) (w : Waiter) (s : State) : State :=
  let d := s.vdev v
  let l := d.waits.keys.foldl (fun m e => m.put e ((d.waits.get e).filter (· != w))) d.waits
  s.setVdev v { d with waits := l, uncached := d.uncached.filter fun p => !(l.get p.1).isEmpty }

/-- The oldest command of a queue that has not started. -/
def headCmd (q : Que) : Option QCmd := q.cmds.find? fun c => !c.started

/-- R337: nothing before a command holds it: with flag bit 6 every earlier command of its queue has completed. -/
def barrierMet (q : Que) (c : QCmd) : Bool :=
  !bitAt (bFlags c.body) 6 || match q.cmds with | x :: _ => x.idx == c.idx | [] => true

/-- A satisfied command at the head of its queue becomes ready, and has its rank from this moment on (R345). -/
def readyNow (n : Nat) (s : State) : State :=
  let q := s.queue n
  match headCmd q with
  | none => s
  | some c =>
    if !c.satisfied || c.ready.isSome || !barrierMet q c then s
    else
      let up (x : QCmd) : QCmd := if x.idx == c.idx then { x with ready := some (s.stamp, s.time) } else x
      { s.setQueue n { q with cmds := q.cmds.map up } with stamp := s.stamp + 1 }

/-- A waiter is satisfied. -/
def satisfy (w : Waiter) (s : State) : State :=
  match w with
  | .cmd q idx =>
    let x := s.queue q
    readyNow q
      (s.setQueue q { x with cmds := x.cmds.map fun c => if c.idx == idx then { c with satisfied := true } else c })
  | .shape l => s.setLaunch l { s.launchOf l with served := true }

/-- Every need of a waiter is met by the counts. -/
def needsMet (v : Nat) (needs : List (Nat × Nat)) (s : State) : Bool :=
  needs.all fun p => decide ((s.vdev v).events.get p.1 ≥ p.2)

/-- One waiter satisfied: the counts decreased, the lists left. -/
def serveWaiter (v : Nat) (w : Waiter) (s : State) : State :=
  let needs := waiterNeeds w s
  let d := s.vdev v
  let s := s.setVdev v { d with events := needs.foldl (fun m p => m.put p.1 (m.get p.1 - p.2)) d.events }
  satisfy w (leaveWaits v w s)

/-- The waiters of an event served, the one that joined first first; `fuel` bounds their number. -/
def serveEvent (v e : Nat) : Nat → State → State
  | 0, s => s
  | fuel + 1, s =>
    match ((s.vdev v).waits.get e).find? fun w => needsMet v (waiterNeeds w s) s with
    | some w => serveEvent v e fuel (serveWaiter v w s)
    | none => s

/-- R343: a signal of an event; the event 0 is none. -/
def signalEvent (v e : Nat) (s : State) : State :=
  if e = 0 then s
  else
    let d := s.vdev v
    let s := s.setVdev v { d with events := d.events.put e (satCount (d.events.get e)) }
    serveEvent v e ((s.vdev v).waits.get e).length s

/-- The inline places of an event: eight while it is in the cache, none otherwise (R342). -/
def inlinePlaces (d : VDev) (e : Nat) : Nat := if d.uncached.get e then 0 else 8

/-- The waiters of a virtual device beyond the inline places of each event. -/
def overflowed (d : VDev) : Nat := (d.waits.map fun p => p.2.length - inlinePlaces d p.1).sum

/-- The events of the whole device that the cache holds: those with waiters, but for the ones that found it full (R342). -/
def cachedEvents (s : State) : Nat :=
  (s.vdevs.map fun p => (p.2.waits.filter fun e => !e.2.isEmpty && !p.2.uncached.get e.1).length).sum

/-- An event gets its first waiter: it comes into the cache, or finds the 4,096 events there (DESIGN CHOICE, log entry 11:
which events the cache holds). -/
def cacheEvent (v e : Nat) (s : State) : State :=
  let d := s.vdev v
  if !(d.waits.get e).isEmpty || decide (cachedEvents s < 4096) then s
  else s.setVdev v { d with uncached := d.uncached.put e true }

/-- A waiter put at the end of one event's list; none when that has no place. -/
def joinOne (v : Nat) (w : Waiter) (e : Nat) (s : State) : Option State :=
  let s := cacheEvent v e s
  let d := s.vdev v
  if (d.waits.get e).length ≥ inlinePlaces d e && decide (overflowed d ≥ Config.eventOverflow v) then none
  else some (s.setVdev v { d with waits := d.waits.put e (d.waits.get e ++ [w]) })

/-- R344: a waiter joins the lists of its events; none when a place is lacking. -/
def joinWaits (v : Nat) (w : Waiter) (s : State) : Option State :=
  let needs := waiterNeeds w s
  ((needs.map Prod.fst).foldl (fun o e => o.bind (joinOne v w e)) (some s)).map fun s =>
    if needsMet v needs s then serveWaiter v w s else s

end Sys2Proof.Machine
end

