-- ==== Sys2Proof/Machine/Copy.lean ====
section
/-! DEFINITION. The copy engine (R253 to R275): issue of copy commands, what each does when the engine
performs it, completion records and mailboxes, scalar all-reduces, and the squash of commands. -/

namespace Sys2Proof.Machine

/-! ### Issue (R253 to R255) -/

/-- The head of a core's copy queue replaced. -/
def setCpHead (core : Nat) (c : Cmd) (s : State) : State :=
  let k := s.core core
  s.setCore core { k with cp := { k.cp with queue := c :: k.cp.queue.tail } }

/-- A command enters the copy queue and takes its number. -/
def enterCp (c : Cmd) (s : State) : State :=
  let k := s.core c.who.core
  s.setCore c.who.core { k with cp := { k.cp with queue := k.cp.queue ++ [c], seq := k.cp.seq + 1 } }

/-- R255 on an operand register: tests 1 to 4 of CapCheck when tagged. -/
def cpOperand (v : AVal) (nd : Option Need) : Option Nat :=
  match nd with
  | some nd => if v.tag then capCheck v 0 0 nd allKinds false else none
  | none => none

/-- The issue of a copy command whose destination and source need the rights given; of operands that both fail, a[X] is
reported (DESIGN CHOICE, log entry 37). -/
def issueCp (s : State) (ins : Instr) (o : CopyF) (dst src : Option Need) : Out :=
  let ea := s.me.ia o.z + o.imm
  let x := s.me.ra o.x
  let y := s.me.ra o.y
  if (s.me.ra o.z).tag then trap s 0x05 ea
  else if ea.toNat % 16 ≠ 0 then trap s 0x07 ea
  else match cpOperand x dst with
    | some c => trap s c x.baseS
    | none =>
      match cpOperand y src with
      | some c => trap s c y.baseS
      | none =>
        if cmdWaits s s.myCore.cp.queue then stall s
        else finish (enterCp (mkCmd s ins ea x y noCap s.myCore.cp.seq) s)

/-- R260, R261. -/
def execCpy (o : CopyF) (s : State) : Out := issueCp s (.cpy o) o (some needW) (some needR)
/-- R260, R261, R263. -/
def execCpyw (o : CopyF) (s : State) : Out := issueCp s (.cpyw o) o (some needW) (some needR)
/-- R260, R261. -/
def execCpfil (o : CopyF) (s : State) : Out := issueCp s (.cpfil o) o (some needW) none
/-- R264. -/
def execCpcode (o : CopyF) (s : State) : Out := issueCp s (.cpcode o) o none (some needR)
/-- R267. -/
def execCrstep (o : CopyF) (s : State) : Out := issueCp s (.crstep o) o (some needRW) (some needR)
/-- R267, R268. -/
def execCrstepSq (o : CopyF) (s : State) : Out := issueCp s (.crstepSq o) o (some needRW) (some needR)
/-- R269. -/
def execCrall (o : CopyF) (s : State) : Out := issueCp s (.crall o) o none none
/-- R271. -/
def execCpwait (s : State) : Out :=
  if s.myCore.cp.queue.any fun x => x.who == s.cur then stall s else finish s
/-- R272. -/
def execCpqry (x : Fin 16) (s : State) : Out := finishWith s (s.me.wi x s.myCore.cp.done)

/-! ### Descriptors (R256, R260, R266, R269) -/

/-- k bytes of a descriptor at an offset. -/
def descF (b : List Byte) (o k : Nat) : Nat := leNat ((b.drop o).take k)
/-- k signed bytes of a descriptor at an offset. -/
def descS (b : List Byte) (o k : Nat) : Int := signedOf (8 * k) (descF b o k)
/-- rec. -/
def dRec (b : List Byte) : Nat := descF b 48 2
/-- mbx. -/
def dMbx (b : List Byte) : Nat := descF b 50 2
/-- opt. -/
def dOpt (b : List Byte) : Nat := descF b 53 1
/-- mbscope is valid for mbx (R258). -/
def dScopeOk (b : List Byte) : Bool := if dMbx b = 0 then descF b 52 1 == 7 else decide (descF b 52 1 ≤ 5)
/-- The common tail is valid but for opt. -/
def dTailOk (b : List Byte) : Bool := dScopeOk b && descF b 54 2 == 0 && descF b 56 8 == 0

/-- The name of a command among those of R259: 0 CPY, 1 CPYW, 2 CPFIL, 3 CPCODE, 4 CRSTEP, 5 CRSTEP.SQ, 6
CRALL. -/
def cpKind : Instr → Nat
  | .cpy _ => 0 | .cpyw _ => 1 | .cpfil _ => 2 | .cpcode _ => 3 | .crstep _ => 4 | .crstepSq _ => 5 | _ => 6
/-- Its x field. -/
def cpX : Instr → Fin 16
  | .cpyw o => o.x | _ => 0
/-- Its ENGARG subcode. -/
def cpSub (k : Nat) : Nat := if k ≤ 2 then 8 else if k = 3 then 9 else if k ≤ 5 then 10 else 11

/-- A base: of a capability sign-extended, or the integer view (R261). -/
def cpBase (v : AVal) : DWord := if v.tag then v.baseS else v.int
/-- CPYW with opt[2]: nothing is written. -/
def noWrite (k : Nat) (b : List Byte) : Bool := k == 1 && bitAt (dOpt b) 2
/-- The element width of CRSTEP (R266). -/
def crWidth (b : List Byte) : Nat := match descF b 20 1 with | 0 => 4 | 1 => 2 | 2 => 4 | _ => 8

/-- R260, R264, R266, R269: the validity of a descriptor for a command, but for the membership of CRALL. -/
def descOk (c : Cmd) (b : List Byte) : Bool :=
  let k := cpKind c.ins
  let opt := dOpt b
  let f := descF b
  let z (o n : Nat) : Bool := f o n == 0
  dTailOk b &&
  (match k with
  | 0 => decide (f 16 4 ≥ 1) && decide (f 20 2 ≥ 1) && decide (f 22 2 ≥ 1) && z 40 8 && opt == 0
  | 1 => decide (f 16 4 ≥ 1) && decide (f 20 2 ≥ 1) && decide (f 22 2 ≥ 1) && z 44 4 && (opt == 0 || opt == 4) &&
      (opt == 0 || cpX c.ins == 0)
  | 2 => decide (f 16 4 ≥ 1) && decide (f 20 2 ≥ 1) && decide (f 22 2 ≥ 1) && z 0 8 && z 24 8 && decide (opt ≤ 3) &&
      f 16 4 % 2 ^ opt == 0
  | 3 => decide (f 16 4 ≥ 1) && f 20 2 == 1 && f 22 2 == 1 && f 8 8 % 2 == 0 && f 16 4 % 2 == 0 &&
      decide (f 8 8 + f 16 4 ≤ 0x8000) && z 24 8 && z 32 8 && z 40 8 && opt == 0
  | 6 => f 8 2 % 8 == 0 && decide (f 10 1 ≤ 15) && decide (f 11 1 ≤ 2) && z 12 36 && opt == 0
  | k =>
    let w := crWidth b
    let sq := f 22 2
    decide (f 16 4 ≥ 1) && decide (f 20 1 ≤ 3) && z 24 24 && opt == 0 &&
      (if k = 5 then decide (f 20 1 ≤ 1) && decide (f 21 1 ≤ 62) && sq != 0 && sq % 8 == 0
       else z 21 1 && sq == 0) &&
      (cpBase c.capY + BitVec.ofNat 64 (f 0 8)).toNat % w == 0 &&
      (cpBase c.capX + BitVec.ofNat 64 (f 8 8)).toNat % w == 0)

/-! ### Operand spans (R258) -/

/-- The lowest byte and the size of a strided operand. -/
def cpSpan (b : List Byte) (base : DWord) (off s1 s2 : Nat) : DWord × Nat :=
  let n0 := descF b 16 4
  let e1 : Int := ((descF b 20 2 : Int) - 1) * descS b s1 4
  let e2 : Int := ((descF b 22 2 : Int) - 1) * descS b s2 4
  (base + BitVec.ofNat 64 (descF b off 8) + BitVec.ofInt 64 (min 0 e1 + min 0 e2), n0 + e1.natAbs + e2.natAbs)

/-- The spans of a command's source and destination, absent where it has none. -/
def cpSpans (c : Cmd) (b : List Byte) : Option (DWord × Nat) × Option (DWord × Nat) :=
  let k := cpKind c.ins
  let el : Nat := crWidth b * descF b 16 4
  let src :=
    if k = 2 || k = 6 then none
    else if k ≥ 4 then some (cpBase c.capY + BitVec.ofNat 64 (descF b 0 8), el)
    else some (cpSpan b (cpBase c.capY) 0 24 28)
  let dst :=
    if k = 3 || k = 6 || noWrite k b then none
    else if k ≥ 4 then some (cpBase c.capX + BitVec.ofNat 64 (descF b 8 8), el)
    else some (cpSpan b (cpBase c.capX) 8 32 36)
  (src, dst)

/-- The route of an operand span, or the cause and address of the check it fails. -/
def spanRoute (core : Nat) (c : Cmd) (v : AVal) (sp : Option (DWord × Nat)) (nd : Need) :
    Except (Nat × DWord) Route :=
  match sp with
  | none => .ok .loc
  | some (a, n) =>
    match route core c.guards v a n nd allKinds with
    | .error e => .error (e, a)
    | .ok rt => .ok rt

/-- The routes of source and destination (R258 step 4). Of several checks that fail the source's is reported, then the
destination's, then that of the square or result word (DESIGN CHOICE, log entry 37). -/
def cpRoutes (core : Nat) (c : Cmd) (b : List Byte) : Except (Nat × DWord) (Route × Route) :=
  let sp := cpSpans c b
  match spanRoute core c c.capY sp.1 needR with
  | .error e => .error e
  | .ok sr =>
    match spanRoute core c c.capX sp.2 (if cpKind c.ins ≥ 4 then needRW else needW) with
    | .error e => .error e
    | .ok dr => .ok (sr, dr)

/-- Step 4 for the square word of CRSTEP.SQ and the result word of CRALL. -/
def wordFail (c : Cmd) (b : List Byte) : Option DWord :=
  let sq := descF b 22 2
  let res := descF b 8 2
  match cpKind c.ins with
  | 5 => if localOk c.guards sq 8 needRW then none else some (BitVec.ofNat 64 sq)
  | 6 => if localOk c.guards res 8 needW then none else some (BitVec.ofNat 64 res)
  | _ => none

/-! ### Completion (R256, R257, R258) -/

/-- The bytes of a completion record. -/
def recordBytes (status cause sub : Nat) (crc : Word) (progress : Nat) (seq value : DWord) : List Byte :=
  [BitVec.ofNat 8 status, BitVec.ofNat 8 cause, BitVec.ofNat 8 sub, 0] ++ leBytes 4 crc.toNat ++
    leBytes 8 progress ++ leBytes 8 seq.toNat ++ leBytes 8 value.toNat

/-- The crc field of a record: of a CPYW the checksum of the bytes performed; where none was begun, a free
value that the command alone determines, so that R43 holds (DESIGN CHOICE, log entry 14). -/
def crcField (c : Cmd) (b : List Byte) (units : Bool) : Word :=
  if cpKind c.ins ≠ 1 then 0
  else if units then c.crc ^^^ 0xFFFFFFFF
  else Config.crcOfNone c.num b

/-- The command at the head completes (R256, R258, R268): `units` when it passed its begin checks, `rep` a
failure's cause and ctl.tval, `value` the value field. -/
def cpFinish (core : Nat) (c : Cmd) (units : Bool) (rep : Option (Nat × DWord)) (value : DWord) (s : State) :
    State :=
  let k := cpKind c.ins
  let b := c.buf.take 64
  let crc := crcField c b units
  let x := s.core core
  let sq := descF b 22 2
  let x := if k = 5 && units then
      x.store sq (leBytes 8 (x.num sq 8 + c.acc.toNat)) else x
  let s := s.setCore core { x with cp := { x.cp with queue := x.cp.queue.tail, done := x.cp.done + 1 } }
  let s := creditE c.who c.flags s
  let cause := match rep with | some r => r.1 | none => 0
  let sub := match rep with | some r => if r.1 = 0x0B then r.2.toNat % 256 else 0 | none => 0
  let s :=
    if dRec b ≠ 0 then
      s.setCore core ((s.core core).store (dRec b)
        (recordBytes (if rep.isSome then 1 else 0) cause sub crc c.prog c.num (if k = 5 && !units then 0 else value)))
    else match rep with
      | some r => addReport c.who r.1 r.2 s
      | none => s
  if dMbx b ≠ 0 && dScopeOk b then s.setCore core ((s.core core).store (dMbx b) (leBytes 8 (c.num + 1).toNat))
  else s

/-- The command at the head ends at step 1 or 2 of R258: no record and no mailbox. -/
def cpRefuse (core : Nat) (c : Cmd) (tval : DWord) (s : State) : State :=
  let x := s.core core
  let s := s.setCore core { x with cp := { x.cp with queue := x.cp.queue.tail, done := x.cp.done + 1 } }
  addReport c.who 0x08 tval s

/-- Steps 1 and 2 of R258: the descriptor, or ctl.tval of the failure. -/
def readDesc (core : Nat) (c : Cmd) (s : State) : Except DWord (List Byte) :=
  if !localOk c.guards c.ea.toNat 64 needR then .error c.ea
  else
    let b := (s.core core).lm.getRange c.ea.toNat 64
    let bad (o n : Nat) : Bool := o != 0 && (o % 8 != 0 || !localOk c.guards o n needW)
    if bad (dRec b) 32 then .error (BitVec.ofNat 64 (dRec b))
    else if bad (dMbx b) 8 then .error (BitVec.ofNat 64 (dMbx b))
    else .ok b

/-! ### Copies (R260 to R265) -/

/-- The address of byte b of row r of plane p of an operand. -/
def cpAddr (base : DWord) (d : List Byte) (off s1 s2 p r b : Nat) : DWord :=
  base + BitVec.ofNat 64 (descF d off 8) + BitVec.ofInt 64 ((p : Int) * descS d s2 4 + (r : Int) * descS d s1 4) +
    BitVec.ofNat 64 b

/-- R330: the command is one wake write when its destination is the wake window. -/
def wakeShaped (c : Cmd) (d : List Byte) (da : DWord) : Bool :=
  cpKind c.ins == 0 && c.capX.tag && c.capX.kind == 0 && descF d 16 4 == 64 && descF d 20 2 == 1 &&
    descF d 22 2 == 1 && da.toNat % 64 == 0

/-- Bytes written by the copy engine; 64 of a wake-shaped command to the wake window are a wake write. -/
def cpWrite (core : Nat) (rt : Route) (da : DWord) (bs : List Byte) (wk : Bool) (s : State) : MRes Unit :=
  perform (.copy core) rt da bs.length needW .wr (remWrite bs)
    (fun k off c => .ok () (s.setCore k
      { c with lm := c.lm.setRange off bs, ltag := clearTags c.ltag off bs.length }))
    (fun pa _ s => .ok () (
      if pa ≥ wakeBase then (if wk then wakeOp (some (s.core core).vdevNo) bs s else s) else s.physStore pa bs))
    (fun _ _ s => .ok () s) s

/-- The fill bytes of n bytes from byte b of a row. -/
def fillBytes (d : List Byte) (b n : Nat) : List Byte :=
  (List.range n).map fun i => (d.drop (40 + (b + i) % 2 ^ (dOpt d % 4))).headD 0

/-- Halfwords written to the instruction store of a core, with those before them kept for the fetches of R27
(R264). -/
def codeWrite (core off : Nat) (bs : List Byte) (s : State) : State :=
  let k := s.core core
  let n := bs.length / 2
  let hs := (List.range n).map fun i => BitVec.ofNat 16 (leNat ((bs.drop (2 * i)).take 2))
  let old := (List.range n).map fun i => (off / 2 + i, k.istore.get (off / 2 + i))
  s.setCore core { k with istore := k.istore.putList (off / 2) hs, codeOld := k.codeOld ++ old }

/-- How many bytes the next unit of a copy takes: within a row, and within 2,048 bytes at each operand. -/
def unitLen (c : Cmd) (d : List Byte) (b : Nat) (sa da : DWord) : Nat :=
  let k := cpKind c.ins
  let k0 := descF d 16 4 - b
  let k1 := if k = 3 || noWrite k d then k0 else min k0 (2048 - da.toNat % 2048)
  let k2 := if k = 2 || wakeShaped c d da then k1 else min k1 (2048 - sa.toNat % 2048)
  if k = 3 && k2 % 2 == 1 then (if k2 = 1 then 2 else k2 - 1) else k2

/-- Where a byte of an operand stands on this device, as one number: a physical address, or a byte of a local
memory above them; none for one of another device or of the wake window. -/
def placeOf (core : Nat) (rt : Route) (ea : DWord) (s : State) : Option Nat :=
  let lm (k : Nat) : Option Nat := some (2 ^ 56 + k * 65536 + ea.toNat % 65536)
  match rt with
  | .loc => lm core
  | .core k => lm k
  | .win pg b => (match atWin s core pg b with | .here k => lm k | _ => none)
  | .rem _ => none
  | .glob =>
    match (s.core core).grp with
    | none => none
    | some g =>
      match tlbFill s (.core core) g.vdev g.space ea.toNat with
      | .ok (t, _) =>
        let e := t.word.toNat
        let pa := twFrame e * 4096 + (ea.toNat - t.page)
        if twBit e 5 || decide (pa ≥ wakeBase) then none else some pa
      | .error _ => none

/-- The bytes now at a place. -/
def bytesAt (p n : Nat) (s : State) : List Byte :=
  if p ≥ 2 ^ 56 then (s.core ((p - 2 ^ 56) / 65536)).lm.getRange ((p - 2 ^ 56) % 65536) n
  else Memory.bytes s.mem p n

/-- The value a byte had when a copy had come to a progress, of those listed for it. -/
def asOf (t : Nat) (l : List (Nat × Byte)) : Option Byte :=
  (l.filter fun p => decide (p.1 ≤ t)).getLast?.map Prod.snd

/-- The progress at which the engine reads byte i + j of a copy, byte b + j of its row: a free value up to the
byte's canonical position, one for all bytes of a unit that R262 reads single-copy atomic, by a function of that
position. -/
def readTime (n0 b i j : Nat) (sa da : DWord) (pick : Nat → Nat) : Nat :=
  let diff := (sa - da).toNat
  let w := if diff % 8 = 0 then 8 else if diff % 4 = 0 then 4 else 1
  let o := (sa.toNat + j) % w
  let q := if decide (o ≤ b + j) && decide (b + j + w ≤ n0 + o) then i + j - o else i + j
  pick q % (q + 1)

/-- The bytes a unit of a copy writes, and what its writes leave in `hist`: a source byte that the command has
written itself is read before or after that (R262). `now` holds the destination's bytes before the unit. -/
def mixUnit (n0 b i src dst : Nat) (sa da : DWord) (pick : Nat → Nat) (now : List Byte) :
    Nat → List Byte → SMap (List (Nat × Byte)) → List Byte × SMap (List (Nat × Byte))
  | _, [], h => ([], h)
  | j, x :: rest, h =>
    let v := (asOf (readTime n0 b i j sa da pick) (h.get (src + j))).getD x
    let old := h.get (dst + j)
    let old := if old.isEmpty then [(0, now.getD j 0)] else old
    let r := mixUnit n0 b i src dst sa da pick now (j + 1) rest (h.put (dst + j) (old ++ [(i + j + 1, v)]))
    (v :: r.1, r.2)

/-- One unit of a copy after another, or, in a state whose steps are fine, one in a step; `fuel` bounds their number. -/
def copyUnits (core : Nat) (rts : Route × Route) : Nat → Cmd → State → EngRes
  | 0, c, s => .done 0 (setCpHead core c s)
  | fuel + 1, c, s =>
    let k := cpKind c.ins
    let d := c.buf.take 64
    let n0 := descF d 16 4
    let n1 := descF d 20 2
    let i := c.prog
    if i ≥ n0 * n1 * descF d 22 2 then .done 0 (setCpHead core c s)
    else
      let b := i % n0
      let r := i / n0 % n1
      let p := i / n0 / n1
      let sa := cpAddr (cpBase c.capY) d 0 24 28 p r b
      let da := cpAddr (cpBase c.capX) d 8 32 36 p r b
      let n := unitLen c d b sa da
      let pend := c.buf.drop 64
      let x : List Byte × MRes Unit :=
        if k = 2 then (fillBytes d b n, .ok () s)
        else readPieces (.copy core) rts.1 (piecesFrom pend.length (pieces 3 sa.toNat n)) pend s
      engMiss x.2 (setCpHead core { c with buf := d ++ x.1 }) fun _ s =>
        let m : List Byte × SMap (List (Nat × Byte)) :=
          if k ≥ 2 || noWrite k d then (x.1, c.hist)
          else match placeOf core rts.1 sa s, placeOf core rts.2 da s with
            | some p, some q =>
              mixUnit n0 b i p q sa da (Config.readAt c.num d) (bytesAt q n s) 0 x.1 c.hist
            | _, _ => (x.1, c.hist)
        let bs := m.1
        let w : MRes Unit :=
          if noWrite k d then .ok () s
          else if k = 3 then (if (s.core core).tentative then .held s
            else .ok () (codeWrite core (descF d 8 8 + b) bs s))
          else cpWrite core rts.2 da bs (wakeShaped c d da) s
        engMiss w (setCpHead core { c with buf := d ++ x.1 }) fun _ s =>
          let crc := if k = 1 then bs.foldl crcStep c.crc else c.crc
          let c := { c with prog := i + n, crc := crc, buf := d, hist := m.2 }
          if s.fine then .wait (setCpHead core c s) else copyUnits core rts fuel c s

/-! ### Reduction steps (R267, R268) -/

/-- The sum of one element: its pattern and flags. -/
def crSum (efmt d s : Nat) : Nat × Flags :=
  match efmt with
  | 0 => roundOp .fp32 .rne ((valOf .fp32 d).add (valOf .fp32 s)) 0
  | 1 => roundOp .bf16 .rne ((valOf .bf16 d).add (valOf .bf16 s)) 0
  | 2 => ((d + s) % 2 ^ 32, 0)
  | _ => ((d + s) % 2 ^ 64, 0)

/-- The term of R267 that the square of a stored element adds to acc. -/
def crSquare (efmt p t : Nat) : Nat × Flags :=
  let v := if efmt = 0 then valOf .fp32 t else valOf .bf16 t
  let q := roundOp .fp32 .rne (v.mul v) 0
  let x := round (.int 64) .rne ((valOf .fp32 q.1).scale p) 0
  (x.1, q.2 ||| x.2)

/-- The next access of a reduction step: an element's two reads, or, at a later step, its write, which is an access of
its own. -/
def crUnits (core : Nat) (rts : Route × Route) (c : Cmd) (s : State) : EngRes :=
  let d := c.buf.take 64
  let w := crWidth d
  let ef := descF d 20 1
  let e := c.prog
  if e ≥ descF d 16 4 then .done 0 (setCpHead core c s)
  else
    let off := BitVec.ofNat 64 (w * e)
    let sa := cpBase c.capY + BitVec.ofNat 64 (descF d 0 8) + off
    let da := cpBase c.capX + BitVec.ofNat 64 (descF d 8 8) + off
    let pend := c.buf.drop 64
    let x := if pend.length ≥ w then (pend, MRes.ok () s)
      else readPieces (.copy core) rts.1 [(sa.toNat, w)] pend s
    engMiss x.2 (setCpHead core { c with buf := d ++ x.1 }) fun _ s =>
      if x.1.length < 2 * w then
        let y := readPieces (.copy core) rts.2 [(da.toNat, w)] x.1 s
        let keep := setCpHead core { c with buf := d ++ y.1 }
        engMiss y.2 keep fun _ s => .wait (keep s)
      else
        let t := crSum ef (leNat (x.1.drop w)) (leNat (x.1.take w))
        engMiss (writeN (.copy core) rts.2 da (leBytes w t.1) s) (setCpHead core { c with buf := d ++ x.1 })
          fun _ s =>
            let q : Nat × Flags := if cpKind c.ins = 5 then crSquare ef (descF d 21 1) t.1 else (0, 0)
            let c := { c with prog := e + 1, acc := c.acc + BitVec.ofNat 64 q.1, flags := c.flags ||| t.2 ||| q.2
                              buf := d }
            if e + 1 ≥ descF d 16 4 then .done 0 (setCpHead core c s) else .wait (setCpHead core c s)

/-! ### Scalar all-reduces (R269, R270) -/

/-- The contribution of a begun CRALL delivered; the last one completes the reduction. -/
def deliver (core : Nat) (c : Cmd) (key : Nat) (s : State) : State :=
  let d := c.buf
  let x := s.core core
  let n := descF d 10 1
  let k := x.cp.crall.get n
  let r := redNo key k
  let me := match x.grp with | some g => memberId g | none => core
  let v : Contribution := ⟨me, descF d 11 1, BitVec.ofNat 64 (descF d 0 8)⟩
  let s := s.setCore core { x with cp := { x.cp with crall := x.cp.crall.put n (k + 1) } }
  redAdvance n key k (addRed r v
    (setCpHead core { c with slot := n, begun := true, waited := true, seq := BitVec.ofNat 32 k } s))

/-- A core's CRALL has delivered and waits: its channel, key and k. -/
def crallOf (c : CoreSt) : Option (Nat × Nat × Nat) :=
  match c.cp.queue with
  | x :: _ => if x.begun && x.waited && cpKind x.ins == 6 then
      (c.key x.slot).map fun key => (x.slot, key, x.seq.toNat) else none
  | [] => none

/-- The CRALL at the head of a core completes with its reduction's result. -/
def crallFinish (core : Nat) (c : Cmd) (res : Option DWord) (s : State) : State :=
  match res with
  | some v =>
    let s := s.setCore core ((s.core core).store (descF c.buf 8 2) (leBytes 8 v.toNat))
    cpFinish core { c with prog := 1 } true none v s
  | none => cpFinish core c true (some (0x0B, 11)) 0 s

/-! ### The head command (R258, R265, R275) -/

/-- A tentative group's CRALL does not deliver (R275). -/
def crallHeld (core : Nat) (s : State) : Bool :=
  match (s.core core).grp with | some g => g.tent | none => false

/-- The units of a command whose checks have passed. -/
def cpUnits (core : Nat) (c : Cmd) (s : State) : EngRes :=
  let d := c.buf.take 64
  match cpRoutes core c d with
  | .error e => .fail e.1 e.2 0 (setCpHead core c s)
  | .ok rts =>
    if cpKind c.ins ≥ 4 then crUnits core rts c s
    else copyUnits core rts (descF d 16 4 * descF d 20 2 * descF d 22 2 + 1) c s

/-- What the performance of the head command leads to. A parked command reads again what it had read ahead of its
progress (R265). -/
def cpAfter (core : Nat) (r : EngRes) : State :=
  let head (s : State) : Cmd := (s.core core).cp.queue.headD default
  match r with
  | .done _ s => cpFinish core (head s) true none (head s).acc s
  | .fail cause tval _ s => cpFinish core (head s) true (some (cause, tval)) (head s).acc s
  | .wait s => s
  | .fault cause sub acc va s =>
    let c := head s
    groupFault (.copy core) c.who c.pc cause sub acc c.prog 2 va
      (setCpHead core { c with park := .parked, buf := c.buf.take 64 } s)

/-- The engine begins a command with a valid descriptor of a CRALL: it delivers, or waits. -/
def crallBegin (core : Nat) (c : Cmd) (s : State) : State :=
  let n := descF c.buf 10 1
  if crallHeld core s then setCpHead core c s
  else match (s.core core).key n with
    | none => cpFinish core c false (some (0x0B, 11)) 0 s
    | some key => deliver core c key s

/-- R258: the engine begins a command. -/
def cpBegin (core : Nat) (c : Cmd) (s : State) : State :=
  match readDesc core c s with
  | .error tv => cpRefuse core c tv s
  | .ok b =>
    let k := cpKind c.ins
    let crc0 : Word := BitVec.ofNat 32 (descF b 40 4) ^^^ 0xFFFFFFFF
    let c := { c with buf := b, begun := true, crc := crc0, slot := if k = 6 then descF b 10 1 else 0 }
    let member := k != 6 || ((s.core core).key (descF b 10 1)).isSome
    if !descOk c b || !member then cpFinish core c false (some (0x0B, BitVec.ofNat 64 (cpSub k))) 0 s
    else match cpRoutes core c b with
      | .error e => cpFinish core c false (some e) 0 s
      | .ok _ =>
        match wordFail c b with
        | some a => cpFinish core c false (some (0x08, a)) 0 s
        | none =>
          if k = 6 then crallBegin core c s
          else cpAfter core (cpUnits core c s)

/-- R253, R258, R265: the copy engine of a core begins, or goes on with, the command at the head of its
queue. -/
def execCpCommandBegin (core : Nat) (s : State) : Out :=
  let k := s.core core
  match k.cp.queue with
  | [] => .next s
  | c :: _ =>
    if k.saved then .next s
    else match c.park with
      | .parked => .next s
      | .deliver cause va => .next (cpFinish core c true (some (cause, va)) c.acc s)
      | .free =>
        if !c.begun then .next (cpBegin core c s)
        else if cpKind c.ins ≠ 6 then .next (cpAfter core (cpUnits core c s))
        else if c.waited then .next s
        else .next (crallBegin core c s)

/-- The contributions of a reduction dropped once no member waits for it. -/
def dropRed (n key k : Nat) (s : State) : State :=
  if (members n key s).any fun c => crallOf c == some (n, key, k) then s
  else { s with reds := s.reds.drop (redNo key k) }

/-! ### Squash (R275) -/

/-- A command that has not completed ends SQUASHED: its record and its mailbox, where the descriptor lets
them be written. -/
def squashCmd (core : Nat) (c : Cmd) (s : State) : State :=
  let ok (o n : Nat) : Bool := o != 0 && o % 8 == 0 && localOk c.guards o n needW
  let b := if c.begun then c.buf.take 64
    else if localOk c.guards c.ea.toNat 64 needR then (s.core core).lm.getRange c.ea.toNat 64
    else []
  let crc := crcField c b c.begun
  let s := if ok (dRec b) 32 then
      s.setCore core ((s.core core).store (dRec b) (recordBytes 2 0 0 crc c.prog c.num 0)) else s
  if ok (dMbx b) 8 && dScopeOk b then
    s.setCore core ((s.core core).store (dMbx b) (leBytes 8 (c.num + 1).toNat))
  else s

/-- Every command of a squashed group. -/
def squashCopies (core : Nat) (s : State) : State :=
  let s := (s.core core).cp.queue.foldl (fun s c => squashCmd core c s) s
  let k := s.core core
  s.setCore core { k with cp := { k.cp with queue := [] } }

end Sys2Proof.Machine
end

