-- ==== Sys2Proof/Machine/Exchange.lean ====
section
/-! DEFINITION. What moves between cores without an instruction: barrier releases but their effect on a
launch, channel 15 over the fabric, held arrivals, exchange transfers, receive buffers, scalar
all-reduces, reports and repeated requests (R407 to R421, R430). -/

namespace Sys2Proof.Machine

/-! ### Supersteps (R41, R411) -/

/-- The release of a key on channel 0 of a bulk launch would end a superstep. -/
def endsSuperstep (key : Nat) (s : State) : Bool :=
  (members 0 key s).any fun c => c.isBulk && c.barph.getLsbD 0

/-- The launches whose groups are members of a key on channel 0. -/
def launchesOf (key : Nat) (s : State) : List Nat :=
  (members 0 key s).foldl (fun l c => match c.grp with
    | some g => if g.bulk then setIns l g.launch else l | none => l) []

/-- Messages and transfers of groups of a launch that have ended are still on their way (R290, R296). -/
def goneOut (launch : Nat) (s : State) : Bool :=
  let gone (w : Who) : Bool := w == goneGroup launch
  decide (messagesOf gone s > 0) || s.cores.any fun p =>
    p.2.xfers.any (fun x => gone x.who) || (!p.2.landing.isEmpty && gone p.2.landFrom)

/-- R42, R296: what groups that have ended have posted in the superstep holds the release that ends it. -/
def releaseHeld (key : Nat) (s : State) : Bool :=
  endsSuperstep key s && (launchesOf key s).any fun l => goneOut l s

/-! ### Held arrivals (R418) -/

/-- The messages of the contexts of a core not yet admitted or refused. -/
def coreMessages (core : Nat) (s : State) : Nat := messagesOf (fun w => w.core == core) s

/-- Transfers and messages of a core's superstep are still on their way (R418). -/
def superstepOut (core : Nat) (s : State) : Bool :=
  (s.core core).xfers.any (·.who.core == core) || decide (s.time < (s.core core).sendBusy) || decide (coreMessages core s > 0)

/-- R418: the oldest held arrival of a core is delivered once the exchange phase that it ends has begun, its
transfers and messages have landed and the copy commands before it have completed. -/
def execArrivalDeliver (core : Nat) (s : State) : Out :=
  let c := s.core core
  let h := c.chans.get 0
  match h.held with
  | [] => .next s
  | q :: rest =>
    if decide (releasedOf c 0 s < q.1) || superstepOut core s || decide (c.cp.done.toNat < q.2) then .next s
    else .next (s.setCore core { c with chans := c.chans.put 0 { h with held := rest } })

/-! ### Exchange transfers (R415 to R417) -/

/-- The core that runs a group of a launch: none once the group has ended, a DETACHING one among them (R442). -/
def coreOfGroup (launch idx : Nat) (s : State) : Option Nat :=
  s.cores.keys.find? fun k => match (s.core k).grp with
    | some g => g.launch == launch && g.idx == idx &&
        match (s.launchOf launch).gst.get idx with | .detaching _ => false | _ => true
    | none => false

/-- The cycles of a transfer on its ports (R416). -/
def xferCycles (x : Xfer) : Nat := (x.bytes.length + 31) / 32

/-- A transfer comes before another that waits for the same port (R416): its slot cycle, then its
sender's group index. -/
def xferFirst (x y : Xfer) : Bool :=
  decide (x.cycle < y.cycle) || (decide (x.cycle = y.cycle) && decide (x.idx < y.idx))

/-- The group of a launch is saved. -/
def groupSaved (launch idx : Nat) (s : State) : Bool :=
  match (s.launchOf launch).gst.get idx with | .saved _ => true | _ => false

/-- The ports that a transfer of a core needs are free: its send port, and the receive port of the core that runs the
peer group, when one does. A transfer to a group that is saved waits for it to be restored (R401, R415). -/
def portsFree (core : Nat) (x : Xfer) (s : State) : Bool :=
  decide (s.time ≥ (s.core core).sendBusy) && match coreOfGroup x.launch x.peer s with
    | some k => !(s.core k).saved && decide (s.time ≥ (s.core k).recvBusy)
    | none => !groupSaved x.launch x.peer s

/-- A transfer that could start and comes first on a port that a transfer of a core needs (R416). -/
def hasRival (core : Nat) (x : Xfer) (s : State) : Bool :=
  s.cores.keys.any fun k => (s.core k).xfers.any fun y =>
    (k == core || (y.launch == x.launch && y.peer == x.peer)) && xferFirst y x && portsFree k y s

/-- The transfer of a core that starts next. -/
def nextXfer (core : Nat) (s : State) : Option Xfer :=
  (s.core core).xfers.find? fun x => portsFree core x s && !hasRival core x s

/-- The words of a transfer, each written at its start or left until its end, as a free value says: an access
meanwhile sees the old or the new value of each (R415, R417). -/
def landWords : Nat → Nat → Nat → List Byte → CoreSt → CoreSt
  | 0, _, _, _, c => c
  | n + 1, free, off, bs, c =>
    let w := bs.take 8
    let c := if (Config.freeValue free).getLsbD 0 then { c with landing := c.landing ++ [(off, w)] }
      else c.store off w
    landWords n (free + 1) (off + 8) (bs.drop 8) c

/-- The bytes of a transfer written at its receiver, or refused by its windows. -/
def writeXfer (x : Xfer) (own k : Nat) (s : State) : State :=
  let n := x.bytes.length
  let snd : Sender := ⟨s.fab.devid, own, (s.launchOf x.launch).vdev⟩
  if k = own || windowOk s k snd x.roff n needW then
    let m := (n + 7) / 8
    let c := { (s.core k).land with landFrom := x.who }
    { s.setCore k (landWords m s.freeCtr x.roff x.bytes c) with freeCtr := s.freeCtr + m }
  else addReport x.who 0x18 (nackTval 0x18 (BitVec.ofNat 64 x.slot)) (refuseAt k s)

/-- R415, R416: a transfer of a core starts when both its ports are free. -/
def execExchangeTransfer (core : Nat) (s : State) : Out :=
  let c := s.core core
  match nextXfer core s with
  | some x =>
    let rest := c.xfers.erase x
    (match coreOfGroup x.launch x.peer s with
    | none => .next (s.setCore core { c with xfers := rest })
    | some k =>
      let t := s.time + xferCycles x
      let s := s.setCore core { c with xfers := rest, sendBusy := t }
      let s := s.setCore k { s.core k with recvBusy := t }
      .next (writeXfer x core k s))
  | none => .next s

/-! ### The receive buffer (R420, R421) -/

/-- The header of a message, or of a pad record of some words. -/
def rxHeader (m : Message) : Nat :=
  m.payload.length / 8 * 2 ^ 32 + (if m.isPkt then 2 ^ 29 else 0) + m.core % 4096 * 2 ^ 16 + m.vdev % 65536
/-- A pad record's header. -/
def padHeader (words : Nat) : Nat := words * 2 ^ 32 + 2 ^ 28

/-- Bytes written to the buffer from an offset, going on at the base on reaching the end. -/
def rxWrite (base size off : Nat) (bs : List Byte) (c : CoreSt) : CoreSt :=
  let n := base + size - off
  if bs.length ≤ n then c.store off bs else (c.store off (bs.take n)).store base (bs.drop n)

/-- R421: a message placed, or none when it is refused. -/
def placeMsg (m : Message) (c : CoreSt) : Option CoreSt :=
  let base := c.rxbase.toNat
  let size := c.rxsize.toNat
  let head := c.rxhead.toNat
  let tail := c.rxtail.toNat
  let need := m.payload.length + 8
  let free := if head = tail then size else (size + head - tail) % size
  let bytes := leBytes 8 (rxHeader m) ++ m.payload
  let put (t : Nat) (c : CoreSt) : CoreSt :=
    let c := rxWrite base size t bytes c
    { c with rxtail := BitVec.ofNat 64 (base + (t - base + need) % size) }
  if !c.rxflags.getLsbD 0 || size = 0 then none
  else if c.rxflags.getLsbD 1 && decide (need > base + size - tail) then
    let pad := base + size - tail
    if pad + need + 8 > free then none
    else some (put base (c.store tail (leBytes 8 (padHeader (pad / 8 - 1)))))
  else if need + 8 > free then none
  else some (put tail c)

/-- A refused message counted. -/
def CoreSt.dropMsg (c : CoreSt) : CoreSt :=
  { c with rxdrop := satInc32 c.rxdrop, rxflags := c.rxflags ||| 4 }

/-- A message answered: to a sender of this device a report when it was not admitted, to another device an
ANSWER (R209). -/
def answerMsg (m : Message) (status : Nat) (s : State) : State :=
  match m.pkt with
  | some p => reply p status [] s
  | none => if status = 0 then s else addReport m.who 0x18 (nackTval status m.dest) s

/-- The sender of a message (R26). -/
def msgSender (m : Message) (s : State) : Sender :=
  ⟨match m.pkt with | some p => p.sdev | none => s.fab.devid, m.core, m.vdev⟩

/-- R208, R421: the oldest message that has arrived at a core is refused by its windows, or placed or refused.
A message for a saved group, or for a virtual device that is moving, waits (R401, R448). -/
def execRxMessagePlace (core : Nat) (s : State) : Out :=
  let c := s.core core
  match c.rxIn with
  | [] => .next s
  | m :: rest =>
    if c.saved || migrating (bitsOf m.dest.toNat 31 16) s then .next s
    else
      let c := { c with rxIn := rest }
      match c.grp with
      | none => .next (answerMsg m 0x19 (s.setCore core c))
      | some g =>
        if g.vdev ≠ bitsOf m.dest.toNat 31 16 then .next (answerMsg m 0x19 (s.setCore core c))
        else if !windowOk s core (msgSender m s) c.rxbase.toNat c.rxsize.toNat needW then
          .next (answerMsg m 0x18 (refuseAt core (s.setCore core c)))
        else match placeMsg m c with
          | some c => .next (answerMsg m 0 (s.setCore core c))
          | none => .next (answerMsg m 0x1C (s.setCore core c.dropMsg))

/-! ### Scalar all-reduces (R269) -/

/-- R269: a core's CRALL completes once its reduction is complete. -/
def execCrallComplete (core : Nat) (s : State) : Out :=
  let c := s.core core
  if c.saved then .next s
  else match crallOf c, c.cp.queue with
    | some (n, key, k), x :: _ =>
      let s := redAdvance n key k s
      match (s.reds.get (redNo key k)).find? fun y => y.core == finalMark with
      | some y => .next (dropRed n key k (crallFinish core x (if y.op = 255 then none else some y.v) s))
      | none => .next s
    | _, _ => .next s

/-! ### Reports and repeated requests -/

/-- R391: the oldest pending report of a context is raised at its boundary. -/
def execReportRaise (w : Who) (s : State) : Out :=
  .next (if reportReady w s then raiseReport w s else s)

/-- A request has ended with a status: a message that was refused reports, the answer of a control block write is
waited for by nothing, that of a STATE packet counts for its migration (R443, R447); any other stays for its
agent. -/
def endReq (id : Nat) (r : Req) (st : Nat) (d : List Byte) (s : State) : State :=
  match r.agent with
  | .message w =>
    let s := setReq id none s
    if st = 0 then s else addReport w 0x18 (nackTval st r.pkt.addr) s
  | .post _ => setReq id none s
  | _ =>
    if r.pkt.typ = 0x30 then
      let s := setReq id none s
      let m := s.fab.migs.get r.pkt.tvdev
      if m.active then
        let m' := if st = 0 then { m with acks := m.acks + 1 } else { m with refused := true }
        { s with fab := { s.fab with migs := s.fab.migs.put r.pkt.tvdev m' } }
      else s
    else setReq id (some { r with answer := some (st, d), moving := false }) s

/-- A request goes out again, or ends with NACK 0x19 when its route is lost (R428, R432). -/
def resendReq (id : Nat) (r : Req) (s : State) : State :=
  if routeLost r.pkt.ddev s then endReq id r 0x19 [] s else routeReq id r s

/-- R428: a request answered MOVING is repeated by its port. -/
def execMovingRetry (reqid : Nat) (s : State) : Out :=
  match s.fab.reqs.get reqid with
  | some r =>
    if r.moving then .next (resendReq reqid r s) else .next s
  | none => .next s

end Sys2Proof.Machine
end

