-- ==== Sys2Proof/Machine/Place.lean ====
section
/-! DEFINITION. Where groups run: free cores, candidate sets, and the two phases of a gang's placement
between Belvedere and the Kiosks (R38, R40, R327, R347). -/

namespace Sys2Proof.Machine

/-! ### Cores -/

/-- The clusters of a virtual device in ascending logical order, numbered die × 144 + cluster (R37, R347). -/
def vdevClusters (v : VDev) : List Nat :=
  ((List.range 16).filter fun q => v.quarters.getLsbD q).flatMap fun q =>
    (List.range 36).map fun i => q / 4 * 144 + q % 4 * 36 + i

/-- The enabled cores of a cluster (R466, R467). -/
def enabledCores (cl : Nat) (s : State) : List Nat :=
  ((List.range 4).map fun i => 4 * cl + i).filter fun k => !s.plat.absent.get k

/-- The cores a virtual device has for groups. -/
def vdevCores (v : Nat) (s : State) : Nat :=
  ((vdevClusters (s.vdev v)).map fun cl => (enabledCores cl s).length).sum

/-- A core stands in a reservation of another launch (R347). -/
def reservedElse (launch k : Nat) (s : State) : Bool :=
  s.launches.any fun p => p.1 ≠ launch && (p.2.reserved.contains k || p.2.leaving.contains k)

/-- A core is free for a launch. -/
def coreFree (launch k : Nat) (s : State) : Bool :=
  (s.core k).grp.isNone && !s.plat.absent.get k && !s.plat.retiring.get k && !reservedElse launch k s &&
    !(s.savedGroups.any fun p => match p.2 with | some v => v.reason == 3 && v.core == k | none => false)

/-- The free cores of a cluster. -/
def freeIn (launch cl : Nat) (s : State) : List Nat :=
  (enabledCores cl s).filter fun k => coreFree launch k s

/-- The first free core of a virtual device for a launch. -/
def firstFree (launch v : Nat) (s : State) : Option Nat :=
  ((vdevClusters (s.vdev v)).flatMap fun cl => freeIn launch cl s).head?

/-- The migration of a virtual device may quiesce its launches (R46, R367). -/
def quiesces (vdev : Nat) (s : State) : Bool :=
  (s.vdev vdev).moving && !(s.launches.any fun p =>
    p.2.alive && p.2.vdev == vdev && (p.2.noPreempt || (p.2.spec && !p.2.applied)))

/-! ### Groups of a launch to be started -/

/-- The launch places its groups as gangs: bulk, pergola, or a gang size of 2 or more (R336, R347). -/
def LaunchSt.ganged (l : LaunchSt) : Bool := l.bulk || l.pergola || decide (l.gang ≥ 2)

/-- The groups of the gang that is to be placed next, first and past the last. -/
def LaunchSt.gangSet (l : LaunchSt) : Option (Nat × Nat) :=
  match l.nextGroup with
  | none => none
  | some g =>
    let lim := if g < l.predicted then min l.predicted l.created else l.created
    if l.bulk || l.pergola then some (g, lim)
    else
      let i := g / max 1 l.gang
      some (g, min lim ((i + 1) * max 1 l.gang))

/-! ### Candidate sets (R347) -/

/-- The enabled cores of runs of c consecutive clusters that begin at each position. -/
def runSums (sizes : List Nat) (c : Nat) : List (Nat × Nat) :=
  (List.range (sizes.length + 1 - c)).map fun i => (i, ((sizes.drop i).take c).sum)

/-- The fewest consecutive clusters that hold n cores, from c on; `fuel` bounds the search. -/
def fewest (sizes : List Nat) (n : Nat) : Nat → Nat → Nat
  | 0, c => c
  | fuel + 1, c => if (runSums sizes c).any fun p => decide (p.2 ≥ n) then c else fewest sizes n fuel (c + 1)

/-- The candidate sets of a virtual device for a gang of n: the place of the first cluster, and the clusters of the
run. -/
def runsOf (vdev n : Nat) (s : State) : List (Nat × List Nat) :=
  let cls := vdevClusters (s.vdev vdev)
  let sizes := cls.map fun cl => (enabledCores cl s).length
  let c := fewest sizes n cls.length ((n + 3) / 4)
  ((runSums sizes c).filter fun p => decide (p.2 ≥ n)).map fun p => (p.1, (cls.drop p.1).take c)

/-- The candidate sets for a gang of n of a launch, in the order of R347. -/
def candidates (launch n : Nat) (s : State) : List (List Nat) :=
  let l := s.launchOf launch
  let seed := BitVec.ofNat 64 (l.vdev * 2 ^ 48) ^^^ BitVec.ofNat 64 (l.q * 2 ^ 32) ^^^ BitVec.ofNat 64 l.id
  let key (p : Nat × List Nat) : Nat := (mix (seed ^^^ BitVec.ofNat 64 p.1)).toNat
  (sortBy (fun a b : Nat × List Nat => decide (key a < key b) || (key a == key b && decide (a.1 ≤ b.1)))
    (runsOf l.vdev n s)).map Prod.snd

/-- How many cores of each cluster of a set a gang of n takes. -/
def shares (s : State) : List Nat → Nat → List (Nat × Nat)
  | [], _ => []
  | cl :: rest, n =>
    let k := min n (enabledCores cl s).length
    (cl, k) :: shares s rest (n - k)

/-- Every cluster of a set has the free cores that a gang takes. -/
def setFits (launch : Nat) (set : List Nat) (n : Nat) (s : State) : Bool :=
  (shares s set n).all fun p => decide ((freeIn launch p.1 s).length ≥ p.2)

/-- A launch of n groups to be placed together, or a single group, has the cores it needs now on a virtual device. -/
def placeable (launch vdev n : Nat) (ganged : Bool) (s : State) : Bool :=
  if n = 0 then true
  else if ganged then (runsOf vdev n s).any fun p => setFits launch p.2 n s
  else (firstFree launch vdev s).isSome

/-- The gang being placed and its candidate set. -/
def currentSet (launch : Nat) (s : State) : Option (Nat × List Nat) :=
  let l := s.launchOf launch
  match l.gangSet with
  | none => none
  | some (a, b) =>
    let cs := candidates launch (b - a) s
    (cs[l.cand % max 1 cs.length]?).map fun set => (b - a, set)

/-! ### Answers to faults at the Kiosks (R396) -/

/-- The state of the core a party belongs to, running or saved. -/
def partyCore (k : Nat) (s : State) : CoreSt :=
  if k < 2 * goneCore then s.core k
  else match s.savedGroups.get (k - 2 * goneCore) with | some v => v.img | none => default

/-- The core a party belongs to, replaced. -/
def setPartyCore (k : Nat) (c : CoreSt) (s : State) : State :=
  if k < 2 * goneCore then s.setCore k c
  else
    let n := k - 2 * goneCore
    { s with savedGroups := s.savedGroups.put n ((s.savedGroups.get n).map fun v => { v with img := c }) }

/-- An answer TERMINATE for a party of a saved group acts at its restore (R396). -/
def terminateSaved (slot cause : Nat) (s : State) : State :=
  match s.savedGroups.get slot with
  | none => s
  | some v => { s with savedGroups := s.savedGroups.put slot (some { v with term := some (v.term.getD cause) }) }

/-- The group of a party, running or saved, terminated. -/
def terminateParty (k cause : Nat) (s : State) : State :=
  if k < 2 * goneCore then terminateFor k cause s else terminateSaved (k - 2 * goneCore) cause s

/-- The core of a party of a group. -/
def Party.core : Party → Option Nat
  | .ctx w => some w.core
  | .stream w => some w.core
  | .vector w => some w.core
  | .matrix k => some k
  | .copy k => some k
  | _ => none

/-- The core after an answer to a party of it: RETRY, or DELIVER with the cause of its fault; none when the party is not
parked. A stream ends at its element once the elements below, if it was wound back, have been performed again (R130). -/
def CoreSt.repark (c : CoreSt) (f : FaultRec) (deliver : Bool) : Option CoreSt :=
  let x : Park := if deliver then .deliver f.cause f.va else .free
  let head (q : List Cmd) : Option (List Cmd) := match q with
    | h :: t => if h.park == .parked then some ({ h with park := x } :: t) else none
    | [] => none
  let ctx (w : Who) : Option CoreSt :=
    let t := c.ctxs.get w.ctx
    if t.live && t.park == .parked then some { c with ctxs := c.ctxs.put w.ctx { t with park := x } } else none
  match f.party with
  | .ctx w => ctx w
  | .vector w => ctx w
  | .stream w =>
    let t := c.ctxs.get w.ctx
    match t.stream with
    | some st =>
      if st.park == .parked then
        some { c with ctxs := c.ctxs.put w.ctx { t with stream := some { st with
          park := .free, ends := if deliver then some (f.prog, f.cause, f.va) else st.ends } } }
      else none
    | none => none
  | .matrix _ => (head c.mx.queue).map fun q => { c with mx := { c.mx with queue := q } }
  | .copy _ => (head c.cp.queue).map fun q => { c with cp := { c.cp with queue := q } }
  | _ => none

/-- R396: a party of a group acts on an answer; a group that has ended is answered by nothing. -/
def answerGroup (vdev ans k : Nat) (f : FaultRec) (s : State) : State :=
  let c := partyCore k s
  let mine := match c.grp with
    | some g => g.vdev == vdev && g.id == f.launch && g.idx == f.group
    | none => false
  match c.repark f (ans == 1) with
  | some c' => if !mine then s else if ans = 2 then terminateParty k f.cause s else setPartyCore k c' s
  | none => s

/-! ### Command links (R327) -/

/-- The number by which a refusal stands among the clusters that have answered. -/
def refusedMark (cl : Nat) : Nat := 576 + cl

/-- The Kiosk of a cluster has answered the RESERVE of a launch. -/
def LaunchSt.answeredBy (l : LaunchSt) (cl : Nat) : Bool := l.granted.contains cl || l.granted.contains (refusedMark cl)

/-- Every Kiosk of a set can be sent a message: its link has a send permit left. A message holds one until it is
received (R327). What a Kiosk sends to Belvedere is sent, received and acknowledged in one step, and holds a permit for no
longer (log entry 11). -/
def havePermits (cls : List Nat) (s : State) : Bool := cls.all fun cl => decide ((s.links.get cl).length < 8)

/-- The cores of a list outside a cluster. -/
def outside (cl : Nat) (l : List Nat) : List Nat := l.filter fun k => clusterOf k ≠ cl

/-- The Kiosk of a cluster receives the messages at the head of its link, in the order sent, up to the first RESERVE,
which waits for its answer: a RELEASE gives the cores back, and the answer to a fault acts on its party. -/
def drainLink (cl : Nat) : List LinkMsg → State → State
  | .commit _ :: rest, s => drainLink cl rest s
  | .release k :: rest, s =>
    let l := s.launchOf k
    drainLink cl rest (if l.alive then s.setLaunch k { l with leaving := outside cl l.leaving } else s)
  | .answer v a f :: rest, s => drainLink cl rest (match f.party.core with | some k => answerGroup v a k f s | none => s)
  | l, s => { s with links := s.links.put cl l }

/-- A message sent to the Kiosk of a cluster. -/
def sendLink (m : LinkMsg) (s : State) (cl : Nat) : State := drainLink cl (s.links.get cl ++ [m]) s

/-- The cluster whose Kiosk answers for the core of a party, running or saved. -/
def partyCluster (k : Nat) (s : State) : Nat :=
  if k < 2 * goneCore then clusterOf k
  else match s.savedGroups.get (k - 2 * goneCore) with | some v => clusterOf v.core | none => 0

/-- An answer to a fault of a virtual device is on a command link. -/
def answersOut (vdev : Nat) (s : State) : Bool :=
  s.links.any fun p => p.2.any fun m => match m with | .answer v _ _ => v == vdev | _ => false

/-- The launch whose placement a message is about; none has the number 0. -/
def LinkMsg.launch : LinkMsg → Nat
  | .reserve k _ | .commit k | .release k => k
  | .answer _ _ _ => 0

/-- No message about a launch is still on its way to a Kiosk. -/
def linksClear (launch : Nat) (s : State) : Bool := s.links.all fun p => !p.2.any fun m => m.launch == launch

/-- A launch that ends is placed no further: its messages and reservations go. -/
def dropLinks (launch : Nat) (s : State) : State :=
  s.links.keys.foldl (fun s cl => drainLink cl ((s.links.get cl).filter fun m => m.launch != launch) s) s

/-! ### The two phases (R347) -/

/-- R347: RESERVE goes to the Kiosk of every cluster of the candidate set; not while cores are kept for saved groups of the
launch (R442). -/
def execReserve (launch : Nat) (s : State) : Out :=
  let l := s.launchOf launch
  if !l.alive || !l.ganged || l.place ≠ .none || l.killed || !l.reserved.isEmpty then .next s
  else match currentSet launch s with
    | none => .next s
    | some (n, set) =>
      if !havePermits set s then .next s
      else
        let sh := shares s set n
        let s := s.setLaunch launch { l with place := .reserved, asked := sh, granted := [], reserved := [] }
        .next (sh.foldl (fun s a => sendLink (.reserve launch a.2) s a.1) s)

/-- The answer the Kiosk of a cluster gives when asked for n cores: it grants when it has them. -/
def kioskGrants (launch cl n : Nat) (s : State) : Bool := decide (n ≤ (freeIn launch cl s).length)

/-- R347: the Kiosk of a cluster receives the RESERVE at the head of its link, and its answer reaches Belvedere. An
answer the Kiosk would not give has no effect. -/
def execGrant (launch cluster : Nat) (granted : Bool) (s : State) : Out :=
  let l := s.launchOf launch
  match s.links.get cluster with
  | .reserve k n :: rest =>
    if k ≠ launch || granted ≠ kioskGrants launch cluster n s then .next s
    else
      let s' := s.setLaunch launch { l with
        granted := l.granted ++ [if granted then cluster else refusedMark cluster]
        reserved := l.reserved ++ (if granted then (freeIn launch cluster s).take n else []) }
      .next (drainLink cluster rest s')
  | _ => .next s

/-- Every Kiosk asked has answered: none before that, and whether all granted. -/
def answers (launch : Nat) (s : State) : Option Bool :=
  let l := s.launchOf launch
  if l.place ≠ .reserved || decide (l.granted.length < l.asked.length) then none
  else some (l.granted.all fun g => decide (g < 576))

/-- A member of a pergola that a live launch holds: its device, virtual device and, once its group has been placed, its core
stand in the table (R441). It counts as saved, and resumed, as often as the members before it. -/
def holdMember (pgid k dev vdev core : Nat) (noPre placed : Bool) (s : State) : State :=
  let p := s.fab.pergs.get pgid
  let n := ((List.range p.m).map fun i => if (p.members.get i).runs then (p.members.get i).resumes else 0).foldl max 0
  let m : Member := { (default : Member) with
    present := true, placed := placed, dev := dev, vdev := vdev, core := core, noPre := noPre, saves := n, resumes := n }
  { s with fab := { s.fab with pergs := s.fab.pergs.put pgid { p with members := p.members.put k m } } }

/-- A member of a pergola whose group has been placed. -/
def placeMember (pgid k dev vdev core : Nat) (noPre : Bool) (s : State) : State :=
  holdMember pgid k dev vdev core noPre true s

/-- The devices that the peer tables name, but this one. -/
def peerDevs (s : State) : List Nat :=
  let vs := s.fab.ports.foldl (fun l p => p.2.peers.keys.foldl setIns l) []
  vs.foldl (fun ds v =>
    let e := peerEntry v s
    if bitAt e 15 && e % 4096 ≠ s.fab.devid then setIns ds (e % 4096) else ds) []

/-- Members of a pergola, each with a core, in this device's table and over PGCTL in that of every other device of the pod
that may hold the pergola: claimed when their launch starts, placed when its gang has cores (DESIGN CHOICE, log entry 12: ops
15 and 7). -/
def tellMembers (l : LaunchSt) (placed : Bool) (cores : List (Nat × Nat)) (s : State) : State :=
  let body (k core : Nat) : List Byte :=
    [if placed then 7 else 15, BitVec.ofNat 8 k] ++ leBytes 2 core ++ leBytes 2 l.vdev ++ [if l.noPreempt then 1 else 0]
  let devs := peerDevs s
  cores.foldl (fun s p =>
    devs.foldl (fun s d => pgPkt l.pgid d 0xFFFF (body p.1 p.2) s)
      (holdMember l.pgid p.1 s.fab.devid l.vdev p.2 l.noPreempt placed s)) s

/-- The members of a pergola launch on its cores. -/
def commitMembers (launch : Nat) (s : State) : State :=
  let l := s.launchOf launch
  let first := match l.gangSet with | some (a, _) => a | none => 0
  tellMembers l true (((List.range l.reserved.length).zip l.reserved).map fun p => (l.pgF + first + p.1, p.2)) s

/-- R347: every Kiosk has granted, and Belvedere commits. -/
def execCommit (launch : Nat) (s : State) : Out :=
  let l := s.launchOf launch
  if answers launch s = some true && havePermits (l.asked.map Prod.fst) s then
    let s := s.setLaunch launch { l with place := .committed }
    let s := l.asked.foldl (fun s a => sendLink (.commit launch) s a.1) s
    .next (if l.pergola then commitMembers launch s else s)
  else .next s

/-- R347: a Kiosk has not granted; the others are released, and Belvedere waits min(64, 2^a) µs. -/
def execRelease (launch : Nat) (s : State) : Out :=
  let l := s.launchOf launch
  let cls := l.granted.filter fun g => decide (g < 576)
  if answers launch s = some false && havePermits cls s then
    let s := s.setLaunch launch { l with
      place := .backoff, asked := [], granted := [], reserved := [], leaving := l.leaving ++ l.reserved
      conflicts := l.conflicts + 1, retry := s.time + 1900 * min 64 (2 ^ min l.conflicts 6) }
    .next (cls.foldl (sendLink (.release launch)) s)
  else .next s

/-- R347: after the backoff the next candidate set is tried. -/
def execPlacementRetry (launch : Nat) (s : State) : Out :=
  let l := s.launchOf launch
  if l.place = .backoff && decide (l.retry ≤ s.time) then
    .next (s.setLaunch launch { l with place := .none, cand := l.cand + 1 })
  else .next s

end Sys2Proof.Machine
end

