-- ==== Sys2Proof/Machine/Launch.lean ====
section
/-! DEFINITION. The fetcher of a queue (R333 to R335) and its commands (R336 to R346): their start, the checks of a
LAUNCH, completion records and events, priorities; the fault queue's writes (R393) and the remote counts (R378). -/

namespace Sys2Proof.Machine

/-! ### Completion of commands (R338, R341) -/

/-- The task number of the completion record of a command. -/
def recTask (n idx : Nat) : Nat := 2 ^ 32 + n * 2 ^ 64 + idx

/-- A command of a queue. -/
def cmdAt (n idx : Nat) (s : State) : Option QCmd := (s.queue n).cmds.find? fun c => c.idx == idx

/-- A command of a queue changed. -/
def mapCmd (n idx : Nat) (f : QCmd → QCmd) (s : State) : State :=
  let q := s.queue n
  s.setQueue n { q with cmds := q.cmds.map fun c => if c.idx == idx then f c else c }

/-- A launch that has completed is forgotten: its members of a pergola are free for another launch (R440). -/
def forgetLaunch (key : Nat) (s : State) : State :=
  let l := s.launchOf key
  let mine (i : Nat) : Bool := let m := (s.fab.pergs.get l.pgid).members.get (l.pgF + i); m.present && m.dev == s.fab.devid
  let s := if l.alive && l.pergola then
      ((List.range l.groups).filter mine).foldl (fun s i => pergMark l.pgid (l.pgF + i) 10 s) s
    else s
  let s := leaveWaits l.vdev (.shape key) (dropLinks key s)
  { s with launches := s.launches.drop key }

/-- A command whose record stands, or is not written, completes: it leaves the queue and signals sigev. -/
def finishCmd (n idx : Nat) (s : State) : State :=
  match cmdAt n idx s with
  | none => s
  | some c =>
    let q := s.queue n
    let s := ioDone (recTask n idx) s
    let s := readyNow n (s.setQueue n { q with cmds := q.cmds.filter fun x => x.idx != idx })
    let s := leaveWaits q.vdev (.cmd n idx) s
    let s := match c.launch with
      | some k => forgetLaunch k s
      | none => s
    signalEvent q.vdev (bSigev c.body) s

/-- The record of a command written, when it is due and no fault holds it. -/
def tryRecord (n idx : Nat) (s : State) : State :=
  match (if migrating (s.queue n).vdev s then none else cmdAt n idx s) with
  | none => s
  | some c =>
    match c.result, c.recPark with
    | some bytes, .free =>
      if bRec c.body = 0 then finishCmd n idx s
      else
        let q := s.queue n
        match ioWrite (recTask n idx) q.vdev q.space (bRec c.body) bytes s with
        | .ok _ s => finishCmd n idx s
        | .trap _ _ s => finishCmd n idx s
        | .wait s => s
        | .held s => s
        | .fault cause sub va acc s =>
          let lid := match c.launch with | some k => (s.launchOf k).id | none => 0
          ioFault (.record n idx) q.vdev q.space lid cause sub acc va
            (mapCmd n idx (fun c => { c with recPark := .parked }) s)
    | _, _ => s

/-- A command ends with the bytes of its record. -/
def complete (n idx : Nat) (bytes : List Byte) (s : State) : State :=
  tryRecord n idx (mapCmd n idx (fun c => { c with started := true, result := some bytes }) s)

/-- A record whose fields but status are 0. -/
def statusRec (st : Nat) : List Byte := leBytes 1 st ++ List.replicate 31 0

/-- The records of a queue that are still to be written. -/
def retryRecords (n : Nat) (s : State) : State :=
  ((s.queue n).cmds.filter fun c => c.result.isSome).foldl (fun s c => tryRecord n c.idx s) s

/-! ### Starting a command (R337, R344, R345) -/

/-- A queue's level after a command has started: the next command's, or the command's own (R345). -/
def relevel (n prio : Nat) (s : State) : State :=
  let q := s.queue n
  let level := match headCmd q with | some c => min 7 (bPrio c.body) | none => min 7 prio
  if level = q.level then s else putQueue n { q with level := level } s

/-- A command starts. -/
def startCmd (n : Nat) (c : QCmd) (s : State) : State :=
  relevel n (bPrio c.body) (mapCmd n c.idx (fun c => { c with started := true }) s)

/-- R344: the command at the head of a queue's not-started ones joins its wait lists; one that finds no place
completes at once with EVFULL, and the next is at the head. `fuel` bounds their number. -/
def joinHead (n : Nat) : Nat → State → State
  | 0, s => s
  | fuel + 1, s =>
    match headCmd (s.queue n) with
    | none => s
    | some c =>
      if c.joined || migrating (s.queue n).vdev s then s
      else match joinWaits (s.queue n).vdev (.cmd n c.idx) (mapCmd n c.idx (fun c => { c with joined := true }) s) with
        | some s => s
        | none => joinHead n fuel (complete n c.idx (statusRec 7) (startCmd n c s))

/-- The same for every command that is now at the head. -/
def reachHead (n : Nat) (s : State) : State := joinHead n ((s.queue n).cmds.length + 1) s

/-- A command ends at its start. -/
def startEnds (n : Nat) (c : QCmd) (bytes : List Byte) (s : State) : State :=
  reachHead n (complete n c.idx bytes (startCmd n c s))

/-- The command at the head of a queue, when it is ready and of one of some kinds. -/
def readyHead (n : Nat) (kinds : Nat → Bool) (s : State) : Option QCmd :=
  if migrating (s.queue n).vdev s then none
  else match headCmd (s.queue n) with
    | some c => if kinds (bKind c.body) && c.ready.isSome then some c else none
    | none => none

/-- The rank of a command. -/
def QCmd.rank (c : QCmd) : Nat := match c.ready with | some r => r.1 | none => 0

/-- R345: a ready command of another queue of the virtual device that stands before a rank of queue n, by level and
then by the moment it became ready, and satisfies `p`. -/
def precedes (n rank : Nat) (p : QCmd → Bool) (s : State) : Bool :=
  let q := s.queue n
  s.queues.any fun x =>
    x.1 ≠ n && x.2.alive && x.2.vdev == q.vdev && match headCmd x.2 with
    | some c => c.ready.isSome && p c &&
        (decide (x.2.level < q.level) || (x.2.level == q.level && decide (c.rank < rank)))
    | none => false

/-! ### The fetcher (R333 to R335) -/

/-- The fetcher of a queue can go on. -/
def canFetch (n : Nat) (s : State) : Bool :=
  let q := s.queue n
  q.alive && !migrating q.vdev s && q.opened && q.woken && q.park == .free && q.blkPark == .free && decide (q.head < q.tail)

/-- The fetcher begins a read of the slot at the head, when none of its reads is on its way: only a wake write from now on
is one that the read may not have seen (R350). -/
def fetchStart (n : Nat) (s : State) : State :=
  let reads := s.fab.reqs.any fun p => match p.2 with | some r => r.agent == .io n | none => false
  if reads then s else s.setQueue n { s.queue n with fresh := false }

/-- R334: one slot fetched, or the stop at a slot that is not published. -/
def execQueueFetch (n : Nat) (s : State) : Out :=
  if !canFetch n s then .next s
  else
    let q := s.queue n
    let va := q.w0.toNat + 64 * (q.head % q.slots)
    let seq : Nat := (q.head + 1) % 2 ^ 64
    let s := fetchStart n s
    let stop (s : State) : State := let q := s.queue n; s.setQueue n { q with woken := q.fresh, fresh := false }
    match (ioRead n q.vdev q.space (va + 56) 8 s).bind fun w s =>
        if leNat w ≠ seq then .ok none s
        else (ioRead n q.vdev q.space va 56 s).bind fun b s => .ok (some b) s with
    | .wait s => .next s
    | .held s => .next s
    | .trap _ _ s => .next (stop (ioDone n s))
    | .fault c sub a acc s =>
      .next (ioFault (.queue n) q.vdev q.space 0 c sub acc a (s.setQueue n { s.queue n with park := .parked }))
    | .ok none s =>
      .next (stop (ioDone n s))
    | .ok (some b) s =>
      let s := ioDone n s
      let q := s.queue n
      let c : QCmd := { (default : QCmd) with idx := q.head, body := b }
      let level := if q.cmds.all (·.started) then min 7 (bPrio b) else q.level
      let q := { q with cmds := q.cmds ++ [c], head := q.head + 1, level := level }
      .next (reachHead n (putQueue n q s))

/-! ### The checks of R340 -/

/-- The BADCMD row for WAIT, SIGNAL and PRELOAD. -/
def badOther (b : List Byte) : Bool :=
  let pre := bKind b == 4
  (bFlags b != 0 && bFlags b != 64) || decide (bPrio b > 7) || bRec b % 32 != 0 ||
    bGroups b != 0 || bFloor b != 0 || bShapeva b != 0 || bShapeev b != 0 || bPslot b != 0 || bMargin b != 0 ||
    bGang b != 0 || bArgs b != 0 || (if pre then bImage b % 64 != 0 else bImage b != 0)

/-- The BADCMD row for a LAUNCH, with the pergola check of R440 (`bound`: the queue is bound). -/
def badLaunch (b : List Byte) (bound : Bool) : Bool :=
  let fl := bFlags b
  bKind b != 1 || decide (fl ≥ 128) || decide (bPrio b > 7) || bGroups b == 0 || decide (bFloor b > bGroups b) ||
    bImage b % 64 != 0 || bArgs b % 64 != 0 || bRec b % 32 != 0 || (bitAt fl 3 && !bound) ||
    (if bitAt fl 1 then bShapeva b == 0 || bShapeva b % 8 != 0 || bShapeev b == 0
     else bFloor b != 0 || bShapeva b != 0 || bShapeev b != 0 || bPslot b != 0 || bMargin b != 0)

/-- R339 on the 64 bytes of a header. -/
def headerOk (h : List Byte) : Bool :=
  let f (o k : Nat) : Nat := bodyF h o k
  let code := f 4 2
  f 0 4 == 0x52595449 && decide (1 ≤ code) && decide (code ≤ 16384) && f 6 2 % 2 == 0 && decide (f 6 2 < 2 * code) &&
    (f 8 2 == 0 || (f 8 2 % 2 == 0 && decide (f 8 2 < 2 * code))) && f 10 2 % 16 == 0 && f 12 4 == 0 &&
    f 16 8 % 2 == 0 && (f 10 2 != 0 || f 24 8 == 0) && f 40 4 % 4096 == 0 && ((h.drop 44).all (· == 0)) &&
    decide (0x40 + f 10 2 ≤ 0xC000)

/-- Bytes as halfwords. -/
def halves (n : Nat) (b : List Byte) : List Half :=
  (List.range n).map fun i => BitVec.ofNat 16 (leNat ((b.drop (2 * i)).take 2))

/-- The entries of a plan, 16 bytes each. -/
def planEntries (p : List Byte) : List (List Byte) :=
  (List.range (p.length / 16)).map fun i => (p.drop (16 * i)).take 16

/-- R413: every entry of a plan meets the limits for n groups. -/
def planOk (p : List Byte) (n : Nat) : Bool := (planEntries p).all fun e => (planEnt e n).ok

/-- An image read from memory, with whether its header is valid. -/
def readImage (k vdev space va : Nat) (s : State) : MRes (Image × Bool) :=
  (ioRead k vdev space va 64 s).bind fun h s =>
    let nc := min 16384 (bodyF h 4 2)
    (ioRead k vdev space (bodyF h 16 8) (2 * nc) s).bind fun code s =>
      (ioRead k vdev space (bodyF h 24 8) (bodyF h 10 2) s).bind fun plan s =>
        .ok ({ va := va, entry := bodyF h 6 2, tvec := bodyF h 8 2, rtva := bodyF h 32 8, slice := bodyF h 40 4,
               code := halves nc code, plan := plan }, headerOk h) s

/-- The argument block with its tags (R368). -/
def readArgs (k vdev space va : Nat) (s : State) : MRes (List Byte × List Bool) :=
  (ioPiece k vdev space va (.tags 64) s).bind fun b s =>
    .ok (b.take 64, (List.range 4).map fun i => b.getD (64 + i) 0 != 0) s

/-- An address can be translated. -/
def reaches (vdev space va : Nat) (s : State) : MRes Unit :=
  if ((s.vdev vdev).spaces.get space).st != .opened then .fault 0x10 1 (BitVec.ofNat 64 va) 0 s
  else match tlbFill s .io vdev space va with
    | .ok (_, s) => .ok () s
    | .error (c, s) => .fault 0x10 c (BitVec.ofNat 64 va) 0 s

/-- R352: the pages of a retractable region from an address to its end; `fuel` bounds their number. -/
def regionOk (vdev space rtva slice : Nat) (stop : Nat) : Nat → Nat → State → Bool × State
  | 0, _, s => (false, s)
  | fuel + 1, va, s =>
    if va ≥ stop then (true, s)
    else match tlbFill s .io vdev space va with
      | .error (_, s) => (false, s)
      | .ok (t, s) =>
        let e := t.word.toNat
        let last := t.page + 4096 * 2 ^ t.size
        let s0 := rtva + (va - rtva) / slice * slice
        if !twBit e 6 || twBit e 7 || t.page < s0 || last > s0 + slice then (false, s)
        else regionOk vdev space rtva slice stop fuel last s

/-- The members of a pergola launch overlap those of another launch, or go past M − 1 (R440). -/
def pergClash (pgid m f n : Nat) (s : State) : Bool :=
  decide (f + n > m) ||
    (List.range n).any (fun i => ((s.fab.pergs.get pgid).members.get (f + i)).present) ||
    s.launches.any fun p => p.2.alive && p.2.pergola && p.2.pgid == pgid &&
      decide (p.2.pgF < f + n) && decide (f < p.2.pgF + p.2.groups)

/-- The GANG row of R340, with R440. -/
def gangBad (n : Nat) (b : List Byte) (s : State) : Bool :=
  let q := s.queue n
  let cores := vdevCores q.vdev s
  let fl := bFlags b
  let g := bGroups b
  ((bitAt fl 0 || bitAt fl 3) && decide (g > cores)) || (!bitAt fl 0 && decide (bGang b > cores)) ||
    (bitAt fl 3 && (decide (g > 64) || match q.perg with
      | some (pgid, m, f) => pergClash pgid m f g s
      | none => false))

/-- The argument block of a LAUNCH: it must have a translation; what cannot be read for another reason is taken as
zeros (DESIGN CHOICE, log entry 11). -/
def launchArgs (k vdev space va : Nat) (s : State) : MRes (List Byte × List Bool) :=
  (reaches vdev space va s).bind fun _ s =>
    match readArgs k vdev space va s with
    | .ok a s => .ok a s
    | .wait s => .wait s
    | .held s | .trap _ _ s | .fault _ _ _ _ s => .ok (List.replicate 64 0, List.replicate 4 false) s

/-- The checks of R340 on the LAUNCH of a queue at an index, in their order: a status, or the image with the argument
block. -/
def launchCheck (n idx : Nat) (b : List Byte) (s : State) :
    MRes (Except Nat (Image × List Byte × List Bool)) :=
  let q := s.queue n
  let task := recTask n idx
  let v := q.vdev
  let sp := q.space
  let fl := bFlags b
  let bad (st : Nat) (s : State) : MRes (Except Nat (Image × List Byte × List Bool)) := .ok (.error st) s
  if badLaunch b q.perg.isSome then bad 2 s
  else if !q.right 49 then bad 3 s
  else
    let pin : Option Image := if bitAt fl 4 then
        ((s.vdev v).pinned.find? fun p => p.2.va == bImage b).map Prod.snd else none
    let img : MRes (Image × Bool) := match pin with
      | some i => .ok (i, true) s
      | none => readImage task v sp (bImage b) s
    let all : MRes ((Image × Bool) × List Byte × List Bool) :=
      img.bind fun im s => (launchArgs task v sp (bArgs b) s).bind fun a s =>
        let at_ (need : Bool) (va : Nat) (s : State) : MRes Unit := if need then reaches v sp va s else .ok () s
        (at_ (bRec b != 0) (bRec b) s).bind fun _ s =>
          (at_ (bitAt fl 1) (bShapeva b) s).bind fun _ s => .ok (im, a) s
    match all with
    | .wait s => .wait s
    | .held s => .held s
    | .trap _ _ s => bad 4 s
    | .fault _ _ _ _ s => bad 4 s
    | .ok ((im, ok), a) s =>
      let spec := bitAt fl 1
      let shape := if spec then im.rtva != 0 && im.rtva % 4096 == 0 && decide (im.slice ≥ 4096) else im.rtva == 0
      if !ok || !shape then bad 5 s
      else
        let r := if spec then
            regionOk v sp im.rtva im.slice (im.rtva + bGroups b * im.slice)
              (bGroups b * im.slice / 4096 + 1) im.rtva s
          else (true, s)
        if !r.1 then bad 4 r.2
        else if gangBad n b r.2 then bad 6 r.2
        else .ok (.ok (im, a)) r.2

/-! ### LAUNCH (R340, R345, R346, R354) -/

/-- R354: the predicted count. -/
def predictedCount (p : PredSlot) (nmax floor margin : Nat) : Nat :=
  let P : Nat := if !p.used then nmax
    else if p.conf ≥ 2 then ((p.last : Int) + p.stride).toNat else p.last
  min nmax (max floor (P + (P * margin + 7) / 8))

/-- The key under which a launch stands. -/
def launchKey (vdev id : Nat) : Nat := vdev * 2 ^ 32 + id

/-- R408: a channel 0 tag for a bulk launch that no live launch of the virtual device uses there, when channel 0 has a free
key. -/
def freeTag (v : Nat) (s : State) : Option Nat :=
  let keys := usedKeys 0 s
  let held (k : Nat) : Bool := keys.contains k || s.launches.any fun p => p.2.alive && p.2.bulk && p.2.key0 == k
  if keys.length ≥ 64 then none
  else (List.range 64).find? fun t => !held (keyOf 0 v (BitVec.ofNat 64 t))

/-- The groups of a launch that has started which must find cores before any of it, or of its tail, runs (R346, R365): their
number, and whether as a gang. -/
def LaunchSt.unplaced (l : LaunchSt) : Option (Nat × Bool) :=
  if !l.alive || l.killed || (l.bulk && l.faulted) then none
  else match l.nextGroup with
    | none => none
    | some g =>
      if g ≠ 0 && !(l.tailRun && g == l.predicted) then none
      else match l.gangSet with
        | some (a, b) => some (if l.ganged then (b - a, true) else (1, false))
        | none => none

/-- What waits for cores on a virtual device, each with its level and, of a launch that has started, its key: LAUNCHes at the
heads of queues, and launches or tails of which no group runs yet (R345, R346, R365). -/
def coreWaits (vdev : Nat) (s : State) : List (Nat × Nat × Nat × Bool) :=
  (s.queues.filterMap fun p =>
    if p.2.alive && p.2.vdev == vdev then (headCmd p.2).bind fun c => c.short.map fun x => (p.2.level, 0, x) else none) ++
  s.launches.filterMap fun p =>
    if p.2.vdev == vdev then p.2.unplaced.map fun x => (min 7 p.2.prio, p.1, x) else none

/-- A LAUNCH of rank `rank` at the head of queue n stands behind one that waits for cores: a LAUNCH before it, or a launch of a
lower level (R345). -/
def behindCores (n rank : Nat) (s : State) : Bool :=
  let q := s.queue n
  precedes n rank (fun c => c.short.isSome) s || s.launches.any fun p =>
    p.2.vdev == q.vdev && decide (p.2.prio < q.level) && match p.2.unplaced with
      | some (k, g) => !placeable p.1 q.vdev k g s
      | none => false

/-- It is held back: by one of these, or by another ready command that stands before it. -/
def heldBack (n rank : Nat) (s : State) : Bool := precedes n rank (fun _ => true) s || behindCores n rank s

/-- A command of another kind is held back by a ready command that stands before it, but not by a LAUNCH whose start has
been tried, which waits for cores or its image, or stands behind one that does (R345). -/
def heldOther (n rank : Nat) (s : State) : Bool := precedes n rank (fun c => bKind c.body != 1 || !c.tried) s

/-- The launch that a LAUNCH that has passed its checks becomes (R340, R354). -/
def newLaunch (n : Nat) (c : QCmd) (im : Image) (a : List Byte × List Bool) (id : Nat) (s : State) : LaunchSt :=
  let q := s.queue n
  let b := c.body
  let fl := bFlags b
  let spec := bitAt fl 1
  let pr := if spec then
      predictedCount ((s.vdev q.vdev).pslots.get (bPslot b)) (bGroups b) (bFloor b) (bMargin b)
    else bGroups b
  let pg := q.perg.getD (0, 0, 0)
  { (default : LaunchSt) with
    alive := true, vdev := q.vdev, q := n, idx := c.idx, id := id, space := q.space
    bulk := bitAt fl 0, spec := spec, migratable := bitAt fl 2, pergola := bitAt fl 3, noPreempt := bitAt fl 5
    prio := bPrio b, began := s.time, image := im, argva := bArgs b, args := a.1, argTags := a.2
    groups := bGroups b, floor := bFloor b, gang := bGang b
    shapeva := bShapeva b, shapeev := bShapeev b, pslot := bPslot b, predicted := pr
    pgid := pg.1, pgM := pg.2.1, pgF := pg.2.2 }

/-- The number of groups that must find cores before a launch starts. -/
def firstGang (l : LaunchSt) : Nat :=
  if l.bulk || l.pergola then l.predicted else min l.predicted (max 1 l.gang)

/-- The groups that a LAUNCH must place before it starts: their number, and whether as a gang. -/
def needOf (l : LaunchSt) : Nat × Bool := (firstGang l, l.ganged)

/-- The members of a pergola launch that has started are held for it, here and at the other devices (R440); those of groups
that it does not create at first wait for no core. -/
def claimMembers (l : LaunchSt) (s : State) : State :=
  let all (a b core : Nat) : List (Nat × Nat) := (rangeFrom a b).map fun g => (l.pgF + g, core)
  if l.pergola then tellMembers l true (all l.predicted l.groups goneCore) (tellMembers l false (all 0 l.predicted 0) s) else s

/-- A LAUNCH that has passed its checks starts, when its first gang has cores, a bulk launch has a tag,
and the shape event's list has a place. -/
def startLaunch (n : Nat) (c : QCmd) (im : Image) (a : List Byte × List Bool) (s : State) : State :=
  let q := s.queue n
  let v := s.vdev q.vdev
  let l := newLaunch n c im a v.nextId s
  let key := launchKey q.vdev l.id
  let need := needOf l
  let tag := if !placeable key q.vdev need.1 need.2 s then none else if l.bulk then freeTag q.vdev s else some 0
  let s := mapCmd n c.idx (fun c => { c with short := if tag.isSome then none else some need }) s
  match tag with
  | none => s
  | some tag =>
    let s' := s.setLaunch key { l with tag := tag }
    match (if l.spec then joinWaits q.vdev (.shape key) s' else some s') with
    | none => startEnds n c (statusRec 7) s
    | some s' =>
      let next := if v.nextId ≥ 0xFFFFFFFF then 1 else v.nextId + 1
      let s' := s'.setVdev q.vdev { s'.vdev q.vdev with nextId := next }
      let s' := mapCmd n c.idx (fun c => { c with launch := some key }) s'
      reachHead n (startCmd n c (ioDone (recTask n c.idx) (claimMembers l s')))

/-- R340: the oldest command of a queue, a LAUNCH or a command of no kind, starts; a LAUNCH behind one that waits for cores
waits for them with it (R345). -/
def execLaunch (n : Nat) (s : State) : Out :=
  let s := reachHead n (retryRecords n s)
  match readyHead n (fun k => k == 1 || k == 0 || decide (k > 4)) s with
  | none => .next s
  | some c =>
    if bKind c.body = 1 && behindCores n c.rank s then
      let need := needOf (newLaunch n c default ([], []) 0 s)
      .next (mapCmd n c.idx (fun c => { c with tried := true, short := some need }) s)
    else if (if bKind c.body = 1 then heldBack n c.rank s else heldOther n c.rank s) || quiesces (s.queue n).vdev s then .next s
    else
      let s := mapCmd n c.idx (fun c => { c with tried := true }) s
      match launchCheck n c.idx c.body s with
      | .wait s => .next s
      | .held s => .next s
      | .trap _ _ s => .next s
      | .fault _ _ _ _ s => .next s
      | .ok (.error st) s => .next (startEnds n c (statusRec st) (ioDone (recTask n c.idx) s))
      | .ok (.ok (im, a)) s => .next (startLaunch n c im a s)

/-! ### WAIT, SIGNAL, PRELOAD, QUEUE_AGE -/

/-- A command of a kind other than LAUNCH starts: its checks, then `f`. -/
def otherCmd (n kind right : Nat) (f : QCmd → State → State) (s : State) : Out :=
  let s := reachHead n (retryRecords n s)
  match readyHead n (fun k => k == kind) s with
  | none => .next s
  | some c =>
    let q := s.queue n
    if heldOther n c.rank s then .next s
    else if badOther c.body then .next (startEnds n c (statusRec 2) s)
    else if !q.right right then .next (startEnds n c (statusRec 3) s)
    else match (if bRec c.body = 0 then MRes.ok () s else reaches q.vdev q.space (bRec c.body) s) with
      | .ok _ s => .next (f c s)
      | .wait s | .held s => .next s
      | .trap _ _ s | .fault _ _ _ _ s => .next (startEnds n c (statusRec 4) s)

/-- R338. -/
def execWait (n : Nat) (s : State) : Out := otherCmd n 2 50 (fun c s => startEnds n c (statusRec 0) s) s
/-- R338, R343. -/
def execSignal (n : Nat) (s : State) : Out := otherCmd n 3 50 (fun c s => startEnds n c (statusRec 0) s) s

/-- R338, R339: a PRELOAD that has started reads its image, which is checked and held until the queue is destroyed. -/
def preloadRead (n : Nat) (s : State) (c : QCmd) : State :=
  let q := s.queue n
  match readImage (recTask n c.idx) q.vdev q.space (bImage c.body) s with
  | .wait s => s
  | .held s => s
  | .trap _ _ s => complete n c.idx (statusRec 4) (ioDone (recTask n c.idx) s)
  | .fault _ _ _ _ s => complete n c.idx (statusRec 4) (ioDone (recTask n c.idx) s)
  | .ok (im, ok) s =>
    let s := ioDone (recTask n c.idx) s
    if !ok then complete n c.idx (statusRec 5) s
    else
      let v := s.vdev q.vdev
      let others := v.pinned.filter fun p => p.1 ≠ n || p.2.va ≠ im.va
      complete n c.idx (statusRec 0) (s.setVdev q.vdev { v with pinned := (n, im) :: others })

/-- The PRELOADs of a queue that have started and not ended. -/
def preloading (q : Que) : List QCmd :=
  q.cmds.filter fun c => c.started && bKind c.body == 4 && c.result.isNone

/-- R338. -/
def execPreload (n : Nat) (s : State) : Out :=
  let s := if migrating (s.queue n).vdev s then s else (preloading (s.queue n)).foldl (preloadRead n) s
  otherCmd n 4 51 (fun c s => reachHead n (preloadRead n (startCmd n c s) c)) s

/-- R345: an age interval expires and a queue whose LAUNCH waits for cores rises one level. -/
def execQueueAge (n : Nat) (s : State) : Out :=
  let q := s.queue n
  match (if migrating q.vdev s then none else headCmd q) with
  | some c =>
    match c.ready with
    | some (_, t0) =>
      let k := min 7 (bPrio c.body) - q.level + 1
      if bKind c.body == 1 && c.short.isSome && q.age ≠ 0 && q.level > 0 && decide (t0 + k * q.age * 1900 ≤ s.time) then
        .next (putQueue n { q with level := q.level - 1 } s)
      else .next s
    | none => .next s
  | none => .next s

/-! ### Remote counts and the fault queue -/

/-- R378: the count of a remote TLB entry, the i-th entry of the list, goes to rcount. -/
def execRcountFlush (i : Nat) (s : State) : Out :=
  match s.tlb[i]? with
  | none => .next s
  | some t =>
    let s := flushCount t s
    .next { s with tlb := listSet s.tlb i { t with count := 0 } }

/-- The 32 bytes of a fault queue entry (R394). -/
def faultEntry (f : FaultRec) (seq : Nat) : List Byte :=
  let fw := f.source == 4
  leBytes 4 seq ++ leBytes 1 f.cause ++ leBytes 1 (if fw then 0xFF else f.ctx) ++
    leBytes 2 (if fw then 0xFFFF else f.core) ++ leBytes 8 f.va.toNat ++ leBytes 4 f.launch ++ leBytes 2 f.group ++
    leBytes 2 f.pc ++ leBytes 4 f.prog ++ leBytes 2 f.space ++ leBytes 1 f.source ++ leBytes 1 f.flags

/-- A physical range that firmware writes at an address given by the host. -/
def inHbm (a n : Nat) : Bool := decide (a + n ≤ hbmEnd)

/-- R439: notice FAULTS, at most once in 10 µs. -/
def noteFaults (vdev tail : Nat) (s : State) : State :=
  let v := s.vdev vdev
  if s.time < v.noteAt then s
  else notice 0x103 vdev (leBytes 8 tail) (s.setVdev vdev { v with noteAt := s.time + 19000 })

/-- R393: the oldest waiting fault of a virtual device is written to its fault queue when there is space;
`waiting` counts those that still wait. -/
def execFaultEntryWrite (vdev : Nat) (s : State) : Out :=
  let v := s.vdev vdev
  match (if migrating vdev s then none else v.fqBlock), v.fwait with
  | some a, f :: rest =>
    if !inHbm a 64 then .fault (.noMemory a)
    else
      let base := s.physNum a 8
      let entries := s.physNum (a + 8) 4
      let tail := s.physNum (a + 16) 8
      let head := s.physNum (a + 24) 8
      if tail - head ≥ entries then
        .next (s.physStore (a + 12) (leBytes 4 v.fwait.length))
      else
        let at_ := base + 32 * (tail % max 1 entries)
        if !inHbm at_ 32 then .fault (.noMemory at_)
        else
          let seq := tail % 2 ^ 32
          let s := s.physStore at_ (faultEntry f seq)
          let s := s.physStore (a + 12) (leBytes 4 rest.length)
          let s := s.physStore (a + 16) (leBytes 8 (tail + 1))
          let s := s.setVdev vdev { v with fwait := rest, fout := v.fout.put seq (some f) }
          .next (noteFaults vdev (tail + 1) s)
  | _, _ => .next s

end Sys2Proof.Machine
end

