-- ==== Sys2Proof/Machine/Group.lean ====
section
/-! DEFINITION. Groups: their start and end, the resolution of speculative launches with squash and tail
launches, saving and restoring, repair, and the release of barrier phases (R32 to R47, R351 to R367, R400
to R410, R466 to R469). -/

namespace Sys2Proof.Machine

/-! ### The start of a group (R21, R27 to R29, R32, R222, R407) -/

/-- The matrix engine at group start (R222, R63, R86, R301). -/
def Mx.start : Mx :=
  let one : List Byte := [0, 0, 0x80, 0x3F]
  { (default : Mx) with
    fctx := List.replicate 8 0 ++ one ++ one ++
      [0, 1, 2, 3, 4, 5, 6, 7, 0, 0xF9, 0xFA, 0xFB, 0xFC, 0xFD, 0xFE, 0xFF]
    t := 0x3F800000, prog := [0x31, 0, 0, 0, 0]
    masks := List.replicate 3 (BitVec.allOnes 32, BitVec.allOnes 64)
    mbScope := 7, nextSeq := 1, loss := one ++ one ++ one ++ [255, 0, 0, 0] }

/-- Context 0 at group start (R23, R32). -/
def Ctx.start (entry tvec : Nat) : Ctx :=
  { (default : Ctx) with
    live := true, pc := BitVec.ofNat 16 entry, tvec := BitVec.ofNat 64 tvec, guards := [(0, 0x7BFFF0000)] }

/-- The group of a launch as it starts (R356, R357). -/
def newGrp (key g : Nat) (l : LaunchSt) : Grp :=
  let done := l.spec && l.applied
  { launch := key, id := l.id, idx := g
    n := if done then l.resolved.getD l.predicted else l.predicted
    vdev := l.vdev, space := l.space, bulk := l.bulk, pergola := l.pergola
    res := done, isTail := l.tailRun && decide (g ≥ l.predicted)
    tent := l.spec && !l.applied && decide (g ≥ l.floor)
    rtva := BitVec.ofNat 64 l.image.rtva, slice := if l.spec then l.image.slice else 0
    entries := l.image.plan.length / 16, halted := false }

/-- The next core of the cluster of a core (R29). -/
def nextInCluster (core : Nat) : Nat := core / 4 * 4 + (core + 1) % 4

/-- A core as the Kiosk leaves it at group start, with the argument block given. -/
def startedCore (old : CoreSt) (core key g pdom : Nat) (l : LaunchSt) (a : List Byte × List Bool) : CoreSt :=
  let tags := ((List.range 4).zip a.2).filterMap fun p => if p.2 then some (p.1, true) else none
  { (default : CoreSt) with
    grp := some (newGrp key g l)
    ctxs := [(0, Ctx.start l.image.entry l.image.tvec)]
    lm := SMap.ofList 0 (a.1 ++ l.image.plan)
    ltag := tags
    istore := SMap.ofList 0 l.image.code
    mx := Mx.start
    ring := BitVec.ofNat 64 (nextInCluster core)
    plan := 0x40
    dom := ((if l.bulk then [(0, BitVec.ofNat 64 (256 + l.tag))] else []) : SMap DWord).put 15
      (BitVec.ofNat 64 (pdom * 2 ^ 16))
    rxIn := old.rxIn, xfers := old.xfers, sendBusy := old.sendBusy
    recvBusy := old.recvBusy }

/-- A group starts on a core. -/
def startGroup (key : Nat) (a : List Byte × List Bool) (s : State) (p : Nat × Nat) : State :=
  let l := s.launchOf key
  let s := s.setCore p.2 (startedCore (s.core p.2) p.2 key p.1 s.fab.pdom l a)
  setVshare p.2 (s.setLaunch key { l with gst := l.gst.put p.1 (.running p.2), started := true })

/-- What waits for cores on the virtual device of a launch at a level below its priority (R345, R346): a launch that has been
pre-empted goes on, in its saved groups and in those still to start, only when nothing does (DESIGN CHOICE, log entry 11). -/
def outranked (l : LaunchSt) (s : State) : Bool := (coreWaits l.vdev s).any fun p => decide (p.1 < l.prio)

/-- The launch has been pre-empted: a group of it is saved for it. -/
def preempted (key : Nat) (s : State) : Bool :=
  s.savedGroups.any fun p => match p.2 with | some v => v.launch == key && v.reason == 1 | none => false

/-- The groups that start together with their cores: a placed gang, or one group on one free core. -/
def startPairs (key g core : Nat) (s : State) : List (Nat × Nat) :=
  let l := s.launchOf key
  if !l.alive || l.killed || (l.bulk && l.faulted) || quiesces l.vdev s then []
  else if l.ganged then
    match l.gangSet with
    | some (a, b) =>
      let ps := (rangeFrom a b).zip l.reserved
      let all := !l.pergola || (List.range l.pgM).all fun i =>
        ((s.fab.pergs.get l.pgid).members.get i).placed
      if l.place = .committed && linksClear key s && ps.contains (g, core) && all &&
          l.reserved.all (fun k => !s.plat.absent.get k) then ps else []
    | none => []
  else if l.nextGroup = some g && vdevHas (s.vdev l.vdev) core && coreFree key core s &&
      !(preempted key s && outranked l s) then
    [(g, core)]
  else []

/-- R32, R38, R41: a group starts, with every group of its gang; the argument block is read with its tags
(R368), or as it was at the launch where it can no longer be read (DESIGN CHOICE, log entry 11). A plan that breaks a limit
completes the launch with BADIMAGE (R413). -/
def execGroupStart (key g core : Nat) (s : State) : Out :=
  let l := s.launchOf key
  match startPairs key g core s with
  | [] => .next s
  | ps =>
    if !planOk l.image.plan l.groups then
      .next (dropLinks key (s.setLaunch key { l with
        refused := 5, place := .none, asked := [], reserved := [], granted := [] }))
    else
    let task := 2 ^ 33 * 2 ^ 64 + key
    let go (a : List Byte × List Bool) (s : State) : Out :=
      let s := ps.foldl (startGroup key a) (ioDone task s)
      let l := s.launchOf key
      .next (s.setLaunch key { l with place := .none, asked := [], reserved := [], granted := [], cand := 0 })
    match readArgs task l.vdev l.space l.argva s with
    | .wait s => .next s
    | .ok a s => go a s
    | .held s => go (l.args, l.argTags) s
    | .trap _ _ s => go (l.args, l.argTags) s
    | .fault _ _ _ _ s => go (l.args, l.argTags) s

/-! ### The end of a group (R34, R442) -/

/-- The group of a core has ended: HALT completed, helpers ended, engine commands complete (R34). -/
def groupOver (c : CoreSt) : Bool :=
  c.grp.isSome && !c.saved && !((List.range 11).any fun i => (c.ctxs.get i).live) && c.mx.queue.isEmpty &&
    c.cp.queue.isEmpty

/-- R34, R199, R324, R442: a group ends, and its core is free at once, in a bulk launch too (R40; DESIGN CHOICE, log entry
31); a pergola member keeps its core while it is DETACHING, but no promise and no report. -/
def execGroupEnd (core : Nat) (s : State) : Out :=
  let c := s.core core
  match c.grp with
  | none => .next s
  | some g =>
    let l := s.launchOf g.launch
    if !groupOver c || (match l.gst.get g.idx with | .detaching _ => true | _ => false) then .next s
    else
      match pergOf core s with
      | none =>
        .next (freeCore core (s.setLaunch g.launch { l with gst := l.gst.put g.idx .ended, endT := s.time }))
      | some (pg, k) =>
        let s := s.setLaunch g.launch { l with gst := l.gst.put g.idx (.detaching core), endT := s.time }
        let s := dropKeysOf c (dropContributions c (s.setCore core
          { c with dom := [], chans := [], ctxs := [], mx := dropPromises c.mx }))
        .next (freeDetached pg (pergMark pg k 4 (setVshare core s)))

/-! ### Killing and completing a launch (R341, R366) -/

/-- The groups of a launch that are listed, with their states. -/
def LaunchSt.listed (l : LaunchSt) : List (Nat × GroupSt) := l.gst

/-- A group of a launch stopped, whatever it does. -/
def stopGroup (key cause : Nat) (s : State) (g : Nat) : State :=
  let l := s.launchOf key
  let mark (s : State) : State :=
    let l := s.launchOf key
    s.setLaunch key { l with gst := l.gst.put g (.terminated cause), endT := s.time }
  match l.gst.get g with
  | .running k => mark (freeCore k (match (s.core k).grp with | some x => departMember x s | none => s))
  | .detaching k => mark (freeCore k (match (s.core k).grp with | some x => departMember x s | none => s))
  | .saved slot =>
    let s := if l.pergola then memberGone l.pgid (l.pgF + g) s else s
    mark (dropSaved slot s)
  | _ => s

/-- A launch ends with status KILLED once every group has stopped (R341, R360, R447); every member of a pergola that it
has placed departs (R442). -/
def killLaunch (key : Nat) (s : State) : State :=
  let l := s.launchOf key
  let s := (l.gst.map Prod.fst).foldl (stopGroup key 0) s
  let mine (s : State) (i : Nat) : Member := (s.fab.pergs.get l.pgid).members.get (l.pgF + i)
  let s := if l.pergola then (List.range l.groups).foldl (fun s i =>
      if (mine s i).present && (mine s i).dev == s.fab.devid && !(mine s i).departed then memberGone l.pgid (l.pgF + i) s
      else s) s
    else s
  let l := s.launchOf key
  dropLinks key (s.setLaunch key { l with killed := true, asked := [], reserved := [], leaving := [], place := .none })

/-- Every group of a launch has ended, been terminated or been squashed. -/
def LaunchSt.allOver (l : LaunchSt) : Bool :=
  l.gst.all fun p => match p.2 with
    | .ended => true | .terminated _ => true | .squashed => true | _ => false

/-- A group of a launch was terminated, and the completion record says so (R39, R45, R362). -/
def LaunchSt.fault (l : LaunchSt) : Option (Nat × Nat) :=
  if l.bulk then (if l.faulted then some (l.cause, l.fgroup) else none)
  else (l.gst.filterMap fun p => match p.2 with | .terminated c => some (c, p.1) | _ => none).head?

/-- The launch is ready to complete (R366). -/
def launchOver (l : LaunchSt) : Bool :=
  l.alive && l.allOver &&
    (l.killed || l.refused ≠ 0 || (l.bulk && l.faulted && (!l.spec || l.applied)) ||
      (l.nextGroup.isNone && (!l.spec || (l.applied &&
        (l.tailRun || decide (l.resolved.getD 0 ≤ l.predicted))))))

/-- The completion record (R341, R366). A launch that ends KILLED before it is resolved, or before the resolution is
applied, has no group squashed, and actual is 0 before it is resolved (DESIGN CHOICE, log entry 11). -/
def launchRecord (l : LaunchSt) : List Byte :=
  if l.refused ≠ 0 && !l.killed then statusRec l.refused
  else
  let n := l.resolved.getD 0
  let f := if l.killed then none else l.fault
  let st := if l.killed then 8 else if f.isSome then 1 else 0
  let run := (l.gst.filter fun p => p.2 == .ended).length
  let fg := f.getD (0, 0)
  leBytes 1 st ++ leBytes 1 fg.1 ++ leBytes 2 fg.2 ++ leBytes 4 run ++
    leBytes 4 (if l.spec && l.applied then l.predicted - n else 0) ++ leBytes 4 (if l.spec then l.predicted else l.groups) ++
    leBytes 4 (if l.spec then n else l.groups) ++ leBytes 4 (if l.spec then n - l.predicted else 0) ++
    leBytes 8 (if l.ran then l.endT - l.startT else 0)

/-- Messages and transfers of a launch's groups are still on their way: their bytes are events of those groups (R290). -/
def launchOut (key : Nat) (s : State) : Bool :=
  goneOut key s || s.cores.any fun p => p.2.xfers.any (·.launch == key)

/-- R341, R290: Belvedere writes the completion record, after every event of the launch's groups, and the command
completes. -/
def execLaunchComplete (key : Nat) (s : State) : Out :=
  let l := s.launchOf key
  if !launchOver l || launchOut key s || migrating l.vdev s then .next s
  else match cmdAt l.q l.idx s with
    | some c =>
      if c.result.isSome then .next (tryRecord l.q l.idx s)
      else .next (complete l.q l.idx (launchRecord l) s)
    | none => .next (forgetLaunch key s)

/-! ### Resolution (R355, R360) -/

/-- R355: a predictor slot after a resolution to n. -/
def PredSlot.update (p : PredSlot) (n : Nat) : PredSlot :=
  if !p.used then { used := true, last := n, stride := 0, conf := 0 }
  else
    let d : Int := (n : Int) - p.last
    let x := max (-(2 ^ 31)) (min (2 ^ 31 - 1) d)
    { used := true, last := n, stride := x, conf := if x = p.stride then min 3 (p.conf + 1) else p.conf - 1 }

/-- A launch is resolved from a shape word (R360). -/
def resolveTo (key v : Nat) (s : State) : State :=
  let l := s.launchOf key
  let n := min l.groups (max l.floor v)
  let d := s.vdev l.vdev
  let s := s.setVdev l.vdev { d with pslots := d.pslots.put l.pslot ((d.pslots.get l.pslot).update n) }
  s.setLaunch key { s.launchOf key with resolved := some n, shapePark := .free }

/-- R360: the shape event has served the launch's wait, and Belvedere reads the shape word. -/
def execShapeResolve (key : Nat) (s : State) : Out :=
  let l := s.launchOf key
  if !l.alive || l.killed || migrating l.vdev s || !l.spec || !l.served || l.resolved.isSome || l.shapePark ≠ .free then .next s
  else
    let task := 2 ^ 34 * 2 ^ 64 + key
    match ioRead task l.vdev l.space l.shapeva 8 s with
    | .ok b s => .next (resolveTo key (leNat b) (ioDone task s))
    | .trap _ _ s => .next (resolveTo key 0 (ioDone task s))
    | .wait s => .next s
    | .held s => .next s
    | .fault c sub va acc s =>
      .next (ioFault (.shape key) l.vdev l.space l.id c sub acc va
        (s.setLaunch key { s.launchOf key with shapePark := .parked }))

/-! ### Retraction (R364) and invalidation -/

/-- Entries of TLBs dropped, their counts flushed (R378, R382). -/
def dropTlb (p : Tlb → Bool) (s : State) : State :=
  let gone := s.tlb.filter p
  gone.foldl (fun s t => flushCount t s) { s with tlb := s.tlb.filter fun t => !p t }

/-- An entry of a space maps a byte of a range. -/
def Tlb.inRange (t : Tlb) (vdev space va n : Nat) : Bool :=
  t.vdev == vdev && t.space == space && decide (t.page < va + n) && decide (va < t.page + 4096 * 2 ^ t.size)

/-- RD set in every entry of a page's group (R373, R364). -/
def setRD (l : Leaf) (s : State) : State :=
  let k := twSize l.word
  let g := 2 ^ (if k ≥ 9 then k - 9 else k)
  (List.range g).foldl (fun s i =>
    let a := l.entry + 16 * i
    s.physStore a [BitVec.ofNat 8 (s.physNum a 1 ||| 0x80)]) s

/-- The pages of a slice retracted, from an address; `fuel` bounds their number. -/
def retractFrom (root stop : Nat) : Nat → Nat → State → State
  | 0, _, s => s
  | fuel + 1, va, s =>
    if va ≥ stop then s
    else match walk s.mem root va with
      | .ok l => retractFrom root stop fuel (l.page + 4096 * 2 ^ twSize l.word) (setRD l s)
      | .error _ => retractFrom root stop fuel (va + 4096) s

/-- R364: slice g of a launch is retracted. -/
def retract (key g : Nat) (s : State) : State :=
  let l := s.launchOf key
  let va := l.image.rtva + g * l.image.slice
  let n := l.image.slice
  let s := retractFrom ((s.vdev l.vdev).spaces.get l.space).root (va + n) (n / 4096 + 1) va s
  dropTlb (fun t => t.inRange l.vdev l.space va n) s

/-! ### Squash and application (R361 to R363) -/

/-- R363: a group is squashed. -/
def squashGroup (key g core : Nat) (s : State) : State :=
  let s := squashCopies core (squashPromises core s)
  let s := freeCore core s
  let l := s.launchOf key
  retract key g (memberSquashed key g (s.setLaunch key { l with gst := l.gst.put g .squashed, endT := s.time }))

/-- A group becomes definite (R357, R362). -/
def CoreSt.definite (n : Nat) (c : CoreSt) : CoreSt :=
  { c with
    grp := c.grp.map fun g => { g with tent := false, res := true, n := n }
    ctxs := c.ctxs.map fun p => (p.1, { p.2 with held := false }) }

/-- R362 on one group of a launch resolved to n. -/
def applyOne (key n : Nat) (s : State) (p : Nat × GroupSt) : State :=
  let g := p.1
  let put (st : GroupSt) (s : State) : State :=
    let l := s.launchOf key
    s.setLaunch key { l with gst := l.gst.put g st }
  match p.2 with
  | .running k => if g < n then s.setCore k ((s.core k).definite n) else squashGroup key g k s
  | .detaching k => if g < n then s.setCore k ((s.core k).definite n)
    else retract key g (memberSquashed key g (put .squashed (freeCore k s)))
  | .saved slot =>
    if g < n then
      { s with savedGroups := s.savedGroups.put slot ((s.savedGroups.get slot).map fun v =>
          { v with img := v.img.definite n }) }
    else retract key g (memberSquashed key g (put .squashed (dropSaved slot s)))
  | .ended => if g < n then s else retract key g (memberSquashed key g (put .squashed s))
  | .terminated _ =>
    if g < n || (s.launchOf key).bulk then s else retract key g (put .squashed s)
  | _ => s

/-- R362: the resolution of a launch is applied to its groups. -/
def applyResolution (key : Nat) (s : State) : State :=
  let l := s.launchOf key
  match l.resolved with
  | none => s
  | some n =>
    let s := l.gst.foldl (applyOne key n) s
    s.setLaunch key { s.launchOf key with applied := true }

/-- The head of a core's copy queue is held in a tentative group (R275). -/
def cpHeld (core : Nat) (s : State) : Bool :=
  match (s.core core).cp.queue with
  | c :: _ =>
    c.begun && c.park == .free && (s.core core).tentative && (reqOf s (.copy core)).isNone &&
      (cpKind c.ins == 6 || cpKind c.ins == 3 || (match cpRoutes core c (c.buf.take 64), (cpSpans c (c.buf.take 64)).2 with
        | .ok rt, some sp => isHeld core rt.2 sp.1.toNat sp.2 s
        | _, _ => false))
  | [] => false

/-- The head of a core's matrix queue is held (R250). -/
def mxIsHeld (core : Nat) (s : State) : Bool :=
  match (mxOf s core).queue with
  | c :: _ => c.park == .free && mxHeld core c s
  | [] => false

/-- An STS element of a context is held (R359). -/
def streamHeld (w : Who) (s : State) : Bool :=
  match (s.ctx w).stream with
  | some t =>
    let a := t.ea + BitVec.ofInt 64 ((t.next : Int) * t.stride)
    t.store && t.park == .free && !((s.ctx w).q (2 + t.q.val)).isEmpty &&
      (match route w.core t.guards t.cap a (Width.bytes t.w) needW allKinds with
        | .ok rt => isHeld w.core rt a.toNat (Width.bytes t.w) s
        | .error _ => false)
  | none => false

/-- A full vector queue stands behind a held store or VAMO at its head (R359). -/
def vqHeld (core : Nat) (s : State) : Bool :=
  match (s.core core).vq with
  | v :: _ => (s.ctx v.who).held && (s.ctx v.who).vwait && decide ((s.core core).vq.length ≥ 8)
  | [] => false

/-- R361: a live context stands at a held action, or at a wait that only held work can end. -/
def ctxStuck (w : Who) (s : State) : Bool :=
  let c := s.ctx w
  let k := s.core w.core
  let mine (q : List Cmd) : Bool := q.any fun x => x.who == w
  let mxw := mxIsHeld w.core s && mine k.mx.queue
  let cpw := cpHeld w.core s && mine k.cp.queue
  let helper (x : Fin 16) : Bool := (k.ctxs.get (c.ia x).toNat).live
  if c.park ≠ .free then false
  else if c.held || (c.vwait && match k.vq with | v :: _ => (s.ctx v.who).held && (s.ctx v.who).vwait | [] => false) then true
  else match fetchAt k c c.pc with
    | .ok i _ =>
      match i with
      | .halt => streamHeld w s || (w.ctx == 0 && (rangeFrom 1 11).any fun h => (k.ctxs.get h).live)
      | .hend => streamHeld w s
      | .hjoin x => helper x
      | .hkill x => helper x
      | .mxwait => mxw
      | .cpwait => cpw
      | .fence o => o.eng && (mxw || cpw)
      | i => isVector i && vqHeld w.core s
    | .bad _ _ => false

/-- R361: a tentative group is stalled under R359. -/
def groupStalled (core : Nat) (s : State) : Bool :=
  let live := (List.range 11).filter fun i => (s.ctx ⟨core, i⟩).live
  (s.core core).tentative &&
    (mxIsHeld core s || cpHeld core s ||
      live.any fun i => (s.ctx ⟨core, i⟩).held || streamHeld ⟨core, i⟩ s) &&
    live.all fun i => ctxStuck ⟨core, i⟩ s

/-- A member has made its arrival for the superstep release that is to come, be it held from the tree or not (R297), and be
it made, as the second of two, in the compute phase (R202). -/
def arrivedForStep (c : CoreSt) (s : State) : Bool :=
  match c.key 0 with
  | some key =>
    let R := s.keys.get key
    decide ((c.chans.get 0).next.getD 0 > if c.barph.getLsbD 0 then R else R + 1)
  | none => false

/-- The saved groups of a launch, by slot. -/
def savedOf (key : Nat) (s : State) : List Nat :=
  s.savedGroups.filterMap fun p => match p.2 with
    | some v => if v.launch == key then some p.1 else none
    | none => none

/-- R361: a bulk launch's resolution is applied before the release, when every member that has not arrived
is tentative and stalled. A launch whose gang has not started, or is saved, waits. -/
def bulkStuck (key : Nat) (s : State) : Bool :=
  (s.launchOf key).nextGroup.isNone && (savedOf key s).isEmpty &&
    (coresOf key s).all fun k => !groupRuns k s || arrivedForStep (s.core k) s || groupStalled k s

/-- R361: the resolution of a launch is applied. -/
def execResolutionApply (key : Nat) (s : State) : Out :=
  let l := s.launchOf key
  if !l.alive || l.applied || l.resolved.isNone then .next s
  else if !l.bulk || bulkStuck key s then .next (applyResolution key s)
  else .next s

/-- R365: the tail launch starts. -/
def execTailLaunchStart (key : Nat) (s : State) : Out :=
  let l := s.launchOf key
  if !l.alive || !l.applied || l.tailRun || l.killed || (l.bulk && (l.faulted || !l.allOver)) ||
      decide (l.resolved.getD 0 ≤ l.predicted) then .next s
  else .next (s.setLaunch key { l with tailRun := true, place := .none, cand := 0 })

/-! ### Saving (R46, R47, R400 to R403) -/

/-- A launch belongs to a pergola with a member that is never pre-empted (R53). -/
def pergNoPre (l : LaunchSt) (s : State) : Bool :=
  let p := s.fab.pergs.get l.pgid
  l.pergola && (List.range p.m).any fun i => (p.members.get i).present && (p.members.get i).noPre

/-- R346: the launch that what waits for cores at the lowest level, and cannot be placed, pre-empts: of the greatest level,
the most recently started among equals. -/
def victim (vdev : Nat) (s : State) : Option Nat :=
  let waits := ((coreWaits vdev s).filter fun p => !placeable p.2.1 vdev p.2.2.1 p.2.2.2 s).map Prod.fst
  match waits with
  | [] => none
  | x :: rest =>
    let lv := rest.foldl min x
    let cs := s.launches.filter fun p => p.2.alive && p.2.vdev == vdev && decide (p.2.prio > lv) &&
      !p.2.noPreempt && !pergNoPre p.2 s && !p.2.killed &&
      p.2.gst.any fun g => match g.2 with | .running _ => true | _ => false
    let best := cs.foldl (fun b p => match b with
      | none => some p
      | some (x : Nat × LaunchSt) =>
        if p.2.prio > x.2.prio || (p.2.prio = x.2.prio && decide (p.2.began ≥ x.2.began)) then some p
        else some x) (none : Option (Nat × LaunchSt))
    best.map Prod.fst

/-- A launch is never pre-empted, and no group of it is saved. -/
def noSave (l : LaunchSt) (s : State) : Bool := l.noPreempt || pergNoPre l s

/-- The reason, other than a repair, for which the groups of a launch must be saved: 2 migration, 1 pre-emption. -/
def launchWants (key : Nat) (s : State) : Option Nat :=
  let l := s.launchOf key
  if noSave l s then none
  else if quiesces l.vdev s then some 2
  else if victim l.vdev s == some key || l.pgWant then some 1
  else none

/-- Why a group must be saved: 3 repair, 2 migration, 1 pre-emption. -/
def wantSave (core : Nat) (s : State) : Option Nat :=
  match (s.core core).grp with
  | none => none
  | some g =>
    match launchWants g.launch s with
    | some r => some r
    | none => if s.plat.retiring.get core && !noSave (s.launchOf g.launch) s then some 3 else none

/-- A core of a launch is to be saved for a repair alone (R468, R469). -/
def retiringHere (launch : Nat) (s : State) : Bool := (coresOf launch s).any fun k => wantSave k s == some 3

/-- A group of a launch is saved for a repair (R468). -/
def repairSaved (launch : Nat) (s : State) : Bool :=
  s.savedGroups.any fun p => match p.2 with | some v => v.launch == launch && v.reason == 3 | none => false

/-- A superstep release waits for the repair of a unit that a member runs on (R468). -/
def repairHolds (key : Nat) (s : State) : Bool :=
  endsSuperstep key s && (launchesOf key s).any fun l => retiringHere l s || repairSaved l s

/-- A context of a core has an open packet (R212). -/
def packetOpen (c : CoreSt) : Bool := c.ctxs.any fun p => p.2.packet.isSome

/-- R400, R402: the contexts of a core stop at their boundaries: a wait for a take is withdrawn, and what stands beyond the
boundaries is discarded; or they are let go. -/
def setHalted (b : Bool) (s : State) (core : Nat) : State :=
  let c := s.core core
  let s := s.setCore core { c with grp := c.grp.map fun g => { g with halted := b } }
  if !b then s
  else withdrawRemote (·.core == core)
    ((List.range 11).foldl (fun s i => flushCtx ⟨core, i⟩ (reachVm ⟨core, i⟩ (withdrawTake ⟨core, i⟩ s))) s)

/-- A begun command that lets a save go on: parked, held, or a CRALL that waits (R250, R274). -/
def cmdSettled (held : Bool) (q : List Cmd) : Bool :=
  match q with
  | [] => true
  | c :: _ => !c.begun || c.park != .free || held || (match c.ins with | .crall _ => true | _ => false)

/-- A group can be saved now (R402): its vector queue drained but for what stays with its context, its engines
settled, nothing of it on its way. -/
def saveReady (core : Nat) (s : State) : Bool :=
  let c := s.core core
  let vqOk := c.vq.all fun v => v.stays s
  let out := s.fab.reqs.any fun p => match p.2 with | some r => r.agent.core == core | none => false
  vqOk && !packetOpen c && cmdSettled (mxIsHeld core s) c.mx.queue && cmdSettled (cpHeld core s) c.cp.queue &&
    !out && !superstepOut core s

/-- The number that stands for the core of a saved group's parties. -/
def slotCore (slot : Nat) : Nat := 2 * goneCore + slot

/-- The core of a party changed. -/
def Party.move (a b : Nat) (p : Party) : Party :=
  let f (w : Who) : Who := if w.core = a then { w with core := b } else w
  match p with
  | .ctx w => .ctx (f w)
  | .stream w => .stream (f w)
  | .vector w => .vector (f w)
  | .matrix k => .matrix (if k = a then b else k)
  | .copy k => .copy (if k = a then b else k)
  | p => p

/-- The parties of a core of a virtual device renamed in every fault that waits, is outstanding or has been answered on a
command link. -/
def moveParties (vdev a b : Nat) (s : State) : State := renameFaults (Party.move a b) vdev s

/-- A deferred take on a saved core's word goes back to its requester, who repeats it (R401). -/
def sendBackTake (s : State) (t : Take) : State :=
  match t.pkt with
  | some p => reply p 0x40 [] s
  | none => s

/-- The issuing context of a core's contexts and commands renamed to another core. -/
def CoreSt.moved (a b : Nat) (c : CoreSt) : CoreSt :=
  let f (w : Who) : Who := if w.core = a then { w with core := b } else w
  let g (q : List Cmd) : List Cmd := q.map fun x => { x with who := f x.who }
  { c with
    vq := c.vq.map fun v => { v with who := f v.who }
    mx := { c.mx with queue := g c.mx.queue }
    cp := { c.cp with queue := g c.cp.queue } }

/-- R401, R402: the group of a core is saved with a reason, and the core is free. A repair moves one member of a pergola
and is no save of the pergola (R442, R468). One made for another reason on a core that is to be retired is the substitution's
too (R469). -/
def saveCore (core reason : Nat) (s : State) : State :=
  match (s.core core).grp with
  | none => s
  | some g =>
    let s := (s.core core).takes.foldl sendBackTake s
    let c := (s.core core).land
    let slot := s.stamp
    let img := { c with
      grp := some { g with halted := false }, takes := [], rxIn := [], xfers := [], mx := c.mx.saved
      ctxs := c.ctxs.map fun p => (p.1, { p.2 with yielded := [], planEnt := none }) }
    let l := s.launchOf g.launch
    let s := s.setCore core { c.freed with saved := true }
    let s := { s with
      stamp := s.stamp + 1
      savedGroups := s.savedGroups.put slot
        (some ⟨core, g.launch, g.idx, reason, img, none, decide (reason = 3) || s.plat.retiring.get core⟩) }
    let s := s.setLaunch g.launch { l with gst := l.gst.put g.idx (.saved slot) }
    let s := moveParties g.vdev core (slotCore slot) s
    if g.pergola && reason ≠ 3 then pergMark l.pgid (l.pgF + g.idx) 9 s else s

/-- The launches of a pergola on this device asked to be pre-empted. -/
def askPreempt (pgid : Nat) (s : State) : State :=
  { s with launches := s.launches.map fun p =>
      (p.1, if p.2.alive && p.2.pergola && p.2.pgid == pgid then { p.2 with pgWant := true } else p.2) }

/-- A pre-emption of a pergola reaches its other launches here, and the Belvederes of its other devices (R442; DESIGN CHOICE,
log entry 12: op 8). A repair concerns one core alone (R468). -/
def pergPreempt (g : Grp) (reason : Nat) (s : State) : State :=
  let l := s.launchOf g.launch
  if reason = 3 || !g.pergola || l.pgWant then s
  else askPreempt l.pgid (pergTell l.pgid [8, 0] s)

/-- A bulk launch stands at its superstep release, which waits for a repair (R468). -/
def atRepairPoint (core : Nat) (s : State) : Bool :=
  match (s.core core).key 0 with
  | some key => allArrived 0 key s && endsSuperstep key s
  | none => false

/-- The cores of this device that stop together with one: all of a bulk launch, or of a launch of a pergola, each launch of
which stops at its own point (R47, R53); a repair moves one core (R468). -/
def stopSet (core reason : Nat) (s : State) : List Nat :=
  match (s.core core).grp with
  | none => [core]
  | some g => if reason = 3 || !(g.bulk || g.pergola) then [core] else coresOf g.launch s

/-- The cores of this device that are saved together with one: all of a bulk launch, and the members of a pergola, but for a
repair (R47, R442, R468). -/
def saveSet (core reason : Nat) (s : State) : List Nat :=
  match (s.core core).grp with
  | none => [core]
  | some g =>
    let l := s.launchOf g.launch
    if reason = 3 || !(g.bulk || g.pergola) then [core]
    else s.cores.keys.filter fun k => match (s.core k).grp with
      | some h => h.launch == g.launch || (g.pergola && h.pergola && (s.launchOf h.launch).pgid == l.pgid)
      | none => false

/-- A member of a pergola on a core marked at every device, when the mark is new: that it has an open packet, or none, and
that it is stopped for a save, or goes on (R442; DESIGN CHOICE, log entry 12). -/
def tellMember (core : Nat) (s : State) : State :=
  match pergOf core s with
  | none => s
  | some (pg, k) =>
    let m (s : State) : Member := (s.fab.pergs.get pg).members.get k
    let o := packetOpen (s.core core)
    let r := (s.core core).halted && saveReady core s
    let s := if (m s).pkOpen == o then s else pergMark pg k (if o then 11 else 12) s
    if (m s).ready == r then s else pergMark pg k (if r then 13 else 14) s

/-- Nothing that is saved together with a core has an open packet, here or, of its pergola, on another device (R212,
R442). -/
def packetsShut (core reason : Nat) (s : State) : Bool :=
  !((saveSet core reason s).any fun k => packetOpen (s.core k)) && match if reason = 3 then none else pergOf core s with
    | none => true
    | some (pg, _) => (List.range (s.fab.pergs.get pg).m).all fun i =>
        let m := (s.fab.pergs.get pg).members.get i
        !m.pkOpen || m.departed || m.detaching || !m.runs

/-- Every member of a core's pergola on another device is ready for the save, or has been saved for it (R442). -/
def othersReady (core : Nat) (s : State) : Bool :=
  match pergOf core s with
  | none => true
  | some (pg, k) =>
    let p := s.fab.pergs.get pg
    (List.range p.m).all fun i =>
      let m := p.members.get i
      m.dev == s.fab.devid || m.departed || m.detaching || !m.runs || m.ready ||
        decide (m.saves > (p.members.get k).saves)

/-- The groups of a set that run, saved one after the other. -/
def saveAll (reason : Nat) (set : List Nat) (s : State) : State := set.foldl (fun s k => saveCore k reason s) s

/-- R402: a group is saved for pre-emption, migration or repair, a bulk launch or pergola whole. The contexts stop first; a
bulk launch's stop at a superstep release, but for a repair, which holds that release. Whatever no longer calls for the
save, or defers it (R212), lets them go on. -/
def execPreemptSave (core reason : Nat) (s : State) : Out :=
  match (s.core core).grp with
  | none => .next s
  | some g =>
    let set := saveSet core reason s
    let stop := stopSet core reason s
    let goOn (s : State) : State := if g.halted then stop.foldl (setHalted false) s else s
    let s := set.foldl (fun s k => tellMember k s) s
    if wantSave core s ≠ some reason || !packetsShut core reason s then
      .next (set.foldl (fun s k => tellMember k s)
        (goOn (if wantSave core s = some reason then pergPreempt g reason s else s)))
    else if g.halted then
      if set.all fun k => (s.core k).halted && saveReady k s then
        let s := set.foldl (fun s k => tellMember k s) s
        .next (if reason = 3 || othersReady core s then saveAll reason set s else s)
      else .next s
    else if g.bulk && (reason ≠ 3 || !atRepairPoint core s) then .next s
    else .next (stop.foldl (setHalted true) (pergPreempt g reason s))

/-! ### Restoring (R402, R442) -/

/-- A member of a pergola resumes on a core of a device: the table names where it now is (R441). -/
def moveMember (pgid k dev core : Nat) (s : State) : State :=
  let p := s.fab.pergs.get pgid
  let x := p.members.get k
  let m := { x with dev := dev, core := core, moving := false, ready := false, resumes := x.saves }
  { s with fab := { s.fab with pergs := s.fab.pergs.put pgid { p with members := p.members.put k m } } }

/-- The same here and, over PGCTL, at every device of the pergola (DESIGN CHOICE, log entry 12: op 6). -/
def reattach (pgid k core : Nat) (s : State) : State :=
  pergTell pgid ([BitVec.ofNat 8 6, BitVec.ofNat 8 k] ++ leBytes 2 core) (moveMember pgid k s.fab.devid core s)

/-- A saved group put on a core. -/
def restoreAt (slot core : Nat) (s : State) : State :=
  match s.savedGroups.get slot with
  | none => s
  | some v =>
    let old := s.core v.core
    let s := if v.core ≠ core && old.grp.isNone then s.setCore v.core { old with saved := false } else s
    let img := v.img.moved v.core core
    let here := s.core core
    let s := s.setCore core { img with
      saved := false, rxIn := here.rxIn, xfers := here.xfers, sendBusy := here.sendBusy, recvBusy := here.recvBusy
      vshare := here.vshare }
    let l := s.launchOf v.launch
    let s := s.setLaunch v.launch { l with
      gst := l.gst.put v.group (.running core), pgWant := false, reserved := l.reserved.filter (· ≠ core) }
    let s := { s with savedGroups := s.savedGroups.drop slot }
    let s := moveParties img.vdevNo (slotCore slot) core s
    if l.pergola then reattach l.pgid (l.pgF + v.group) core s else s

/-- R396: the groups that an answer TERMINATE named while they were saved are terminated, now that they are restored. -/
def terminateRestored (s : State) (p : Option Saved × Nat) : State :=
  match p.1.bind fun v => v.term with
  | some cause => terminateFor p.2 cause s
  | none => s

/-- Saved groups put on cores. -/
def restoreAll (l : List (Nat × Nat)) (s : State) : State :=
  let t := l.foldl (fun s p => restoreAt p.1 p.2 s) s
  (l.map fun p => (s.savedGroups.get p.1, p.2)).foldl terminateRestored t

/-- R47, R442: the members of a pergola resume together, none before every one has been saved: each that has not resumed
already has a core to resume on, or is moving to another device. -/
def pergSaved (v : Saved) (s : State) : Bool :=
  let l := s.launchOf v.launch
  let p := s.fab.pergs.get l.pgid
  let mine := (p.members.get (l.pgF + v.group)).saves
  !l.pergola || (List.range p.m).all fun i =>
    let m := p.members.get i
    m.departed || m.detaching || !m.runs || decide (m.resumes ≥ mine) ||
      (decide (m.saves ≥ mine) && (m.ready || m.moving))

/-- The cores kept for the saved groups of a pergola launch, and its members marked ready to resume, or not (R442; DESIGN CHOICE,
log entry 12: ops 13 and 14). -/
def keepCores (key : Nat) (cores : List Nat) (ready : Bool) (s : State) : State :=
  let l := s.launchOf key
  let s := s.setLaunch key { l with reserved := cores }
  (savedOf key s).foldl (fun s slot => match s.savedGroups.get slot with
    | some v => pergMark l.pgid (l.pgF + v.group) (if ready then 13 else 14) s
    | none => s) s

/-- The first n free cores of a virtual device for a launch, a given one first. -/
def freeFrom (key core n : Nat) (s : State) : List Nat :=
  let cs := ((vdevClusters (s.vdev (s.launchOf key).vdev)).flatMap fun cl => freeIn key cl s).filter (· ≠ core)
  (if coreFree key core s then core :: cs else cs).take n

/-- R469: a group whose save was a substitution's too comes back on the replacement, unless that is withheld (R467). -/
def Saved.homeOnly (v : Saved) (s : State) : Bool := v.repair && !s.plat.absent.get v.core

/-- Saved groups of a launch, with the cores they come back on: each that must on its own, the others on free cores, a given
one first. None when there are too few. -/
def restorePairs (key core : Nat) (slots : List Nat) (s : State) : Option (List (Nat × Nat)) :=
  let vs := slots.filterMap fun k => (s.savedGroups.get k).map fun v => (k, v)
  let home := (vs.filter fun p => p.2.homeOnly s).map fun p => (p.1, p.2.core)
  let rest := (vs.filter fun p => !p.2.homeOnly s).map Prod.fst
  let cores := (freeFrom key core slots.length s).filter fun k => !home.any fun h => h.2 == k
  if cores.length < rest.length || !home.all (fun h => coreFree key h.2 s) then none
  else some (home ++ rest.zip cores)

/-- A pergola launch's saved groups: its device keeps cores for them, and they resume once every other member can. -/
def restorePergola (v : Saved) (core : Nat) (s : State) : State :=
  let l := s.launchOf v.launch
  let slots := savedOf v.launch s
  if l.reserved.isEmpty then
    match (if outranked l s || (s.vdev l.vdev).moving || l.place != .none then none else restorePairs v.launch core slots s) with
    | some ps => keepCores v.launch (ps.map Prod.snd) true s
    | none => s
  else if !pergSaved v s then s
  else
    let kept := l.reserved.headD core
    match (if l.reserved.all fun k => coreFree v.launch k s then restorePairs v.launch kept slots s else none) with
    | some ps => restoreAll ps (s.setLaunch v.launch { l with reserved := [] })
    | none => keepCores v.launch [] false s

/-- R402: a saved group is restored on a core of its virtual device, a bulk or pergola launch's groups all
together, and a pre-empted one only when nothing of a lower level of its virtual device waits for cores (DESIGN CHOICE, log
entry 11). One saved for a repair comes back with its unit (R468); when that has been withheld, on another core, and to the
groups that wait for it (R467). -/
def execRestore (slot core : Nat) (s : State) : Out :=
  match s.savedGroups.get slot with
  | none => .next s
  | some v =>
    let l := s.launchOf v.launch
    let alone := v.reason = 3 && !(coresOf v.launch s).isEmpty
    if (v.reason = 3 && !s.plat.absent.get v.core) || !l.alive || !vdevHas (s.vdev l.vdev) core ||
        !coreFree v.launch core s then .next s
    else if alone then .next (restoreAll [(slot, core)] s)
    else if l.pergola then .next (if (coresOf v.launch s).isEmpty then restorePergola v core s else s)
    else if outranked l s || (s.vdev l.vdev).moving then .next s
    else
      let slots := if l.bulk then savedOf v.launch s else [slot]
      match (if l.bulk && !(coresOf v.launch s).isEmpty then none else restorePairs v.launch core slots s) with
      | some ps => .next (restoreAll ps s)
      | none => .next s

/-! ### Repair (R466 to R469) -/

/-- The physical core of a cluster that stands behind none of its logical cores. -/
def spareCore (cl : Nat) (s : State) : Nat :=
  let used := (List.range 4).map fun i => physCore (4 * cl + i) s
  ((List.range 5).find? fun p => !used.contains p).getD 4

/-- The physical clusters of a die that stood behind no logical cluster at manufacture. -/
def spareClusters (die : Nat) : List Nat :=
  (List.range 156).filter fun p => !(clusterPlaces die).contains p

/-- The number under which a cluster is a unit. -/
def clusterUnit (cl : Nat) : Nat := 2304 + cl

/-- The logical cores whose unit is replaced when a core is retired: the core, or its whole cluster once
the cluster has no spare core, or is itself the failing unit (R467). -/
def unitCores (core : Nat) (s : State) : List Nat :=
  if s.plat.coreSpareUsed.get (clusterOf core) || s.plat.retiring.get (clusterUnit (clusterOf core)) then
    (List.range 4).map fun i => core / 4 * 4 + i
  else [core]

/-- R439: notice RETIRED. -/
def noteRetired (kind core cluster quarter : Nat) (s : State) : State :=
  notice 0x100 0xFFFF (leBytes 1 kind ++ [0] ++ leBytes 2 core ++ leBytes 2 cluster ++ leBytes 2 quarter) s

/-- R467: the unit of a core is retired and replaced, in the order core, cluster, quarter. Of the spare clusters of a
die the one of the lowest physical number takes over (DESIGN CHOICE, log entry 26). -/
def replaceUnit (core : Nat) (s : State) : State :=
  let cl := clusterOf core
  let die := dieOf core
  let q := quarterOf core
  let p := s.plat
  let unit := unitCores core s
  let clear (m : SMap Bool) : SMap Bool := (clusterUnit cl :: unit).foldl (fun m k => m.put k false) m
  if !p.coreSpareUsed.get cl && !p.retiring.get (clusterUnit cl) then
    let s := { s with plat := { p with
      pcore := p.pcore.put core (1 + spareCore cl s), coreSpareUsed := p.coreSpareUsed.put cl true
      retiredCores := p.retiredCores + 1, retiring := clear p.retiring } }
    noteRetired 1 core cl q s
  else if p.clusterSpares.get die > 0 then
    let n := p.clusterSpares.get die
    let phys := (spareClusters die).getD (12 - n) 0
    let s := { s with plat := { p with
      pcluster := p.pcluster.put cl (1 + phys), clusterSpares := p.clusterSpares.put die (n - 1)
      coreSpareUsed := p.coreSpareUsed.put cl false
      pcore := unit.foldl (fun m k => m.put k 0) p.pcore
      retiredClusters := p.retiredClusters + 1, retiring := clear p.retiring } }
    noteRetired 2 0xFFFF cl q s
  else
    let s := { s with plat := { p with
      withheld := p.withheld ||| (1 <<< q), absent := unit.foldl (fun m k => m.put k true) p.absent
      retiredClusters := p.retiredClusters + 1, retiring := clear p.retiring } }
    noteRetired 3 0xFFFF cl q s

/-- The groups of repaired cores restored in their places; one whose core is absent waits for another (execRestore). Where a
pre-emption or migration has come meanwhile, the save is made for that too, and the group is not restored (R469). -/
def restoreRepaired (s : State) (k : Nat) : State :=
  (s.savedGroups.map Prod.fst).foldl (fun s slot =>
    match s.savedGroups.get slot with
    | some v =>
      if v.reason ≠ 3 || v.core ≠ k || s.plat.absent.get k then s
      else match launchWants v.launch s with
        | some r =>
          let l := s.launchOf v.launch
          let s := { s with savedGroups := s.savedGroups.put slot (some { v with reason := r }) }
          if l.pergola then pergMark l.pgid (l.pgF + v.group) 9 s else s
        | none => restoreAll [(slot, k)] s
    | none => s) s

/-- R468: the unit of a core that must be retired is replaced once no group runs on it, and the groups saved
for it are restored on the replacement. -/
def execRepairSubstitution (core : Nat) (s : State) : Out :=
  let unit := unitCores core s
  if !s.plat.retiring.get core || unit.any (fun k => (s.core k).grp.isSome || reservedElse 0 k s) then .next s
  else .next (unit.foldl restoreRepaired (replaceUnit core s))

/-- A group runs on a core, has been saved from it, or has been granted it. -/
def unitHeld (k : Nat) (s : State) : Bool := (s.core k).grp.isSome || (s.core k).saved || reservedElse 0 k s

/-- The first core of a unit: a core, or, from 2,304 on, a cluster (R467). -/
def unitCore (unit : Nat) : Nat := if unit < 2304 then unit else 4 * (unit - 2304)

/-- A unit, a core or a cluster, is to be retired: at once when no group holds it, else at the groups' next saves (R467,
R468). -/
def retireUnit (unit : Nat) (s : State) : State :=
  let core := unitCore unit
  if s.plat.absent.get core then s
  else
    let s := if unit < 2304 then s else { s with plat := { s.plat with retiring := s.plat.retiring.put unit true } }
    let cores := unitCores core s
    if cores.any fun k => unitHeld k s then
      { s with plat := { s.plat with retiring := cores.foldl (fun m k => m.put k true) s.plat.retiring } }
    else replaceUnit core s

/-! ### Releases (R409 to R412, R361, R47) -/

/-- What a superstep release does to a bulk launch: the resolution is applied, and a pre-emption stops the contexts of
its whole domain; the other launches of a pergola stop at their own points (R47, R53). -/
def superstepPoint (s : State) (key : Nat) : State :=
  let l := s.launchOf key
  let s := if l.resolved.isSome && !l.applied then applyResolution key s else s
  match (coresOf key s).find? fun k => match wantSave k s with | some r => r ≠ 3 | none => false with
  | none => s
  | some k =>
    if !packetsShut k 1 s then s
    else
      let s := match (s.core k).grp with | some g => pergPreempt g 1 s | none => s
      (coresOf key s).foldl (setHalted true) s

/-- R409, R410: a phase of the channel of a core is released when every member has arrived. -/
def execBarrierRelease (core : Nat) (n : Fin 16) (s : State) : Out :=
  match (s.core core).key n.val with
  | none => .next s
  | some key =>
    if !allArrived n.val key s then .next s
    else if n.val = 15 then .next (podAdvance key s)
    else if n.val = 0 && (repairHolds key s || releaseHeld key s) then .next s
    else
      let ends := n.val == 0 && endsSuperstep key s
      let ls := launchesOf key s
      let s := releaseKey n.val key s
      .next (if ends then ls.foldl superstepPoint s else s)

end Sys2Proof.Machine
end

