-- ==== Sys2Proof/Machine/Fabric.lean ====
section
/-! DEFINITION. Trellis packets at a port of this device: remote accesses, messages, wake writes, answers,
barriers of channel 15, pergola coordination, and the ports themselves (R384, R424 to R434, R441). -/

namespace Sys2Proof.Machine

/-! ### Receiving (R427, R429) -/

/-- R429: the checksums of a packet match. -/
def crcOk (p : Packet) : Bool := p.pcrc == crc32c p.payload && p.hcrc == crc32c (headerBytes p)

/-- A packet of a type on the class it may have, with the fields marked 0 for its type 0 (R426, R427). -/
def packetOk (p : Packet) (typ : Nat) : Bool :=
  let cas := typ == 3 && bitAt p.scause.toNat 7
  decide (p.port < 12) && p.typ == typ && decide (p.len ≤ 2048) &&
    (if typ == 1 || typ == 2 then p.cls == 2 || p.cls == 3
     else if typ == 4 then p.cls == 1
     else if typ == 0x10 then decide (p.cls ≤ 3)
     else if typ ≥ 0x30 then p.cls == 3
     else if typ ≥ 0x20 then p.cls == 0 else p.cls == 2) &&
    (p.payload.length == (if typ == 1 then 0 else p.len)) &&
    p.hres == 0 && p.dres == 0 && p.sres == 0 && p.mres == 0 && (cas || p.op1 == 0) &&
    (typ == 3 || p.sflags == 0) && (typ == 3 || typ == 0x10 || p.scause == 0)

/-- The types that R427 lists. -/
def listedType (typ : Nat) : Bool := [1, 2, 3, 4, 5, 6, 0x10, 0x20, 0x21, 0x22, 0x30, 0x31].contains typ

/-- A packet is taken from its port by the event of a type. A down port receives nothing; a packet whose checksums do not
match is discarded, to be sent again (R429); one that does not stand next in its class has been received before, or
follows one that was discarded; one of another listed type is received by its own event; any other, or one of another
form, is discarded and counted (R427). -/
def receive (p : Packet) (typ : Nat) (s : State) (k : State → Out) : Out :=
  let q := s.fab.ports.get p.port
  let put (x : Port) : State := { s with fab := { s.fab with ports := s.fab.ports.put p.port x } }
  let q' : Port := { q with expect := q.expect.put p.cls ((p.lseq + 1) % 65536) }
  if q.down || !crcOk p || q.expect.get p.cls ≠ p.lseq || (p.typ ≠ typ && listedType p.typ) then .next s
  else if !packetOk p typ then .next (put { q' with discarded := q.discarded + 1 })
  else k (put q')

/-- An answer MOVED (R428): the new device and virtual device stand in op0. -/
def replyMoved (p : Packet) (dev vdev : Nat) (s : State) : State :=
  sendPkt { p with
    typ := 0x10, ddev := p.sdev, sdev := s.fab.devid, scause := 0x41, sflags := 0, replay := false
    len := 0, payload := [], op0 := BitVec.ofNat 64 (dev + vdev * 65536), op1 := 0 } s

/-! ### Remote accesses (R384, R432, R433) -/

/-- The tags of the granules travel with the bytes of a READ or WRITE (R124, R368; DESIGN CHOICE, log entry 12). -/
def pktTags (p : Packet) : Bool := (p.typ == 1 || (p.typ == 2 && p.len == 17)) && bitAt p.op0.toNat 0
/-- The tag that a WRITE sets. -/
def pktTag (p : Packet) : Bool := pktTags p && p.payload.getD 16 0 != 0
/-- The access code of a packet. -/
def pktAcc (p : Packet) : Acc :=
  match p.typ with | 1 => .rd | 2 => if pktTag p then .tagged else .wr | _ => .at
/-- The bytes an access of a packet covers. -/
def pktBytes (p : Packet) : Nat :=
  if p.typ = 3 then (if p.sflags == 3 then 8 else 4)
  else if p.typ = 2 && pktTags p then 16 else p.len

/-- The new value of an atomic, none for no write: an AMO, or a CAS, which bit 7 of scause marks (log entry
12). -/
def pktAtomic (p : Packet) (old : Nat) : Option Nat :=
  let n := pktBytes p
  let q := p.scause.toNat
  let a := p.op0.toNat % 2 ^ (8 * n)
  let b := p.op1.toNat % 2 ^ (8 * n)
  if bitAt q 7 then (if old = a then some b else none)
  else
    let op : AmoOp := match q % 16 with
      | 0 => .add | 1 => .and | 2 => .or | 3 => .xor | 4 => .min | 5 => .max | 6 => .minz | 7 => .maxz | _ => .swap
    some (amoVal op n old a)

/-- The writer of a wake write that a packet makes: a virtual device of the pod, or a host. -/
def pktWriter (p : Packet) : Option Nat := if p.svdev = 0xFFFF then none else some p.svdev

/-- A physical range and the leaf word of its page. -/
structure Range where
  pa : Nat
  n : Nat
  word : Nat

/-- The bytes of physical ranges in order; those of the wake window are zeros (R434). -/
def physBytes (s : State) (l : List Range) : List Byte :=
  l.flatMap fun x => if x.pa ≥ wakeBase then List.replicate x.n 0 else SMap.getRange (α := Byte) s.mem x.pa x.n

/-- The tags of the granules of physical ranges in order, clear in a page with T = 0. -/
def physTags (s : State) (l : List Range) : List Byte :=
  l.flatMap fun x => if twBit x.word 4 then tagBytes s x.pa (x.n / 16) else List.replicate (x.n / 16) 0

/-- Bytes stored to physical ranges in order; those of the wake window are discarded. -/
def storeBytes : List Range → List Byte → State → State
  | [], _, s => s
  | x :: t, b, s => storeBytes t (b.drop x.n) (if x.pa ≥ wakeBase then s else s.physStore x.pa (b.take x.n))

/-- An access performed on the physical ranges its pages map, and answered (R124, R293, R330, R434). -/
def performPhys (p : Packet) (l : List Range) (s : State) : State :=
  let n := pktBytes p
  let pa := match l with | [] => 0 | x :: _ => x.pa
  if p.typ = 1 then reply p 0 (physBytes s l ++ (if pktTags p then physTags s l else [])) s
  else if p.typ = 2 then
    if decide (pa ≥ wakeBase) && n = 64 && pa % 64 == 0 then reply p 0 [] (wakeOp (pktWriter p) p.payload s)
    else
      let s := storeBytes l p.payload s
      reply p 0 [] (if pktTag p && decide (pa < wakeBase) then { s with mtag := s.mtag.put (pa / 16) true } else s)
  else
    let old := leNat (physBytes s l)
    let s := match pktAtomic p old with
      | some v => storeBytes l (leBytes n v) s
      | none => s
    reply p 0 (leBytes n old) s

/-- R378: a remote TLB entry counts an access, and is flushed at 256. -/
def countAccess (p : Packet) (vdev space gen va : Nat) (s : State) : State :=
  let up (t : Tlb) : Tlb :=
    if t.hits (.port p.port) vdev space gen va then { t with count := t.count + 1, lastreq := p.svdev } else t
  let s := { s with tlb := s.tlb.map up }
  match s.tlb.find? fun t => t.hits (.port p.port) vdev space gen va with
  | some t =>
    if t.count < 256 then s
    else
      let s := flushCount t s
      { s with tlb := s.tlb.map fun u => if u == t then { u with count := 0 } else u }
  | none => s

/-- The exported space of a virtual device (R369). -/
def exportedSpace (v : VDev) : Option Nat :=
  (v.spaces.find? fun p => p.2.exported && p.2.st != .absent).map Prod.fst

/-- The parts of an access of at most 2,048 bytes that lie in 4 KiB each: one or two. -/
def portPieces (va n : Nat) : List (Nat × Nat) :=
  let k := 4096 - va % 4096
  if n ≤ k then [(va, n)] else [(va, k), ((va + k) % 2 ^ 64, n - k)]

/-- An access at a port asks for a page that is being moved from a residue (R445). -/
def isFrozen (p : Packet) (vdev space : Nat) (s : State) : Bool :=
  match (s.fab.residues.get vdev).frozen with
  | some g => g.space == space && (portPieces p.addr.toNat (pktBytes p)).any fun x =>
      decide (g.page < x.1 + x.2) && decide (x.1 < g.page + 4096 * 2 ^ twSize g.word.toNat)
  | none => false

/-- What the parts of an access translate to: the physical ranges, or what the first part that has none meets,
with its address. -/
def portRanges (p : Packet) (vdev space : Nat) :
    List (Nat × Nat) → State → Except (XRes × Nat) (List Range) × State
  | [], s => (.ok [], s)
  | (va, n) :: t, s =>
    match translate (.port p.port) vdev space va (pktAcc p) s with
    | .phys pa e s =>
      (match portRanges p vdev space t s with
        | (.ok l, s) => (.ok (⟨pa, n, e⟩ :: l), s)
        | r => r)
    | .fault c sub s => (.error (.fault c sub s, va), s)
    | .forward o e s => (.error (.forward o e s, va), s)

/-- Each page of an access counted once (R378). -/
def countPieces (p : Packet) (vdev space gen : Nat) (l : List (Nat × Nat)) (s : State) : State :=
  match l with
  | [] => s
  | [(va, _)] => countAccess p vdev space gen va s
  | (va, _) :: (vb, _) :: _ =>
    let one := s.tlb.any fun t => t.hits (.port p.port) vdev space gen va && t.hits (.port p.port) vdev space gen vb
    let s := countAccess p vdev space gen va s
    if one then s else countAccess p vdev space gen vb s

/-- An access translated at the port in a space of a virtual device or residue held here (R384). One that meets a fault is
held, and the accesses of its class at the port wait behind it (R395); one for a page that is being moved waits for that
(R445). -/
def portTranslate (p : Packet) (vdev space : Nat) (s : State) : State :=
  let gen := ((s.vdev vdev).spaces.get space).gen
  let l := portPieces p.addr.toNat (pktBytes p)
  let r := s.fab.residues.get vdev
  if isFrozen p vdev space s then
    { s with fab := { s.fab with residues := s.fab.residues.put vdev { r with waiting := r.waiting ++ [p] } } }
  else match portRanges p vdev space l s with
  | (.ok ranges, s) => performPhys p ranges (countPieces p vdev space gen l s)
  | (.error (.phys _ _ _, _), s) => s
  | (.error (.fault 0x12 _ _, _), s) => reply p 0x12 [] s
  | (.error (.fault 0x11 _ _, _), s) => reply p 0x11 [] s
  | (.error (.fault c sub _, va), s) =>
    let q := s.fab.ports.get p.port
    let s := { s with fab := { s.fab with ports := s.fab.ports.put p.port { q with stuck := q.stuck.put p.cls true } } }
    addFault vdev { party := .port p, cause := c, ctx := 0, core := 0, va := BitVec.ofNat 64 va, launch := 0
                    group := 0, pc := 0, prog := 0, space := space, source := 4
                    flags := sub + 16 * (pktAcc p).code + 64 } s
  | (.error (.forward owner _ _, _), s) =>
    let d := ((s.fab.ports.get p.port).peers.get owner) % 4096
    replyMoved p d owner s

/-! ### Window accesses (R26, R441; DESIGN CHOICE, log entry 12) -/

/-- The full/empty operation of a packet, form in sflags, at an owner on this device. -/
def portFe (p : Packet) (k off : Nat) (s : State) : State :=
  let done (r : MRes DWord) : State := match r with
    | .ok v s => reply p 0 (leBytes 8 v.toNat) s
    | .trap 0x0A _ s => reply p 0x0A [] s
    | .trap _ _ s => reply p 0x18 [] s
    | .fault _ _ _ _ s => s
    | .wait s => s
    | .held s => s
  match p.sflags.toNat with
  | 0 =>
    if !isFull k off s && decide ((s.core k).takes.length ≥ 16) then
      reply p 0x40 [] (s.setCore k { s.core k with ferefuse := satInc32 (s.core k).ferefuse })
    else done (takeAt ⟨⟨goneCore, 0⟩, some p, p.addr.toNat, true⟩ k off s)
  | 1 => done ((putAt p.addr p.op0 k off s).bind fun _ s => .ok 0 s)
  | 2 => done (.ok (if isFull k off s then 1 else 0) s)
  | _ => done ((initAt p.op0 k off s).bind fun _ s => .ok 0 s)

/-- What an access of a packet needs at a window. -/
def pktNeed (p : Packet) : Need :=
  if p.typ = 1 then needR else if p.typ = 2 then needW
  else if bitAt p.scause.toNat 6 then (if p.sflags == 2 then needPeek else needFE) else needA

/-- An access to a pergola member on this device: the pergola in space, the member and offset in addr. -/
def portWindow (p : Packet) (s : State) : State :=
  let b := bitsOf p.addr.toNat 27 16
  let off := bitsOf p.addr.toNat 15 0
  let m := (s.fab.pergs.get p.space).members.get b
  let k := m.core
  let c := s.core k
  let n := if p.typ = 3 && bitAt p.scause.toNat 6 then 8 else pktBytes p
  if m.departed || !m.present then reply p 0x42 [] s
  else if m.moving || c.saved || !holdsMember p.space b k s then reply p 0x40 [] s
  else match c.grp with
    | none => reply p 0x42 [] s
    | some _ =>
      if !windowOk s k ⟨p.sdev, p.score, p.svdev⟩ off n (pktNeed p) then reply p 0x18 [] (refuseAt k s)
      else if p.typ = 1 then
        reply p 0 (c.lm.getRange off n ++ (if pktTags p then (List.range (n / 16)).map fun i =>
          if c.ltag.get (off / 16 + i) then 1 else 0 else [])) s
      else if p.typ = 2 then
        let c := c.store off (p.payload.take n)
        reply p 0 [] (s.setCore k (if pktTag p then { c with ltag := c.ltag.put (off / 16) true } else c))
      else if bitAt p.scause.toNat 6 then portFe p k off s
      else
        let old := c.num off n
        let s := match pktAtomic p old with
          | some v => s.setCore k (c.store off (leBytes n v))
          | none => s
        reply p 0 (leBytes n old) s

/-- Migration state of a virtual device has been taken here, and its commit has not come (R443). -/
def arrivingHere (v : Nat) (s : State) : Bool := (s.fab.arriving.get v).quarters != 0

/-- R384, R431, R432, R443: a remote access at a port. A request that names a space is admitted for a residue, and, sent
again after MOVED, for the virtual device that makes it, or Belvedere for it, whose page has moved here (R445, R448; DESIGN
CHOICE, log entry 16). A space that is absent translates nothing (R386), nor does one that is closing (R385). -/
def portAccess (p : Packet) (s : State) : State :=
  let v := s.vdev p.tvdev
  let r := s.fab.residues.get p.tvdev
  if s.fab.movedTo.get p.tvdev ≠ 0 then replyMoved p (s.fab.movedTo.get p.tvdev - 1) p.tvdev s
  else if v.alive && migrating p.tvdev s then reply p 0x40 [] s
  else if !v.alive && !r.held then reply p (if arrivingHere p.tvdev s then 0x40 else 0x19) [] s
  else if v.alive && pktWindow p then portWindow p s
  else
    match (if p.space = 0xFFFF then exportedSpace v
      else if r.held || (p.replay && (p.svdev = p.tvdev || p.svdev = 0xFFFF)) then some p.space else none) with
    | some sp => if (v.spaces.get sp).st == .opened then portTranslate p p.tvdev sp s else reply p 0x10 [] s
    | none => reply p 0x10 [] s

/-- An access at a port performed, or put behind one of its class that is held for a fault (R395). -/
def portQueue (p : Packet) (s : State) : State :=
  let q := s.fab.ports.get p.port
  if q.stuck.get p.cls then
    { s with fab := { s.fab with ports := s.fab.ports.put p.port { q with behind := q.behind ++ [p] } } }
  else portAccess p s

/-- The accesses behind one that is no longer held go on in their order. -/
def portGoOn (p : Packet) (s : State) : State :=
  let q := s.fab.ports.get p.port
  let s := { s with fab := { s.fab with ports := s.fab.ports.put p.port { q with behind := [] } } }
  q.behind.foldl (fun s x => portQueue x s) s

/-- The class of a held access is free again. -/
def portFree (p : Packet) (s : State) : State :=
  let q := s.fab.ports.get p.port
  { s with fab := { s.fab with ports := s.fab.ports.put p.port { q with stuck := q.stuck.put p.cls false } } }

/-- R384. -/
def execRead (p : Packet) (s : State) : Out := receive p 1 s fun s => .next (portQueue p s)
/-- R384. -/
def execWrite (p : Packet) (s : State) : Out := receive p 2 s fun s => .next (portQueue p s)

/-- R219: a take of a Trellis sender withdrawn: the owner that still lists it answers it MOVING; one that has
served it has answered it. -/
def withdrawAt (p : Packet) (s : State) : State :=
  let mine (t : Take) : Bool := match t.pkt with
    | some q => q.sdev == p.sdev && q.reqid == p.op0.toNat && q.score == p.score
    | none => false
  let found := s.cores.flatMap fun k => k.2.takes.filter mine
  let s := s.mapCores fun _ c => { c with takes := c.takes.filter fun t => !mine t }
  found.foldl (fun s t => match t.pkt with | some q => reply q 0x40 [] s | none => s) s

/-- R433: an ATOMIC that has been performed is answered with the kept answer. -/
def execAtomic (p : Packet) (s : State) : Out :=
  receive p 3 s fun s =>
    let q := s.fab.ports.get p.port
    if bitAt p.scause.toNat 6 && p.sflags == 4 then .next (withdrawAt p s)
    else match q.kept.find? fun k =>
      k.sdev == p.sdev && k.score == p.score && k.sctx == p.sctx && k.reqid == p.reqid with
    | some k => .next (sendPkt { p with
        typ := 0x10, ddev := p.sdev, sdev := s.fab.devid, scause := 0, sflags := 0, replay := false
        len := k.data.length, payload := k.data, op0 := 0, op1 := 0 } s)
    | none => .next (portQueue p s)

/-! ### Messages and wake writes (R209, R330, R427, R434) -/

/-- R427, R209: a message goes to the core that its destination word, in addr, names. -/
def execMsg (p : Packet) (s : State) : Out :=
  receive p 4 s fun s =>
    let k := bitsOf p.addr.toNat 11 0
    if p.len < 8 || p.len % 8 ≠ 0 || !destOk p.addr then .next (reply p 0x19 [] s)
    else if s.fab.movedTo.get p.tvdev ≠ 0 then
      .next (replyMoved p (s.fab.movedTo.get p.tvdev - 1) p.tvdev s)
    else if !(s.vdev p.tvdev).alive then .next (reply p (if arrivingHere p.tvdev s then 0x40 else 0x19) [] s)
    else if migrating p.tvdev s then .next (reply p 0x40 [] s)
    else
      let m : Message := ⟨⟨goneCore, 0⟩, some p, p.addr, p.op0 == 1, p.score, p.svdev, p.payload⟩
      .next (s.setCore k { s.core k with rxIn := (s.core k).rxIn ++ [m] })

/-- R330, R434: a WAKE packet; what is no wake write has no effect. One for a queue whose virtual device, in its capability, is
moving or has moved is answered MOVING or MOVED (R443, R448). -/
def execWake (p : Packet) (s : State) : Out :=
  receive p 5 s fun s =>
    let a := p.addr.toNat
    let ok := p.len == 64 && decide (wakeBase ≤ a) && decide (a < wakeBase + 4096) && a % 64 == 0
    let q := s.queue (bitsOf (bodyF p.payload 8 8) 47 32)
    let v := if q.alive then q.vdev else bitsOf (bodyF p.payload 16 8) 15 0
    if ok && migrating v s then .next (reply p 0x40 [] s)
    else if ok && !q.alive && s.fab.movedTo.get v ≠ 0 then .next (replyMoved p (s.fab.movedTo.get v - 1) v s)
    else .next (reply p 0 [] (if ok then wakeOp (pktWriter p) p.payload s else s))

/-! ### Answers (R428, R444) -/

/-- An answer to a request of this device, with MOVED and MOVING acted on by the port. -/
def answered (id : Nat) (r : Req) (p : Packet) (s : State) : State :=
  let st := p.scause.toNat
  if r.pkt.typ = 0x30 then endReq id r st p.payload s
  else if r.withdrawn && (st = 0x40 || st = 0x41) then setReq id none s
  else if st = 0x40 then setReq id (some { r with moving := true }) s
  else if st = 0x41 then
    let dev := p.op0.toNat % 4096
    let v := bitsOf p.op0.toNat 31 16
    let s := if v = r.pkt.tvdev then
        setPeer p.port v (0x8000 + dev) (setPeer (Config.peerPort v).val v (0x8000 + dev) s) else s
    resendReq id { r with pkt := { r.pkt with replay := true, ddev := dev, tvdev := v } } s
  else endReq id r st p.payload s

/-- R428: an answer to a request of this device. -/
def execAnswer (p : Packet) (s : State) : Out :=
  receive p 0x10 s fun s =>
    match s.fab.reqs.get p.reqid with
    | none => .next s
    | some r =>
      if r.answer.isSome || r.pkt.ddev ≠ p.sdev then .next s
      else .next (answered p.reqid r p s)

/-! ### Channel 15 (R430, R269) -/

/-- A contribution of a device below to a reduction. -/
def redFrom (key dev : Nat) (body : List Byte) (s : State) : State :=
  let op := leNat (body.take 1)
  let k := leNat ((body.drop 1).take 7)
  let r := redNo key k
  let v : Contribution := ⟨fromDev dev, op, BitVec.ofNat 64 (leNat ((body.drop 8).take 8))⟩
  redAdvance 15 key k (addRed r v s)

/-- A device below has a member of a key, or its arrival. -/
def belowHas (key dev : Nat) (arrival : Option Nat) (s : State) : State :=
  let q := s.fab.pods.get key
  let got := match arrival with
    | some n => if q.got.any fun g => g.1 == dev then q.got else q.got ++ [(dev, n)]
    | none => q.got
  setPod key { q with below := setIns q.below dev, got := got } s

/-- A device below has no member of a key any more. -/
def belowLeft (key dev : Nat) (s : State) : State :=
  let q := s.fab.pods.get key
  dropEmptyKey 15 key (setPod key { q with
    below := setDel q.below dev, got := q.got.filter fun g => g.1 != dev } s)

/-- R430: an arrival of a device below; or what it says of its members, or its part of a reduction (DESIGN CHOICE, log entry
15). -/
def execBararv (p : Packet) (s : State) : Out :=
  receive p 0x20 s fun s =>
    let key := podKeyOf p.op0
    let code := leNat p.payload
    if p.len > 1 then .next (redFrom key p.sdev p.payload s)
    else if p.len = 1 then
      if code = 253 then .next (belowLeft key p.sdev s)
      else
        let s := podJoin key (belowHas key p.sdev none s)
        .next (if (s.fab.pods.get key).synced then podTell 0x21 p.sdev key 252 s else s)
    else if bitsOf p.op0.toNat 24 24 ≠ podParity key s then .next s
    else .next (podAdvance key (belowHas key p.sdev (some (bitsOf p.op0.toNat 47 32)) s))

/-- The device above tells the parity of the present phase; it is told on to the devices below. When the members here have come
from another device and it is not that of their phase, that phase has been released meanwhile (DESIGN CHOICE, log entry 15). -/
def podSync (key parity : Nat) (s : State) : State :=
  let missed := decide ((s.fab.pods.get key).off ≥ 2) && podParity key s != parity
  let s := if missed then releaseKey 15 key s else s
  let q := s.fab.pods.get key
  let s := setPod key { q with synced := true, off := (parity + s.keys.get key) % 2 } s
  podAdvance key (q.below.foldl (fun s d => podTell 0x21 d key 252 s) s)

/-- The result of a reduction that a packet carries: k, and the mark that stands for it. -/
def pktFinal (p : Packet) : Nat × Contribution :=
  (leNat ((p.payload.drop 1).take 7),
    ⟨finalMark, leNat (p.payload.take 1), BitVec.ofNat 64 (leNat ((p.payload.drop 8).take 8))⟩)

/-- The devices to which virtual devices of this one are moving or have moved, which may hold members of a key of channel 15,
each with the virtual device. -/
def podMovers (key : Nat) (s : State) : List (Nat × Nat) :=
  s.fab.movedTo.foldl (fun l p => if p.2 = 0 then l else addOnce l (p.2 - 1, p.1))
    (s.savedGroups.foldl (fun l p => match p.2 with
      | some v => if v.img.key 15 = some key then
          (match movesTo v.img.vdevNo s with | some d => addOnce l (d, v.img.vdevNo) | none => l) else l
      | none => l) [])

/-- A packet about a pergola or a pod group passed on to devices to which virtual devices have moved, with the virtual device in
svdev; one that has been passed on already goes on with its own alone (R274, R441, R443; DESIGN CHOICE, log entry 16). -/
def passOn (p : Packet) (l : List (Nat × Nat)) (s : State) : State :=
  (l.filter fun x => p.svdev == 0xFFFF || x.2 == p.svdev).foldl (fun s x =>
    sendPkt { p with ddev := x.1, sdev := s.fab.devid, svdev := x.2 } s) s

/-- A packet that has been passed on for a virtual device whose state has not been taken here yet: it is kept for it. -/
def holdMark (p : Packet) (s : State) : State :=
  let a := s.fab.arriving.get p.svdev
  { s with fab := { s.fab with arriving := s.fab.arriving.put p.svdev { a with marks := a.marks ++ [p] } } }

/-- A packet has been passed on for a virtual device that is not here yet. -/
def early (p : Packet) (s : State) : Bool := p.svdev != 0xFFFF && !(s.vdev p.svdev).alive && (movesTo p.svdev s).isNone

/-- R430: the release of a phase, the parity of the present one, or the result of a reduction, from the device above, or passed
on for members that have come from another device. -/
def execBarrel (p : Packet) (s : State) : Out :=
  receive p 0x21 s fun s =>
    let key := podKeyOf p.op0
    let parity := bitsOf p.op0.toNat 24 24
    let f := pktFinal p
    if early p s then .next (holdMark p s)
    else
      let s := if p.len = 1 then s else passOn p (podMovers key s) s
      if p.len > 1 then
        if hasRed (redNo key f.1) finalMark s || (p.svdev ≠ 0xFFFF && (members 15 key s).isEmpty) then .next s
        else .next (redFinish key f.1 f.2.op f.2.v s)
      else if p.len = 1 then .next (podSync key parity s)
      else if !(s.fab.pods.get key).synced || parity ≠ podParity key s then .next s
      else .next (podRelease key s)

/-! ### Pergola coordination (R441, R442; DESIGN CHOICE, log entry 12) -/

/-- A launch of this device that holds a member of a pergola. -/
def holdsClaim (pgid k : Nat) (l : LaunchSt) : Bool :=
  l.alive && l.pergola && l.pgid == pgid && decide (l.pgF ≤ k) && decide (k < l.pgF + l.groups)

/-- A launch of this device that holds a member of a pergola has a group that has started. -/
def claimStands (pgid k : Nat) (s : State) : Bool := s.launches.any fun p => holdsClaim pgid k p.2 && !p.2.gst.isEmpty

/-- A launch that holds a member of a pergola which a launch of another device keeps, and has not started, completes with GANG
(R440). -/
def loseClaim (pgid k : Nat) (s : State) : State :=
  (s.launches.keys.filter fun x => holdsClaim pgid k (s.launchOf x)).foldl (fun s x =>
    let l := s.launchOf x
    if l.gst.isEmpty && l.refused = 0 then dropLinks x (s.setLaunch x { l with
      refused := 6, place := .none, asked := [], reserved := [], granted := [] })
    else s) s

/-- A launch of another device holds a member of a pergola, claimed or placed. Where one of a third holds it too, that of the
device of the lower number keeps it, and so here unless the launch here has started (R440; DESIGN CHOICE, log entry 12). -/
def takeMember (pgid k dev vdev core : Nat) (noPre placed : Bool) (s : State) : State :=
  let m := (s.fab.pergs.get pgid).members.get k
  if !m.present || m.dev = dev then holdMember pgid k dev vdev core noPre placed s
  else if m.dev ≠ s.fab.devid then (if dev < m.dev then holdMember pgid k dev vdev core noPre placed s else s)
  else if dev < s.fab.devid && !claimStands pgid k s then
    holdMember pgid k dev vdev core noPre placed (loseClaim pgid k s)
  else pgPkt pgid dev 0xFFFF [17, BitVec.ofNat 8 k] s

/-- What another Belvedere says of a member of a pergola takes effect here. -/
def pgApply (p : Packet) (s : State) : State :=
  let op := leNat (p.payload.take 1)
  let k := leNat ((p.payload.drop 1).take 1)
  let core := leNat ((p.payload.drop 2).take 2)
  if op = 7 || op = 15 then
    takeMember p.space k p.sdev (leNat ((p.payload.drop 4).take 2)) core (p.payload.getD 6 0 != 0) (op == 7) s
  else if op = 17 then loseClaim p.space k s
  else if op = 8 then askPreempt p.space s
  else if op = 6 then moveMember p.space k p.sdev core s
  else if op = 10 && ((s.fab.pergs.get p.space).members.get k).dev ≠ p.sdev then s
  else freeDetached p.space (markMember p.space k op s)

/-- R442: Belvedere instances of a pergola tell each other of their members; what concerns one that is moving, or has moved, is
passed on with it. -/
def execPgctl (p : Packet) (s : State) : Out :=
  receive p 0x22 s fun s =>
    if early p s then .next (holdMark p s) else .next (passOn p (pergTargets p.space s) (pgApply p s))

/-! ### Ports (R425, R429) -/

/-- The packets of a class that a port has formed, in their order. -/
def formed (port cls : Nat) (s : State) : List Packet := s.fab.outbox.filter fun p => p.port == port && p.cls == cls

/-- A class of a port has a credit: at times of the link's own, and never without one for longer than a time that is its
own too, so that its traffic makes progress (R52, R429). -/
def hasCredit (port cls time : Nat) : Bool :=
  Config.creditAt port cls time || time % (Config.creditGap port cls + 1) == 0

/-- The oldest packet of a class that waits for the link, when the class has a credit. -/
def waitingPkt (port cls : Nat) (s : State) : Option Packet :=
  match (formed port cls s).drop ((s.fab.ports.get port).served.get cls) with
  | x :: _ => if hasCredit port cls s.time then some x else none
  | [] => none

/-- R429: one packet goes out on a link: of C0 before the other classes, of C1, C2 and C3 in turn. -/
def serveLink (s : State) (port : Nat) : State :=
  let q := s.fab.ports.get port
  let order := 0 :: (List.range 3).map fun i => 1 + (q.turn + i) % 3
  match (if q.down then none else order.find? fun c => (waitingPkt port c s).isSome) with
  | none => s
  | some c =>
    let q := { q with served := q.served.put c (q.served.get c + 1), turn := if c = 0 then q.turn else c % 3 }
    { s with fab := { s.fab with
        wire := s.fab.wire ++ (waitingPkt port c s).toList, ports := s.fab.ports.put port q } }

/-- Every link serves one packet (the pace is left out, log entry 7). -/
def serveLinks (s : State) : State := if s.fab.outbox.isEmpty then s else (List.range 12).foldl serveLink s

/-- R429: packets of a class that have gone out, from a link sequence number on, are sent again from the replay buffer. -/
def execLinkReplay (port cls lseq : Nat) (s : State) : Out :=
  let q := s.fab.ports.get port
  let m := q.served.get cls
  let n := (m + 65536 - lseq) % 65536
  if q.down || decide (n > m) then .next s
  else .next { s with fab := { s.fab with wire := s.fab.wire ++ ((formed port cls s).take m).drop (m - n) } }

/-- Requests whose route is lost end with NACK 0x19 (R432). -/
def loseRoute (port : Nat) (s : State) : State :=
  let lost (r : Req) : Bool := (Config.portOf r.pkt.ddev).val == port && r.answer.isNone
  s.fab.reqs.foldl (fun s p => match p.2 with
    | some r => if lost r then endReq p.1 r 0x19 [] s else s
    | none => s) s

/-- R425: a port retrains on lanes 0 to 3 or 4 to 7, whichever is whole, or goes down. -/
def execPortRetrain (port : Nat) (loWhole hiWhole : Bool) (s : State) : Out :=
  if port ≥ 12 then .next s
  else
    let q := s.fab.ports.get port
    let put (x : Port) : State := { s with fab := { s.fab with ports := s.fab.ports.put port x } }
    if loWhole || hiWhole then .next (put { q with half := true, down := false })
    else .next (loseRoute port (put { q with down := true }))

end Sys2Proof.Machine
end

