-- ==== Sys2Proof/Machine/Mgmt.lean ====
section
/-! DEFINITION. The management class: what every request passes, the requests about virtual devices, their
queues, faults and address spaces, and about the device as a whole (R369, R381 to R385, R396, R435 to R440,
R475). -/

namespace Sys2Proof.Machine

/-! ### Requests and answers (R435, R436) -/

/-- The answer to a request. -/
def mgmtAnswer (mop : Nat) (r : MgmtReq) (stat : Nat) (body : List Byte) (s : State) : State :=
  mgmtPkt r.sdev (mgmtHeader mop body.length r.mtag.toNat stat 1 r.vdev ++ body) s

/-- What a request comes to: the status and body of its answer, none while it is still being performed. -/
abbrev Done := Option (Nat × List Byte) × State

/-- A request ended with a status and no body. -/
def done (stat : Nat) (s : State) : Done := (some (stat, []), s)

/-- R435, R436: a request is taken once the device is ready; its source, the mode and the size of its body
are checked, and it is answered. `minimal`: accepted in minimal mode. -/
def mgmtReq (mop : Nat) (minimal : Bool) (size : Nat → Bool) (r : MgmtReq) (s : State)
    (f : State → Done) : Out :=
  let answer (st : Nat) (b : List Byte) (s : State) : Out := .next (mgmtAnswer mop r st b s)
  if s.plat.mode == .starting then .next s
  else if r.svdev ≠ 0xFFFF || (!minimal && s.plat.mode != .full) then answer 4 [] s
  else if !size r.body.length then answer 1 [] s
  else match f s with
    | (some (st, b), s) => answer st b s
    | (none, s) => .next s

/-- A request about the device as a whole. -/
def wideReq (mop : Nat) (minimal : Bool) (size : Nat → Bool) (r : MgmtReq) (s : State) (f : State → Done) : Out :=
  mgmtReq mop minimal size r s fun s => if r.vdev ≠ 0xFFFF then done 1 s else f s

/-- A request about a virtual device is being performed: a migration, an invalidation or the end of launches that waits, or
moves of pages (R436). -/
def inHand (v : Nat) (s : State) : Bool :=
  (s.fab.migs.get v).active || s.fab.invals.any (·.req.vdev == v) || s.fab.ending.any (·.2.vdev == v) ||
    s.fab.residues.any fun p => p.2.asked.any fun a => a.1.vdev == v

/-- A request that names a virtual device waits while an earlier one about that device has not been answered
(R436). -/
def inTurn (mop : Nat) (r : MgmtReq) (s : State) (k : Out) : Out :=
  if s.plat.mode == .full && (inHand r.vdev s || !(s.fab.waitReqs.get r.vdev).isEmpty) then
    .next { s with fab := { s.fab with
      waitReqs := s.fab.waitReqs.put r.vdev (s.fab.waitReqs.get r.vdev ++ [(mop, r)]) } }
  else k

/-- A request about a virtual device of this device. -/
def vdevReq (mop : Nat) (size : Nat → Bool) (r : MgmtReq) (s : State) (f : State → Done) : Out :=
  inTurn mop r s (mgmtReq mop false size r s fun s => if !(s.vdev r.vdev).alive then done 6 s else f s)

/-- A body of a fixed size. -/
def exactly (n k : Nat) : Bool := k == n

/-- The fields of a body from an offset on are 0. -/
def zeros (b : List Byte) (o k : Nat) : Bool := ((b.drop o).take k).all (· == 0)

/-! ### Faults of parties that are gone -/

/-- The faults of a virtual device, waiting or outstanding, without those of some parties. -/
def dropFaults (vdev : Nat) (p : Party → Bool) (s : State) : State :=
  let v := s.vdev vdev
  s.setVdev vdev { v with
    fwait := v.fwait.filter fun f => !p f.party
    fout := v.fout.filter fun q => match q.2 with | some f => !p f.party | none => false }

/-- A party of a queue. -/
def Party.ofQueue (n : Nat) : Party → Bool
  | .queue q => q == n
  | .block q => q == n
  | .record q _ => q == n
  | _ => false

/-! ### Ending queues (R341, R369, R385, R437, R475) -/

/-- The record of a command KILLED before it has started: that of a LAUNCH gives its groups, and for a speculative one,
which has no N̂ and no N, 0 (R341; DESIGN CHOICE, log entry 11). -/
def killedRec (b : List Byte) : List Byte :=
  let n := if bKind b = 1 && !bitAt (bFlags b) 1 then bGroups b else 0
  leBytes 1 8 ++ List.replicate 11 0 ++ leBytes 4 n ++ leBytes 4 n ++ List.replicate 12 0

/-- A command that has not completed ends with status KILLED: a launch once its groups have stopped, and its completion
follows every event of them (R290, R341). -/
def killCmd (n : Nat) (s : State) (c : QCmd) : State :=
  if c.result.isSome then s
  else match c.launch with
    | some k =>
      let s := killLaunch k s
      if launchOut k s then s else complete n c.idx (launchRecord (s.launchOf k)) s
    | none => complete n c.idx (killedRec c.body) s

/-- Every command of a queue that has not completed ends with status KILLED. -/
def killCmds (n : Nat) (s : State) : State := (s.queue n).cmds.foldl (killCmd n) s

/-- A queue closed: its fetcher stops, and wake writes are refused. -/
def closeQueue (n : Nat) (s : State) : State :=
  let q := s.queue n
  putQueue n { q with opened := false, woken := false, park := .free } s

/-- A queue closed, and its commands ended. -/
def endQueue (n : Nat) (s : State) : State := killCmds n (closeQueue n s)

/-- What launches of a queue have sent is still on its way. -/
def queueOut (n : Nat) (s : State) : Bool := s.launches.any fun p => p.2.alive && p.2.q == n && launchOut p.1 s

/-- A queue destroyed with what it holds, a record that a fault holds left unwritten; the generation of its
number rises. -/
def destroyQueue (n : Nat) (s : State) : State :=
  let v := (s.queue n).vdev
  let s := endQueue n s
  let s := (s.queue n).cmds.foldl (fun s c => finishCmd n c.idx s) s
  let mine := (s.launches.filter fun p => p.2.q == n).map Prod.fst
  let s := mine.foldl (fun s k => forgetLaunch k s) s
  let s := dropFaults v (Party.ofQueue n) (ioDone n s)
  let d := s.vdev v
  let s := s.setVdev v { d with pinned := d.pinned.filter fun p => p.1 ≠ n }
  s.setQueue n { (default : Que) with gen := ((s.queue n).gen + 1) % 2 ^ 32 }

/-- The queues of a virtual device. -/
def queuesOf (v : Nat) (s : State) : List Nat :=
  (s.queues.filter fun p => p.2.alive && p.2.vdev == v).map Prod.fst

/-! ### Virtual devices (R37, R437) -/

/-- The quarters that no virtual device may be given: held by another, kept for one that arrives (R443), or withheld
(R467). -/
def takenQuarters (s : State) : BitVec 16 :=
  s.fab.arriving.foldl (fun m p => m ||| p.2.quarters)
    (s.vdevs.foldl (fun m p => if p.2.alive then m ||| p.2.quarters else m) s.plat.withheld)

/-- A virtual-device id names a device or a residue here, or a device that is arriving. -/
def idInUse (v : Nat) (s : State) : Bool :=
  (s.vdev v).alive || (s.fab.residues.get v).held || arrivingHere v s

/-- A new virtual device. -/
def newVdev (v : Nat) (quarters : BitVec 16) (s : State) : State :=
  let s := s.setVdev v { (default : VDev) with alive := true, quarters := quarters, nextId := 1 }
  { s with fab := { s.fab with movedTo := s.fab.movedTo.drop v } }

/-- R437: a virtual device is created. -/
def execVdcreate (r : MgmtReq) (s : State) : Out :=
  inTurn 0x0001 r s <| mgmtReq 0x0001 false (exactly 8) r s fun s =>
    let q := BitVec.ofNat 16 (bodyF r.body 0 2)
    if q = 0 || !zeros r.body 2 6 || decide (r.vdev ≥ 0xFFFF) then done 1 s
    else if idInUse r.vdev s || takenQuarters s &&& q ≠ 0 then done 3 s
    else done 0 (newVdev r.vdev q s)

/-- A remote access held at a port is not performed, with a status for its requester. -/
def refuseHeld (status : Nat) (s : State) (f : FaultRec) : State :=
  match f.party with
  | .port p => reply p status [] (portFree p s)
  | _ => s

/-- The accesses behind those that were held at ports for faults go on. -/
def goOnBehind (l : List FaultRec) (s : State) : State :=
  l.foldl (fun s f => match f.party with | .port p => portGoOn p s | _ => s) s

/-- The faults of a virtual device, waiting and outstanding. -/
def VDev.faults (d : VDev) : List FaultRec := d.fwait ++ d.fout.filterMap Prod.snd

/-- A virtual device destroyed: queues with their launches, events, address spaces with their translations. -/
def destroyVdev (v : Nat) (s : State) : State :=
  let s := (queuesOf v s).foldl (fun s n => destroyQueue n s) s
  let d := s.vdev v
  let s := d.faults.foldl (refuseHeld 0x19) s
  let s := dropTlb (fun t => t.vdev == v) s
  goOnBehind d.faults (s.setVdev v default)

/-- A request that ends launches is being performed until what they have sent is over: what it does then, and its answer. -/
def afterEnd (mop : Nat) (r : MgmtReq) (qs : List Nat) (last : State → State) (s : State) : Done :=
  let t := qs.foldl (fun s n => endQueue n s) s
  if qs.any fun n => queueOut n t then (none, { t with fab := { t.fab with ending := t.fab.ending ++ [(mop, r)] } })
  else done 0 (last s)

/-- R437: a virtual device is destroyed. -/
def execVddestroy (r : MgmtReq) (s : State) : Out :=
  vdevReq 0x0002 (exactly 0) r s fun s => afterEnd 0x0002 r (queuesOf r.vdev s) (destroyVdev r.vdev) s

/-! ### Queues (R328, R329, R437, R438) -/

/-- The bytes that have arrived, when all have. -/
def Arriving.whole (a : Arriving) : Option (List Byte) :=
  if a.total > 0 && decide (a.got ≥ a.total) then some (a.bytes.getRange 0 a.total) else none

/-- The numbers of the queues of virtual devices that are arriving (R443). -/
def arrivingQueues (s : State) : List Nat :=
  s.fab.arriving.flatMap fun p => match (p.2.whole).bind Config.movedOf with
    | some m => m.queues.map Prod.fst
    | none => []

/-- A free queue number, which Belvedere chooses. -/
def chooseQueue (s : State) : Option Nat :=
  let kept := arrivingQueues s
  let free := (List.range 4096).filter fun n => !(s.queue n).alive && !kept.contains n
  if free.isEmpty then none else free[(Config.freeValue s.freeCtr).toNat % free.length]?

/-- The queue that a QCREATE makes. -/
def newQueue (vdev n gen : Nat) (b : List Byte) (starts : Nat) : Que :=
  let w0 := BitVec.ofNat 64 (bodyF b 0 8)
  let w1 := BitVec.ofNat 64 (bodyF b 16 4 + n * 2 ^ 32 + bodyF b 22 1 % 16 * 2 ^ 48)
  let w2 := BitVec.ofNat 64 (vdev + bodyF b 20 2 * 2 ^ 16 + gen * 2 ^ 32)
  { (default : Que) with
    alive := true, vdev := vdev, w0 := w0, w1 := w1, w2 := w2, w3 := queueTag starts w0 w1 w2
    qcb := BitVec.ofNat 64 (bodyF b 8 8), opened := true, age := bodyF b 24 2, gen := gen }

/-- The 32 bytes of a queue capability. -/
def Que.cap (q : Que) : List Byte :=
  leBytes 8 q.w0.toNat ++ leBytes 8 q.w1.toNat ++ leBytes 8 q.w2.toNat ++ leBytes 8 q.w3.toNat

/-- A power of two up to 2^20. -/
def slotCountOk (n : Nat) : Bool := (List.range 21).any fun i => n == 2 ^ i

/-- R437, R438: an open queue is created. -/
def execQcreate (r : MgmtReq) (s : State) : Out :=
  vdevReq 0x0003 (exactly 32) r s fun s =>
    let b := r.body
    let sp := (s.vdev r.vdev).spaces.get (bodyF b 20 2)
    if bodyF b 0 8 % 64 ≠ 0 || bodyF b 8 8 % 64 ≠ 0 || !slotCountOk (bodyF b 16 4) || sp.st != .opened ||
        decide (bodyF b 22 1 ≥ 16) || !zeros b 23 1 || !zeros b 26 6 then done 1 s
    else match chooseQueue s with
      | none => done 3 s
      | some n =>
        let q := newQueue r.vdev n (s.queue n).gen b s.plat.starts
        (some (0, q.cap), putQueue n q s.bump)

/-- A queue capability in a request passes the checks of R331: the queue it names. -/
def capQueue (vdev : Nat) (b : List Byte) (s : State) : Option Nat :=
  let f (o : Nat) : DWord := BitVec.ofNat 64 (bodyF b o 8)
  let n := bitsOf (f 8).toNat 47 32
  let q := s.queue n
  if q.alive && decide (n < 4096) && q.vdev == vdev && queueTag s.plat.starts (f 0) (f 8) (f 16) == f 24 &&
      f 0 == q.w0 && f 8 == q.w1 && f 16 == q.w2 && q.w3 == f 24 then some n
  else none

/-- R437: a queue is closed and destroyed. -/
def execQdestroy (r : MgmtReq) (s : State) : Out :=
  vdevReq 0x0004 (exactly 32) r s fun s =>
    match capQueue r.vdev r.body s with
    | some n => afterEnd 0x0004 r [n] (destroyQueue n) s
    | none => done 1 s

/-- A request that destroys a queue or a virtual device, once what the launches it has ended have sent is over, is complete
(R341, R437). -/
def settleEnd (s : State) (x : Nat × MgmtReq) : State :=
  let v := x.2.vdev
  let n := bitsOf (bodyF x.2.body 8 8) 47 32
  if (if x.1 = 4 then [n] else queuesOf v s).any fun n => queueOut n s then s
  else
    let s := { s with fab := { s.fab with ending := s.fab.ending.erase x } }
    mgmtAnswer x.1 x.2 0 [] (if x.1 = 4 then destroyQueue n s else destroyVdev v s)

/-- The same for every one that waits. -/
def settleEnds (s : State) : State := s.fab.ending.foldl settleEnd s

/-- R437, R345: the age interval of a queue is set. -/
def execQage (r : MgmtReq) (s : State) : Out :=
  vdevReq 0x0005 (exactly 40) r s fun s =>
    match capQueue r.vdev r.body s with
    | some n =>
      if !zeros r.body 34 6 then done 1 s
      else done 0 (putQueue n { s.queue n with age := bodyF r.body 32 2 } s)
    | none => done 1 s

/-! ### The fault queue (R393, R396, R475) -/

/-- R437, R393: the fault queue control block is set, and the count of the faults that wait is written. -/
def execFqset (r : MgmtReq) (s : State) : Out :=
  vdevReq 0x0006 (exactly 8) r s fun s =>
    let a := bodyF r.body 0 8
    let v := s.vdev r.vdev
    if a % 64 ≠ 0 || !inHbm a 64 then done 1 s
    else if v.fqBlock.isSome && v.fout.any fun p => p.2.isSome then done 2 s
    else
      let s := s.setVdev r.vdev { v with fqBlock := some a }
      done 0 (s.physStore (a + 12) (leBytes 4 v.fwait.length))

/-- R475: the queue of a fetcher or control block acts on an answer. -/
def answerQueue (vdev ans n : Nat) (block : Bool) (s : State) : State :=
  let q := s.queue n
  if !q.alive || q.vdev ≠ vdev || (if block then q.blkPark else q.park) != .parked then s
  else if ans = 0 then
    if block then syncBlock n (s.setQueue n { q with blkPark := .free })
    else s.setQueue n { q with park := .free }
  else
    let q := { q with opened := false, woken := false }
    let s := if block then s.setQueue n { q with blkPark := .free } else putQueue n { q with park := .free } s
    if ans = 2 then killCmds n s else s

/-- R396, R475: one answer of a batch acts on the party of an entry; for a party of a group it goes to the Kiosk (R327). -/
def answerOne (vdev ans : Nat) (f : FaultRec) (s : State) : State :=
  match f.party with
  | .queue n => answerQueue vdev ans n false s
  | .block n => answerQueue vdev ans n true s
  | .shape key =>
    let l := s.launchOf key
    if !l.alive || l.shapePark != .parked then s
    else if ans = 0 then s.setLaunch key { l with shapePark := .free }
    else if ans = 1 then resolveTo key 0 s
    else killLaunch key s
  | .record n idx =>
    match cmdAt n idx s with
    | some c =>
      if c.recPark != .parked then s
      else if ans = 0 then tryRecord n idx (mapCmd n idx (fun c => { c with recPark := .free }) s)
      else finishCmd n idx s
    | none => s
  | .port p =>
    let s := portFree p s
    portGoOn p (if ans = 0 then portAccess p s else reply p 0x13 [] s)
  | _ => match f.party.core with
    | some k => sendLink (.answer vdev ans f) s (partyCluster k s)
    | none => s

/-- The answer bytes of a batch acted on in ascending seq, from a first seq on. -/
def answerBatch (vdev : Nat) : Nat → List Byte → State → State
  | _, [], s => s
  | seq, a :: rest, s =>
    let q := seq % 2 ^ 32
    let v := s.vdev vdev
    let s := match v.fout.get q with
      | some f => answerOne vdev a.toNat f (s.setVdev vdev { v with fout := v.fout.drop q })
      | none => s
    answerBatch vdev (seq + 1) rest s

/-- R396, R437: a batch of answers. -/
def execFqanswer (r : MgmtReq) (s : State) : Out :=
  let n := bodyF r.body 4 1
  inTurn 0x0007 r s <| mgmtReq 0x0007 false (fun k => decide (k ≥ 8) && k == 8 + n) r s fun s =>
    let as := r.body.drop 8
    if !idInUse r.vdev s then done 6 s
    else if n = 0 || decide (n > 64) || !zeros r.body 5 3 || as.any fun a => decide (a.toNat > 2) then done 1 s
    else done 0 (answerBatch r.vdev (bodyF r.body 0 4) as s)

/-! ### Address spaces (R369, R381 to R385) -/

/-- A maintenance request of an operation, its fields checked as R381 states: space, mflags, addr, bytes. -/
def trmaint (op : Nat) (r : MgmtReq) (s : State) (f : Nat → Nat → Nat → Nat → State → Done) : Out :=
  vdevReq 0x0008 (exactly 32) r s fun s =>
    let b := r.body
    let fl := bodyF b 6 2
    let a := bodyF b 8 8
    let n := bodyF b 16 8
    let flOk := match op with | 1 => decide (fl ≤ 1) | 2 => fl == 0 || fl == 2 | _ => fl == 0
    let rng := match op with
      | 1 => a % 8192 == 0 && n == 0
      | 2 => a % 4096 == 0 && n % 4096 == 0 && n != 0
      | _ => a == 0 && n == 0
    if bodyF b 0 1 ≠ op || !zeros b 1 1 || bodyF b 2 2 ≠ r.vdev || !flOk || !rng || !zeros b 24 8 then
      done 1 s
    else f (bodyF b 4 2) fl a n s

/-- An address space of a virtual device replaced. -/
def setSpace (v sp : Nat) (x : Space) (s : State) : State :=
  let d := s.vdev v
  s.setVdev v { d with spaces := d.spaces.put sp x }

/-- R381: CREATE opens a space with its root. -/
def execCreate (r : MgmtReq) (s : State) : Out :=
  trmaint 1 r s fun sp fl a _ s =>
    let x := (s.vdev r.vdev).spaces.get sp
    if x.st != .absent || (fl = 1 && (exportedSpace (s.vdev r.vdev)).isSome) then done 3 s
    else done 0 (setSpace r.vdev sp
      { st := .opened, root := a, gen := (x.gen + 1) % 2 ^ 32, outst := 0, exported := fl = 1 } s)

/-- The bit of a companion word that sends an invalidation to a place: DIE or REM; the I/O die in every case
(R382). -/
def placeHit (word : Nat) : TlbPlace → Bool
  | .core k => bitAt word (dieOf k)
  | .cluster c => bitAt word (c / 144)
  | .port _ => bitAt word 5
  | .io => true

/-- The invalidation for the page at an address reaches a place: by its companion word, or for a page that
no walk can reach in every case (R382). -/
def pageReaches (root va : Nat) (pl : TlbPlace) (s : State) : Bool :=
  match walk s.mem root va with
  | .ok l => placeHit (Memory.num s.mem (l.entry + 8) 8) pl
  | .error _ => true

/-- R382: an entry is covered by an INVRANGE. -/
def invCovers (vdev space root va n : Nat) (all : Bool) (s : State) (t : Tlb) : Bool :=
  let lo := max va t.page
  let hi := min (va + n) (t.page + 4096 * 2 ^ t.size)
  t.inRange vdev space va n && (all || t.place == .io ||
    (List.range ((hi - lo + 4095) / 4096)).any fun i => pageReaches root (lo + 4096 * i) t.place s)

/-- The remote requests on their way that a translation of a space has sent out. Which of its pages they used is not looked
for: an invalidation waits for all of them (DESIGN CHOICE, log entry 21). -/
def spaceReqs (vdev sp : Nat) (s : State) : List Nat :=
  s.fab.reqs.filterMap fun p => match p.2 with
    | some r => if r.answer.isNone && r.pkt.typ ≤ 3 && r.pkt.space == sp &&
        (r.pkt.svdev == vdev || r.pkt.svdev == 0xFFFF) then some p.1 else none
    | none => none

/-- R382: an invalidation has been made; it is complete once every access that used its translations is over. -/
def invalDone (r : MgmtReq) (sp : Nat) (teardown : Bool) (last : State → State) (s : State) : Done :=
  match spaceReqs r.vdev sp s with
  | [] => done 0 (last s)
  | ids => (none, { s with fab := { s.fab with invals := s.fab.invals ++ [⟨r, sp, ids, teardown⟩] } })

/-- R382: INVRANGE. -/
def execInvrange (r : MgmtReq) (s : State) : Out :=
  trmaint 2 r s fun sp fl a n s =>
    let x := (s.vdev r.vdev).spaces.get sp
    if x.st == .absent then done 0 s
    else invalDone r sp false id (dropTlb (invCovers r.vdev sp x.root a n (fl = 2) s) s)

/-- Every translation of a space invalidated in every TLB (R382). -/
def invSpace (v sp : Nat) (s : State) : State := dropTlb (fun t => t.vdev == v && t.space == sp) s

/-- R382: INVSPACE. -/
def execInvspace (r : MgmtReq) (s : State) : Out :=
  trmaint 3 r s fun sp _ _ _ s =>
    if ((s.vdev r.vdev).spaces.get sp).st == .absent then done 0 s
    else invalDone r sp false id (invSpace r.vdev sp s)

/-- R385 step 5: a space becomes absent, and its generation rises. -/
def endSpace (v sp : Nat) (s : State) : State :=
  setSpace v sp { (default : Space) with gen := (((s.vdev v).spaces.get sp).gen + 1) % 2 ^ 32 } s

/-- R385: TEARDOWN. Every walk of this model ends in the step that begins it, so none is outstanding at
step 3. -/
def execTeardown (r : MgmtReq) (s : State) : Out :=
  trmaint 4 r s fun sp _ _ _ s =>
    let x := (s.vdev r.vdev).spaces.get sp
    let busy := s.launches.any fun p => p.2.alive && p.2.vdev == r.vdev && p.2.space == sp
    if x.st == .absent then done 0 s
    else if busy then done 2 s
    else
      let qs := (queuesOf r.vdev s).filter fun n => (s.queue n).space == sp
      let s := qs.foldl (fun s n => closeQueue n s) s
      let s := setSpace r.vdev sp { (s.vdev r.vdev).spaces.get sp with st := .closing } s
      invalDone r sp true (endSpace r.vdev sp) (invSpace r.vdev sp s)

/-! ### Pergolas and migration (R440, R443) -/

/-- R440: a queue is bound to a pergola. -/
def execPgbind (r : MgmtReq) (s : State) : Out :=
  vdevReq 0x0009 (exactly 8) r s fun s =>
    let n := bodyF r.body 0 2
    let pg := bodyF r.body 2 2
    let m := bodyF r.body 4 1
    let f := bodyF r.body 5 1
    let q := s.queue n
    if !q.alive || q.vdev ≠ r.vdev || m = 0 || decide (m > 64) || decide (f ≥ m) || !zeros r.body 6 2 then
      done 1 s
    else
      let s := s.setQueue n { q with perg := some (pg, m, f) }
      done 0 { s with fab := { s.fab with pergs := s.fab.pergs.put pg { s.fab.pergs.get pg with m := m } } }

/-- R443: a migration is asked for; it is answered at the commit, or when it fails. -/
def execMigrate (r : MgmtReq) (s : State) : Out :=
  vdevReq 0x000A (exactly 8) r s fun s =>
    let t := bodyF r.body 0 2
    let res := bodyF r.body 2 2
    let thr := bodyF r.body 4 2
    if decide (t ≥ 4096) || t = s.fab.devid || thr = 0 || res = 0xFFFF || idInUse res s || !zeros r.body 6 2 then
      done 1 s
    else
      let m : Migration := { active := true, target := t, residue := res, thr := thr, req := r, sent := false
                             total := 0, acks := 0, refused := false }
      let s := s.setVdev r.vdev { s.vdev r.vdev with moving := true }
      (none, { s with fab := { s.fab with migs := s.fab.migs.put r.vdev m } })

/-! ### The device as a whole (R410, R431, R437, R439, R471) -/

/-- R431: a peer-table entry is written in every port. -/
def execPeerset (r : MgmtReq) (s : State) : Out :=
  wideReq 0x000C false (exactly 4) r s fun s =>
    let v := bodyF r.body 0 2
    let e := bodyF r.body 2 2
    if bitsOf e 14 12 ≠ 0 then done 1 s
    else done 0 ((List.range 12).foldl (fun s i => setPeer i v e s) s)

/-- R431, R437: the device identifier is set. -/
def execDevid (r : MgmtReq) (s : State) : Out :=
  wideReq 0x000D false (exactly 2) r s fun s =>
    let d := bodyF r.body 0 2
    if decide (d > 4095) then done 1 s
    else if s.vdevs.any fun p => p.2.alive then done 2 s
    else done 0 { s with fab := { s.fab with devid := d } }

/-- The phases of a channel numbered two higher. -/
def Chan.lift (c : Chan) : Chan :=
  { arrived := c.arrived.map (· + 2), next := c.next.map (· + 2), held := c.held.map fun p => (p.1 + 2, p.2) }

/-- The phases of a key of channel 15 numbered two higher while they are below two, at every member: a core that joins with
arrivals for phases released already has then numbers for them, and the parity stays. -/
def liftKey (s : State) (key : Nat) : State :=
  if s.keys.get key ≥ 2 then s
  else
    let up (c : CoreSt) : CoreSt :=
      if c.key 15 == some key then { c with chans := c.chans.put 15 (c.chans.get 15).lift } else c
    let s := s.mapCores fun _ c => up c
    { s with
      savedGroups := s.savedGroups.map fun p => (p.1, p.2.map fun v => { v with img := up v.img })
      keys := s.keys.put key (s.keys.get key + 2) }

/-- A member's arrivals counted from another phase: those of its old key stand for the same number of phases
of its new one (R409; DEDUCED, log entry 18). -/
def Chan.rebase (c : Chan) (r r' : Nat) : Chan :=
  { c with arrived := c.arrived.map fun p => r' + p - r, next := c.next.map fun p => r' + p - r }

/-- The pdom of a core's ctl.dom15 changed. -/
def CoreSt.setPdom (c : CoreSt) (pdom : Nat) (keys : SMap Nat) : CoreSt :=
  let d := c.dom.get 15
  let c' := { c with dom := c.dom.put 15 ((d &&& ~~~(0xFFFF0000 : DWord)) ||| BitVec.ofNat 64 (pdom * 2 ^ 16)) }
  match c.key 15, c'.key 15 with
  | some k, some k' => { c' with chans := c'.chans.put 15 ((c'.chans.get 15).rebase (keys.get k) (keys.get k')) }
  | _, _ => c'

/-- R407, R410, R437: the pdom of the device is set; the phases of the keys it leaves no longer wait for it. -/
def setPdom (pdom : Nat) (s : State) : State :=
  let old := (activeKeys 15 s).filter fun k => pdomOf k ≠ pdom
  let s := (old.map fun k => 15 * 2 ^ 22 + pdom * 64 + k % 64).foldl liftKey s
  let up (c : CoreSt) : CoreSt := if c.grp.isSome then c.setPdom pdom s.keys else c
  let s' := s.mapCores fun _ c => up c
  let s' := { s' with
    savedGroups := s'.savedGroups.map fun p => (p.1, p.2.map fun v => { v with img := up v.img })
    fab := { s'.fab with pdom := pdom } }
  let s := old.foldl (fun s k => dropEmptyKey 15 k s) s'
  (activeKeys 15 s).foldl (fun s k => podJoin k s) s

/-- R437. -/
def execPdomset (r : MgmtReq) (s : State) : Out :=
  wideReq 0x000E false (exactly 4) r s fun s =>
    if !zeros r.body 2 2 then done 1 s else done 0 (setPdom (bodyF r.body 0 2) s)

/-- R471: the package power limit is set; the budgets follow at the next window. -/
def execPlset (r : MgmtReq) (s : State) : Out :=
  wideReq 0x000F false (exactly 4) r s fun s =>
    let w := bodyF r.body 0 2
    if decide (w < 600) || decide (w > 2600) || !zeros r.body 2 2 then done 1 s
    else done 0 { s with plat := { s.plat with power := w } }

/-- R439: the host that receives notices is named. -/
def execNotifyto (r : MgmtReq) (s : State) : Out :=
  wideReq 0x0016 false (exactly 4) r s fun s =>
    let h := bodyF r.body 0 2
    if decide (h > 4095) || !zeros r.body 2 2 then done 1 s
    else done 0 { s with fab := { s.fab with notify := some h } }

end Sys2Proof.Machine
end

