-- ==== Sys2Proof/Machine/Platform.lean ====
section
/-! DEFINITION. The platform: secure start and its failures, boot records, attestation, status, slots,
self-test and repair, machine errors, watchdogs, temperature, and the I3C sideband (R390, R437, R460 to
R472). -/

namespace Sys2Proof.Machine

/-! ### Starting again (R461, R470) -/

/-- The device before stage 1 of a start: fuses, flash, the counters, the boot failure record, the repair map
and the unused spares stay; everything else is as after power-on, but the model's own fields (DESIGN CHOICE, log entry 1). The
links start anew: what has not gone out is gone, and the packets of a class are numbered from 0 again (DESIGN CHOICE, log entry
12). -/
def restart (s : State) : State :=
  let p := s.plat
  { State.reset with
    plat := { Platform.reset with
      slot := p.slot, fails := p.fails, starts := p.starts, bootrec := p.bootrec, rollback := p.rollback
      flash := p.flash, pcore := p.pcore, pcluster := p.pcluster
      coreSpareUsed := p.coreSpareUsed, clusterSpares := p.clusterSpares, withheld := p.withheld
      retiredCores := p.retiredCores, retiredClusters := p.retiredClusters, absent := p.absent
      sideband := p.sideband, machines := p.machines }
    fab := { State.reset.fab with wire := s.fab.wire }
    agenda := s.agenda, time := s.time, rr := s.rr, freeCtr := s.freeCtr, stamp := s.stamp, fine := s.fine }

/-! ### Images (R460) -/

/-- Bytes of a slot of the boot flash. -/
def flashBytes (p : Platform) (slot o n : Nat) : List Byte :=
  let a := slot * 2 ^ 32 + o
  ((p.flash.getRange a n).zip (List.range n)).map fun q => q.1.getD (Config.flashByte (a + q.2))

/-- The header of the image of a kind in a slot. -/
def imageHeader (p : Platform) (slot kind : Nat) : List Byte := flashBytes p slot (Config.imageAt kind) 256

/-- The image of a kind in a slot: header and body. -/
def imageBytes (p : Platform) (slot kind : Nat) : List Byte :=
  flashBytes p slot (Config.imageAt kind) (256 + bodyF (imageHeader p slot kind) 16 4)

/-- The hash of a key matches one of the four fuse entries, which has not been revoked (R460). -/
def keyAccepted (pubkey : List Byte) : Bool := (Config.fuseKeys.take 4).any fun k => k.1 == sha256 pubkey && !k.2

/-- R460: verification of an image: none when it passes, else the reason code of R464. -/
def verifyImage (p : Platform) (slot kind : Nat) : Option Nat :=
  let h := imageHeader p slot kind
  let key := (h.drop 56).take 64
  let body := (imageBytes p slot kind).drop 256
  if bodyF h 0 4 ≠ 0x46574931 || bodyF h 4 4 ≠ kind then some 1
  else if !keyAccepted key then some 2
  else if !ecdsaValid key (sha256 (h.take 192)) ((h.drop 192).take 64) then some 1
  else if sha256 body ≠ (h.drop 24).take 32 then some 1
  else if bodyF h 8 4 < p.rollback then some 3
  else none

/-! ### A start and its failures (R461 to R464) -/

/-- The boot failure record. -/
def bootRecord (p : Platform) (stage reason mode detail : Nat) : List Byte :=
  let used := (p.coreSpareUsed.filter fun q => q.2).length
  let clus := (List.range 4).map fun d => p.clusterSpares.get d
  leBytes 4 0x42465231 ++ leBytes 1 stage ++ leBytes 1 reason ++ leBytes 1 p.fails ++ leBytes 1 mode ++
    leBytes 4 p.starts ++ leBytes 4 p.rollback ++ leBytes 4 detail ++ leBytes 2 (576 - used) ++
    leBytes 1 clus.sum ++ List.replicate 9 0

/-- The detail of a record that names no stack, die or ports of its own: a free value in the range that the stage gives it
(R464; DESIGN CHOICE, log entry 4). -/
def freeDetail (stage v : Nat) : Nat :=
  match stage with | 2 => v % 8 | 3 => v % 4 | 5 => v % 4096 | _ => 0

/-- R462: a stage fails: the counter rises, and the device starts again or comes up in minimal mode, under the
slot that passed stage 1 or under the ROM (`rom`). -/
def failStart (rom : Bool) (stage reason detail : Nat) (s : State) : State :=
  let p := s.plat
  let last := decide (p.fails ≥ 2)
  let s := restart { s with plat := { p with fails := min 255 (p.fails + 1) } }
  if !last then s
  else
    { s with plat := { s.plat with
        stage := stage
        mode := if rom then .minimalRom else .minimalSlot
        mbel := if rom then [] else p.mbel
        bootrec := bootRecord s.plat stage reason (if rom then 1 else 0) detail } }

/-- The ports that do not come up are down. -/
def trainPorts (mask : BitVec 12) (s : State) : State :=
  { s with fab := { s.fab with
      ports := (List.range 12).foldl (fun m i => m.put i { m.get i with down := mask.getLsbD i }) s.fab.ports } }

/-- The version to which an image of the running slot raises the rollback counter (R463). -/
def advanceTo (p : Platform) (kind : Nat) : Nat :=
  let h := imageHeader p p.slot kind
  if bitAt (bodyF h 12 4) 0 then bodyF h 8 4 else 0

/-- Stage 6: the device is ready (R461 to R463, R471). -/
def ready (s : State) : State :=
  let p := s.plat
  { s with plat := { p with
      stage := 6, mode := .full, fails := 0, power := 2600, powerNow := 2600
      rollback := max p.rollback (max (advanceTo p 1) (advanceTo p 2))
      mbel := sha256 (imageBytes p p.slot 1), mkio := sha256 (imageBytes p p.slot 2) } }

/-- Stage 3: the units that the self-test finds failing, cores and clusters, are retired and replaced in their order (R461,
R467). -/
def selfTestAll (e : StartEnv) (s : State) : State :=
  (e.failing.filter fun u => decide (u < clusterUnit 576)).foldl (fun s u => retireUnit u s) s

/-- The die whose mesh cannot be formed with four cores in every cluster: one with a withheld quarter (R461, R467). -/
def meshDie (p : Platform) : Option Nat :=
  (List.range 4).find? fun d => (List.range 4).any fun q => p.withheld.getLsbD (4 * d + q)

/-- Stages 1 to 6 of a start: it stands still at a stage, fails or is ready. -/
def runStages (e : StartEnv) (s : State) : State :=
  let p := s.plat
  let a := verifyImage p 0 1
  let b := verifyImage p 1 1
  let s1 := { s with plat := { p with
    slot := if a.isNone then 0 else 1, mbel := sha256 (imageBytes p (if a.isNone then 0 else 1) 1) } }
  let still (k : Nat) (s : State) : State := { s with plat := { s.plat with stage := k, standing := true } }
  let minimal (s : State) : State := if s.plat.mode == .starting then s else trainPorts e.portMask s
  if e.hang = some 1 then still 1 s
  else match a, b with
    | some _, some r => minimal (failStart true 1 r 0 s)
    | _, _ =>
      if e.hang = some 2 then still 2 s1
      else match e.hbmFail with
        | some k => minimal (failStart false 2 4 k.val s1)
        | none =>
          if e.hang = some 3 then still 3 s1
          else
            let s1 := selfTestAll e s1
            match meshDie s1.plat with
            | some d => minimal (failStart false 3 5 d s1)
            | none =>
              if e.hang = some 4 then still 4 s1
              else if (verifyImage p s1.plat.slot 2).isSome then minimal (failStart false 4 6 0 s1)
              else if e.hang = some 5 then still 5 s1
              else if e.portMask = 0xFFF then minimal (failStart false 5 7 0xFFF s1)
              else ready (trainPorts e.portMask s1)

/-- R461: a start from stage 1. -/
def execPowerOnStart (e : StartEnv) (s : State) : Out :=
  if s.plat.mode != .starting || s.plat.stage ≠ 1 || s.plat.standing then .next s
  else
    let p := s.plat
    .next (runStages e { s with plat := { p with starts := min 0xFFFFFFFF (p.starts + 1), power := 2600, powerNow := 2600 } })

/-- R461: the watchdog of the stage that a start stands in expires. -/
def execStageWatchdog (s : State) : Out :=
  if s.plat.mode != .starting then .next s
  else
    let k := s.plat.stage
    .next (failStart (k ≤ 1) k 8 (freeDetail k (Config.freeValue s.freeCtr).toNat) s.bump)

/-! ### Requests about the platform (R437, R438, R464, R465) -/

/-- The attestation report of R465. Digests of images that do not run are open values. -/
def attestReport (nonce : List Byte) (s : State) : List Byte :=
  let p := s.plat
  let open_ (k : Nat) : List Byte := (List.range 4).flatMap fun i =>
    leBytes 8 (Config.freeValue (s.freeCtr + 4 * k + i)).toNat
  let body := leBytes 4 0x41545354 ++ leBytes 2 s.fab.devid ++ leBytes 1 p.slot ++
    leBytes 1 (if p.mode == .full then 0 else 1) ++ nonce.take 32 ++
    (if p.mbel.isEmpty then open_ 0 else p.mbel) ++ (if p.mkio.isEmpty then open_ 1 else p.mkio) ++
    sha256 (Config.repairBytes p.pcore p.pcluster) ++ leBytes 4 p.rollback ++ List.replicate 52 0
  let digest := sha256 body
  body ++ ecdsaSign Config.identityKey (Config.signNonce digest) digest

/-- The status body of R438. -/
def statusBody (s : State) : List Byte :=
  let p := s.plat
  (List.range 13).flatMap (fun i => leBytes 2 (Config.temperature i s.time).toNat) ++
    leBytes 2 (Config.watts s.time).toNat ++ leBytes 2 p.power ++ leBytes 2 p.retiredCores ++
    leBytes 1 p.retiredClusters ++ [0] ++ leBytes 2 p.withheld.toNat ++ leBytes 4 0

/-- The boot failure record, or zeros before the first failure. -/
def bootBytes (s : State) : List Byte :=
  if s.plat.bootrec.isEmpty then List.replicate 32 0 else s.plat.bootrec

/-- The free values that a report has used passed over. -/
def bump8 (s : State) : State := { s with freeCtr := s.freeCtr + 8 }

/-- R465. -/
def execAttest (r : MgmtReq) (s : State) : Out :=
  wideReq 0x0010 false (exactly 32) r s fun s => (some (0, attestReport r.body s), bump8 s)
/-- R438. -/
def execStatus (r : MgmtReq) (s : State) : Out :=
  wideReq 0x0011 false (exactly 0) r s fun s => (some (0, statusBody s), s)
/-- R464. -/
def execBootrec (r : MgmtReq) (s : State) : Out :=
  wideReq 0x0012 true (exactly 0) r s fun s => (some (0, bootBytes s), s)

/-- R437: bytes written into the boot flash of a slot. -/
def execSlotwrite (r : MgmtReq) (s : State) : Out :=
  wideReq 0x0013 true (fun k => decide (9 ≤ k) && decide (k ≤ 2032)) r s fun s =>
    let slot := bodyF r.body 0 1
    let o := bodyF r.body 4 4
    let bs := r.body.drop 8
    let p := s.plat
    if decide (slot > 1) || !zeros r.body 1 3 || decide (o + bs.length > 2 ^ 32) then done 1 s
    else if p.mode == .full && slot = p.slot then done 4 s
    else done 0 { s with plat := { p with flash := p.flash.setRange (slot * 2 ^ 32 + o) (bs.map some) } }

/-- R462: the counter of failed starts is cleared. -/
def execClearfail (r : MgmtReq) (s : State) : Out :=
  wideReq 0x0014 true (exactly 0) r s fun s => done 0 { s with plat := { s.plat with fails := 0 } }

/-- The packets of a class that a port still holds go out on its link (R437). -/
def sendAll (port cls : Nat) (s : State) : State :=
  let q := s.fab.ports.get port
  let l := formed port cls s
  if q.down then s
  else { s with fab := { s.fab with
      wire := s.fab.wire ++ l.drop (q.served.get cls)
      ports := s.fab.ports.put port { q with served := q.served.put cls l.length } } }

/-- R437, R461: the answer is sent, and the device starts again from stage 1. -/
def execReset (r : MgmtReq) (s : State) : Out :=
  match wideReq 0x0015 true (exactly 0) r s fun s => done 0 s with
  | .next t => if r.vdev = 0xFFFF && r.svdev = 0xFFFF && r.body.isEmpty && s.plat.mode != .starting then
      .next (restart (sendAll (Config.portOf r.sdev).val 2 t)) else .next t
  | o => o

/-! ### Repair (R467) -/

/-- The cores of a unit, a core or a cluster. -/
def coresOfUnit (unit : Nat) : List Nat :=
  if unit < 2304 then [unit] else (List.range 4).map fun i => unitCore unit + i

/-- R467: the idle-time self-test finds that a core, or, from 2,304 on, a cluster fails; it holds no group. -/
def execSelfTest (unit : Nat) (s : State) : Out :=
  if unit ≥ clusterUnit 576 || (coresOfUnit unit).any (fun k => (s.core k).grp.isSome) then .next s
  else .next (retireUnit unit s)

/-- R467, R468: the corrected errors of a core, or, from 2,304 on, of a cluster pass the limit. -/
def execCorrectedErrorLimit (unit : Nat) (s : State) : Out :=
  if unit ≥ clusterUnit 576 then .next s else .next (retireUnit unit s)

/-! ### Errors and watchdogs (R390, R470) -/

/-- R439: notice MACHINE. -/
def noteMachine (vdev core : Nat) (s : State) : State :=
  notice 0x101 vdev (leBytes 2 core ++ leBytes 6 0) s

/-- R390, R439: MACHINE is reported on the management sideband and by a notice: the virtual device and the core. -/
def reportMachine (vdev core : Nat) (s : State) : State :=
  let s := noteMachine vdev core s
  { s with plat := { s.plat with machines := (vdev, core) :: s.plat.machines } }

/-- MACHINE raised in the group of a core. -/
def machineIn (s : State) (core : Nat) : State :=
  match (s.core core).grp with
  | none => s
  | some g => terminateFor core 0x3F (reportMachine g.vdev core s)

/-- R390: an uncorrectable error is found in state that the group of a core needs; beyond the last core, in
Belvedere's own state, which ends every live group and resets the device as a failed start (R470). The stage,
reason and detail of that failure are open values in their ranges (R464). -/
def execMachineError (core : Nat) (s : State) : Out :=
  if core < 2304 then .next (machineIn s core)
  else
    let s := s.cores.keys.foldl machineIn (reportMachine 0xFFFF 0xFFFF s)
    let v := (Config.freeValue s.freeCtr).toNat
    let k := v % 5 + 1
    .next (failStart false k (v / 8 % 8 + 1) (freeDetail k (v / 64)) s.bump)

/-- R470: the watchdog restarts Belvedere from its slot. What it owns is rebuilt as it was, and what arrives
meanwhile is applied afterwards. -/
def execBelvedereWatchdog (s : State) : Out := .next s

/-! ### Temperature (R471) -/

/-- R471: firmware lowers the budget of a cluster, or restores it. -/
def execThermalLimit (cluster : Nat) (budget : Option Nat) (s : State) : Out :=
  let v := match budget with | some b => if b < 4 * s.plat.power then b + 1 else 0 | none => 0
  if cluster ≥ 576 then .next s
  else .next { s with plat := { s.plat with budget := s.plat.budget.put cluster v } }

/-! ### The sideband (R472) -/

/-- A read of the sideband. -/
def sidebandRead (b : List Byte) (s : State) : State := { s with plat := { s.plat with sideband := b } }

/-- R464, R472. -/
def execI3cBootRecord (s : State) : Out := .next (sidebandRead (bootBytes s) s)
/-- R465, R472. -/
def execI3cAttest (nonce : List Byte) (s : State) : Out := .next (sidebandRead (attestReport nonce s) (bump8 s))
/-- R472: temperatures, power and the count of retired units, as in R438. -/
def execI3cStatus (s : State) : Out := .next (sidebandRead (statusBody s) s)
/-- R472. -/
def execI3cReset (s : State) : Out := .next (restart s)

end Sys2Proof.Machine
end

