-- ==== Sys2Proof/Machine/Save.lean ====
section
/-! DEFINITION. The save area of a group (R403 to R405, R399), as its bytes are. A saved group is held as its
image, and the area is computed from it (DESIGN CHOICE, log entry 24); regions the spec marks opaque hold
Config.cmdBytes. -/

namespace Sys2Proof.Machine

/-- Bytes cut or filled with zeros to a size. -/
def fit (n : Nat) (b : List Byte) : List Byte := b.take n ++ List.replicate (n - b.length) 0

/-- Doublewords as bytes. -/
def dwords (l : List DWord) : List Byte := l.flatMap fun v => leBytes 8 v.toNat

/-- Bits as bytes, the first in bit 0 of the first byte. -/
def bitBytes (n : Nat) (f : Nat → Bool) : List Byte :=
  (List.range n).map fun i => BitVec.ofNat 8 (((List.range 8).map fun j => if f (8 * i + j) then 2 ^ j else 0).sum)

/-- The ranks of every pending report of a context: its store, LOSSFLOOR, and the PREXPIRED it raises. -/
def reportRanks (w : Who) (s : State) : List Nat :=
  let c := s.ctx w
  c.reports.map (·.order) ++ (match c.lossfloor with | some r => [r.order] | none => []) ++
    (expiredFor w s).map Prod.fst

/-- The order byte of a report of a context: 0 for the oldest (R405). -/
def orderOf (w : Who) (rank : Nat) (s : State) : Nat := ((reportRanks w s).filter (· < rank)).length

/-- A pending report of a context: 16 bytes (R405). -/
def reportBytes (w : Who) (r : Report) (s : State) : List Byte :=
  leBytes 1 r.cause ++ leBytes 1 w.ctx ++ leBytes 1 (orderOf w r.order s) ++ leBytes 5 0 ++ leBytes 8 r.tval.toNat

/-- The 128 bytes of stream state (R405). -/
def streamBytes : Option Stream → List Byte
  | none => List.replicate 128 0
  | some t =>
    fit 128 (leBytes 1 (if t.store then 1 else 0) ++ leBytes 1 t.q.val ++ leBytes 1 (Width.bytes t.w) ++
      leBytes 1 (if t.sx then 1 else 0) ++ leBytes 4 0 ++ leBytes 8 t.next ++ leBytes 8 t.count ++
      leBytes 8 t.ea.toNat ++ leBytes 8 (patOf 64 t.stride) ++ leBytes 8 0 ++ leBytes 16 t.cap.bits.toNat ++
      dwords (t.guards.getRange 0 4))

/-- The outstanding fault queue entry of a context, or zeros. -/
def parkedBytes (vdev : Nat) (w : Who) (s : State) : List Byte :=
  match (s.vdev vdev).fout.find? fun p => match p.2 with
    | some f => f.party == .ctx w || f.party == .vector w
    | none => false with
  | some (seq, some f) => faultEntry f seq
  | _ => List.replicate 32 0

/-- The block of a context (R405): `w` names it in a state in which its core holds the group, `slot` names the
saved group in the parties of faults. -/
def contextBlock (vdev slot : Nat) (w : Who) (s : State) : List Byte :=
  let c := s.ctx w
  if !c.live then List.replicate 0x800 0
  else
    let b (x : Bool) (n : Nat) : Nat := if x then n else 0
    let counts := [c.lq0.length, c.lq1.length, c.sq0.length, c.sq1.length, c.xq.length, c.cq.length]
    let l := c.loop.getD default
    fit 0x800 (dwords [c.pc.setWidth 64, statusVal s w, c.cause, c.epc, c.tval, c.tvec, c.scratch, c.fflags,
        c.eflags, BitVec.ofNat 64 c.resume] ++
      dwords (c.guards.getRange 0 4) ++
      bitBytes 2 (fun i => if h : i < 16 then (c.ra ⟨i, h⟩).tag else false) ++
      counts.flatMap (fun n => leBytes 1 n) ++
      bitBytes 1 (fun i => c.cq.getD i false) ++
      leBytes 1 (b c.loop.isSome 1 + b (c.park != .free) 2 + 4) ++
      leBytes 2 l.start.toNat ++ leBytes 2 l.stop.toNat ++ leBytes 1 l.ctr.val ++ [0] ++
      ((List.range 16).flatMap fun i =>
        leBytes 16 (if h : i < 16 then (c.ra ⟨i, h⟩).bits.toNat else 0)) ++
      dwords (c.d.getRange 0 32) ++
      fit 128 (dwords c.lq0) ++ fit 128 (dwords c.lq1) ++ fit 128 (dwords c.sq0) ++ fit 128 (dwords c.sq1) ++
      fit 64 (dwords c.xq) ++ streamBytes c.stream ++
      leBytes 1 c.reports.length ++ leBytes 1 (b c.lossfloor.isSome 1) ++ leBytes 14 0 ++
      fit 384 (c.reports.flatMap fun r => reportBytes w r s) ++
      parkedBytes vdev ⟨slotCore slot, w.ctx⟩ s ++
      (match c.lossfloor with | some r => reportBytes w r s | none => List.replicate 16 0))

/-- The core block (R404). -/
def coreBlock (core : Nat) (s : State) : List Byte :=
  let k := s.core core
  fit 0x300 (dwords ([k.rng, k.srseed] ++ k.win.getRange 0 4 ++
      [k.rxbase, k.rxsize, k.rxhead, k.rxtail, k.rxflags, k.rxdrop] ++ k.dom.getRange 0 16 ++
      [k.barph, k.plan, k.xcyc, k.ring, k.vshare, govVal k, k.step, k.cycle, k.winrej,
       k.ferefuse]) ++
    ((List.range 16).flatMap fun n => leBytes 1 (k.chans.get n).arrived.length) ++
    dwords [k.ofGrp specVal] ++ bitBytes 2 (fun i => (k.ctxs.get i).live))

/-- The promise table (R403). -/
def promiseBytes (core : Nat) (s : State) : List Byte :=
  (List.range 16).flatMap fun i =>
    let p := (s.core core).mx.promises.get i
    let who : Who := ⟨core, if (s.ctx ⟨core, p.ctx⟩).live then p.ctx else 0⟩
    leBytes 4 p.seq.toNat ++ leBytes 2 p.roff ++ leBytes 2 p.offW ++ leBytes 1 p.ctx ++
      leBytes 1 (PrState.num p.last) ++ leBytes 1 (if p.inUse then 1 else 0) ++
      leBytes 1 (if p.pend.isSome then 1 else 0) ++
      leBytes 1 (match p.pend with | some r => orderOf who r s | none => 0) ++ leBytes 3 0

/-- The 118,784 bytes of the save area of a saved group (R403). -/
def saveArea (slot : Nat) (v : Saved) (s : State) : List Byte :=
  let s := s.setCore v.core v.img
  let k := v.img
  let g := k.grp.getD default
  fit 0x100 (leBytes 4 0x53525641 ++ leBytes 4 0 ++ leBytes 4 g.id ++ leBytes 2 v.group ++ leBytes 2 v.core ++
      leBytes 1 v.reason) ++
    coreBlock v.core s ++
    ((List.range 11).flatMap fun i => contextBlock g.vdev slot ⟨v.core, i⟩ s) ++
    ((k.v.getRange 0 2048).flatMap fun w => leBytes 4 w.toNat) ++
    dwords (BitVec.allOnes 64 :: k.vm.getRange 1 7) ++ List.replicate 0xC0 0 ++
    ((List.range 5).flatMap fun p => partOf k.mx p) ++
    promiseBytes v.core s ++ fit 16 k.mx.loss ++
    fit 0xF0 (leBytes 4 k.mx.nextSeq.toNat ++ Config.cmdBytes k.mx.queue) ++
    fit 0x100 (leBytes 8 k.cp.seq.toNat ++ Config.cmdBytes k.cp.queue) ++
    List.replicate 0x380 0 ++ k.lm.getRange 0 0xC000 ++ bitBytes 0x180 (fun i => k.ltag.get i) ++
    bitBytes 0x300 (fun i => k.fe.get i) ++ List.replicate 0x380 0

end Sys2Proof.Machine
end

