-- ==== Sys2Proof/Machine/Migrate.lean ====
section
/-! DEFINITION. The migration of a virtual device, at its source and at its target, and the moves of the
residue's pages (R443 to R448). -/

namespace Sys2Proof.Machine

/-! ### What moves (R443) -/

/-- The pages of the spaces of a virtual device. -/
def pagesOf (v : VDev) (mem : List Host.Cell) : List MovedPage :=
  v.spaces.flatMap fun p =>
    if p.2.st == .absent then []
    else (leavesOf mem [4, 3, 2, 1, 0] p.2.root 0).map fun q => ⟨p.1, q.1, BitVec.ofNat 64 q.2⟩

/-- The saved groups of a virtual device. -/
def savedIn (v : Nat) (s : State) : SMap (Option Saved) :=
  s.savedGroups.filter fun p => match p.2 with | some x => (x.img.vdevNo == v) | none => false

/-- A key of channels 0 to 14 belongs to a virtual device. -/
def keyIn (v key : Nat) : Bool := decide (key / 2 ^ 22 < 15) && key % 2 ^ 22 / 64 == v

/-- The contributions of groups that move to a reduction of channel 15: its result where it is complete; where this device has
sent its part upward they count as sent (R274; DESIGN CHOICE, log entry 15). -/
def movedRed (ids : List Nat) (l : List Contribution) : List Contribution :=
  let own := l.filter fun x => ids.contains x.core
  match l.find? fun x => x.core == finalMark with
  | some x => [x]
  | none => if l.any fun x => x.core == sentMark then own.map fun x => { x with op := sentElsewhere } else own

/-- What a migration of a virtual device moves. -/
def movedState (v : Nat) (s : State) : Moved :=
  let d := s.vdev v
  let port (p : Party) : Bool := match p with | .port _ => true | _ => false
  let gs := savedIn v s
  let imgs := gs.filterMap fun p => p.2.map fun x => x.img
  let own := imgs.filterMap fun c => c.key 15
  let ids := imgs.filterMap fun c => c.grp.map memberId
  let ls := s.launches.filter fun p => p.2.alive && p.2.vdev == v
  { src := s.fab.devid, vdev := v, residue := (s.fab.migs.get v).residue
    dev := { d with
      fwait := d.fwait.filter fun f => !port f.party
      fout := d.fout.filter fun q => match q.2 with | some f => !port f.party | none => false }
    queues := s.queues.filter fun p => p.2.alive && p.2.vdev == v
    launches := ls
    groups := gs
    keys := s.keys.filter fun p => keyIn v p.1 || own.contains p.1
    offs := own.foldl (fun m k => m.put k ((s.fab.pods.get k).off % 2)) []
    reds := (s.reds.filter fun p => keyIn v (p.1 / 2 ^ 32) || own.contains (p.1 / 2 ^ 32)).map fun p =>
      (p.1, if keyIn v (p.1 / 2 ^ 32) then p.2 else movedRed ids p.2)
    pergs := s.fab.pergs.filter fun p => ls.any fun l => l.2.pergola && l.2.pgid == p.1
    peers := (s.fab.ports.foldl (fun l p => p.2.peers.keys.foldl setIns l) []).foldl
      (fun m v => m.put v (peerEntry v s)) ([] : SMap Nat)
    pages := pagesOf d s.mem }

/-- The bytes of the STATE packets: the save area of every group (R403), then Belvedere's state. -/
def Moved.bytes (m : Moved) : List Byte :=
  let s : State := { (default : State) with vdevs := SMap.put ([] : SMap VDev) m.vdev m.dev }
  m.groups.flatMap (fun p => match p.2 with | some x => saveArea p.1 x s | none => []) ++ Config.movedBytes m

/-- What a target takes from the bytes of the STATE packets: it accepts only what has these bytes, so that every group has the
save area that the source has sent (R403, R443; DESIGN CHOICE, log entry 16). -/
def acceptedState (b : List Byte) : Option Moved :=
  (Config.movedOf b).bind fun m => if m.bytes = b then some m else none

/-! ### The source before the commit -/

/-- No core runs a group of a virtual device that is to move, and no answer to a fault of it is on its way to a Kiosk. -/
def quiesced (v : Nat) (s : State) : Bool :=
  quiesces v s && !answersOut v s && !(s.cores.any fun p => match p.2.grp with | some g => g.vdev == v | none => false)

/-- Bytes in pieces of at most 1,024; `fuel` bounds their number. -/
def chunks : Nat → List Byte → List (List Byte)
  | 0, _ => []
  | fuel + 1, b => if b.isEmpty then [] else b.take 1024 :: chunks fuel (b.drop 1024)

/-- The task of Belvedere that moves a virtual device. -/
def moveTask (v : Nat) : Nat := 2 ^ 35 * 2 ^ 64 + v

/-- A STATE packet sent: the offset in addr, the size of the whole in bits 47:0 of op0, the quarters needed in bits 63:48 (DESIGN CHOICE, log
entry 16). -/
def sendChunk (v total : Nat) (s : State) (p : Nat × List Byte) : State :=
  let m := s.fab.migs.get v
  let base := mkReq (.io (moveTask v)) 0x30 m.target v m.residue (BitVec.ofNat 64 p.1) s
  let pk : Packet := { base with
    cls := 3, len := p.2.length, payload := p.2, op0 := BitVec.ofNat 64 (total % 2 ^ 48 + (s.vdev v).quarters.toNat * 2 ^ 48) }
  if routeLost m.target s then { s with fab := { s.fab with migs := s.fab.migs.put v { m with refused := true } } }
  else issueReq (.io (moveTask v)) pk s

/-- The members of a virtual device in every pergola marked MOVING (R441). -/
def markMoving (v : Nat) (s : State) : State :=
  s.launches.foldl (fun s p =>
    if p.2.alive && p.2.vdev == v && p.2.pergola then
      p.2.gst.foldl (fun s g => match g.2 with
        | .saved _ => pergMark p.2.pgid (p.2.pgF + g.1) 5 s
        | _ => s) s
    else s) s

/-- R443 step 2: the state goes out. -/
def sendState (v : Nat) (s : State) : State :=
  let s := markMoving v s
  let b := (movedState v s).bytes
  let cs := chunks (b.length / 1024 + 1) b
  let s := ((List.range cs.length).zip cs).foldl (fun s p => sendChunk v b.length s (1024 * p.1, p.2)) s
  { s with fab := { s.fab with
      migs := s.fab.migs.put v { s.fab.migs.get v with sent := true, total := cs.length, acks := 0 } } }

/-! ### Tables and frames that firmware makes (DESIGN CHOICE, log entry 17) -/

/-- Firmware takes a block of a size at the top of memory, aligned to it, and clears it (DESIGN CHOICE, log entry 17). -/
def takeBlock (n : Nat) (s : State) : Nat × State :=
  let used := (s.fab.taken + n + n - 1) / n * n
  let a := hbmEnd - used
  (a, ({ s with fab := { s.fab with taken := used } }).physStore a (List.replicate n 0))

/-- The table of the last level listed that serves an address, made where it is not there. -/
def tableFor : List Nat → Nat → Nat → State → Nat × State
  | [], t, _, s => (t, s)
  | L :: rest, t, va, s =>
    let a := t + 16 * bitsOf va (9 * L + 20) (9 * L + 12)
    let e := s.physNum a 8
    if twBit e 0 then tableFor rest (twFrame e * 4096) va s
    else
      let b := takeBlock 8192 s
      tableFor rest b.1 va (b.2.physStore a (leBytes 8 (b.1 + 1)))

/-- A leaf word written into every entry of its group. -/
def putLeaf (entry size word : Nat) (s : State) : State :=
  (List.range (groupSize size)).foldl (fun s i => s.physStore (entry + 16 * i) (leBytes 8 word)) s

/-! ### Pages of a residue (R445, R446) -/

/-- The leaf of a page that a residue still holds. -/
def heldLeaf (residue space va : Nat) (s : State) : Option Leaf :=
  let sp := (s.vdev residue).spaces.get space
  if sp.st == .absent then none
  else match walk s.mem sp.root va with
    | .ok l => if twBit l.word 5 then none else some l
    | .error _ => none

/-- A residue still holds a page of the device. -/
def holdsPages (residue : Nat) (s : State) : Bool :=
  (pagesOf (s.vdev residue) s.mem).any fun p => !twBit p.word.toNat 5

/-- R446: a residue that holds no page is destroyed, and the host is told. -/
def dropResidue (residue : Nat) (s : State) : State :=
  let r := s.fab.residues.get residue
  if !r.held || holdsPages residue s then s
  else
    let d := s.vdev residue
    let s := d.faults.foldl (refuseHeld 0x19) s
    let s := (dropTlb (fun t => t.vdev == residue) s).setVdev residue default
    let s := goOnBehind d.faults { s with fab := { s.fab with residues := s.fab.residues.drop residue } }
    notice 0x102 residue (leBytes 2 r.vdev ++ leBytes 2 0) s

/-- The oldest request for pages is complete. -/
def askDone (residue : Nat) (a : Option (Nat × Nat)) (s : State) : Bool :=
  match a with
  | some (sp, va) => (heldLeaf residue sp va s).isNone
  | none => !holdsPages residue s

/-- The requests for pages that are complete answered, in their order; `fuel` bounds their number. -/
def answerAsked (residue : Nat) : Nat → State → State
  | 0, s => s
  | fuel + 1, s =>
    let r := s.fab.residues.get residue
    match r.asked with
    | (q, a) :: rest =>
      if askDone residue a s then
        let s := { s with fab := { s.fab with residues := s.fab.residues.put residue { r with asked := rest } } }
        answerAsked residue fuel (mgmtAnswer 0x000B q 0 [] s)
      else s
    | [] => s

/-- The requests answered, and the residue destroyed when it is empty. -/
def settleResidue (residue : Nat) (s : State) : State :=
  dropResidue residue (answerAsked residue ((s.fab.residues.get residue).asked.length) s)

/-- The task of Belvedere that moves a page of a residue. -/
def pageTask (residue : Nat) : Nat := 2 ^ 36 * 2 ^ 64 + residue

/-- A PAGE packet of a page: 1,024 bytes of its contents and after them the tags of their granules in 8 bytes, with
its companion word in op0 (DESIGN CHOICE, log entry 16). -/
def sendPage (residue v target space : Nat) (l : Leaf) (s : State) (i : Nat) : State :=
  let pa := twFrame l.word * 4096 + 1024 * i
  let bs := SMap.getRange (α := Byte) s.mem pa 1024
  let tags := ((List.range 64).map fun j => if s.mtag.get (pa / 16 + j) then 2 ^ j else 0).sum
  let ag : Agent := .io (pageTask residue)
  issueReq ag { mkReq ag 0x31 target v space (BitVec.ofNat 64 (l.page + 1024 * i)) s with
    cls := 3, len := 1032, payload := bs ++ leBytes 8 tags
    op0 := BitVec.ofNat 64 (s.physNum (l.entry + 8) 8) } s

/-- The page is to be moved: its remote count has reached the threshold, or the host asks for it. -/
def wantsMove (r : Residue) (residue space : Nat) (l : Leaf) (s : State) : Bool :=
  decide (bitsOf (s.physNum (l.entry + 8) 8) 23 8 ≥ r.thr) || match r.asked with
    | (_, none) :: _ => true
    | (_, some (sp, va)) :: _ => sp == space && (heldLeaf residue sp va s) == some l
    | [] => false

/-- R445 steps 1 to 3: a page of a residue is frozen and sent. Accesses of this model are performed in one step, so none is
under way at step 2. -/
def beginMove (residue space : Nat) (l : Leaf) (s : State) : State :=
  let r := s.fab.residues.get residue
  let n := 4096 * 2 ^ twSize l.word
  let s := dropTlb (fun t => t.inRange residue space l.page n) s
  let f : Residue := { r with frozen := some ⟨space, l.page, BitVec.ofNat 64 l.word⟩ }
  let s := { s with fab := { s.fab with residues := s.fab.residues.put residue f } }
  (List.range (n / 1024)).foldl (sendPage residue r.vdev r.target space l) s

/-- The answers of the target to the packets of a page: none while one is missing, and whether it has taken them all. -/
def pageAnswers (residue : Nat) (s : State) : Option Bool :=
  let rs := s.fab.reqs.filterMap fun p => p.2.bind fun r => if r.agent == .io (pageTask residue) then some r.answer else none
  if rs.any (·.isNone) then none else some (rs.all fun a => match a with | some (0, _) => true | _ => false)

/-- The move of a page is over: the accesses that its port has held go on. -/
def thaw (residue : Nat) (s : State) : State :=
  let r := s.fab.residues.get residue
  r.waiting.foldl (fun s p => portQueue p s) (ioDone (pageTask residue) { s with fab := { s.fab with
    residues := s.fab.residues.put residue { r with frozen := none, waiting := [] } } })

/-- R445 steps 4 and 5: once the target has taken the page it is marked as resident at the moved virtual device, and the
accesses held are answered MOVED; if the target has refused it, it stays (DESIGN CHOICE, log entry 16). -/
def endMove (residue : Nat) (l : Leaf) (took : Bool) (s : State) : State :=
  let r := s.fab.residues.get residue
  let k := twSize l.word
  let word := l.word % 256 - l.word % 2 + 1 + 32 + k * 256 + r.vdev * 4096
  let s := thaw residue (if took then putLeaf l.entry k word s else s)
  if took then settleResidue residue s else s

/-- R445 at the source. -/
def execPageMove (residue space : Nat) (va : DWord) (s : State) : Out :=
  let r := s.fab.residues.get residue
  match heldLeaf residue space va.toNat s, r.frozen with
  | none, _ => .next s
  | some l, none => .next (if r.held && wantsMove r residue space l s then beginMove residue space l s else s)
  | some l, some g =>
    if g.space ≠ space || g.page ≠ l.page then .next s
    else match pageAnswers residue s with
      | some took => .next (endMove residue l took s)
      | none => .next s

/-- R446: the host asks for a page, or every remaining page, to be moved. -/
def execPagemove (r : MgmtReq) (s : State) : Out :=
  inTurn 0x000B r s <| mgmtReq 0x000B false (exactly 16) r s fun s =>
    let va := bodyF r.body 0 8
    let sp := bodyF r.body 8 2
    let fl := bodyF r.body 10 2
    match s.fab.residues.find? fun p => p.2.held && p.2.vdev == r.vdev with
    | none => done 6 s
    | some (res, x) =>
      if decide (fl > 1) || !zeros r.body 12 4 || (fl = 1 && (va ≠ 0 || sp ≠ 0)) then done 1 s
      else
        let a := if fl = 1 then none else some (sp, va)
        let s := { s with fab := { s.fab with
          residues := s.fab.residues.put res { x with asked := x.asked ++ [(r, a)] } } }
        (none, settleResidue res s)

/-- Tags of the granules from a physical address on, as a PAGE packet carries them. -/
def putTags (pa : Nat) (bits : Nat) (s : State) : State :=
  { s with mtag := (List.range 64).foldl (fun m j => m.put (pa / 16 + j) (bitAt bits j)) s.mtag }

/-- The frame that takes a page at the target, taken when its first part arrives. -/
def frameFor (l : Leaf) (s : State) : Nat × State :=
  match s.fab.frames.get l.entry with
  | n + 1 => (n, s)
  | 0 =>
    let b := takeBlock (4096 * 2 ^ twSize l.word) s
    (b.1, { b.2 with fab := { b.2.fab with frames := b.2.fab.frames.put l.entry (b.1 + 1) } })

/-- R445 step 3 at the target: a part of a page arrives, one before the commit to be sent again; with the last the leaf gets F = 0, the companion word
its DIE bits, and the TLBs lose the page. -/
def execPage (p : Packet) (s : State) : Out :=
  receive p 0x31 s fun s =>
    let sp := (s.vdev p.tvdev).spaces.get p.space
    let va := p.addr.toNat
    if !(s.vdev p.tvdev).alive && arrivingHere p.tvdev s then .next (reply p 0x40 [] s)
    else if s.fab.movedTo.get p.tvdev ≠ 0 then .next (replyMoved p (s.fab.movedTo.get p.tvdev - 1) p.tvdev s)
    else match walk s.mem sp.root va with
    | .error _ => .next (reply p 0x19 [] s)
    | .ok l =>
      if !(s.vdev p.tvdev).alive || sp.st == .absent || !twBit l.word 5 then .next (reply p 0x19 [] s)
      else
        let k := twSize l.word
        let n := 4096 * 2 ^ k
        let f := frameFor l s
        let pa := f.1 + (va - l.page)
        let s := putTags pa (leNat (p.payload.drop 1024)) (f.2.physStore pa (p.payload.take 1024))
        if va - l.page + 1024 < n then .next (reply p 0 [] s)
        else
          let word := l.word % 32 + k * 256 + f.1
          let s := putLeaf l.entry k word s
          let s := s.physStore (l.entry + 8) (leBytes 8 (p.op0.toNat ||| 0xF))
          let s := dropTlb (fun t => t.inRange p.tvdev p.space l.page n) s
          .next (reply p 0 [] { s with fab := { s.fab with frames := s.fab.frames.drop l.entry } })

/-! ### The end of a migration at the source -/

/-- A request that has waited for the migration to end is performed (R436). -/
def performWaiting (s : State) (p : Nat × MgmtReq) : State :=
  let r := p.2
  let o : Out := match p.1 with
    | 0x1 => execVdcreate r s
    | 0x2 => execVddestroy r s
    | 0x3 => execQcreate r s
    | 0x4 => execQdestroy r s
    | 0x5 => execQage r s
    | 0x6 => execFqset r s
    | 0x7 => execFqanswer r s
    | 0x8 => match bodyF r.body 0 1 with
      | 1 => execCreate r s
      | 2 => execInvrange r s
      | 3 => execInvspace r s
      | _ => execTeardown r s
    | 0x9 => execPgbind r s
    | 0xA => execMigrate r s
    | _ => execPagemove r s
  match o with | .next t => t | _ => s

/-- The requests about a virtual device that have waited follow in their order; one that takes time holds those after
it. -/
def nextWaiting (v : Nat) (s : State) : State :=
  (s.fab.waitReqs.get v).foldl performWaiting { s with fab := { s.fab with waitReqs := s.fab.waitReqs.drop v } }

/-- What the target is told at the end of a migration, in a STATE packet without bytes: bit 63 of addr, the commit, bit 62,
that it has failed (DESIGN CHOICE, log entry 16). -/
def tellTarget (v bit : Nat) (s : State) : State :=
  let m := s.fab.migs.get v
  let base := mkReq (.post 0) 0x30 m.target v m.residue (BitVec.ofNat 64 (2 ^ bit)) s
  if m.sent then issueReq (.post 0) { base with cls := 3 } s else s

/-- A migration ends: its packets are forgotten, MIGRATE is answered, and the requests that waited follow. -/
def endMigration (v stat : Nat) (s : State) : State :=
  let m := s.fab.migs.get v
  let mine (r : Option Req) : Bool := match r with
    | some r => r.pkt.typ == 0x30 && r.pkt.tvdev == v && !(match r.agent with | .post _ => true | _ => false)
    | none => true
  let s := { s with fab := { s.fab with
    migs := s.fab.migs.drop v, reqs := s.fab.reqs.filter fun p => !mine p.2 } }
  let s := s.setVdev v { s.vdev v with moving := false }
  nextWaiting v (mgmtAnswer 0x000A m.req stat [] s)

/-- Invalidations whose accesses are over are answered (R382, R385). -/
def settleInval (s : State) (x : Inval) : State :=
  if x.ids.any fun i => match s.fab.reqs.get i with | some r => r.answer.isNone | none => false then s
  else
    let s := { s with fab := { s.fab with invals := s.fab.invals.erase x } }
    let s := if x.teardown then endSpace x.req.vdev x.space s else s
    nextWaiting x.req.vdev (mgmtAnswer 0x0008 x.req 0 [] s)

/-- The same for every one that waits. -/
def settleInvals (s : State) : State := s.fab.invals.foldl settleInval s

/-- What requests have waited for is settled: invalidations, the ends of launches, and the requests that come after one that has
been answered (R341, R382, R436). -/
def settleReqs (s : State) : State :=
  let s := settleEnds (settleInvals s)
  s.fab.waitReqs.keys.foldl (fun s v => if inHand v s then s else nextWaiting v s) s

/-- Remote accesses held at a port for a virtual device that has moved are answered MOVED. -/
def moveHeld (dev v : Nat) (s : State) (f : FaultRec) : State :=
  match f.party with
  | .port p => replyMoved p dev v (portFree p s)
  | _ => s

/-- The messages that still wait at a core for a virtual device that has moved: one from another device is answered MOVED, one
of a core of this device goes on to the target (R443, R448). -/
def sendOn (v target : Nat) (s : State) (core : Nat) : State :=
  let mine (m : Message) : Bool := bitsOf m.dest.toNat 31 16 == v
  let c := s.core core
  (c.rxIn.filter mine).foldl (fun s m => match m.pkt with
    | some p => replyMoved p target v s
    | none => sendAway m.who target m.core m.vdev m.dest m.isPkt m.payload s)
    (s.setCore core { c with rxIn := c.rxIn.filter fun m => !mine m })

/-- Saved groups forgotten because they have moved. -/
def forgetSaved (s : State) (p : Nat × Option Saved) : State := dropSaved p.1 s

/-- A peer entry written in every port (R431). -/
def setPeers (v e : Nat) (s : State) : State := (List.range 12).foldl (fun s i => setPeer i v e s) s

/-- R443 steps 3 and 5 at the source: the memory becomes the residue, and the device is answered MOVED. A
residue without a page is destroyed at once (R446). -/
def commitSource (v : Nat) (s : State) : State :=
  let m := s.fab.migs.get v
  let d := s.vdev v
  let s := tellTarget v 63 s
  let s := d.faults.foldl (moveHeld m.target v) s
  let s := (savedIn v s).foldl forgetSaved s
  let s := dropTlb (fun t => t.vdev == v) s
  let s := { s with
    queues := s.queues.filter fun p => !(p.2.alive && p.2.vdev == v)
    launches := s.launches.filter fun p => p.2.vdev ≠ v }
  let s := s.setVdev v default
  let s := s.setVdev m.residue { (default : VDev) with spaces := d.spaces, fqBlock := d.fqBlock }
  let s := { s with fab := { s.fab with
    residues := s.fab.residues.put m.residue ⟨true, v, m.target, m.thr, [], none, []⟩
    movedTo := s.fab.movedTo.put v (m.target + 1) } }
  let s := setPeers v (0x8000 + m.target) s
  let s := s.cores.keys.foldl (sendOn v m.target) s
  settleResidue m.residue (endMigration v 0 (goOnBehind d.faults s))

/-! ### The target (R443 to R445) -/

/-- The quarters of this device that are free. -/
def freeQuarters (s : State) : List Nat := (List.range 16).filter fun q => !(takenQuarters s).getLsbD q

/-- The number of quarters in a set. -/
def quarterCount (q : Nat) : Nat := ((List.range 16).filter fun i => bitAt q i).length

/-- The target can hold what moves: it has kept the quarters, and the numbers of its queues are free. -/
def canHold (m : Moved) (s : State) : Bool :=
  decide (quarterCount m.dev.quarters.toNat ≤ quarterCount (s.fab.arriving.get m.vdev).quarters.toNat) &&
    !(m.queues.any fun p => (s.queue p.1).alive || (arrivingQueues s).contains p.1)

/-- The word of a page that another virtual device owns: the sizes and the R, W, A and T bits of the source,
F = 1 and the owner (R372, R443). -/
def forwardedWord (word owner : Nat) : Nat :=
  1 + word / 2 % 16 * 2 + 32 + twSize word * 256 + owner * 4096

/-- One page of the target's tables. -/
def mapMoved (residue : Nat) (roots : SMap Nat) (s : State) (p : MovedPage) : State :=
  let k := twSize p.word.toNat
  let L := if k ≥ 9 then 1 else 0
  let t := tableFor (if L = 1 then [4, 3, 2] else [4, 3, 2, 1]) (roots.get p.space) p.page s
  putLeaf (t.1 + 16 * bitsOf p.page (9 * L + 20) (9 * L + 12)) k (forwardedWord p.word.toNat residue) t.2

/-- A root table for each space that is not absent. -/
def makeRoots (v : VDev) (s : State) : SMap Nat × State :=
  v.spaces.foldl (fun r p =>
    if p.2.st == .absent then r
    else let b := takeBlock 8192 r.2; (r.1.put p.1 b.1, b.2)) (([] : SMap Nat), s)

/-- The numbers of saved groups in what moves, counted on from a number. -/
def Moved.renumber (m : Moved) (n : Nat) : Moved :=
  let core (k : Nat) : Nat := if k ≥ 2 * goneCore then k + n else k
  let party (p : Party) : Party := match p with
    | .ctx w => .ctx { w with core := core w.core }
    | .stream w => .stream { w with core := core w.core }
    | .vector w => .vector { w with core := core w.core }
    | .matrix k => .matrix (core k)
    | .copy k => .copy (core k)
    | p => p
  let f (r : FaultRec) : FaultRec := { r with party := party r.party }
  { m with
    dev := { m.dev with fwait := m.dev.fwait.map f, fout := m.dev.fout.map fun p => (p.1, p.2.map f) }
    launches := m.launches.map fun p => (p.1, { p.2 with
      gst := p.2.gst.map fun g => (g.1, match g.2 with | .saved k => .saved (k + n) | x => x)
      place := .none, asked := [], reserved := [], granted := [], cand := 0 })
    groups := m.groups.map fun p => (p.1 + n, p.2) }

/-- Entries of a map added to another. -/
def addAll {α : Type} [DecidableEq α] [Inhabited α] (m : SMap α) (l : SMap α) : SMap α :=
  l.foldl (fun m p => m.put p.1 p.2) m

/-- A packet of channel 15 that the source has passed on before the commit: a result, or a release, which the groups that move
have then received (R274, R410). -/
def Moved.podMark (m : Moved) (p : Packet) : Moved :=
  let key := podKeyOf p.op0
  let R := m.keys.get key
  let f := pktFinal p
  let r := redNo key f.1
  if p.typ ≠ 0x21 || p.len = 1 then m
  else if p.len > 1 then
    if (m.reds.get r).any fun x => x.core == finalMark then m else { m with reds := m.reds.put r (m.reds.get r ++ [f.2]) }
  else if (R + m.offs.get key) % 2 ≠ bitsOf p.op0.toNat 24 24 then m
  else
    let up (c : CoreSt) : CoreSt := if c.key 15 == some key then c.released 15 R else c
    { m with
      keys := m.keys.put key (R + 1)
      groups := m.groups.map fun x => (x.1, x.2.map fun v => { v with img := up v.img }) }

/-- The device counts the phases of a key of channel 15 for members of its own or below. -/
def podHere (key : Nat) (s : State) : Bool := !(members 15 key s).isEmpty || (s.fab.pods.get key).synced

/-- The arrivals of a group that comes from another device counted from the phase of its channel 15 key here (R409; DEDUCED,
log entry 18). When the phases differ, the one with an arrival sent upward is behind (DESIGN CHOICE, log entry 15). -/
def CoreSt.joinPod (c : CoreSt) (m : Moved) (s : State) : CoreSt :=
  match c.key 15 with
  | none => c
  | some k =>
    if !podHere k s then c
    else
      let R := m.keys.get k
      let same := (R + m.offs.get k) % 2 == podParity k s
      let x : CoreSt × Nat × Nat :=
        if same then (c, R, s.keys.get k)
        else if (s.fab.pods.get k).sent then (c, R, s.keys.get k + 1)
        else (c.released 15 R, R + 1, s.keys.get k)
      { x.1 with chans := x.1.chans.put 15 ((x.1.chans.get 15).rebase x.2.1 x.2.2) }

/-- This device has a member of a pergola. -/
def pergHere (pgid : Nat) (s : State) : Bool :=
  let p := s.fab.pergs.get pgid
  (List.range p.m).any fun i => (p.members.get i).present && (p.members.get i).dev == s.fab.devid

/-- The member table of a pergola that comes with a virtual device, whose members stand at this device, MOVING until they are
restored. A device with a member has kept a table of its own (R441). -/
def takeTable (vdev : Nat) (s : State) (x : Nat × Perg) : State :=
  let own := s.fab.pergs.get x.1
  let kept := pergHere x.1 s
  let pick (i : Nat) : Member :=
    let m := if kept || !(x.2.members.get i).present then own.members.get i else x.2.members.get i
    if m.vdev = vdev && m.present then { m with dev := s.fab.devid, ready := false } else m
  let p : Perg := { m := max own.m x.2.m
                    members := (List.range (max own.m x.2.m)).foldl (fun t i => t.put i (pick i)) own.members }
  { s with fab := { s.fab with pergs := s.fab.pergs.put x.1 p } }

/-- The keys of channel 15 of what moves go on here: counted as here, or from what the source counted. -/
def takeKey (m : Moved) (s : State) (k : Nat) : State :=
  if podHere k s then s
  else
    let q := s.fab.pods.get k
    setPod k { q with off := 2 + m.offs.get k } { s with keys := s.keys.put k (m.keys.get k) }

/-- R443 steps 4 and 5 at the target: the tables are built, and the device resumes. What the source has passed on since its
state was made takes effect. -/
def commitTarget (m : Moved) (s : State) : State :=
  let a := s.fab.arriving.get m.vdev
  let n := s.stamp
  let m := (a.marks.foldl Moved.podMark m).renumber n
  let top := (m.groups.map Prod.fst).foldl max n
  let mine := m.groups.foldl (fun l p => match p.2.bind fun v => v.img.key 15 with
    | some k => setIns l k
    | none => l) []
  let s := (mine.filter fun k => podHere k s).foldl liftKey s
  let groups := m.groups.map fun p => (p.1, p.2.map fun v => { v with img := v.img.joinPod m s, repair := false })
  let r := makeRoots m.dev s
  let s := m.pages.foldl (mapMoved m.residue r.1) r.2
  let dev := { m.dev with
    alive := true, moving := false
    quarters := a.quarters
    spaces := m.dev.spaces.map fun p => (p.1, { p.2 with root := r.1.get p.1 }) }
  let s := mine.foldl (takeKey m) (s.setVdev m.vdev dev)
  let fresh := (m.pergs.map Prod.fst).filter fun k => !pergHere k s
  let s := { s with
    queues := addAll s.queues m.queues, launches := addAll s.launches m.launches
    savedGroups := addAll s.savedGroups groups, keys := addAll s.keys (m.keys.filter fun p => keyIn m.vdev p.1)
    reds := m.reds.foldl (fun r p => r.put p.1 (r.get p.1 ++ p.2)) s.reds, stamp := top + 1
    fab := { s.fab with movedTo := s.fab.movedTo.drop m.vdev, arriving := s.fab.arriving.drop m.vdev } }
  let s := m.pergs.foldl (takeTable m.vdev) s
  let s := m.peers.foldl (fun s p => if bitAt (peerEntry p.1 s) 15 then s else setPeers p.1 p.2 s) s
  let s := setPeers m.residue (0x8000 + m.src) s
  let s := mine.foldl (fun s k => podJoin k s) s
  (a.marks.filter fun p => p.typ == 0x22 && fresh.contains p.space).foldl (fun s p => pgApply p s) s

/-- The arrivals without the bytes of one virtual device, whose queues then stand against the others alone. -/
def dropWhole (v : Nat) (s : State) : State :=
  { s with fab := { s.fab with arriving := s.fab.arriving.put v { s.fab.arriving.get v with total := 0 } } }

/-- The quarters that the target keeps for a device that needs some: the first free ones. -/
def keepQuarters (n : Nat) (s : State) : BitVec 16 :=
  BitVec.ofNat 16 ((((freeQuarters s).take n).map fun q => 2 ^ q).sum)

/-- R443, R447: migration state arrives at the target, which refuses what it cannot hold, and keeps the quarters that it
needs until the source commits or gives up. -/
def execState (p : Packet) (s : State) : Out :=
  receive p 0x30 s fun s =>
    let v := p.tvdev
    let a := s.fab.arriving.get v
    let put (a : Arriving) (s : State) : State := { s with fab := { s.fab with arriving := s.fab.arriving.put v a } }
    let dropIt (s : State) : State := { s with fab := { s.fab with arriving := s.fab.arriving.drop v } }
    let need := quarterCount (bitsOf p.op0.toNat 63 48)
    if bitAt p.addr.toNat 63 then .next (reply p 0 [] (put { a with commit := a.whole.isSome } s))
    else if bitAt p.addr.toNat 62 then .next (reply p 0 [] (dropIt s))
    else if s.plat.mode != .full || need = 0 ||
        (!arrivingHere v s && (idInUse v s || decide (need > (freeQuarters s).length))) then
      .next (reply p 0x19 [] (dropIt s))
    else
      let s := put { a with
        bytes := a.bytes.setRange p.addr.toNat p.payload, total := bitsOf p.op0.toNat 47 0, got := a.got + p.len
        quarters := if arrivingHere v s then a.quarters else keepQuarters need s } s
      let ok := match (s.fab.arriving.get v).whole with
        | none => true
        | some b => match acceptedState b with
          | some m => m.vdev == v && canHold m (dropWhole v s)
          | none => false
      .next (if ok then reply p 0 [] s else reply p 0x19 [] (dropIt s))

/-- R443: a migration goes on. At the source the state goes out once the device is quiesced, and the commit
follows once the target has taken all of it, and fails when its port is lost before that (R447); at the target the groups resume
once the source has committed. -/
def execMigrationCommit (v : Nat) (s : State) : Out :=
  let m := s.fab.migs.get v
  if m.active then
    if !m.sent then .next (if quiesced v s then sendState v s else s)
    else if m.refused || decide (m.acks < m.total) then .next s
    else if routeLost m.target s then .next { s with fab := { s.fab with migs := s.fab.migs.put v { m with refused := true } } }
    else .next (commitSource v s)
  else
    let a := s.fab.arriving.get v
    match (if a.commit then a.whole.bind acceptedState else none) with
    | some m => .next (commitTarget m s)
    | none => .next s

/-- A launch of a virtual device has been quiesced for its migration. -/
def quiescedLaunch (v key : Nat) (s : State) : Bool :=
  (s.launchOf key).alive && (s.launchOf key).vdev == v && s.savedGroups.any fun p => match p.2 with
    | some x => x.launch == key && x.reason == 2
    | none => false

/-- R390, R447: a launch of a virtual device whose device has failed ends: MACHINE in every group of it. -/
def failLaunch (s : State) (key : Nat) : State :=
  let l := s.launchOf key
  if !l.alive || l.killed then s
  else
    let s := (savedOf key s).foldl (fun s k => match s.savedGroups.get k with
      | some v => reportMachine l.vdev v.core s
      | none => s) s
    let s := s.setLaunch key { s.launchOf key with
      faulted := true, cause := if l.faulted then l.cause else 0x3F, endT := s.time }
    terminateRest key 0x3F s

/-- R447: a migration fails: at the source before its commit, and the quiesced launches end KILLED; at the target before the
commit of the source, and what has arrived is dropped, or after it, and the launches end as R390 states. -/
def execMigrationFail (v : Nat) (s : State) : Out :=
  if (s.fab.migs.get v).active then
    let ks := s.launches.keys.filter fun k => quiescedLaunch v k s
    .next (endMigration v 7 (ks.foldl (fun s k => killLaunch k s) (tellTarget v 62 s)))
  else
    let a := s.fab.arriving.get v
    match (if a.commit then a.whole.bind acceptedState else none) with
    | some m =>
      let s := commitTarget m s
      .next ((s.launches.keys.filter fun k => (s.launchOf k).vdev == v).foldl failLaunch s)
    | none => .next { s with fab := { s.fab with arriving := s.fab.arriving.drop v } }

end Sys2Proof.Machine
end

