-- ==== Sys2Proof/Machine/Dispatch.lean ====
section
/-! DEFINITION. The meaning of every instruction and event: one arm for each row of the opcode table. -/

namespace Sys2Proof.Machine

/-- One instruction or event executed. -/
def exec (i : Instr) (s : State) : Host.Outcome State Fault Refusal :=
  match i with
  | .nop => Sys2Proof.Machine.execNop s
  | .halt => Sys2Proof.Machine.execHalt s
  | .yield => Sys2Proof.Machine.execYield s
  | .isync => Sys2Proof.Machine.execIsync s
  | .wfe => Sys2Proof.Machine.execWfe s
  | .eret => Sys2Proof.Machine.execEret s
  | .trap code => Sys2Proof.Machine.execTrap code s
  | .brk => Sys2Proof.Machine.execBrk s
  | .ali o => Sys2Proof.Machine.execAli o s
  | .aaddi o => Sys2Proof.Machine.execAaddi o s
  | .aadd o => Sys2Proof.Machine.execAadd o s
  | .asub o => Sys2Proof.Machine.execAsub o s
  | .amul o => Sys2Proof.Machine.execAmul o s
  | .aand o => Sys2Proof.Machine.execAand o s
  | .aor o => Sys2Proof.Machine.execAor o s
  | .axor o => Sys2Proof.Machine.execAxor o s
  | .ashl o => Sys2Proof.Machine.execAshl o s
  | .ashr o => Sys2Proof.Machine.execAshr o s
  | .asar o => Sys2Proof.Machine.execAsar o s
  | .amov o => Sys2Proof.Machine.execAmov o s
  | .xpop x => Sys2Proof.Machine.execXpop x s
  | .aqp q y => Sys2Proof.Machine.execAqp q y s
  | .cbnd o => Sys2Proof.Machine.execCbnd o s
  | .cprm o => Sys2Proof.Machine.execCprm o s
  | .cseal o => Sys2Proof.Machine.execCseal o s
  | .cunsl o => Sys2Proof.Machine.execCunsl o s
  | .ctag o => Sys2Proof.Machine.execCtag o s
  | .cbase o => Sys2Proof.Machine.execCbase o s
  | .clen o => Sys2Proof.Machine.execClen o s
  | .cclr o => Sys2Proof.Machine.execCclr o s
  | .ld o => Sys2Proof.Machine.execLd o s
  | .ldq o => Sys2Proof.Machine.execLdq o s
  | .st o => Sys2Proof.Machine.execSt o s
  | .stq o => Sys2Proof.Machine.execStq o s
  | .lds o => Sys2Proof.Machine.execLds o s
  | .sts o => Sys2Proof.Machine.execSts o s
  | .ldc o => Sys2Proof.Machine.execLdc o s
  | .stc o => Sys2Proof.Machine.execStc o s
  | .touch m => Sys2Proof.Machine.execTouch m s
  | .touchN m => Sys2Proof.Machine.execTouchN m s
  | .ldm o => Sys2Proof.Machine.execLdm o s
  | .stm o => Sys2Proof.Machine.execStm o s
  | .b imm => Sys2Proof.Machine.execB imm s
  | .call imm => Sys2Proof.Machine.execCall imm s
  | .bcqT imm => Sys2Proof.Machine.execBcqT imm s
  | .bcqF imm => Sys2Proof.Machine.execBcqF imm s
  | .bz o => Sys2Proof.Machine.execBz o s
  | .bnz o => Sys2Proof.Machine.execBnz o s
  | .beq o => Sys2Proof.Machine.execBeq o s
  | .bne o => Sys2Proof.Machine.execBne o s
  | .blt o => Sys2Proof.Machine.execBlt o s
  | .bge o => Sys2Proof.Machine.execBge o s
  | .ret => Sys2Proof.Machine.execRet s
  | .jr x => Sys2Proof.Machine.execJr x s
  | .jlr o => Sys2Proof.Machine.execJlr o s
  | .loop o => Sys2Proof.Machine.execLoop o s
  | .vld o => Sys2Proof.Machine.execVld o s
  | .vldBf o => Sys2Proof.Machine.execVldBf o s
  | .vldm o => Sys2Proof.Machine.execVldm o s
  | .vldx o => Sys2Proof.Machine.execVldx o s
  | .vst o => Sys2Proof.Machine.execVst o s
  | .vstBf o => Sys2Proof.Machine.execVstBf o s
  | .vstm o => Sys2Proof.Machine.execVstm o s
  | .vstx o => Sys2Proof.Machine.execVstx o s
  | .ldacq o => Sys2Proof.Machine.execLdacq o s
  | .strel o => Sys2Proof.Machine.execStrel o s
  | .xpush x => Sys2Proof.Machine.execXpush x s
  | .li o => Sys2Proof.Machine.execLi o s
  | .addi o => Sys2Proof.Machine.execAddi o s
  | .add o => Sys2Proof.Machine.execAdd o s
  | .sub o => Sys2Proof.Machine.execSub o s
  | .mul o => Sys2Proof.Machine.execMul o s
  | .mulh o => Sys2Proof.Machine.execMulh o s
  | .dand o => Sys2Proof.Machine.execAnd o s
  | .dor o => Sys2Proof.Machine.execOr o s
  | .dxor o => Sys2Proof.Machine.execXor o s
  | .shl o => Sys2Proof.Machine.execShl o s
  | .shr o => Sys2Proof.Machine.execShr o s
  | .sar o => Sys2Proof.Machine.execSar o s
  | .min o => Sys2Proof.Machine.execMin o s
  | .max o => Sys2Proof.Machine.execMax o s
  | .minz o => Sys2Proof.Machine.execMinz o s
  | .maxz o => Sys2Proof.Machine.execMaxz o s
  | .div o => Sys2Proof.Machine.execDiv o s
  | .rem o => Sys2Proof.Machine.execRem o s
  | .mov o => Sys2Proof.Machine.execMov o s
  | .sel o => Sys2Proof.Machine.execSel o s
  | .divz o => Sys2Proof.Machine.execDivz o s
  | .remz o => Sys2Proof.Machine.execRemz o s
  | .cmpEq o => Sys2Proof.Machine.execCmpEq o s
  | .cmpNe o => Sys2Proof.Machine.execCmpNe o s
  | .cmpLt o => Sys2Proof.Machine.execCmpLt o s
  | .cmpLtz o => Sys2Proof.Machine.execCmpLtz o s
  | .cqp x => Sys2Proof.Machine.execCqp x s
  | .fadd o => Sys2Proof.Machine.execFadd o s
  | .fsub o => Sys2Proof.Machine.execFsub o s
  | .fmul o => Sys2Proof.Machine.execFmul o s
  | .fmin o => Sys2Proof.Machine.execFmin o s
  | .fmax o => Sys2Proof.Machine.execFmax o s
  | .fabs o => Sys2Proof.Machine.execFabs o s
  | .fneg o => Sys2Proof.Machine.execFneg o s
  | .fsqrt o => Sys2Proof.Machine.execFsqrt o s
  | .ffma o => Sys2Proof.Machine.execFfma o s
  | .fcmpEq o => Sys2Proof.Machine.execFcmpEq o s
  | .fcmpLt o => Sys2Proof.Machine.execFcmpLt o s
  | .fcmpLe o => Sys2Proof.Machine.execFcmpLe o s
  | .fcmpUn o => Sys2Proof.Machine.execFcmpUn o s
  | .fcvtF2f o => Sys2Proof.Machine.execFcvtF2f o s
  | .fcvtF2i o => Sys2Proof.Machine.execFcvtF2i o s
  | .fcvtI2f o => Sys2Proof.Machine.execFcvtI2f o s
  | .frcp o => Sys2Proof.Machine.execFrcp o s
  | .frsq o => Sys2Proof.Machine.execFrsq o s
  | .fdiv o => Sys2Proof.Machine.execFdiv o s
  | .f2x o => Sys2Proof.Machine.execF2x o s
  | .x2f o => Sys2Proof.Machine.execX2f o s
  | .rndfill o => Sys2Proof.Machine.execRndfill o s
  | .rndseed y => Sys2Proof.Machine.execRndseed y s
  | .vadd o => Sys2Proof.Machine.execVadd o s
  | .vsub o => Sys2Proof.Machine.execVsub o s
  | .vmul o => Sys2Proof.Machine.execVmul o s
  | .vmin o => Sys2Proof.Machine.execVmin o s
  | .vmax o => Sys2Proof.Machine.execVmax o s
  | .vabs o => Sys2Proof.Machine.execVabs o s
  | .vneg o => Sys2Proof.Machine.execVneg o s
  | .vfma o => Sys2Proof.Machine.execVfma o s
  | .viadd o => Sys2Proof.Machine.execViadd o s
  | .vand o => Sys2Proof.Machine.execVand o s
  | .vor o => Sys2Proof.Machine.execVor o s
  | .vxor o => Sys2Proof.Machine.execVxor o s
  | .vshl o => Sys2Proof.Machine.execVshl o s
  | .vshr o => Sys2Proof.Machine.execVshr o s
  | .vsar o => Sys2Proof.Machine.execVsar o s
  | .vimul o => Sys2Proof.Machine.execVimul o s
  | .vcmpEq o => Sys2Proof.Machine.execVcmpEq o s
  | .vcmpLt o => Sys2Proof.Machine.execVcmpLt o s
  | .vcmpLe o => Sys2Proof.Machine.execVcmpLe o s
  | .vcmpUn o => Sys2Proof.Machine.execVcmpUn o s
  | .vsel o => Sys2Proof.Machine.execVsel o s
  | .vmov o => Sys2Proof.Machine.execVmov o s
  | .vbcast o => Sys2Proof.Machine.execVbcast o s
  | .vext o => Sys2Proof.Machine.execVext o s
  | .vsum o => Sys2Proof.Machine.execVsum o s
  | .vminr o => Sys2Proof.Machine.execVminr o s
  | .vmaxr o => Sys2Proof.Machine.execVmaxr o s
  | .vsqn o => Sys2Proof.Machine.execVsqn o s
  | .vcvtF2f o => Sys2Proof.Machine.execVcvtF2f o s
  | .vcvtF2i o => Sys2Proof.Machine.execVcvtF2i o s
  | .vcvtI2f o => Sys2Proof.Machine.execVcvtI2f o s
  | .vf2x o => Sys2Proof.Machine.execVf2x o s
  | .vperm o => Sys2Proof.Machine.execVperm o s
  | .viota o => Sys2Proof.Machine.execViota o s
  | .vdot o => Sys2Proof.Machine.execVdot o s
  | .vmsk o => Sys2Proof.Machine.execVmsk o s
  | .amo op o => Sys2Proof.Machine.execAmo op o s
  | .cas o => Sys2Proof.Machine.execCas o s
  | .vamo o => Sys2Proof.Machine.execVamo o s
  | .fetake o => Sys2Proof.Machine.execFetake o s
  | .feput o => Sys2Proof.Machine.execFeput o s
  | .fepeek o => Sys2Proof.Machine.execFepeek o s
  | .feinit o => Sys2Proof.Machine.execFeinit o s
  | .fence o => Sys2Proof.Machine.execFence o s
  | .barArv n => Sys2Proof.Machine.execBarArv n s
  | .barWt n => Sys2Proof.Machine.execBarWt n s
  | .barTst n => Sys2Proof.Machine.execBarTst n s
  | .hstart o => Sys2Proof.Machine.execHstart o s
  | .hend => Sys2Proof.Machine.execHend s
  | .hjoin x => Sys2Proof.Machine.execHjoin x s
  | .hkill x => Sys2Proof.Machine.execHkill x s
  | .sends slot => Sys2Proof.Machine.execSends slot s
  | .sendp o => Sys2Proof.Machine.execSendp o s
  | .rxwt x => Sys2Proof.Machine.execRxwt x s
  | .rxrel => Sys2Proof.Machine.execRxrel s
  | .pkopen x => Sys2Proof.Machine.execPkopen x s
  | .pkput x => Sys2Proof.Machine.execPkput x s
  | .pkend x => Sys2Proof.Machine.execPkend x s
  | .pkabt => Sys2Proof.Machine.execPkabt s
  | .ctlr o => Sys2Proof.Machine.execCtlr o s
  | .ctlw o => Sys2Proof.Machine.execCtlw o s
  | .ctls o => Sys2Proof.Machine.execCtls o s
  | .ctlc o => Sys2Proof.Machine.execCtlc o s
  | .pgatt x => Sys2Proof.Machine.execPgatt x s
  | .pgdet => Sys2Proof.Machine.execPgdet s
  | .pgstat x => Sys2Proof.Machine.execPgstat x s
  | .cmkw o => Sys2Proof.Machine.execCmkw o s
  | .cmkc o => Sys2Proof.Machine.execCmkc o s
  | .mxctx m => Sys2Proof.Machine.execMxctx m s
  | .mxmsk o => Sys2Proof.Machine.execMxmsk o s
  | .mxldb o => Sys2Proof.Machine.execMxldb o s
  | .mxldbT o => Sys2Proof.Machine.execMxldbT o s
  | .mxrot => Sys2Proof.Machine.execMxrot s
  | .mxswp => Sys2Proof.Machine.execMxswp s
  | .mxmma o => Sys2Proof.Machine.execMxmma o s
  | .mxmmaOw o => Sys2Proof.Machine.execMxmmaOw o s
  | .mxrun o => Sys2Proof.Machine.execMxrun o s
  | .mxzero acc => Sys2Proof.Machine.execMxzero acc s
  | .mxdrain o => Sys2Proof.Machine.execMxdrain o s
  | .mxsave o => Sys2Proof.Machine.execMxsave o s
  | .mxrest o => Sys2Proof.Machine.execMxrest o s
  | .mxup m => Sys2Proof.Machine.execMxup m s
  | .mxwait => Sys2Proof.Machine.execMxwait s
  | .mxmbx o => Sys2Proof.Machine.execMxmbx o s
  | .cpy o => Sys2Proof.Machine.execCpy o s
  | .cpyw o => Sys2Proof.Machine.execCpyw o s
  | .cpfil o => Sys2Proof.Machine.execCpfil o s
  | .cpcode o => Sys2Proof.Machine.execCpcode o s
  | .crstep o => Sys2Proof.Machine.execCrstep o s
  | .crstepSq o => Sys2Proof.Machine.execCrstepSq o s
  | .crall o => Sys2Proof.Machine.execCrall o s
  | .cpwait => Sys2Proof.Machine.execCpwait s
  | .cpqry x => Sys2Proof.Machine.execCpqry x s
  | .priss o => Sys2Proof.Machine.execPriss o s
  | .prrdm o => Sys2Proof.Machine.execPrrdm o s
  | .prapl => Sys2Proof.Machine.execPrapl s
  | .prsq x => Sys2Proof.Machine.execPrsq x s
  | .prstat o => Sys2Proof.Machine.execPrstat o s
  | .prls m => Sys2Proof.Machine.execPrls m s
  | .prcfg m => Sys2Proof.Machine.execPrcfg m s
  | .rngWrite core op v => Sys2Proof.Machine.execRngWrite core op v s
  | .domWrite core n op v => Sys2Proof.Machine.execDomWrite core n op v s
  | .winWrite core n op v => Sys2Proof.Machine.execWinWrite core n op v s
  | .ringWrite core op v => Sys2Proof.Machine.execRingWrite core op v s
  | .rxbaseWrite core size op v => Sys2Proof.Machine.execRxbaseWrite core size op v s
  | .rxheadWrite core op v => Sys2Proof.Machine.execRxheadWrite core op v s
  | .rxflagsWrite core op v => Sys2Proof.Machine.execRxflagsWrite core op v s
  | .statusWrite w op v => Sys2Proof.Machine.execStatusWrite w op v s
  | .epcWrite w op v => Sys2Proof.Machine.execEpcWrite w op v s
  | .streamElement w => Sys2Proof.Machine.execStreamElement w s
  | .vectorPerform core => Sys2Proof.Machine.execVectorPerform core s
  | .mxCommandBegin core => Sys2Proof.Machine.execMxCommandBegin core s
  | .governorWindow => Sys2Proof.Machine.execGovernorWindow s
  | .cpCommandBegin core => Sys2Proof.Machine.execCpCommandBegin core s
  | .crallComplete core => Sys2Proof.Machine.execCrallComplete core s
  | .fetakeRetry w => Sys2Proof.Machine.execFetakeRetry w s
  | .movingRetry reqid => Sys2Proof.Machine.execMovingRetry reqid s
  | .reportRaise w => Sys2Proof.Machine.execReportRaise w s
  | .barrierRelease core n => Sys2Proof.Machine.execBarrierRelease core n s
  | .arrivalDeliver core => Sys2Proof.Machine.execArrivalDeliver core s
  | .exchangeTransfer core => Sys2Proof.Machine.execExchangeTransfer core s
  | .rxMessagePlace core => Sys2Proof.Machine.execRxMessagePlace core s
  | .groupStart launch group core => Sys2Proof.Machine.execGroupStart launch group core s
  | .groupEnd core => Sys2Proof.Machine.execGroupEnd core s
  | .launchComplete launch => Sys2Proof.Machine.execLaunchComplete launch s
  | .preemptSave core reason => Sys2Proof.Machine.execPreemptSave core reason s
  | .restore saved core => Sys2Proof.Machine.execRestore saved core s
  | .repairSubstitution core => Sys2Proof.Machine.execRepairSubstitution core s
  | .wakeWrite writer bytes => Sys2Proof.Machine.execWakeWrite writer bytes s
  | .queueFetch q => Sys2Proof.Machine.execQueueFetch q s
  | .launch q => Sys2Proof.Machine.execLaunch q s
  | .wait q => Sys2Proof.Machine.execWait q s
  | .signal q => Sys2Proof.Machine.execSignal q s
  | .preload q => Sys2Proof.Machine.execPreload q s
  | .queueAge q => Sys2Proof.Machine.execQueueAge q s
  | .reserve launch => Sys2Proof.Machine.execReserve launch s
  | .commit launch => Sys2Proof.Machine.execCommit launch s
  | .release launch => Sys2Proof.Machine.execRelease launch s
  | .placementRetry launch => Sys2Proof.Machine.execPlacementRetry launch s
  | .shapeResolve launch => Sys2Proof.Machine.execShapeResolve launch s
  | .resolutionApply launch => Sys2Proof.Machine.execResolutionApply launch s
  | .tailLaunchStart launch => Sys2Proof.Machine.execTailLaunchStart launch s
  | .rcountFlush tlb => Sys2Proof.Machine.execRcountFlush tlb s
  | .faultEntryWrite vdev => Sys2Proof.Machine.execFaultEntryWrite vdev s
  | .read p => Sys2Proof.Machine.execRead p s
  | .write p => Sys2Proof.Machine.execWrite p s
  | .atomic p => Sys2Proof.Machine.execAtomic p s
  | .msg p => Sys2Proof.Machine.execMsg p s
  | .wake p => Sys2Proof.Machine.execWake p s
  | .answer p => Sys2Proof.Machine.execAnswer p s
  | .bararv p => Sys2Proof.Machine.execBararv p s
  | .barrel p => Sys2Proof.Machine.execBarrel p s
  | .pgctl p => Sys2Proof.Machine.execPgctl p s
  | .state p => Sys2Proof.Machine.execState p s
  | .page p => Sys2Proof.Machine.execPage p s
  | .linkReplay port cls lseq => Sys2Proof.Machine.execLinkReplay port cls lseq s
  | .portRetrain port loWhole hiWhole => Sys2Proof.Machine.execPortRetrain port loWhole hiWhole s
  | .migrationCommit vdev => Sys2Proof.Machine.execMigrationCommit vdev s
  | .migrationFail vdev => Sys2Proof.Machine.execMigrationFail vdev s
  | .pageMove residue space va => Sys2Proof.Machine.execPageMove residue space va s
  | .vdcreate r => Sys2Proof.Machine.execVdcreate r s
  | .vddestroy r => Sys2Proof.Machine.execVddestroy r s
  | .qcreate r => Sys2Proof.Machine.execQcreate r s
  | .qdestroy r => Sys2Proof.Machine.execQdestroy r s
  | .qage r => Sys2Proof.Machine.execQage r s
  | .fqset r => Sys2Proof.Machine.execFqset r s
  | .fqanswer r => Sys2Proof.Machine.execFqanswer r s
  | .create r => Sys2Proof.Machine.execCreate r s
  | .invrange r => Sys2Proof.Machine.execInvrange r s
  | .invspace r => Sys2Proof.Machine.execInvspace r s
  | .teardown r => Sys2Proof.Machine.execTeardown r s
  | .pgbind r => Sys2Proof.Machine.execPgbind r s
  | .migrate r => Sys2Proof.Machine.execMigrate r s
  | .pagemove r => Sys2Proof.Machine.execPagemove r s
  | .peerset r => Sys2Proof.Machine.execPeerset r s
  | .devid r => Sys2Proof.Machine.execDevid r s
  | .pdomset r => Sys2Proof.Machine.execPdomset r s
  | .plset r => Sys2Proof.Machine.execPlset r s
  | .attest r => Sys2Proof.Machine.execAttest r s
  | .status r => Sys2Proof.Machine.execStatus r s
  | .bootrec r => Sys2Proof.Machine.execBootrec r s
  | .slotwrite r => Sys2Proof.Machine.execSlotwrite r s
  | .clearfail r => Sys2Proof.Machine.execClearfail r s
  | .reset r => Sys2Proof.Machine.execReset r s
  | .notifyto r => Sys2Proof.Machine.execNotifyto r s
  | .powerOnStart e => Sys2Proof.Machine.execPowerOnStart e s
  | .stageWatchdog => Sys2Proof.Machine.execStageWatchdog s
  | .selfTest core => Sys2Proof.Machine.execSelfTest core s
  | .machineError core => Sys2Proof.Machine.execMachineError core s
  | .belvedereWatchdog => Sys2Proof.Machine.execBelvedereWatchdog s
  | .thermalLimit cluster budget => Sys2Proof.Machine.execThermalLimit cluster budget s
  | .i3cBootRecord => Sys2Proof.Machine.execI3cBootRecord s
  | .i3cAttest nonce => Sys2Proof.Machine.execI3cAttest nonce s
  | .i3cStatus => Sys2Proof.Machine.execI3cStatus s
  | .i3cReset => Sys2Proof.Machine.execI3cReset s
  | .correctedErrorLimit core => Sys2Proof.Machine.execCorrectedErrorLimit core s
  | .grant launch cluster granted => Sys2Proof.Machine.execGrant launch cluster granted s

end Sys2Proof.Machine
end

