-- ==== Sys2Proof/Machine/Ahead.lean ====
section
/-! DEFINITION. One half of a context running ahead while the other waits at the boundary, QDEAD, and the
turn of a context (R9 to R13, R102, R128, R150, R151, R391). -/

namespace Sys2Proof.Machine

/-! ### Halves (R8, R11) -/

/-- An instruction of the execute half. -/
def execHalf : Instr → Bool
  | .xpush _ | .li _ | .addi _ | .add _ | .sub _ | .mul _ | .mulh _ | .dand _ | .dor _ | .dxor _ => true
  | .shl _ | .shr _ | .sar _ | .min _ | .max _ | .minz _ | .maxz _ | .div _ | .rem _ | .mov _ | .sel _ => true
  | .divz _ | .remz _ | .cmpEq _ | .cmpNe _ | .cmpLt _ | .cmpLtz _ | .cqp _ => true
  | .fadd _ | .fsub _ | .fmul _ | .fmin _ | .fmax _ | .fabs _ | .fneg _ | .fsqrt _ | .ffma _ => true
  | .fcmpEq _ | .fcmpLt _ | .fcmpLe _ | .fcmpUn _ | .fcvtF2f _ | .fcvtF2i _ | .fcvtI2f _ => true
  | .frcp _ | .frsq _ | .fdiv _ | .f2x _ | .x2f _ | .rndfill _ | .rndseed _ => true
  | .vadd _ | .vsub _ | .vmul _ | .vmin _ | .vmax _ | .vabs _ | .vneg _ | .vfma _ | .viadd _ => true
  | .vand _ | .vor _ | .vxor _ | .vshl _ | .vshr _ | .vsar _ | .vimul _ => true
  | .vcmpEq _ | .vcmpLt _ | .vcmpLe _ | .vcmpUn _ | .vsel _ | .vmov _ | .vbcast _ | .vext _ => true
  | .vsum _ | .vminr _ | .vmaxr _ | .vsqn _ | .vcvtF2f _ | .vcvtF2i _ | .vcvtI2f _ | .vf2x _ => true
  | .vperm _ | .viota _ | .vdot _ | .vmsk _ => true
  | _ => false

/-- An instruction of the access half that may be executed ahead: neither R11 nor R190 lets it wait, and it is no sync
point. -/
def accessAhead : Instr → Bool
  | .ali _ | .aaddi _ | .aadd _ | .asub _ | .amul _ | .aand _ | .aor _ | .axor _ => true
  | .ashl _ | .ashr _ | .asar _ | .amov _ | .xpop _ | .aqp _ _ => true
  | .cbnd _ | .cprm _ | .cseal _ | .cunsl _ | .ctag _ | .cbase _ | .clen _ | .cclr _ => true
  | .ld _ | .ldq _ | .lds _ | .ldc _ | .touch _ | .touchN _ | .ldacq _ => true
  | .vld _ | .vldBf _ | .vldm _ | .vldx _ | .ctlr _ => true
  | .fence _ | .barTst _ | .hjoin _ | .rxwt _ | .pgatt _ | .pgstat _ | .cmkw _ | .cmkc _ => true
  | .mxwait | .cpwait | .cpqry _ => true
  | .b _ | .call _ | .bcqT _ | .bcqF _ | .bz _ | .bnz _ | .beq _ | .bne _ | .blt _ | .bge _ => true
  | .ret | .jr _ | .jlr _ | .loop _ => true
  | _ => false

/-- An instruction of the access half that may be passed, because neither R11 nor R190 lets it wait, and whose effect
on others than the context comes when the boundary reaches it, so that R12 can discard it (DEDUCED, log entry 6). -/
def passable : Instr → Bool
  | .barArv _ | .barWt _ | .rxrel | .pgdet => true
  | _ => false

/-- Two instructions that act on one barrier channel, or on the head of the receive buffer. -/
def meetsSync (i j : Instr) : Bool :=
  let chan (i : Instr) : Option Nat := match i with
    | .barArv n => some n.val | .barWt n => some n.val | .barTst n => some n.val | _ => none
  let head (i : Instr) : Bool := match i with | .rxwt _ | .rxrel => true | _ => false
  ((chan i).isSome && chan i == chan j) || (head i && head j)

/-- The base register of a load. -/
def loadBase : Instr → Option (Fin 16)
  | .ld o => some o.m.y
  | .ldq o => some o.m.y
  | .lds o => some o.m.y
  | .ldc o => some o.m.y
  | .ldacq o => some o.m.y
  | .vld o => some o.m.y
  | .vldBf o => some o.m.y
  | .vldm o => some o.m.y
  | .vldx o => some o.m.y
  | _ => none

/-- A load through a WINDOW capability. -/
def loadsWindow (c : Ctx) (i : Instr) : Bool :=
  match loadBase i with | some y => (c.ra y).tag && (c.ra y).kind == 3 | none => false

/-- A scalar load, which is performed when it is issued. -/
def isLoad : Instr → Bool
  | .ld _ | .ldq _ | .lds _ | .ldc _ | .ldacq _ => true
  | _ => false

/-- An instruction that attaches its group to a pergola. -/
def isPgatt : Instr → Bool
  | .pgatt _ => true
  | _ => false

/-- A vector load or VEXT issued ahead enters the vector queue with this address and capability. -/
def entersAhead (i : Instr) (c : Ctx) : Option (DWord × AVal) :=
  match i with
  | .vld o => some (c.ea o.m, c.ra o.m.y)
  | .vldBf o => some (c.ea o.m, c.ra o.m.y)
  | .vldm o => some (c.ea o.m, c.ra o.m.y)
  | .vldx o => some (c.eaB o.m, c.ra o.m.y)
  | .vext _ => some (0, ⟨false, 0⟩)
  | _ => none

/-- An instruction that stands as done once it has been executed, whatever is discarded: a vector instruction in the
queue, which no trap cancels (R170). -/
def lasts (i : Instr) (c : Ctx) : Bool := isVector i && (entersAhead i c).isNone

/-- No later instruction of the context issues before it completes (R131, R190). -/
def barsIssue : Instr → Bool
  | .ctlr _ | .ctlw _ | .ctls _ | .ctlc _ | .ldm _ | .stm _ => true
  | _ => false

/-- An instruction after which the fetch point does not go on until it has been executed: it can change the flow. -/
def stopsFetch : Instr → Bool
  | .b _ | .call _ | .bcqT _ | .bcqF _ | .bz _ | .bnz _ | .beq _ | .bne _ | .blt _ | .bge _ => true
  | .ret | .jr _ | .jlr _ | .loop _ | .halt | .hend | .isync | .eret | .trap _ | .brk => true
  | _ => false

/-- The d register that an instruction of the execute half writes, if it writes one. -/
def destD : Instr → Option Nat
  | .li o | .addi o => some o.x.val
  | .add o | .sub o | .mul o | .mulh o | .dand o | .dor o | .dxor o | .shl o | .shr o | .sar o => some o.x.val
  | .min o | .max o | .minz o | .maxz o | .div o | .rem o | .sel o | .divz o | .remz o => some o.x.val
  | .mov o => some o.x.val
  | .fadd o | .fsub o | .fmul o | .fmin o | .fmax o | .fdiv o => some o.x.val
  | .fabs o | .fneg o | .fsqrt o | .fcvtF2i o | .fcvtI2f o | .frcp o | .frsq o => some o.x.val
  | .ffma o => some o.x.val
  | .fcvtF2f o => some o.x.val
  | .f2x o | .x2f o => some o.x.val
  | .rndfill o => if o.vec then none else some o.x.val
  | .vext o => some o.x.val
  | _ => none

/-- An instruction of a kind that pushes a queue, and its fields name it (R13). -/
def canPush (q : Nat) (i : Instr) : Bool :=
  match q with
  | 0 | 1 => match i with
    | .ldq o => o.q.val == q | .aqp n _ => n.val == q | .lds o => o.q.val == q | _ => false
  | 2 | 3 => destD i == some (12 + q)
  | 4 => match i with
    | .cmpEq _ | .cmpNe _ | .cmpLt _ | .cmpLtz _ | .cqp _ => true
    | .fcmpEq _ | .fcmpLt _ | .fcmpLe _ | .fcmpUn _ => true
    | .barTst _ => true
    | _ => false
  | _ => match i with | .xpush _ => true | _ => false

/-- An instruction of the access half of a kind that pops a queue, and its fields name it (R150). -/
def canPop (q : Nat) (i : Instr) : Bool :=
  match i with
  | .stq o => o.q.val + 2 == q
  | .sts o => o.q.val + 2 == q
  | .bcqT _ => q == 4
  | .bcqF _ => q == 4
  | .xpop _ => q == 5
  | _ => false

/-! ### The window between the boundary and the fetch point -/

/-- The instructions that may be fetched ahead: as many as the store can hold (R11, R13). -/
def fetchDepth : Nat := 16384

/-- The next address closes the body of the armed loop (R140). -/
def Ctx.closes (c : Ctx) (nx : BitVec 16) : Bool :=
  match c.loop with | some l => !c.h && nx == l.stop | none => false

/-- The instructions not yet executed from an address to the fetch point, with addresses and lengths; `fuel`
is what may still be fetched, and `recs` the instructions already executed ahead. -/
def windowFrom (k : CoreSt) (c : Ctx) : Nat → BitVec 16 → List Ahead → List (BitVec 16 × Instr × Nat)
  | 0, _, _ => []
  | fuel + 1, p, recs =>
    let fetch : List (BitVec 16 × Instr × Nat) :=
      match fetchAt k c p with
      | .bad _ _ => []
      | .ok i n =>
        let nx := p + BitVec.ofNat 16 (2 * n)
        (p, i, n) :: (if stopsFetch i || c.closes nx then [] else windowFrom k c.counted fuel nx recs)
    match recs with
    | [] => fetch
    | r :: rest =>
      if r.pc = p then (if !r.acc && c.closes r.next then [] else windowFrom k c.counted fuel r.next rest) else fetch

/-- The instructions that a context has executed ahead at its present handler level, in program order. -/
def Ctx.level (c : Ctx) : List Ahead := c.ahead.takeWhile fun r => r.h == c.h

/-- The instruction at the boundary of a context. -/
def boundaryIns (w : Who) (s : State) : Option Instr :=
  match fetchAt (s.core w.core) (s.ctx w) (s.ctx w).pc with
  | .ok i _ => some i
  | .bad _ _ => none

/-- The boundary's instruction has been executed, or has entered the vector queue. -/
def boundaryEntered (c : Ctx) : Bool :=
  c.vwait || match c.level with | r :: _ => r.pc == c.pc | [] => false

/-- The instructions of a context beyond its boundary that are not yet executed. -/
def beyondBoundary (w : Who) (s : State) : List (BitVec 16 × Instr × Nat) :=
  let c := s.ctx w
  let l := windowFrom (s.core w.core) c fetchDepth c.pc c.level
  match c.level with
  | r :: _ => if r.pc == c.pc then l else l.drop 1
  | [] => l.drop 1

/-- An instruction that pops CQ in the execute half. -/
def isSel (i : Instr) : Bool := match i with | .sel _ => true | _ => false

/-- The half that runs ahead: the one that already has, or the other one than that of the boundary. -/
def runningHalf (c : Ctx) (b : Instr) : Bool :=
  match (c.level.drop (if boundaryEntered c && !c.level.isEmpty then 1 else 0)).filter (!·.lasting) with
  | r :: _ => !r.acc
  | [] => !execHalf b

/-- Whether an instruction may be executed ahead of those before it that are not executed: `first` is the boundary's,
`before` those beyond it. CQ is popped, and pushed, in program order (R151); nothing issues past an instruction that
R131 or R190 name; vector instructions enter their queue in program order (R168); nothing of the execute half issues
past a VEXT, no load past a vector load, that are not yet performed (R170; R280); what has been passed is not overtaken by
an instruction that it acts on, nor a PGDET by a WINDOW access (R214). -/
def mayRun (w : Who) (s : State) (first : Instr) (before : List Instr) (i : Instr) : Bool :=
  let c := s.ctx w
  let all := if boundaryEntered c then before else first :: before
  let queued (p : VItem → Bool) : Bool := (s.core w.core).vq.any fun v => v.isAhead w && p v
  let tst (i : Instr) : Bool := match i with | .barTst _ => true | _ => false
  let ext (v : VItem) : Bool := match v.ins with | .vext _ => true | _ => false
  (execHalf i || accessAhead i) &&
    !((first :: before).any isSel && canPop 4 i) && !((first :: before).any tst && canPush 4 i) &&
    !all.any barsIssue && !(isVector i && all.any isVector) && !all.any (meetsSync i) &&
    !(tst i && all.any (canPush 4)) && !(loadsWindow c i && all.any (· == .pgdet)) &&
    !(execHalf i && queued ext) && !(isLoad i && queued fun v => !ext v)

/-- An instruction that may be passed would complete now. -/
def completesNow (w : Who) (s : State) (i : Instr) : Bool :=
  passable i && match exec i { s with cur := w, ilen := 1 } with | .next t => t.sig == .done | _ => false

/-- The first instruction of a half, of those listed, that is not passed, with those before it. -/
def firstOf (w : Who) (s : State) (half : Bool) : List Instr → List (BitVec 16 × Instr × Nat) →
    Option ((BitVec 16 × Instr × Nat) × List Instr)
  | _, [] => none
  | before, x :: rest =>
    let i := x.2.1
    if execHalf i == half && !(completesNow w s i && !before.any (meetsSync i)) then some (x, before)
    else firstOf w s half (before ++ [i]) rest

/-- The next instruction that may run ahead of the boundary. -/
def candidate (w : Who) (s : State) : Option (BitVec 16 × Instr × Nat) :=
  match boundaryIns w s with
  | none => none
  | some b =>
    match firstOf w s (runningHalf (s.ctx w) b) [] (beyondBoundary w s) with
    | none => none
    | some (x, before) => if mayRun w s b before x.2.1 then some x else none

/-! ### Running ahead (R11) -/

/-- What an instruction popped from a queue: entries gone from its head. -/
def poppedFrom (a b : Ctx) (q : Nat) : List (Nat × DWord) :=
  ((a.q q).take ((a.q q).length - (b.q q).length)).map fun v => (q, v)
/-- What it pushed: one mark for each entry more. -/
def pushedTo (a b : Ctx) (q : Nat) : List Nat := List.replicate ((b.q q).length - (a.q q).length) q

/-- The control registers of the core that an instruction ahead can change, as it has changed them. -/
def changedC (k k2 : CoreSt) : List (Nat × DWord × DWord) :=
  (if k.rng = k2.rng then [] else [(0, k.rng, k2.rng)]) ++ (if k.rxhead = k2.rxhead then [] else [(1, k.rxhead, k2.rxhead)])

/-- The record of an instruction of n halfwords that took a context from c to c2, added in program order. -/
def Ctx.record (c c2 : Ctx) (i : Instr) (p : BitVec 16) (n : Nat) (v : VecSt) (oldC : List (Nat × DWord × DWord)) : Ctx :=
  let e := execHalf i
  let r : Ahead :=
    { acc := !e, pc := p, next := c2.pc, len := n, h := c.h, a := c.a, d := c.d, loop := c.loop, oldC := oldC
      raised := if e then c2.fflags else 0
      pops := (List.range 6).flatMap (poppedFrom c c2), pushes := (List.range 6).flatMap (pushedTo c c2)
      lds := c2.stream.isSome && c.stream.isNone, vec := v, oldV := [], oldM := [], lasting := lasts i c }
  { c2 with
    pc := c.pc, ahead := c.level ++ r :: c.ahead.drop c.level.length, loop := if e then c.loop else c2.loop
    fflags := if e then c.fflags else c2.fflags }

/-- A context in which one instruction ahead of the boundary executes, and whether it did: what completes, or enters
the vector queue, is recorded; what waits keeps only what it sent. Flags of the execute half, and the mark of a PGATT,
wait for the boundary (R12, R72). Nothing runs ahead while the contexts of the core are stopped for a save (R402). -/
def runAhead (w : Who) (s : State) : State × Bool :=
  match if (s.core w.core).halted then none else candidate w s with
  | none => (s, false)
  | some (p, i, n) =>
    let c := s.ctx w
    let perg := s.fab.pergs
    let e := execHalf i
    let c1 := { c with pc := p, ahead := [], vwait := false, loop := if e then none else c.loop
                       fflags := if e then 0 else c.fflags }
    match entersAhead i c1 with
    | some (ea, cap) =>
      let k := s.core w.core
      if k.vq.length < 8 then
        let v : VItem := { who := w, pc := p, ins := i, ea := ea, cap := cap, guards := c.guards, dv := 0, vals := []
                           len := n, place := .ahead 0 false }
        let c2 := c.record (c1.advance n) i p n .queued []
        ((s.setCore w.core { k with vq := k.vq ++ [v] }).setCtx w { c2 with vwait := c.vwait }, true)
      else (s, false)
    | none =>
      match exec i { s.setCtx w c1 with cur := w, ilen := n } with
      | .next t =>
        (match t.sig with
        | .done =>
          if isPgatt i && t.fab.pergs != perg then
            let c2 := c.record (t.ctx w) i p n .none []
            (s.setCtx w { c2 with vwait := c.vwait }, true)
          else
            let old := changedC (s.core w.core) (t.core w.core)
            (t.setCtx w { c.record (t.ctx w) i p n .none old with vwait := c.vwait }, true)
        | .stalled => (t.setCtx w c, false)
        | _ => (s, false))
      | _ => (s, false)

/-- R13, R150: an instruction that could end the wait on a queue stands ahead, or a stream serves it. -/
def served (w : Who) (q : Nat) (full : Bool) (s : State) : Bool :=
  let stream := match (s.ctx w).stream with
    | some t => if full then t.store && t.q.val + 2 == q else !t.store && t.q.val == q
    | none => false
  let b := boundaryIns w s
  let half (i : Instr) : Bool := match b with | some b => execHalf b != execHalf i | none => false
  let sel := match b with | some b => isSel b | none => false
  stream || (beyondBoundary w s).any fun x =>
    if full then canPop q x.2.1 else canPush q x.2.1 && (half x.2.1 || (sel && q == 4))

/-- R13, R150, R202: the waits that QDEAD can end: to pop an empty queue, of the execute half to push a full
one that the access half pops, and of BAR.TST to push a full CQ with no SEL ahead. -/
def isDead (w : Who) (s : State) : Option Nat :=
  match s.sig with
  | .starved q => if served w q false s then none else some q
  | .blocked q =>
    (match boundaryIns w s with
      | none => none
      | some b =>
        if execHalf b then (if q ≥ 2 && !served w q true s then some q else none)
        else if q = 4 && !((beyondBoundary w s).any fun x => isSel x.2.1) then some q else none)
  | _ => none

/-- What follows an instruction: after one that waits, the other half runs ahead by one instruction, unless this is the turn
of one half alone, or, when it cannot, the context traps with QDEAD; after one that does not, the next is fetched. -/
def afterWait (half : Option Bool) (w : Who) (s : State) : State :=
  match s.sig with
  | .stalled => let g := s.sig; if half.isNone then (runAhead w s).1.withSig g else s
  | .starved _ | .blocked _ =>
    let g := s.sig
    let r := runAhead w s
    if (s.core w.core).halted then s
    else if r.2 then (if half.isNone then r.1.withSig g else s)
    else
      let t := r.1.withSig g
      match isDead w t with
      | some q => trapAt w 0x09 (BitVec.ofNat 64 q) (leaveVq w t)
      | none => t
  | .done | .trapped => refetch w s
  | _ => s

/-! ### The turn of a context -/

/-- R102: the trap of a chain that does not decode at its k-th word; a chain that runs past the store has no
word there, and the value of the field is open, and the same for the same chain (R43). -/
def decodeTval (pc : BitVec 16) (k : Nat) (w : Option Half) : DWord :=
  let a := pc + BitVec.ofNat 16 (2 * k)
  BitVec.ofNat 64 (a.toNat * 65536 + (w.getD (Config.pastStore a)).toNat)

/-- What an instruction executed ahead leaves to be done when the boundary passes it: the mark of a PGATT (R214). -/
def retireEffect (w : Who) (s : State) : State :=
  match boundaryIns w s, pergOf w.core s with
  | some (.pgatt _), some (pg, k) => if ((s.fab.pergs.get pg).members.get k).att then s else pergMark pg k 1 s
  | _, _ => s

/-- The instruction at the boundary of a context is fetched and executed, or retired when it has been
executed ahead; `half` as in `afterWait`. -/
def issue (half : Option Bool) (w : Who) (s : State) : Out :=
  let c := s.ctx w
  let fresh : Out :=
    match fetchAt (s.core w.core) c c.pc with
    | .bad k x => .next (trapAt w 0x01 (decodeTval c.pc k x) s)
    | .ok i n =>
      match exec i { s with cur := w, ilen := n } with
      | .next t => .next (afterWait half w t)
      | o => o
  match c.ahead with
  | [] => fresh
  | r :: rest =>
    if r.pc = c.pc && r.h == c.h then
      if r.vec == .queued then
        match waitVm { reachVm w s with cur := w } with
        | .next t => .next (afterWait half w t)
        | o => o
      else
        let c := { c with ahead := rest, fflags := c.fflags ||| r.raised }
        let c := if r.acc then { c with pc := r.next }
          else c.advance ((r.next - r.pc).toNat / 2)
        .next (((retireEffect w s).setCtx w c.counted).withSig .done)
    else fresh

/-- The halves that have their turn. -/
def halvesOf : Option Bool → List Bool
  | none => [false, true]
  | some e => [e]

/-- A context of the core waits, in a half that has its turn, for the issue of this one (YIELD, R217). -/
def awaited (half : Option Bool) (w : Who) (s : State) : Bool :=
  (s.core w.core).ctxs.any fun p => (halvesOf half).any fun e => p.2.yielded.contains (halfNo e w.ctx)

/-- Those contexts have seen it issue. -/
def noteIssue (half : Option Bool) (w : Who) (s : State) : State :=
  let k := s.core w.core
  if awaited half w s then
    s.setCore w.core { k with ctxs := k.ctxs.map fun p =>
      (p.1, { p.2 with yielded := p.2.yielded.filter fun n => !(halvesOf half).any fun e => n == halfNo e w.ctx }) }
  else s

/-- A context waits, in a half that has its turn, for others to issue; it need not wait for one that is no longer
ready (R217). -/
def yields (half : Option Bool) (w : Who) (s : State) : Bool :=
  (s.ctx w).yielded.any fun n =>
    let x := s.ctx ⟨w.core, n % 16⟩
    ((halvesOf half).any fun e => n == halfNo e (n % 16)) && x.live && x.park == .free

/-- The instruction at the boundary has been executed ahead: it retires. -/
def retiring (w : Who) (s : State) : Bool :=
  let c := s.ctx w
  match c.ahead with | r :: _ => r.pc == c.pc && r.h == c.h && r.vec != .queued | [] => false

/-- The first instruction of a launch issues: its cycles count from now on (R341). -/
def noteRun (w : Who) (s : State) : State :=
  match (s.core w.core).grp with
  | none => s
  | some g =>
    let l := s.launchOf g.launch
    if l.ran || !l.alive then s else s.setLaunch g.launch { l with ran := true, startT := s.time }

/-- A take of a context at an owner on another device can still be withdrawn (R219, R391). -/
def takeOut (w : Who) (s : State) : Bool :=
  s.fab.reqs.any fun p => match p.2 with
    | some r => r.agent == .ctx w && r.isTake && !r.withdrawn && r.answer.isNone
    | none => false

/-- A context that HKILL has asked to end stands at an instruction boundary: it issues no more, and ends once what it has
posted is placed (R206, R290). -/
def endsNow (w : Who) (s : State) : Bool :=
  let c := s.ctx w
  c.killed && !reqOut w s && !(c.vwait && c.park == .free)

/-- The turn of a context: nothing while it is not live, parked, saved or stopped for a save; else a killed helper ends,
an answer DELIVER or a report is raised, a take that a report waits for is withdrawn, or its instruction issues or retires. A
turn of both halves (none) goes on with the other half when it waits. -/
def turnOf (half : Option Bool) (w : Who) (s : State) : Out :=
  let c := s.ctx w
  let halted := match (s.core w.core).grp with | some g => g.halted && !reqOut w s | none => true
  if !c.live || (s.core w.core).saved || halted then .next (s.withSig .stalled)
  else if endsNow w s then .next ((if postedOut w s then s else endHelper w s).withSig .stalled)
  else
    let s := if retiring w s then s else noteIssue half w s
    if !retiring w s && yields half w s then .next (s.withSig .stalled)
    else match c.park with
      | .parked => .next (s.withSig .parked)
      | .deliver cause va => if c.vwait then .next (s.withSig .stalled) else .next (trapAt w cause va s)
      | .free =>
        if reportReady w s then .next (raiseReport w s)
        else if reportDue w s && takeOut w s then .next ((withdrawRemote (· == w) s).withSig .stalled)
        else issue half w (noteRun w s)

/-- A turn of a context in which both halves issue. -/
def runTurn (w : Who) (s : State) : Out := turnOf none w s

end Sys2Proof.Machine
end

