-- ==== Sys2Proof/Machine/Turns.lean ====
section
/-! DEFINITION. The turns of the device: the clock, and the turns that come round in order when none is
asked for (R11, R48, R251, R412, R415; DESIGN CHOICE, log entry 1). Every turn of the round but a context's is one direct
call of the meaning that exec gives to an event. -/

namespace Sys2Proof.Machine

/-! ### The clock -/

/-- A live context stands at a SENDS that is due in the present cycle (R207). -/
def sendsDue (w : Who) (s : State) : Bool :=
  let k := s.core w.core
  let c := s.ctx w
  c.live && c.park == .free && match fetchAt k c c.pc with
    | .ok (.sends slot) _ => match sendsEntry k c.planEnt (planGroups k s) slot with
      | some (e, _) => decide (e.cycle = k.xcyc.toNat)
      | none => false
    | _ => false

/-- The state an answer leaves; a stop leaves the state before. -/
def stateOr (o : Out) (s : State) : State := match o with | .next t => t | _ => s

/-- The contexts of a core that stand at a SENDS due now issue it. -/
def runSends (s : State) (core : Nat) : State :=
  if !(s.core core).xphase then s
  else (List.range 11).foldl (fun s i =>
    if sendsDue ⟨core, i⟩ s then stateOr (turnOf (some false) ⟨core, i⟩ s) s else s) s

/-- The counters of a core after a cycle of 1.9 GHz (R30, R252, R412). -/
def CoreSt.ticked (c : CoreSt) : CoreSt :=
  if c.grp.isNone || c.saved then c
  else
    { c with
      cycle := c.cycle + 1
      xcyc := if c.isBulk && (c.step ≠ 0 || c.barph.getLsbD 0) then c.xcyc + 1 else c.xcyc
      heldcyc := if c.heldNow then c.heldcyc + 1 else c.heldcyc }

/-- A cycle passes: sends that are due go first, the words of a transfer that ends have all been written, and a
governor window starts every 1,900 cycles. -/
def tick (s : State) : State :=
  let s := settleReqs (serveLinks (s.cores.keys.foldl runSends s))
  let s := s.mapCores fun _ c => c.ticked
  let s := { s with time := s.time + 1 }
  let s := s.mapCores fun _ c => if c.recvBusy ≤ s.time then c.land else c
  if s.time % 1900 = 0 then stateOr (execGovernorWindow s) s else s

/-! ### Requests of the management class (R427, R435 to R437) -/

/-- A request performed as its code says, BADOP for a code that R437 does not list. -/
def receiveRequest (mop : Nat) (r : MgmtReq) (s : State) : Out :=
  match mop with
  | 0x01 => execVdcreate r s
  | 0x02 => execVddestroy r s
  | 0x03 => execQcreate r s
  | 0x04 => execQdestroy r s
  | 0x05 => execQage r s
  | 0x06 => execFqset r s
  | 0x07 => execFqanswer r s
  | 0x08 => (match bodyF r.body 0 1 with
    | 1 => execCreate r s
    | 2 => execInvrange r s
    | 3 => execInvspace r s
    | _ => execTeardown r s)
  | 0x09 => execPgbind r s
  | 0x0A => execMigrate r s
  | 0x0B => execPagemove r s
  | 0x0C => execPeerset r s
  | 0x0D => execDevid r s
  | 0x0E => execPdomset r s
  | 0x0F => execPlset r s
  | 0x10 => execAttest r s
  | 0x11 => execStatus r s
  | 0x12 => execBootrec r s
  | 0x13 => execSlotwrite r s
  | 0x14 => execClearfail r s
  | 0x15 => execReset r s
  | 0x16 => execNotifyto r s
  | m => mgmtReq m false (fun _ => true) r s fun s => done 5 s

/-- The request that the payload of a MGMT packet holds, with its code. -/
def requestOf (p : Packet) : Nat × MgmtReq :=
  let b := p.payload
  (bodyF b 0 2, ⟨p.sdev, p.svdev, BitVec.ofNat 32 (bodyF b 4 4), bodyF b 10 2, b.drop 16⟩)

/-- The header of a request agrees with its packet: mlen with the body it has brought, and mstat and the field R435 gives
as 0 are 0. -/
def mgmtHeaderOk (p : Packet) : Bool :=
  let b := p.payload
  bodyF b 2 2 + 16 == p.len && bodyF b 8 1 == 0 && bodyF b 12 4 == 0

/-- R427, R435: a MGMT packet arrives at a port. One too short for its header, an answer and a notice have no effect. -/
def execMgmt (p : Packet) (s : State) : Out :=
  receive p 6 s fun s =>
    let (mop, r) := requestOf p
    if p.len < 16 || bodyF p.payload 9 1 ≠ 0 then .next s
    else if mgmtHeaderOk p then receiveRequest mop r s
    else mgmtReq mop (decide (0x12 ≤ mop) && decide (mop ≤ 0x15)) (fun _ => true) r s fun s => done 1 s

/-! ### The round -/

/-- A turn of the round: its place in the order, and what it does to a state. -/
abbrev Act := Nat × (State → Out)

/-- An act in a list when a condition holds. -/
def whenA (b : Bool) (at_ : Nat) (a : State → Out) : List Act := if b then [(at_, a)] else []

/-- The half that is not the boundary's runs ahead of it by one instruction (R11). -/
def aheadTurn (e : Bool) (w : Who) (s : State) : Out :=
  let c := s.ctx w
  let runs := match boundaryIns w s with | some b => runningHalf c b == e | none => false
  let on := runs && c.live && c.park == .free && !(s.core w.core).saved && !c.killed && !reportDue w s
  let s := noteIssue (some e) w s
  .next (if on && !yields (some e) w s then (runAhead w s).1.withSig .stalled else s)

/-- What has been executed ahead retires as far as the boundary goes without an issue. -/
def retireAll (w : Who) (s : State) : State :=
  (List.range (s.ctx w).ahead.length).foldl (fun s _ => if retiring w s then stateOr (turnOf none w s) s else s) s

/-- A turn of one half of a context, the execute half when `e`, which issues at most once (R48): at the boundary when that
stands at an instruction of the half, and else ahead of it. What no half issues has its turn with the access half. -/
def halfTurn (e : Bool) (w : Who) (s : State) : Out :=
  let s := retireAll w s
  let c := s.ctx w
  let here := match boundaryIns w s with | some b => execHalf b == e | none => !e
  if here || (!e && (c.park != .free || c.killed || reportDue w s)) then turnOf (some e) w s else aheadTurn e w s

/-- The turns of a core that have something to do; each half of a context has its own. -/
def coreActs (k : Nat) (s : State) : List Act :=
  let c := s.core k
  let at_ (i : Nat) : Nat := k * 4096 + i
  c.ctxs.keys.flatMap (fun i =>
      let w : Who := ⟨k, i⟩
      let free := (s.ctx w).live && (s.ctx w).park != .parked
      whenA free (at_ (8 * i)) (halfTurn false w) ++
      whenA free (at_ (8 * i + 1)) (halfTurn true w) ++
      whenA (s.ctx w).stream.isSome (at_ (8 * i + 2)) (execStreamElement w) ++
      whenA (s.ctx w).taking (at_ (8 * i + 3)) (execFetakeRetry w)) ++
    whenA (!c.vq.isEmpty) (at_ 2048) (execVectorPerform k) ++
    whenA (!c.mx.queue.isEmpty) (at_ 2049) (execMxCommandBegin k) ++
    whenA (!c.cp.queue.isEmpty) (at_ 2050) (execCpCommandBegin k) ++
    whenA (!c.cp.queue.isEmpty) (at_ 2051) (execCrallComplete k) ++
    ((List.range 16).filterMap fun n =>
      if h : n < 16 then (if domM (c.dom.get n) then some (at_ (2064 + n), execBarrierRelease k ⟨n, h⟩) else none)
      else none) ++
    whenA (!(c.chans.get 0).held.isEmpty) (at_ 2080) (execArrivalDeliver k) ++
    whenA (!c.xfers.isEmpty) (at_ 2081) (execExchangeTransfer k) ++
    whenA (!c.rxIn.isEmpty) (at_ 2082) (execRxMessagePlace k) ++
    whenA (groupOver c) (at_ 2083) (execGroupEnd k) ++
    (match wantSave k s with
      | some r => [(at_ 2084, execPreemptSave k r)]
      | none => whenA c.halted (at_ 2084) (execPreemptSave k 1)) ++
    whenA (s.plat.retiring.get k) (at_ 2085) (execRepairSubstitution k)

/-- The turns of a queue that have something to do. -/
def queueActs (n : Nat) (s : State) : List Act :=
  let q := s.queue n
  let at_ (i : Nat) : Nat := 2 ^ 32 + 8 * n + i
  whenA (canFetch n s) (at_ 0) (execQueueFetch n) ++
    (match (headCmd q).map fun c => bKind c.body with
      | some 2 => [(at_ 1, execWait n)]
      | some 3 => [(at_ 2, execSignal n)]
      | some 4 => []
      | some _ => [(at_ 3, execLaunch n), (at_ 4, execQueueAge n)]
      | none => whenA (q.cmds.any fun c => c.result.isSome) (at_ 3) (execLaunch n)) ++
    whenA (!(preloading q).isEmpty || match headCmd q with | some c => bKind c.body == 4 | none => false) (at_ 5)
      (execPreload n)

/-- The core on which a group or a saved group of a launch may be put. -/
def pickCore (key first : Nat) (s : State) : Option Nat :=
  if coreFree key first s && vdevHas (s.vdev (s.launchOf key).vdev) first then some first
  else firstFree key (s.launchOf key).vdev s

/-- The RESERVE of a launch stands next on the link to a cluster. -/
def reserveNext (key cl : Nat) (s : State) : Bool :=
  match s.links.get cl with | .reserve k _ :: _ => k == key | _ => false

/-- The turns of a launch that have something to do. -/
def launchActs (key : Nat) (s : State) : List Act :=
  let l := s.launchOf key
  let at_ (i : Nat) : Nat := 2 ^ 33 + 1024 * key + i
  let start : List Act := match l.nextGroup with
    | none => []
    | some g =>
      if l.ganged then
        match l.place with
        | .none => [(at_ 0, execReserve key)]
        | .reserved =>
          (l.asked.flatMap fun a =>
            whenA (reserveNext key a.1 s) (at_ (1 + a.1)) (execGrant key a.1 (kioskGrants key a.1 a.2 s))) ++
          [(at_ 600, execCommit key), (at_ 601, execRelease key)]
        | .backoff => [(at_ 602, execPlacementRetry key)]
        | .committed => match l.reserved with | k :: _ => [(at_ 603, execGroupStart key g k)] | [] => []
      else match pickCore key 0 s with | some k => [(at_ 603, execGroupStart key g k)] | none => []
  if !l.alive then []
  else start ++ whenA (l.spec && l.resolved.isNone && l.served) (at_ 604) (execShapeResolve key) ++
    whenA (l.resolved.isSome && !l.applied) (at_ 605) (execResolutionApply key) ++
    whenA (l.applied && !l.tailRun) (at_ 606) (execTailLaunchStart key) ++
    whenA (launchOver l) (at_ 607) (execLaunchComplete key)

/-- The page of a residue that is being moved, or the first that is to be (R445). -/
def nextPage (residue : Nat) (s : State) : Option MovedPage :=
  let r := s.fab.residues.get residue
  if !r.held then none
  else if r.frozen.isSome then r.frozen
  else (pagesOf (s.vdev residue) s.mem).find? fun p =>
    match heldLeaf residue p.space p.page s with
    | some l => wantsMove r residue p.space l s
    | none => false

/-- The turns that none of these has: restores, fault entries, requests that are repeated, remote counts, migrations. -/
def otherActs (s : State) : List Act :=
  let at_ (kind i : Nat) : Nat := (2 ^ 64 + kind) * 2 ^ 64 + i
  s.savedGroups.filterMap (fun p => p.2.bind fun v =>
      (pickCore v.launch v.core s).map fun k => (at_ 0 p.1, execRestore p.1 k)) ++
    s.vdevs.flatMap (fun p =>
      whenA (p.2.fqBlock.isSome && !p.2.fwait.isEmpty) (at_ 1 p.1) (execFaultEntryWrite p.1)) ++
    s.fab.reqs.filterMap (fun p => p.2.bind fun r => if r.moving then some (at_ 2 p.1, execMovingRetry p.1) else none) ++
    (if s.time % 19000 = 0 then
      ((List.range s.tlb.length).zip s.tlb).filterMap fun p =>
        if p.2.count = 0 then none else some (at_ 3 p.1, execRcountFlush p.1)
     else []) ++
    s.fab.migs.flatMap (fun p => whenA p.2.active (at_ 4 p.1)
      (if p.2.refused then execMigrationFail p.1 else execMigrationCommit p.1)) ++
    s.fab.arriving.flatMap (fun p => whenA p.2.commit (at_ 5 p.1) (execMigrationCommit p.1)) ++
    s.fab.residues.filterMap (fun p =>
      (nextPage p.1 s).map fun g => (at_ 6 p.1, execPageMove p.1 g.space (BitVec.ofNat 64 g.page)))

/-- Every turn of the round in a state, in order. -/
def roundActs (s : State) : List Act :=
  s.cores.keys.flatMap (fun k => coreActs k s) ++ s.queues.keys.flatMap (fun n => queueActs n s) ++
    s.launches.keys.flatMap (fun l => launchActs l s) ++ otherActs s

/-- One turn of the round: the first whose place has not been passed, so that nothing that has something to do is
skipped when others come or go; past the last a cycle passes. -/
def roundTurn (s : State) : Out :=
  match (roundActs s).find? fun a => decide (a.1 ≥ s.rr) with
  | none => .next { tick s with rr := 0 }
  | some a =>
    match a.2 s with
    | .next t => .next { t with rr := a.1 + 1 }
    | o => o

end Sys2Proof.Machine
end

