-- ==== Sys2Proof/Machine/Step.lean ====
section
/-! DEFINITION. One step of the machine, and the placing of an instruction where the next step fetches
(DESIGN CHOICE, log entries 1 and 8). -/

namespace Sys2Proof.Machine

/-- One turn: the first of the agenda, or, when nothing is asked for, the next of the round. -/
def step (s : State) : Host.Outcome State Fault Refusal :=
  match s.agenda with
  | [] => roundTurn s
  | .run core ctx :: rest => runTurn ⟨core, ctx⟩ { s with agenda := rest }
  | .tick :: rest => .next (tick { s with agenda := rest })
  | .event i :: rest => exec i { s with agenda := rest }
  | .request p :: rest => execMgmt p { s with agenda := rest }

/-- The halfwords of an instruction of `nbits` bits, followed by zeros up to five. -/
def placedWords (nbits w : Nat) : List Half :=
  (List.range 5).map fun i => if 16 * i < nbits then BitVec.ofNat 16 (w / 65536 ^ i) else 0

/-- The group in which a placed instruction runs: group 0 of an open launch of one group, launch id 1, on
virtual device 0. -/
def placedGrp : Grp :=
  { (default : Grp) with launch := launchKey 0 1, id := 1, idx := 0, n := 1 }

/-- A state with an instruction placed where the next step fetches: at the pc of context 0 of core 0, which is
given to a group of a launch of virtual device 0 when it runs none, the device being ready (DEDUCED, log entry 8). -/
def State.withFetchWord (s : State) (nbits w : Nat) : State :=
  let k := s.core 0
  let fresh := k.grp.isNone || !(s.ctx ⟨0, 0⟩).live
  let k := if fresh then { startedCore k 0 (launchKey 0 1) 0 0 default ([], []) with grp := some placedGrp } else k
  let c := k.ctxs.get 0
  let c := { c with live := true, park := .free, ahead := [], yielded := [], reports := [], vwait := false
                    synced := k.codeOld.length }
  let k := { k with
    ctxs := k.ctxs.put 0 c, saved := false
    istore := k.istore.putList (c.pc.toNat / 2) (placedWords nbits w) }
  let s := s.setCore 0 k
  let s := { s with agenda := [.run 0 0], plat := { s.plat with mode := .full, stage := 6 } }
  if fresh then
    let v := s.vdev 0
    let s := s.setVdev 0 { v with alive := true, quarters := v.quarters ||| 1, nextId := max 2 v.nextId }
    s.setLaunch (launchKey 0 1) { s.launchOf (launchKey 0 1) with
      alive := true, id := 1, groups := 1, predicted := 1, started := true
      gst := (s.launchOf (launchKey 0 1)).gst.put 0 (.running 0) }
  else s

end Sys2Proof.Machine
end

