-- ==== Sys2Proof/Safety.lean ====
section
/-! DEFINITION. What claims are stated with: the canonical form of memory, completion, and what a step may
have changed. -/

namespace Sys2Proof.Machine

/-- The memory of a state keeps its canonical form. -/
def State.memWf (s : State) : Prop := Memory.wf s.mem = true

/-- The state after an outcome, when there is one. -/
def nextOf (o : Out) : Option State := match o with | .next s => some s | _ => none

/-- A step of a state that neither faults nor is refused. -/
def runs (s : State) : Prop := ∃ t, step s = .next t

/-- The state in which the executing context, changed to `c`, has completed its instruction: its pc past the
instruction, by way of the check of a counted loop (R140). -/
def State.past (s : State) (c : Ctx) : State := (s.setMe (c.advance s.ilen)).withSig .done

/-- The state in which the executing context, changed to `c`, has jumped to `t`. -/
def State.jumped (s : State) (c : Ctx) (t : BitVec 16) : State := (s.setMe { c with pc := t }).withSig .done

/-- Two states differ at most in their cores and the signal of the latest turn: memory, translation, virtual
devices, queues, launches, fabric and platform are the same. -/
def State.sameBut (s t : State) : Prop := { t with cores := s.cores, sig := s.sig } = s

/-- Two states differ at most in one core and the signal. -/
def State.sameButCore (s t : State) (k : Nat) : Prop := s.sameBut t ∧ ∀ j, j ≠ k → t.core j = s.core j

/-- Two states differ at most in one context and the signal. -/
def State.sameButCtx (s t : State) (w : Who) : Prop :=
  s.sameBut t ∧ (∀ v, v ≠ w → t.ctx v = s.ctx v) ∧ ∀ k, { t.core k with ctxs := (s.core k).ctxs } = s.core k

/-- Two contexts agree but in pc, d registers, the counter register of an armed loop with the loop, queues and
the floating-point flags. -/
def Ctx.sameButD (c c' : Ctx) : Prop :=
  { c' with pc := c.pc, d := c.d, a := c.a, loop := c.loop, lq0 := c.lq0, lq1 := c.lq1, sq0 := c.sq0
            sq1 := c.sq1, cq := c.cq, xq := c.xq, fflags := c.fflags } = c

/-- Every a register but the counter of an armed loop is the same. -/
def Ctx.sameA (c c' : Ctx) (but : Nat → Prop) : Prop :=
  ∀ n, ¬ but n → (∀ l, c.loop = some l → l.ctr.val ≠ n) → c'.a.get n = c.a.get n

/-- The instructions that are complete on entering the core's vector queue and take no d operand (R168, R170). -/
def isVectorArith : Instr → Bool
  | .vadd _ | .vsub _ | .vmul _ | .vmin _ | .vmax _ | .vabs _ | .vneg _ | .vfma _ => true
  | .viadd _ | .vand _ | .vor _ | .vxor _ | .vshl _ | .vshr _ | .vsar _ | .vimul _ => true
  | .vcmpEq _ | .vcmpLt _ | .vcmpLe _ | .vcmpUn _ | .vsel _ | .vmov _ => true
  | .vsum _ | .vminr _ | .vmaxr _ | .vsqn _ | .vcvtF2f _ | .vcvtF2i _ | .vcvtI2f _ | .vf2x _ => true
  | .vperm _ | .viota _ | .vdot _ => true
  | _ => false

/-- The executing core with one more item in its vector queue. -/
def State.queued (s : State) (v : VItem) : State := s.setMyCore { s.myCore with vq := s.myCore.vq ++ [v] }

/-- What the performance of the head of a core's vector queue leaves but its own registers: the item is gone, the
flags go to its live issuer, memories and every other core are as before. -/
def performedBut (s t : State) (core : Nat) (v : VItem) (rest : List VItem) (fl : Flags) : Prop :=
  (t.core core).vq = rest ∧ (t.core core).lm = (s.core core).lm ∧ (t.core core).ltag = (s.core core).ltag ∧
  t.mem = s.mem ∧ (∀ k, k ≠ core → k ≠ v.who.core → t.core k = s.core k) ∧
  (∀ w, w ≠ v.who → t.ctx w = s.ctx w) ∧
  t.ctx v.who = (if (s.ctx v.who).live then
    { s.ctx v.who with fflags := (s.ctx v.who).fflags ||| fl.setWidth 64 } else s.ctx v.who)

/-- The performance of an instruction at the head of a vector queue that computes elements of `w` bits of v[x]:
element e, when enabled, becomes what `f` gives of the old registers, and every other element, register and mask
stays; the flags are those of the enabled elements. -/
def computesElems (i : Instr) (x w : Nat) (en : CoreSt → Nat → Bool)
    (f : CoreSt → VItem → Nat → Nat × Flags) : Prop :=
  ∀ (s : State) (core : Nat) (v : VItem) (rest : List VItem),
    (s.core core).saved = false → (s.core core).vq = v :: rest → v.ins = i →
    let c := s.core core
    ∃ t, exec (.vectorPerform core) s = .next t ∧
      (∀ e, e < 2048 / w → (t.core core).velem x w e = if en c e then (f c v e).1 % 2 ^ w else c.velem x w e) ∧
      (∀ r k, r ≠ x → k < 64 → (t.core core).vw r k = c.vw r k) ∧ (t.core core).vm = c.vm ∧
      performedBut s t core v rest
        (((List.range (2048 / w)).filter (en c)).foldl (fun a e => a ||| (f c v e).2) 0)

/-- The performance of a comparison into mask register k: the bit of each enabled word is set as `f` says, the
others stay; vm0 discards the result. -/
def computesMask (i : Instr) (k : Nat) (en : CoreSt → Nat → Bool) (f : CoreSt → VItem → Nat → Bool)
    (fl : CoreSt → Flags) : Prop :=
  ∀ (s : State) (core : Nat) (v : VItem) (rest : List VItem),
    (s.core core).saved = false → (s.core core).vq = v :: rest → v.ins = i →
    let c := s.core core
    ∃ t, exec (.vectorPerform core) s = .next t ∧
      (k ≠ 0 → ∀ e, e < 64 → ((t.core core).mask k).getLsbD e = if en c e then f c v e else (c.mask k).getLsbD e) ∧
      (∀ j, j ≠ k → (t.core core).mask j = c.mask j) ∧ (t.core core).mask 0 = BitVec.allOnes 64 ∧
      (t.core core).v = c.v ∧ performedBut s t core v rest (fl c)

/-- The context that is credited and reported to for a command of an engine: its issuer, or context 0 when that is
not live (R392, R399). -/
def creditTo (w : Who) (s : State) : Who := if (s.ctx w).live then w else ⟨w.core, 0⟩

/-- The head command of a core's matrix queue completes with the engine state `m` and the local memory `l`: it
leaves the queue, its flags go to ctl.eflags, the mailbox, when one is set, holds its number + 1 (R224, R247, R399),
and `rep` is reported. -/
def mxCompletes (s t : State) (core : Nat) (c : Cmd) (fl : Flags) (rep : List (Nat × DWord)) (m : Mx)
    (l : SMap Byte) : Prop :=
  let w := creditTo c.who s
  (t.core core).mx = { m with queue := (s.core core).mx.queue.tail } ∧
  (t.core core).lm = (if m.mbScope = 7 then l else l.putList m.mbAddr (leBytes 8 (c.num + 1).toNat)) ∧
  (t.ctx w).eflags = (s.ctx w).eflags ||| fl.setWidth 64 ∧
  (t.ctx w).reports.map (fun r => (r.cause, r.tval)) = (s.ctx w).reports.map (fun r => (r.cause, r.tval)) ++ rep ∧
  t.mem = s.mem

/-- The executing core with one more command in its matrix queue, which takes the next number (R223). -/
def State.withMx (s : State) (c : Cmd) : State :=
  s.setMyCore { s.myCore with mx :=
    { s.myCore.mx with queue := s.myCore.mx.queue ++ [c], seq := s.myCore.mx.seq + 1 } }

/-- The executing core with one more command in its copy queue, which takes the next number (R253). -/
def State.withCp (s : State) (c : Cmd) : State :=
  s.setMyCore { s.myCore with cp :=
    { s.myCore.cp with queue := s.myCore.cp.queue ++ [c], seq := s.myCore.cp.seq + 1 } }

/-- A command that has only been issued: by whom, from where, with which operands and guards, under which number. -/
def Cmd.fresh (c : Cmd) (s : State) (i : Instr) (ea : DWord) (x y z : AVal) (num : DWord) : Prop :=
  c.who = s.cur ∧ c.pc = s.me.pc ∧ c.ins = i ∧ c.ea = ea ∧ c.capX = x ∧ c.capY = y ∧ c.capZ = z ∧
  c.guards = s.me.guards ∧ c.num = num ∧ c.begun = false ∧ c.prog = 0 ∧ c.buf = [] ∧ c.flags = 0 ∧
  c.park = .free ∧ c.waited = false

/-- A packet of a type that stands next at its port, whole and well formed, so that the port takes it (R427, R429). -/
def comesNext (p : Packet) (typ : Nat) (s : State) : Prop :=
  (s.fab.ports.get p.port).down = false ∧ crcOk p = true ∧ packetOk p typ = true ∧
  (s.fab.ports.get p.port).expect.get p.cls = p.lseq

/-- The state in which the port of a packet has taken it. -/
def State.took (s : State) (p : Packet) : State :=
  let q := s.fab.ports.get p.port
  { s with fab := { s.fab with
      ports := s.fab.ports.put p.port { q with expect := q.expect.put p.cls ((p.lseq + 1) % 65536) } } }

/-- A request of the management class that its checks let pass (R436): in full mode, from a host, and no earlier request
about the virtual device it names is still being performed or waits. -/
def admitted (r : MgmtReq) (s : State) : Prop :=
  s.plat.mode = .full ∧ r.svdev = 0xFFFF ∧ inHand r.vdev s = false ∧ s.fab.waitReqs.get r.vdev = []

/-- The destination d register of a scalar execute-half instruction with a d result. -/
def dResult : Instr → Option (Fin 32)
  | .li o => some (d16 o.x) | .addi o => some (d16 o.x)
  | .add o => some o.x | .sub o => some o.x | .mul o => some o.x | .mulh o => some o.x
  | .dand o => some o.x | .dor o => some o.x | .dxor o => some o.x
  | .shl o => some o.x | .shr o => some o.x | .sar o => some o.x
  | .min o => some o.x | .max o => some o.x | .minz o => some o.x | .maxz o => some o.x
  | .div o => some o.x | .rem o => some o.x | .divz o => some o.x | .remz o => some o.x
  | .mov o => some o.x | .sel o => some o.x
  | .fadd o => some o.x | .fsub o => some o.x | .fmul o => some o.x | .fdiv o => some o.x
  | .fmin o => some o.x | .fmax o => some o.x | .fabs o => some o.x | .fneg o => some o.x
  | .fsqrt o => some o.x | .frcp o => some o.x | .frsq o => some o.x | .ffma o => some o.x
  | .fcvtF2f o => some o.x | .fcvtF2i o => some o.x | .fcvtI2f o => some o.x
  | .f2x o => some o.x | .x2f o => some o.x
  | _ => none

/-- The instructions of the access half that compute on a registers: their destination. -/
def aResult : Instr → Option (Fin 16)
  | .ali o => some o.x | .aaddi o => some o.x | .aadd o => some o.x | .asub o => some o.x
  | .amul o => some o.x | .aand o => some o.x | .aor o => some o.x | .axor o => some o.x
  | .ashl o => some o.x | .ashr o => some o.x | .asar o => some o.x | .amov o => some o.x
  | .ctag o => some o.x | .cbase o => some o.x | .clen o => some o.x | .cclr o => some o.x
  | _ => none

end Sys2Proof.Machine
end

