-- ==== Sys2Proof/WellFormed.lean ====
section
/-! DEFINITION. Well-formedness of instructions: the limits R92 to R100 and the encoding tables set on
operand values, and the ranges of the identifiers an event names. Written from the spec's limits, not
from the decoder. -/

namespace Sys2Proof

/-- The PX words that fit a chain of at most five words (R93) beside PP and PR. -/
def pxRoom (page : Nat) (pr : Bool) : Nat := 4 - (if page = 0 then 0 else 1) - pr.toNat

/-- A signed immediate fits the PX words left and the base format's own field (R96). -/
def immOk (page : Nat) (pr : Bool) (fw : Nat) (v : DWord) : Bool := fitsS (10 * pxRoom page pr + fw) v
/-- An unsigned immediate fits. -/
def immOkU (page : Nat) (pr : Bool) (fw : Nat) (v : DWord) : Bool := fitsU (10 * pxRoom page pr + fw) v

/-- A memory operand's offset fits beside the PR word, which an index or another use of PR needs. -/
def Mem.ok (m : Mem) (page : Nat) (pr : Bool) : Bool := immOk page (pr || m.z != 0) 0 m.imm
/-- The same for a form without index. -/
def MemB.ok (m : MemB) (page : Nat) (pr : Bool) : Bool := immOk page pr 0 m.imm

/-- A scope that needs a PR word: every one but package, the default (R98). -/
def Scope.needsPr (s : Scope) : Bool := s != .package

/-- A two-source form without a third register has no PR word, so its registers are 0 to 15 (R92, R95). -/
def twoOk (x y : Fin 32) (z : Option (Fin 32)) : Bool := z.isSome || (decide (x.val < 16) && decide (y.val < 16))
/-- Two sources and a destination on the d registers. -/
def DR3.ok (o : DR3) : Bool := twoOk o.x o.y o.z
/-- Two-source floating point: an arithmetic format, and a third register under SR (R147). -/
def FP3.ok (o : FP3) : Bool := o.fmt.arith && (o.rm != .sr || o.z.isSome) && twoOk o.x o.y o.z
/-- Two-source floating point without rounding. -/
def FP3.okN (o : FP3) : Bool := o.fmt.arith && o.rm == .rne && twoOk o.x o.y o.z
/-- A mask stands in the PR word, so a vector form without a third register has mask vm0 (R98). -/
def maskOk (z : Option (Fin 32)) (k : Fin 8) : Bool := z.isSome || k == 0
/-- Two-source vector floating point. -/
def VF3.ok (o : VF3) : Bool := o.f.ok && maskOk o.f.z o.mask
/-- Two-source vector floating point without rounding. -/
def VF3.okN (o : VF3) : Bool := o.f.okN && maskOk o.f.z o.mask
/-- Two-source vector integer form. -/
def VR3.ok (o : VR3) : Bool := o.r.ok && maskOk o.r.z o.mask
/-- Single-source floating point: the draw register is named under SR only. -/
def FP2.ok (o : FP2) (all : Bool) : Bool := (all || o.fmt.arith) && (o.rm == .sr || o.z == 0)
/-- Single-source floating point without rounding. -/
def FP2.okN (o : FP2) : Bool := o.fmt.arith && o.rm == .rne && o.z == 0
/-- Three-source floating point: RNE or RTZ. -/
def FMA.ok (o : FMA) : Bool := o.fmt.arith && o.rm != .sr
/-- A format conversion. -/
def FCvt.ok (o : FCvt) : Bool := o.rm == .sr || o.z == 0
/-- The instruction word is not 0x0000: x and y are not both 0 modulo 16 (R148). -/
def wordNz (x y : Nat) : Bool := x % 16 != 0 || y % 16 != 0
/-- A full/empty operation. -/
def FeF.ok (o : FeF) : Bool := o.m.ok 3 o.scope.needsPr

/-- A context that exists: logical core 0 to 2,303, context 0 to 10 (R6, R7). -/
def Who.ok (w : Who) : Bool := w.core < 2304 && w.ctx < 11
/-- A logical core. -/
def coreOk (c : Nat) : Bool := c < 2304
/-- A packet's fields in their widths (R426). -/
def Packet.ok (p : Packet) : Bool :=
  p.port < 12 && p.cls < 4 && p.typ < 64 && p.ddev < 4096 && p.sdev < 4096 && p.tvdev < 65536 &&
  p.svdev < 65536 && p.space < 65536 && p.reqid < 2 ^ 32 && p.len < 65536 && p.score < 4096 &&
  p.sctx < 16 && p.lseq < 65536
/-- A management request's fields in their widths (R435). -/
def MgmtReq.ok (r : MgmtReq) : Bool := r.sdev < 4096 && r.svdev < 65536 && r.vdev < 65536

/-- Well-formedness. -/
def Instr.wf : Instr → Bool
  | .nop | .halt | .yield | .isync | .wfe | .eret | .trap _ | .brk => true
  | .ali o | .aaddi o | .bz o | .bnz o => immOk 0 false 6 o.imm
  | .aadd _ | .asub _ | .amul _ | .aand _ | .aor _ | .axor _ | .ashl _ | .ashr _ | .asar _ => true
  | .amov _ | .xpop _ | .aqp _ _ => true
  | .cbnd _ | .cprm _ | .cseal _ | .cunsl _ | .ctag _ | .cbase _ | .clen _ | .cclr _ => true
  | .ld o => o.m.ok 0 o.sx
  | .ldq o => o.m.ok 0 o.sx
  | .st o => o.m.ok 0 false
  | .stq o => o.m.ok 0 false
  | .lds o => o.m.ok 0 (o.sx || o.desc != 0)
  | .sts o => !o.sx && o.m.ok 0 (o.desc != 0)
  | .ldc o | .stc o => o.m.ok 0 false
  | .touch m | .touchN m => m.ok 0 false
  | .ldm o | .stm o =>
    1 ≤ o.n.val && o.x.val + o.n.val ≤ 32 && o.m.ok 0 (!(o.n.val ≤ 4 && o.x.val < 16))
  | .b v | .call v => immOk 0 false 10 v
  | .bcqT v | .bcqF v => immOk 0 false 6 v
  | .beq o | .bne o | .blt o | .bge o => immOk 0 false 0 o.imm
  | .ret | .jr _ | .jlr _ => true
  | .loop o => immOkU 0 false 6 o.imm
  | .vld o | .vldBf o | .vst o | .vstBf o => o.m.ok 0 (o.v.val ≥ 16 || o.mask != 0)
  | .vldm o | .vstm o => o.m.ok 0 false
  | .vldx o | .vstx o => o.m.ok 0 true
  | .ldacq o | .strel o => o.m.ok 0 o.scope.needsPr
  | .xpush _ | .cqp _ => true
  | .li o | .addi o => immOk 0 false 6 o.imm
  | .add o | .sub o | .mul o | .mulh o | .dand o | .dor o | .dxor o | .shl o | .shr o | .sar o => o.ok
  | .min o | .max o | .minz o | .maxz o | .div o | .rem o | .sel o | .divz o | .remz o => o.ok
  | .mov _ => true
  | .cmpEq _ | .cmpNe _ | .cmpLt _ | .cmpLtz _ => true
  | .fadd o => o.ok && wordNz o.x.val o.y.val
  | .fsub o | .fmul o | .fdiv o => o.ok
  | .fmin o | .fmax o => o.okN
  | .fabs o | .fneg o => o.okN
  | .fsqrt o | .frcp o | .frsq o => o.ok false
  | .ffma o => o.ok
  | .fcmpEq o | .fcmpLt o | .fcmpLe o | .fcmpUn o => o.fmt.arith
  | .fcvtF2f o => o.ok
  | .fcvtF2i o | .fcvtI2f o => o.ok true
  | .f2x _ | .x2f _ | .rndfill _ | .rndseed _ => true
  | .vadd o => o.ok && wordNz o.f.x.val o.f.y.val
  | .vsub o | .vmul o => o.ok
  | .vmin o | .vmax o => o.okN
  | .vabs o | .vneg o => o.f.okN
  | .vfma o => o.f.ok
  | .viadd o | .vand o | .vor o | .vxor o | .vshl o | .vshr o | .vsar o | .vimul o | .vsel o => o.ok
  | .vcmpEq _ | .vcmpLt _ | .vcmpLe _ | .vcmpUn _ | .vmov _ | .vbcast _ | .vext _ => true
  | .vsum o | .vminr o | .vmaxr o | .vsqn o => o.fmt.arith
  | .vcvtF2f o => o.ok
  | .vcvtF2i o | .vcvtI2f o => o.f.ok true
  | .vf2x o => o.f.x.val % 2 == 0
  | .vperm _ | .viota _ | .vmsk _ => true
  | .vdot o => o.f.ok && o.f.fmt != .fp32
  | .amo _ o | .cas o => o.m.ok 3 true
  | .vamo o => o.m.ok 3 true
  | .fetake o | .feput o | .fepeek o | .feinit o => o.ok
  | .fence _ | .barArv _ | .barWt _ | .barTst _ => true
  | .hstart o => immOk 3 false 0 o.imm
  | .hend | .hjoin _ | .hkill _ => true
  | .sends v => immOkU 3 false 0 v
  | .sendp _ | .rxwt _ | .rxrel | .pkopen _ | .pkput _ | .pkend _ | .pkabt => true
  | .ctlr _ | .ctlw _ | .ctls _ | .ctlc _ | .pgatt _ | .pgdet | .pgstat _ | .cmkw _ | .cmkc _ => true
  | .mxctx m => m.ok 4 false && m.y != 0
  | .mxmsk _ | .mxrot | .mxswp | .mxzero _ | .mxwait => true
  | .mxldb o | .mxldbT o => o.m.ok 4 false
  | .mxmma o | .mxmmaOw o | .mxrun o => o.m.ok 4 (o.pair != 0)
  | .mxdrain o => o.m.ok 4 false
  | .mxsave o | .mxrest o => o.m.ok 4 false
  | .mxup m => m.ok 4 false
  | .mxmbx o => match o.scope with
    | none => o.m == ⟨0, 0, 0⟩
    | some _ => o.m.ok 4 false
  | .cpy o => immOk 5 (o.z != 0) 0 o.imm && wordNz o.x.val o.y.val
  | .cpyw o | .crstep o | .crstepSq o => immOk 5 (o.z != 0) 0 o.imm
  | .cpfil o => immOk 5 (o.z != 0) 0 o.imm && o.y == 0
  | .cpcode o => immOk 5 (o.z != 0) 0 o.imm && o.x == 0
  | .crall o => immOk 5 (o.z != 0) 0 o.imm && o.x == 0 && o.y == 0
  | .cpwait | .cpqry _ => true
  | .priss o => o.m.ok 6 false && wordNz o.x.val o.m.y.val
  | .prrdm o => o.m.ok 6 false
  | .prapl | .prsq _ => true
  | .prstat o => o.m.imm == 0
  | .prls m | .prcfg m => m.ok 6 false
  | .rngWrite c _ _ | .domWrite c _ _ _ | .winWrite c _ _ _ | .ringWrite c _ _ => coreOk c
  | .rxbaseWrite c _ _ _ | .rxheadWrite c _ _ | .rxflagsWrite c _ _ => coreOk c
  | .statusWrite w _ _ | .epcWrite w _ _ => w.ok
  | .streamElement w | .fetakeRetry w | .reportRaise w => w.ok
  | .vectorPerform c | .mxCommandBegin c | .cpCommandBegin c | .crallComplete c => coreOk c
  | .governorWindow => true
  | .movingRetry r => r < 2 ^ 32
  | .barrierRelease c _ => coreOk c
  | .arrivalDeliver c | .exchangeTransfer c | .rxMessagePlace c => coreOk c
  | .groupStart _ _ c | .groupEnd c | .preemptSave c _ | .restore _ c => coreOk c
  | .repairSubstitution c => coreOk c
  | .launchComplete _ => true
  | .wakeWrite _ _ => true
  | .queueFetch _ | .launch _ | .wait _ | .signal _ | .preload _ | .queueAge _ => true
  | .reserve _ | .commit _ | .release _ | .placementRetry _ => true
  | .shapeResolve _ | .resolutionApply _ | .tailLaunchStart _ => true
  | .rcountFlush _ => true
  | .faultEntryWrite v => v < 65536
  | .read p | .write p | .atomic p | .msg p | .wake p | .answer p | .bararv p | .barrel p => p.ok
  | .pgctl p | .state p | .page p => p.ok
  | .linkReplay port cls _ => port < 12 && cls < 4
  | .portRetrain port _ _ => port < 12
  | .migrationCommit v | .migrationFail v => v < 65536
  | .pageMove _ sp _ => sp < 65536
  | .vdcreate r | .vddestroy r | .qcreate r | .qdestroy r | .qage r | .fqset r | .fqanswer r => r.ok
  | .create r | .invrange r | .invspace r | .teardown r | .pgbind r | .migrate r | .pagemove r => r.ok
  | .peerset r | .devid r | .pdomset r | .plset r | .attest r | .status r | .bootrec r => r.ok
  | .slotwrite r | .clearfail r | .reset r | .notifyto r => r.ok
  | .powerOnStart _ | .stageWatchdog | .belvedereWatchdog => true
  | .machineError c => decide (c ≤ 2304)
  | .selfTest u | .correctedErrorLimit u => decide (u < 2880)
  | .thermalLimit c _ => c < 576
  | .i3cBootRecord | .i3cAttest _ | .i3cStatus | .i3cReset => true
  | .grant _ c _ => c < 576

end Sys2Proof
end

