-- ==== Sys2Proof/Certificates/Slice0/Obligations.lean ====
section
/-! DEFINITION. The statements for the provers. A statement gives an instruction's effect as the next state that
exec answers: `s.past c` is the state in which the executing context, changed to `c`, stands past its
instruction. -/

open Sys2Proof Sys2Proof.Machine

/-! ### Decoding and the turn of a context -/

/-- R102, R27: the step of a live context that nothing holds back is exec of the instruction that the halfwords
it fetches at its pc decode to, with what follows it (`afterWait`, R11, R150); the first of a launch notes its time
(`noteRun`, R341). A halfword is fetched as the store holds it, or, overwritten by a CPCODE since the context's latest
ISYNC, as it was before. A turn of the device's other agents is exec of its event; a packet of the management class is
received; a tick passes a cycle. The agenda of turns is the model's own (DESIGN CHOICE, log entry 1). -/
def Obligations.StepRunsTheTurn : Prop :=
  (∀ (s : State) (core ctx : Nat) (rest : List Turn) (i : Instr) (n : Nat) (g : Grp),
     s.agenda = .run core ctx :: rest →
     (s.core core).grp = some g → g.halted = false → (s.core core).saved = false →
     (s.ctx ⟨core, ctx⟩).live = true → (s.ctx ⟨core, ctx⟩).park = .free → (s.ctx ⟨core, ctx⟩).ahead = [] →
     awaited none ⟨core, ctx⟩ s = false → yields none ⟨core, ctx⟩ s = false → endsNow ⟨core, ctx⟩ s = false → reportReady ⟨core, ctx⟩ s = false →
     (reportDue ⟨core, ctx⟩ s = false ∨ takeOut ⟨core, ctx⟩ s = false) →
     decode (fetchWords (s.core core) (s.ctx ⟨core, ctx⟩) (s.ctx ⟨core, ctx⟩).pc) = .ok i n →
     ∀ t, exec i { noteRun ⟨core, ctx⟩ { s with agenda := rest } with cur := ⟨core, ctx⟩, ilen := n } = .next t →
       step s = .next (afterWait none ⟨core, ctx⟩ t)) ∧
  (∀ (k : CoreSt) (c : Ctx) (pc : BitVec 16),
     (oldCode k c = [] → fetchWords k c pc = k.istore.getList (pc.toNat / 2) (min 5 (16384 - pc.toNat / 2))) ∧
     ∀ j h, (fetchWords k c pc)[j]? = some h →
       h = k.istore.get (pc.toNat / 2 + j) ∨ (pc.toNat / 2 + j, h) ∈ oldCode k c) ∧
  (∀ (s : State) (rest : List Turn),
     (∀ i, s.agenda = .event i :: rest → step s = exec i { s with agenda := rest }) ∧
     (∀ p, s.agenda = .request p :: rest → step s = execMgmt p { s with agenda := rest }) ∧
     (s.agenda = .tick :: rest → step s = .next (tick { s with agenda := rest })))

/-- R91 to R96, R100: words written out from the encoding tables decode to the instructions they stand for. -/
def Obligations.WordsDecode : Prop :=
  decode [0x0040] = .ok .halt 1 ∧
  -- ADD d1, d2: op 32, x 1, y 2, f 0
  decode [0x8048] = .ok (.add ⟨1, 2, none⟩) 1 ∧
  -- ADD d17, d2, d3: PR with xh and z 3 before it
  decode [0xF618, 0x8048] = .ok (.add ⟨17, 2, some 3⟩) 2 ∧
  -- LI d5, −1 in imm6
  decode [0x797F] = .ok (.li ⟨5, -1⟩) 1 ∧
  -- LD.z64 a1, [a2 + 5]: a PX word before op 8 with f 3
  decode [0xF005, 0x204B] = .ok (.ld ⟨1, .w64, false, ⟨2, 0, 5⟩⟩) 2 ∧
  -- FADD.f32.rtz d1, d2: page 1, q 1
  decode [0xF881, 0x0048] = .ok (.fadd ⟨1, 2, none, .fp32, .rtz⟩) 2 ∧
  -- VIADD v1, v2, v3 under vm1: page 2, op 2
  decode [0xF900, 0xF419, 0x0848] = .ok (.viadd ⟨⟨1, 2, some 3⟩, 1⟩) 3 ∧
  -- AMO.ADD.z64.ar.package a1, [a2], a3: page 3, q 0x30
  decode [0xF9B0, 0xF41C, 0x004B] = .ok (.amo .add ⟨1, 3, ⟨2, 0⟩, true, .ar, .package⟩) 3 ∧
  -- MXSWP: page 4, op 2, f 3
  decode [0xFA00, 0x0803] = .ok .mxswp 2 ∧
  -- CPY a1, a2, a3: page 5
  decode [0xFA80, 0xF418, 0x0048] = .ok (.cpy ⟨1, 2, 3, 0⟩) 3 ∧
  -- PRAPL: page 6, op 0, f 2
  decode [0xFB00, 0x0002] = .ok .prapl 2

/-- R90 to R101: every well-formed instruction is what its words decode to, with every operand. -/
def Obligations.DecodeOfEncode : Prop :=
  ∀ i : Instr, Instr.wf i = true → encode i ≠ [] → decode (encode i) = .ok i (encode i).length

/-- R93, R102: whatever decodes is a well-formed instruction of one to five halfwords, all of them there, and
the decoder gives no event. R102: an all-zero word, a reserved major opcode and a chain of five prefixes never
decode. -/
def Obligations.DecodeRefuses : Prop :=
  (∀ (ws : List Half) (i : Instr) (n : Nat), decode ws = .ok i n →
     Instr.wf i = true ∧ 1 ≤ n ∧ n ≤ 5 ∧ n ≤ ws.length ∧ encode i ≠ []) ∧
  ((∀ ws, decode (0 :: ws) = .bad 0 (some 0)) ∧
   (∀ (w : Half) (ws : List Half), 63 * 1024 ≤ w.toNat → decode (w :: ws) = .bad 0 (some w)) ∧
   (∀ (a b c d e : BitVec 10) (ws : List Half), ∃ k w, decode ((60#6 ++ a) :: (60#6 ++ b) :: (60#6 ++ c) ::
     (60#6 ++ d) :: (60#6 ++ e) :: ws) = .bad k w))

/-! ### Registers and queues -/

/-- R10: what reading and writing a d register does: d0, the aliases 14 and 15, and every other. R9: a pop of an
empty queue, and a push into a full one, stop the half that makes them: the numbers of the queues that R386
gives. R14, R16, R108: a0 reads as untagged zero and discards writes; every other a register holds what is
written, with its tag unless R16 forbids it, and an untagged write clears bits [127:64]. -/
def Obligations.RegistersAndQueues : Prop :=
  (∀ (c : Ctx) (v : DWord),
     c.rd 0 = .ok (0, c) ∧ c.wd 0 v = .ok c ∧
     (∀ e rest, c.lq0 = e :: rest → c.rd 14 = .ok (e, { c with lq0 := rest })) ∧
     (∀ e rest, c.lq1 = e :: rest → c.rd 15 = .ok (e, { c with lq1 := rest })) ∧
     (c.sq0.length < 16 → c.wd 14 v = .ok { c with sq0 := c.sq0 ++ [v] }) ∧
     (c.sq1.length < 16 → c.wd 15 v = .ok { c with sq1 := c.sq1 ++ [v] }) ∧
     (∀ r : Fin 32, r ≠ 0 → r ≠ 14 → r ≠ 15 →
       c.rd r = .ok (c.d.get r.val, c) ∧ c.wd r v = .ok { c with d := c.d.put r.val v })) ∧
  (∀ (c : Ctx) (v : DWord),
     (c.lq0 = [] → c.rd 14 = .error 0) ∧ (c.lq1 = [] → c.rd 15 = .error 1) ∧
     (c.sq0.length ≥ 16 → c.wd 14 v = .error 2) ∧ (c.sq1.length ≥ 16 → c.wd 15 v = .error 3) ∧
     (c.cq.length ≥ 8 ↔ c.room 4 = false) ∧ (c.xq.length ≥ 8 ↔ c.room 5 = false)) ∧
  (∀ (c : Ctx) (v : AVal) (x : DWord),
     c.ra 0 = ⟨false, 0⟩ ∧ c.wa 0 v = c ∧ c.wi 0 x = c ∧
     (∀ n : Fin 16, n ≠ 0 →
       (c.wi n x).ra n = ⟨false, x.setWidth 128⟩ ∧
       (v.tag = true → v.neverTagged = false → (c.wa n v).ra n = v) ∧
       ((v.tag = false ∨ v.neverTagged = true) → (c.wa n v).ra n = ⟨false, v.int.setWidth 128⟩) ∧
       (∀ k : Fin 16, k ≠ n → (c.wi n x).ra k = c.ra k ∧ (c.wa n v).ra k = c.ra k)))

/-! ### Execute half -/

/-- R155: the result of every binary integer instruction: d[X] is written from the operands read, in the
two-address and the three-address form (`DR3.fst`, `DR3.snd`), queue aliases included. No flag is recorded. -/
def Obligations.IntegerResults : Prop :=
  ∀ (s : State) (o : DR3) (u v : DWord) (c : Ctx), s.me.rds [DR3.fst o, DR3.snd o] = .ok ([u, v], c) →
    let R (i : Instr) (r : DWord) : Prop := ∀ c', c.wd o.x r = .ok c' → exec i s = .next (s.past c')
    R (.add o) (u + v) ∧ R (.sub o) (u - v) ∧ R (.mul o) (u * v) ∧
    R (.mulh o) (BitVec.ofInt 64 (u.toInt * v.toInt / 2 ^ 64)) ∧
    R (.dand o) (u &&& v) ∧ R (.dor o) (u ||| v) ∧ R (.dxor o) (u ^^^ v) ∧
    R (.shl o) (u <<< (v.toNat % 64)) ∧ R (.shr o) (u >>> (v.toNat % 64)) ∧
    R (.sar o) (u.sshiftRight (v.toNat % 64)) ∧
    R (.min o) (if u.toInt ≤ v.toInt then u else v) ∧ R (.max o) (if u.toInt ≤ v.toInt then v else u) ∧
    R (.minz o) (if u.toNat ≤ v.toNat then u else v) ∧ R (.maxz o) (if u.toNat ≤ v.toNat then v else u) ∧
    R (.div o) (if v = 0 then BitVec.allOnes 64
      else if u.toInt = -2 ^ 63 ∧ v.toInt = -1 then BitVec.ofInt 64 (-2 ^ 63)
      else BitVec.ofInt 64 (u.toInt.tdiv v.toInt)) ∧
    R (.rem o) (if v = 0 then u
      else if u.toInt = -2 ^ 63 ∧ v.toInt = -1 then 0
      else BitVec.ofInt 64 (u.toInt - u.toInt.tdiv v.toInt * v.toInt)) ∧
    R (.divz o) (if v = 0 then BitVec.allOnes 64 else BitVec.ofNat 64 (u.toNat / v.toNat)) ∧
    R (.remz o) (if v = 0 then u else BitVec.ofNat 64 (u.toNat - u.toNat / v.toNat * v.toNat))

/-- R153, R154, R156: moves and immediates, the pushes of XQ and CQ, and SEL, whose pop of CQ comes first and
which reads both candidates. R157, R162: the bit that each comparison pushes into CQ, and the flag of the
ordered floating-point comparisons of a NaN. -/
def Obligations.MoveAndCompareResults : Prop :=
  (∀ (s : State) (c c' : Ctx) (u v : DWord),
     (∀ o : DRI, s.me.wd (d16 o.x) o.imm = .ok c' → exec (.li o) s = .next (s.past c')) ∧
     (∀ o : DRI, s.me.rd (d16 o.x) = .ok (u, c) → c.wd (d16 o.x) (u + o.imm) = .ok c' →
       exec (.addi o) s = .next (s.past c')) ∧
     (∀ o : DR2, s.me.rd o.y = .ok (u, c) → c.wd o.x u = .ok c' → exec (.mov o) s = .next (s.past c')) ∧
     (∀ (o : DR3) (b : Bool) (q : List Bool), s.me.cq = b :: q →
       Ctx.rds { s.me with cq := q } [DR3.fst o, DR3.snd o] = .ok ([u, v], c) →
       c.wd o.x (if b then u else v) = .ok c' → exec (.sel o) s = .next (s.past c')) ∧
     (∀ x, s.me.rd x = .ok (u, c) → c.xq.length < 8 →
       exec (.xpush x) s = .next (s.past { c with xq := c.xq ++ [u] })) ∧
     (∀ x, s.me.rd x = .ok (u, c) → c.cq.length < 8 →
       exec (.cqp x) s = .next (s.past { c with cq := c.cq ++ [decide (u ≠ 0)] }))) ∧
  (∀ (s : State) (x y : Fin 32) (f : FFmt) (u v : DWord) (c : Ctx), s.me.rds [x, y] = .ok ([u, v], c) →
     c.cq.length < 8 →
     let R (i : Instr) (b : Bool) (inv : Bool) : Prop := exec i s = .next (s.past
       { c with cq := c.cq ++ [b], fflags := if inv then c.fflags ||| 16 else c.fflags })
     let a := valOf f (u.toNat % 2 ^ (FFmt.param f).width)
     let b := valOf f (v.toNat % 2 ^ (FFmt.param f).width)
     let nan := a.isNan || b.isNan
     R (.cmpEq ⟨x, y⟩) (decide (u = v)) false ∧ R (.cmpNe ⟨x, y⟩) (decide (u ≠ v)) false ∧
     R (.cmpLt ⟨x, y⟩) (decide (u.toInt < v.toInt)) false ∧ R (.cmpLtz ⟨x, y⟩) (decide (u.toNat < v.toNat)) false ∧
     R (.fcmpEq ⟨x, y, f⟩) (a.eq b) false ∧ R (.fcmpLt ⟨x, y, f⟩) (a.lt b) nan ∧
     R (.fcmpLe ⟨x, y, f⟩) (a.lt b || a.eq b) nan ∧ R (.fcmpUn ⟨x, y, f⟩) nan false)

/-- R158, R161: two-operand floating point without SR: the exact operation on the values of the operands,
rounded once into the format, its pattern written with zeros above, its flags ORed into ctl.fflags; FMIN and
FMAX record none and never round. R147, R158: under SR the operands are X and Y, and Z holds the draw. R159:
FFMA computes d[X] + d[Y] × d[Z], rounded once. -/
def Obligations.FloatBinaryResults : Prop :=
  (∀ (s : State) (o : FP3) (u v : DWord) (c : Ctx), o.rm ≠ .sr →
     s.me.rds [FP3.fst o, FP3.snd o] = .ok ([u, v], c) →
     let w := 2 ^ (FFmt.param o.fmt).width
     let a := valOf o.fmt (u.toNat % w)
     let b := valOf o.fmt (v.toNat % w)
     let R (i : Instr) (r : Nat) (f : Flags) : Prop := ∀ c', c.wd o.x (BitVec.ofNat 64 r) = .ok c' →
       exec i s = .next (s.past { c' with fflags := c'.fflags ||| f.setWidth 64 })
     let rnd (e : Val × Flags) : Nat × Flags := roundOp o.fmt o.rm e 0
     R (.fadd o) (rnd (a.add b)).1 (rnd (a.add b)).2 ∧ R (.fsub o) (rnd (a.sub b)).1 (rnd (a.sub b)).2 ∧
     R (.fmul o) (rnd (a.mul b)).1 (rnd (a.mul b)).2 ∧ R (.fdiv o) (rnd (a.div b)).1 (rnd (a.div b)).2 ∧
     R (.fmin o) (if a.isNan || b.isNan then (FFmt.param o.fmt).canon
       else if a.lt b then u.toNat % w else if b.lt a then v.toNat % w
       else if a.neg then u.toNat % w else v.toNat % w) 0 ∧
     R (.fmax o) (if a.isNan || b.isNan then (FFmt.param o.fmt).canon
       else if a.lt b then v.toNat % w else if b.lt a then u.toNat % w
       else if a.neg then v.toNat % w else u.toNat % w) 0) ∧
  (∀ (s : State) (o : FP3) (z : Fin 32) (u v d : DWord) (c : Ctx), o.rm = .sr → o.z = some z →
     s.me.rds [o.x, o.y, z] = .ok ([u, v, d], c) →
     let w := 2 ^ (FFmt.param o.fmt).width
     let a := valOf o.fmt (u.toNat % w)
     let b := valOf o.fmt (v.toNat % w)
     let R (i : Instr) (e : Val × Flags) : Prop :=
       let r := roundOp o.fmt .sr e (d.toNat % 65536)
       ∀ c', c.wd o.x (BitVec.ofNat 64 r.1) = .ok c' →
         exec i s = .next (s.past { c' with fflags := c'.fflags ||| r.2.setWidth 64 })
     R (.fadd o) (a.add b) ∧ R (.fsub o) (a.sub b) ∧ R (.fmul o) (a.mul b) ∧ R (.fdiv o) (a.div b)) ∧
  (∀ (s : State) (o : FMA) (u v t : DWord) (c c' : Ctx), s.me.rds [o.x, o.y, o.z] = .ok ([u, v, t], c) →
     let val (p : DWord) : Val := valOf o.fmt (p.toNat % 2 ^ (FFmt.param o.fmt).width)
     let r := roundOp o.fmt o.rm ((val v).fma (val t) (val u)) 0
     c.wd o.x (BitVec.ofNat 64 r.1) = .ok c' →
     exec (.ffma o) s = .next (s.past { c' with fflags := c'.fflags ||| r.2.setWidth 64 }))

/-- R147, R160, R161, R163 to R165: one-operand floating point and the conversions: the exact value rounded once, under SR
with the draw that Z holds; FABS and FNEG act on the sign bit and record nothing. -/
def Obligations.FloatOneOperandResults : Prop :=
  (∀ (s : State) (x y z : Fin 32) (fm sf : FFmt) (u d : DWord) (c : Ctx), s.me.rds [y, z] = .ok ([u, d], c) →
    let a := valOf fm (u.toNat % 2 ^ (FFmt.param fm).width)
    let rnd (t : Target) (e : Val × Flags) (i : Instr) : Prop :=
      let r := round t .sr e.1 (d.toNat % 65536)
      ∀ c', c.wd x (BitVec.ofNat 64 r.1) = .ok c' →
        exec i s = .next (s.past { c' with fflags := c'.fflags ||| (e.2 ||| r.2).setWidth 64 })
    rnd (.flt fm) a.sqrt (.fsqrt ⟨x, y, z, fm, .sr⟩) ∧ rnd (.flt fm) a.rcp (.frcp ⟨x, y, z, fm, .sr⟩) ∧
    rnd (.flt fm) a.rsqrt (.frsq ⟨x, y, z, fm, .sr⟩) ∧ rnd (.int 64) (a, 0) (.fcvtF2i ⟨x, y, z, fm, .sr⟩) ∧
    rnd (.flt fm) (valOfInt u.toInt, 0) (.fcvtI2f ⟨x, y, z, fm, .sr⟩) ∧
    rnd (.flt fm) (valOf sf (u.toNat % 2 ^ (FFmt.param sf).width), 0) (.fcvtF2f ⟨x, y, z, fm, sf, .sr⟩)) ∧
  ∀ (s : State) (x y z : Fin 32) (fm sf : FFmt) (rm : RMode) (u : DWord) (c : Ctx), rm ≠ .sr →
    s.me.rd y = .ok (u, c) →
    let w := 2 ^ (FFmt.param fm).width
    let a := valOf fm (u.toNat % w)
    let R (i : Instr) (r : Nat) (f : Flags) : Prop := ∀ c', c.wd x (BitVec.ofNat 64 r) = .ok c' →
      exec i s = .next (s.past { c' with fflags := c'.fflags ||| f.setWidth 64 })
    let rnd (t : Target) (e : Val × Flags) (i : Instr) : Prop :=
      let r := round t rm e.1 0
      R i r.1 (e.2 ||| r.2)
    rnd (.flt fm) a.sqrt (.fsqrt ⟨x, y, z, fm, rm⟩) ∧ rnd (.flt fm) a.rcp (.frcp ⟨x, y, z, fm, rm⟩) ∧
    rnd (.flt fm) a.rsqrt (.frsq ⟨x, y, z, fm, rm⟩) ∧
    R (.fabs ⟨x, y, z, fm, rm⟩) (if a.isNan then (FFmt.param fm).canon
      else u.toNat % w % 2 ^ ((FFmt.param fm).width - 1)) 0 ∧
    R (.fneg ⟨x, y, z, fm, rm⟩) (if a.isNan then (FFmt.param fm).canon
      else (u.toNat % w) ^^^ 2 ^ ((FFmt.param fm).width - 1)) 0 ∧
    rnd (.int 64) (a, 0) (.fcvtF2i ⟨x, y, z, fm, rm⟩) ∧
    rnd (.flt fm) (valOfInt u.toInt, 0) (.fcvtI2f ⟨x, y, z, fm, rm⟩) ∧
    rnd (.flt fm) (valOf sf (u.toNat % 2 ^ (FFmt.param sf).width), 0) (.fcvtF2f ⟨x, y, z, fm, sf, rm⟩) ∧
    (∀ p : Fin 63,
      let r := round (.int 64) .rne ((valOf .fp32 (u.toNat % 2 ^ 32)).scale p.val) 0
      let q := round (.flt .fp32) .rne ((valOfInt u.toInt).scale (-(p.val : Int))) 0
      R (.f2x ⟨x, y, p⟩) r.1 r.2 ∧ R (.x2f ⟨x, y, p⟩) q.1 q.2)

/-- R76, R166, R167: a draw advances ctl.rng by the constant and gives Mix of it; the vector form takes 64 draws
into the vector queue; RNDSEED sets ctl.rng. -/
def Obligations.GeneratorResults : Prop :=
  ∀ (s : State),
    let g := s.myCore.rng + 0x9E3779B97F4A7C15
    (∀ (x : Fin 32) (c' : Ctx), (s.setMyCore { s.myCore with rng := g }).me.wd x (mix g) = .ok c' →
      exec (.rndfill ⟨x, false⟩) s = .next ((s.setMyCore { s.myCore with rng := g }).past c')) ∧
    (∀ x : Fin 32, s.myCore.vq.length < 8 → ∃ t item,
      exec (.rndfill ⟨x, true⟩) s = .next t ∧ t.myCore.vq = s.myCore.vq ++ [item] ∧
      item.vals.length = 64 ∧
      (∀ k, k < 64 → item.vals.getD k 0 =
        (mix (s.myCore.rng + BitVec.ofNat 64 (k + 1) * 0x9E3779B97F4A7C15)).setWidth 32) ∧
      t.myCore.rng = s.myCore.rng + 64 * 0x9E3779B97F4A7C15) ∧
    (∀ (y : Fin 32) (u : DWord) (c : Ctx), s.me.rd y = .ok (u, c) →
      exec (.rndseed y) s = .next ((s.setMyCore { s.myCore with rng := u }).past c))

/-- The frame of the scalar execute-half instructions with a d result (R10, R72, R155): whatever next state they
answer, only the executing context changes, and of it only the destination register, the queues that aliases
name, the flags, which only gain bits [4:0], the pc, and the counter of a counted loop (R140). -/
def Obligations.ExecuteFrame : Prop :=
  ∀ (i : Instr) (x : Fin 32) (s t : State), dResult i = some x → exec i s = .next t →
    s.sameButCtx t s.cur ∧ Ctx.sameButD s.me t.me ∧ Ctx.sameA s.me t.me (fun _ => False) ∧
    (∀ r : Nat, r ≠ x.val → t.me.d.get r = s.me.d.get r) ∧
    (t.me.fflags &&& ~~~(31 : DWord)) = (s.me.fflags &&& ~~~(31 : DWord)) ∧
    (t.me.fflags &&& s.me.fflags) = s.me.fflags ∧ t.mem = s.mem

/-! ### Access half: addresses and capabilities -/

/-- R116 to R118, R120: the results of address arithmetic, of moves and of the capability fields, and what they
leave: d registers, queues and memory are those of `s`. -/
def Obligations.AddressResults : Prop :=
  ∀ (s : State) (o : AR3) (p : ARI) (m : AR2),
    let u := s.me.ia (AR3.fst o)
    let v := s.me.ia (AR3.snd o)
    let R (i : Instr) (x : Fin 16) (r : DWord) : Prop := exec i s = .next (s.past (s.me.wi x r))
    R (.ali p) p.x p.imm ∧ R (.aaddi p) p.x (s.me.ia p.x + p.imm) ∧
    R (.aadd o) o.x (u + v) ∧ R (.asub o) o.x (u - v) ∧ R (.amul o) o.x (u * v) ∧
    R (.aand o) o.x (u &&& v) ∧ R (.aor o) o.x (u ||| v) ∧ R (.axor o) o.x (u ^^^ v) ∧
    R (.ashl o) o.x (u <<< (v.toNat % 64)) ∧ R (.ashr o) o.x (u >>> (v.toNat % 64)) ∧
    R (.asar o) o.x (BitVec.ofInt 64 (u.toInt / 2 ^ (v.toNat % 64))) ∧
    exec (.amov m) s = .next (s.past (s.me.wa m.x (s.me.ra m.y))) ∧
    (let c := s.me.ra m.y
     R (.ctag m) m.x (if c.tag then 1 else 0) ∧
     R (.cbase m) m.x (if c.tag then (c.bits.setWidth 57).signExtend 64 else 0) ∧
     R (.clen m) m.x (if c.tag then ((c.bits >>> 64).setWidth 40).setWidth 64 else 0) ∧
     R (.cclr m) m.x (c.bits.setWidth 64)) ∧
    (∀ (x : Fin 16) (w : DWord) (rest : List DWord), s.me.xq = w :: rest →
      exec (.xpop x) s = .next (s.past ({ s.me with xq := rest }.wi x w))) ∧
    (∀ (q : Fin 2) (y : Fin 16), (s.me.q q.val).length < 16 → s.me.streamOn q.val = false →
      exec (.aqp q y) s = .next (s.past (s.me.setQ q.val (s.me.q q.val ++ [s.me.ia y]))))

/-- R119: CBND, CPRM, CSEAL and CUNSL: each trap of an operand, tested in the rule's order, and each result: the
tag stays, one field changes. -/
def Obligations.CapabilityResults : Prop :=
  ∀ (s : State) (o : AR3),
    let c := s.me.ra (AR3.fst o)
    let t := s.me.ia (AR3.snd o)
    let T (i : Instr) (cause : Nat) : Prop := exec i s = .next (trapAt s.cur cause t s)
    let R (i : Instr) (ok : BitVec 128 → Prop) : Prop :=
      ∃ b, ok b ∧ exec i s = .next (s.past (s.me.wa o.x ⟨true, b⟩))
    -- every bit but those of one field is that of c
    let same (b : BitVec 128) (lo w : Nat) : Prop :=
      ∀ k, k < 128 → (k < lo ∨ lo + w ≤ k) → b.getLsbD k = c.bits.getLsbD k
    (c.tag = false → T (.cbnd o) 0x03 ∧ T (.cprm o) 0x03 ∧ T (.cseal o) 0x03 ∧ T (.cunsl o) 0x03) ∧
    (c.tag = true → c.sealed = true → T (.cbnd o) 0x06 ∧ T (.cprm o) 0x06 ∧ T (.cseal o) 0x06) ∧
    (c.tag = true → c.sealed = false →
      (t.toNat > c.length → T (.cbnd o) 0x04) ∧
      (t.toNat ≤ c.length → R (.cbnd o) fun b => same b 64 40 ∧ (b.extractLsb' 64 40).toNat = t.toNat) ∧
      R (.cprm o) (fun b => (∀ k, k < 128 → k < 57 ∨ k = 61 ∨ 63 ≤ k → b.getLsbD k = c.bits.getLsbD k) ∧
        (∀ k, k < 4 → b.getLsbD (57 + k) = (c.bits.getLsbD (57 + k) && t.getLsbD k)) ∧
        b.getLsbD 62 = (c.bits.getLsbD 62 || t.getLsbD 4)) ∧
      (t.toNat < 1 ∨ t.toNat > 15 → T (.cseal o) 0x05) ∧
      (1 ≤ t.toNat ∧ t.toNat ≤ 15 → R (.cseal o) fun b =>
        (∀ k, k < 124 → k ≠ 61 → b.getLsbD k = c.bits.getLsbD k) ∧ b.getLsbD 61 = true ∧
        (b.extractLsb' 124 4).toNat = t.toNat) ∧
      T (.cunsl o) 0x05) ∧
    (c.tag = true → c.sealed = true →
      (c.otype.toNat ≠ t.toNat → T (.cunsl o) 0x05) ∧
      (c.otype.toNat = t.toNat → R (.cunsl o) fun b =>
        (∀ k, k < 124 → k ≠ 61 → b.getLsbD k = c.bits.getLsbD k) ∧ b.getLsbD 61 = false ∧
        (b.extractLsb' 124 4).toNat = 0))

/-- The frame of the access-half instructions that compute on a registers (R108, R116, R117, R120, R140): only
the executing context changes, and of it only the destination, the pc, and the counter of an armed loop with the
loop; a0 stays untagged zero. -/
def Obligations.AddressFrame : Prop :=
  ∀ (i : Instr) (x : Fin 16) (s t : State), aResult i = some x → exec i s = .next t →
    s.sameButCtx t s.cur ∧ { t.me with pc := s.me.pc, a := s.me.a, loop := s.me.loop } = s.me ∧
    Ctx.sameA s.me t.me (fun n => n = x.val) ∧ t.me.ra 0 = ⟨false, 0⟩ ∧ t.mem = s.mem

/-! ### Access half: loads and stores -/

/-- R17, R18, R24, R112: where an access through an untagged value, or through a LOCAL or a GLOBAL capability,
goes, and the first check that refuses it: the guards, the seal, the kind, the permissions, the bounds. -/
def Obligations.AccessChecks : Prop :=
  ∀ (core : Nat) (g : SMap DWord) (v : AVal) (ea : DWord) (n : Nat) (nd : Need) (kinds : List Nat),
    let r := route core g v ea n nd kinds
    let admits := ea.toNat + n ≤ 0xC000 ∧ ∃ i, i < 4 ∧
      (g.get i).toNat % 65536 ≤ ea.toNat ∧ ea.toNat + n ≤ (g.get i).toNat / 65536 % 65536 + 1 ∧
      (nd.r = true → (g.get i).getLsbD 32 = true) ∧ (nd.w = true → (g.get i).getLsbD 33 = true) ∧
      (nd.a = true → (g.get i).getLsbD 34 = true)
    let lacks := (nd.r = true ∧ v.permR = false) ∨ (nd.w = true ∧ v.permW = false) ∨
      (nd.a = true ∧ v.permA = false) ∨ (nd.c = true ∧ v.permC = false)
    let within := (ea - v.baseS).toNat + n ≤ v.length
    (v.tag = false → (admits → r = .ok .loc) ∧ (¬ admits → r = .error 0x08)) ∧
    (v.tag = true →
      (v.sealed = true → r = .error 0x06) ∧
      (v.sealed = false → v.kind ∉ kinds → r = .error 0x05) ∧
      (v.sealed = false → v.kind ∈ kinds → lacks → r = .error 0x05) ∧
      (v.sealed = false → v.kind ∈ kinds → ¬ lacks → ¬ within → r = .error 0x04) ∧
      (v.sealed = false → v.kind ∈ kinds → ¬ lacks → within →
        (v.kind = 0 → r = .ok .glob) ∧ (v.kind = 1 → admits → r = .ok .loc) ∧
        (v.kind = 1 → ¬ admits → r = .error 0x08)))

/-- R106, R121, R123, R124: loads from local memory: the little-endian number at EA(), extended as the form
says, with the granule's tag for LDC; no memory changes. LDQ waits after its read while its queue is full (R107). Every load
of bytes that the context has posted, or that an element of its own stream is still to access, waits for it (R280, R286). TOUCH, and TOUCH.N whatever its checks answer, complete without any effect
(R125). -/
def Obligations.LocalLoads : Prop :=
  ∀ (s : State) (m : Mem) (w : Width) (sx : Bool) (x : Fin 16) (sc : Scope),
    let ea := s.me.ea m
    let n := Width.bytes w
    let v := leNat (s.myCore.lm.getList ea.toNat n)
    let r := s.me.ra m.y
    (ea.toNat % n = 0 → route s.cur.core s.me.guards r ea n needR allKinds = .ok .loc →
      behindStream (.ctx s.cur) false ea.toNat n s = false →
      let e : DWord := if sx then BitVec.ofInt 64 (signedOf (8 * n) v) else BitVec.ofNat 64 v
      exec (.ld ⟨x, w, sx, m⟩) s = .next (s.past (s.me.wi x e)) ∧
      exec (.ldacq ⟨x, w, m, sc⟩) s = .next (s.past (s.me.wi x (BitVec.ofNat 64 v))) ∧
      (∀ q : Fin 2, (s.me.q q.val).length < 16 → s.me.streamOn q.val = false →
        exec (.ldq ⟨q, w, sx, m⟩) s = .next (s.past (s.me.setQ q.val (s.me.q q.val ++ [e]))))) ∧
    (ea.toNat % 16 = 0 → route s.cur.core s.me.guards r ea 16 needR allKinds = .ok .loc →
      behindStream (.ctx s.cur) false ea.toNat 16 s = false →
      let b := BitVec.ofNat 128 (leNat (s.myCore.lm.getList ea.toNat 16))
      let t := s.myCore.ltag.get (ea.toNat / 16) && (!r.tag || r.permC)
      exec (.ldc ⟨x, m⟩) s = .next (s.past (s.me.wa x ⟨t, if t then b else (b.setWidth 64).setWidth 128⟩))) ∧
    (ea.toNat % n = 0 → route s.cur.core s.me.guards r ea n needR allKinds = .ok .loc → ∀ q : Fin 2,
      (behindStream (.ctx s.cur) false ea.toNat n s = true →
        exec (.ld ⟨x, w, sx, m⟩) s = .next (s.withSig .stalled) ∧ exec (.ldacq ⟨x, w, m, sc⟩) s = .next (s.withSig .stalled) ∧
        exec (.ldq ⟨q, w, sx, m⟩) s = .next (s.withSig .stalled)) ∧
      (behindStream (.ctx s.cur) false ea.toNat n s = false → (s.me.q q.val).length ≥ 16 → s.me.streamOn q.val = false →
        exec (.ldq ⟨q, w, sx, m⟩) s = .next (s.withSig (.blocked q.val)))) ∧
    (ea.toNat % 16 = 0 → route s.cur.core s.me.guards r ea 16 needR allKinds = .ok .loc →
      behindStream (.ctx s.cur) false ea.toNat 16 s = true → exec (.ldc ⟨x, m⟩) s = .next (s.withSig .stalled)) ∧
    (route s.cur.core s.me.guards r ea 1 needR allKinds = .ok .loc →
      exec (.touch m) s = .next (s.past s.me)) ∧
    (route s.cur.core s.me.guards r ea 1 needR allKinds ≠ .ok .glob → exec (.touchN m) s = .next (s.past s.me))

/-- R22, R106, R121, R123, R124: stores to local memory: the low bytes of the value at EA(), little-endian, the
tags of the granules they touch cleared; STC writes 16 bytes and sets the tag of a tagged value. STQ takes its
entry once; ST.REL waits for the context's stream and its posted writes first (R282, R290); every store waits for bytes that
the context has posted, or that an element of its own stream is still to access (R280, R286). -/
def Obligations.LocalStores : Prop :=
  ∀ (s : State) (m : Mem) (w : Width) (x : Fin 16) (sc : Scope),
    let ea := s.me.ea m
    let n := Width.bytes w
    let k := s.cur.core
    let put (v : DWord) : State := s.setMyCore (s.myCore.store ea.toNat (leBytes n v.toNat))
    (ea.toNat % n = 0 → route k s.me.guards (s.me.ra m.y) ea n needW allKinds = .ok .loc →
      behindStream (.ctx s.cur) false ea.toNat n s = false →
      exec (.st ⟨x, w, m⟩) s = .next ((put (s.me.ia x)).past s.me) ∧
      (releaseWait s = false → exec (.strel ⟨x, w, m, sc⟩) s = .next ((put (s.me.ia x)).past s.me)) ∧
      (∀ (q : Fin 2) (v : DWord) (rest : List DWord), s.me.q (2 + q.val) = v :: rest →
        s.me.streamOn (2 + q.val) = false →
        exec (.stq ⟨q, w, m⟩) s = .next ((put v).past (s.me.setQ (2 + q.val) rest)))) ∧
    (let v := s.me.ra x
     let b := s.me.ra m.y
     let c := s.myCore.store ea.toNat (leBytes 16 (if v.tag then v.bits.toNat else v.int.toNat))
     ea.toNat % 16 = 0 → route k s.me.guards b ea 16 (if v.tag then needWC else needW) allKinds = .ok .loc →
      behindStream (.ctx s.cur) false ea.toNat 16 s = false →
      exec (.stc ⟨x, m⟩) s = .next ((s.setMyCore
        (if v.tag then { c with ltag := c.ltag.put (ea.toNat / 16) true } else c)).past s.me)) ∧
    (ea.toNat % n = 0 → route k s.me.guards (s.me.ra m.y) ea n needW allKinds = .ok .loc →
      behindStream (.ctx s.cur) false ea.toNat n s = true →
      exec (.st ⟨x, w, m⟩) s = .next (s.withSig .stalled) ∧ exec (.strel ⟨x, w, m, sc⟩) s = .next (s.withSig .stalled) ∧
      ∀ q : Fin 2, s.me.q (2 + q.val) ≠ [] → exec (.stq ⟨q, w, m⟩) s = .next (s.withSig .stalled)) ∧
    (ea.toNat % 16 = 0 → route k s.me.guards (s.me.ra m.y) ea 16 (if (s.me.ra x).tag then needWC else needW) allKinds =
      .ok .loc → behindStream (.ctx s.cur) false ea.toNat 16 s = true → exec (.stc ⟨x, m⟩) s = .next (s.withSig .stalled)) ∧
    (s.me.stream ≠ none ∨ postedOut s.cur s = true →
      exec (.strel ⟨x, w, m, sc⟩) s = .next (s.withSig .stalled))

/-- The frame of the stores of one register or queue entry to local memory: every byte of local memory outside
the width at EA() reads as before, every tag outside the granules touched, and all else but the executing
context (R22, R106, R121). -/
def Obligations.LocalStoreFrame : Prop :=
  ∀ (s t : State) (m : Mem) (w : Width) (x : Fin 16) (sc : Scope) (q : Fin 2) (i : Instr),
    i = .st ⟨x, w, m⟩ ∨ i = .stq ⟨q, w, m⟩ ∨ i = .strel ⟨x, w, m, sc⟩ →
    route s.cur.core s.me.guards (s.me.ra m.y) (s.me.ea m) (Width.bytes w) needW allKinds = .ok .loc →
    aligned (s.me.ea m) (Width.bytes w) = true →
    exec i s = .next t →
    let a := (s.me.ea m).toNat
    s.sameButCore t s.cur.core ∧ (∀ v, v ≠ s.cur → t.ctx v = s.ctx v) ∧
    (∀ b, b < a ∨ a + Width.bytes w ≤ b → t.myCore.lm.get b = s.myCore.lm.get b) ∧
    (∀ g, 16 * g + 16 ≤ a ∨ a + Width.bytes w ≤ 16 * g → t.myCore.ltag.get g = s.myCore.ltag.get g) ∧
    { t.myCore with lm := s.myCore.lm, ltag := s.myCore.ltag, ctxs := s.myCore.ctxs } = s.myCore ∧
    (t.me.a = s.me.a ∨ s.me.loop ≠ none) ∧ t.me.d = s.me.d ∧ t.me.lq0 = s.me.lq0 ∧ t.me.lq1 = s.me.lq1 ∧
    t.me.cq = s.me.cq ∧ t.me.xq = s.me.xq ∧ t.me.fflags = s.me.fflags ∧ t.mem = s.mem

/-- R121, R123, R371, R374, R375: the loads and stores of a value through a GLOBAL capability: translated in the
group's space, read or written at the physical address; every byte of memory outside the bytes stored is that of the
state after the translation. An XLATE or XPERM failure parks the context, RETRACTED traps. No access of the instruction is
on its way to another device. An access of bytes that an element of the context's own stream is still to access waits for it
(R280, R286). A store of a tentative group outside its slice is held, with nothing performed (R358, R359). R26, R192, R441, R386:
what LD and ST through a CORE, a WINDOW or a REMOTE capability do at the issuing core: the value is read, or written, in the
memory of the core that admits them, and refused with NACK, WINGONE or nothing yet as that core or the pergola has it; what stands
on another device is asked of it by a packet, whose fields are the model's (DESIGN CHOICE, log entry 12), waited for, and taken
from its answer. A core without a group of the virtual device answers NACK 0x19 without a look at its windows (DESIGN CHOICE, log
entry 25). -/
def Obligations.GlobalAccesses : Prop :=
  (∀ (s : State) (g : Grp) (m : Mem) (w : Width) (sx : Bool) (x : Fin 16) (sc : Scope) (q : Fin 2),
    let ea := s.me.ea m
    let n := Width.bytes w
    let pl := TlbPlace.core s.cur.core
    s.myCore.grp = some g → ea.toNat % n = 0 → reqOf s (.ctx s.cur) = none →
    (behindStream (.ctx s.cur) true ea.toNat n s = true →
      (route s.cur.core s.me.guards (s.me.ra m.y) ea n needR allKinds = .ok .glob →
        exec (.ld ⟨x, w, sx, m⟩) s = .next (s.withSig .stalled)) ∧
      (route s.cur.core s.me.guards (s.me.ra m.y) ea n needW allKinds = .ok .glob → g.tent = false →
        exec (.st ⟨x, w, m⟩) s = .next (s.withSig .stalled))) ∧
    (behindStream (.ctx s.cur) true ea.toNat n s = false →
    (route s.cur.core s.me.guards (s.me.ra m.y) ea n needR allKinds = .ok .glob →
      (∀ pa e t, translate pl g.vdev g.space ea.toNat .rd s = .phys pa e t → pa < wakeBase →
        let v := leNat (Memory.bytes t.mem pa n)
        exec (.ld ⟨x, w, sx, m⟩) s = .next (t.past (t.me.wi x (extVal w sx v))) ∧
        exec (.ldacq ⟨x, w, m, sc⟩) s = .next (t.past (t.me.wi x (extVal w false v))) ∧
        ((s.me.q q.val).length < 16 → s.me.streamOn q.val = false → exec (.ldq ⟨q, w, sx, m⟩) s =
          .next (t.past (t.me.setQ q.val (t.me.q q.val ++ [extVal w sx v]))))) ∧
      (∀ t, translate pl g.vdev g.space ea.toNat .rd s = .fault 0x12 0 t →
        exec (.ld ⟨x, w, sx, m⟩) s = .next (trapAt t.cur 0x12 ea t)) ∧
      (∀ c sub t, c ≠ 0x12 → translate pl g.vdev g.space ea.toNat .rd s = .fault c sub t →
        exec (.ld ⟨x, w, sx, m⟩) s = .next (parkCtx s.cur c sub 0 0 ea t))) ∧
    (route s.cur.core s.me.guards (s.me.ra m.y) ea n needW allKinds = .ok .glob → g.tent = false →
      (∀ pa e t, translate pl g.vdev g.space ea.toNat .wr s = .phys pa e t → pa < wakeBase →
        let put (v : DWord) : State := t.physStore pa (leBytes n v.toNat)
        let t' := put (s.me.ia x)
        exec (.st ⟨x, w, m⟩) s = .next (t'.past t'.me) ∧
        (releaseWait s = false → exec (.strel ⟨x, w, m, sc⟩) s = .next (t'.past t'.me)) ∧
        (∀ v rest, s.me.q (2 + q.val) = v :: rest → s.me.streamOn (2 + q.val) = false →
          exec (.stq ⟨q, w, m⟩) s = .next ((put v).past ((put v).me.setQ (2 + q.val) rest))) ∧
        ∀ v b, b < pa ∨ pa + n ≤ b → SMap.get (α := Byte) (put v).mem b = SMap.get (α := Byte) t.mem b) ∧
      (∀ t, translate pl g.vdev g.space ea.toNat .wr s = .fault 0x12 0 t →
        exec (.st ⟨x, w, m⟩) s = .next (trapAt t.cur 0x12 ea t)) ∧
      (∀ c sub t, c ≠ 0x12 → translate pl g.vdev g.space ea.toNat .wr s = .fault c sub t →
        exec (.st ⟨x, w, m⟩) s = .next (parkCtx s.cur c sub 1 0 ea t)))) ∧
    (g.tent = true → ∀ rt, route s.cur.core s.me.guards (s.me.ra m.y) ea n needW allKinds = .ok rt → rt ≠ .loc →
      rt ≠ .core s.cur.core → (rt = .glob → ownSlice g ea.toNat n = false) → exec (.st ⟨x, w, m⟩) s = heldAt s.cur s)) ∧
  (∀ (s : State) (g : Grp) (m : Mem) (w : Width) (sx : Bool) (x : Fin 16),
    let ea := s.me.ea m
    let n := Width.bytes w
    let off := ea.toNat % 65536
    let ag : Agent := .ctx s.cur
    let id := bitsOf ea.toNat 27 16
    s.myCore.grp = some g → ea.toNat % n = 0 →
    let Ld : Out := exec (.ld ⟨x, w, sx, m⟩) s
    let St : Out := exec (.st ⟨x, w, m⟩) s
    let via (nd : Need) (rt : Route) : Prop := route s.cur.core s.me.guards (s.me.ra m.y) ea n nd allKinds = .ok rt
    let waits (o : Out) : Prop := o = .next (s.withSig .stalled)
    let traps (o : Out) (c : Nat) (tv : DWord) (t : State) : Prop := o = .next (trapAt s.cur c tv t)
    let atHere (o : Out) (k : Nat) (nd : Need) (own : Bool) (done : State) : Prop :=
      (behindAt ag k off n s = true → waits o) ∧
      (behindAt ag k off n s = false →
        (atCore s s.cur.core k off n nd own = .here → o = .next done) ∧
        (atCore s s.cur.core k off n nd own = .moving → waits o) ∧
        (atCore s s.cur.core k off n nd own = .nack 0x18 → traps o 0x18 (nackTval 0x18 ea) (refuseAt k s)) ∧
        (atCore s s.cur.core k off n nd own = .nack 0x19 → traps o 0x18 (nackTval 0x19 ea) s))
    let read (k : Nat) : State := s.past (s.me.wi x (extVal w sx (leNat ((s.core k).lm.getList off n))))
    let wrote (k : Nat) : State :=
      let t := s.setCore k ((s.core k).store off (leBytes n (s.me.ia x).toNat))
      t.past t.me
    let asks (o : Out) (typ v space : Nat) (a : DWord) (win : Bool) (done : List Byte → State → State) : Prop :=
      (peerDev s v = none → traps o 0x18 (nackTval 0x19 ea) s) ∧
      (∀ d, peerDev s v = some d →
        (reqOf s ag = none → ∃ p : Packet, o = .next ((issueReq ag p s).withSig .stalled) ∧ p.typ = typ ∧ p.ddev = d ∧
          p.tvdev = v ∧ p.space = space ∧ p.addr = a ∧ p.len = n ∧ pktWindow p = win) ∧
        (∀ i r, reqOf s ag = some (i, r) → r.pkt.typ = typ → r.pkt.addr = a → r.pkt.len = n →
          let t := setReq i none s
          (r.answer = none → waits o) ∧
          (∀ b, r.answer = some (0, b) → o = .next (done b t)) ∧
          (∀ b, r.answer = some (0x42, b) → traps o 0x19 ea t) ∧
          (∀ st b, r.answer = some (st, b) → st ≠ 0 → st ≠ 0x42 → st ≠ 0x0A → traps o 0x18 (nackTval st ea) t)))
    let got (b : List Byte) (t : State) : State := t.past (t.me.wi x (extVal w sx (leNat (b.take n))))
    let put (_ : List Byte) (t : State) : State := t.past t.me
    let away (o : Out) (typ pg b : Nat) (done : List Byte → State → State) : Prop :=
      ∀ v, atWin s s.cur.core pg b = .away v →
        (behindAway ag v pg b off n s = true → waits o) ∧
        (behindAway ag v pg b off n s = false → asks o typ v pg (BitVec.ofNat 64 (ea.toNat % 2 ^ 28)) true done)
    let window (o : Out) (typ : Nat) (nd : Need) (pg b : Nat) (done : Nat → State) (answer : List Byte → State → State) :
        Prop :=
      (atWin s s.cur.core pg b = .stall ∨ atWin s s.cur.core pg b = .moving → waits o) ∧
      (atWin s s.cur.core pg b = .gone → traps o 0x19 ea s) ∧
      (∀ k, atWin s s.cur.core pg b = .here k → atHere o k nd false (done k)) ∧ away o typ pg b answer
    let remote (o : Out) (typ v : Nat) (done : List Byte → State → State) : Prop :=
      (behindRem ag v ea.toNat n s = true → waits o) ∧
      (behindRem ag v ea.toNat n s = false → asks o typ v 0xFFFF ea false done)
    (∀ nd rt, (s.me.ra m.y).tag = true → via nd rt →
      ((s.me.ra m.y).kind = 2 → rt = .core id) ∧ ((s.me.ra m.y).kind = 3 → rt = .win (s.me.ra m.y).target id) ∧
      ((s.me.ra m.y).kind = 4 → rt = .rem (s.me.ra m.y).target)) ∧
    (∀ k, (via needR (.core k) → atHere Ld k needR true (read k)) ∧
      (via needW (.core k) → g.tent = false ∨ k = s.cur.core → atHere St k needW true (wrote k))) ∧
    (∀ pg b, (via needR (.win pg b) → window Ld 1 needR pg b read got) ∧
      (via needW (.win pg b) → g.tent = false → window St 2 needW pg b wrote put)) ∧
    (∀ v, (via needR (.rem v) → remote Ld 1 v got) ∧ (via needW (.rem v) → g.tent = false → remote St 2 v put)))

/-- R112, R121, R124, R125: an access that is misaligned, or that a check refuses, traps before any effect. -/
def Obligations.AccessTraps : Prop :=
  ∀ (s : State) (m : Mem) (w : Width) (sx : Bool) (x : Fin 16) (sc : Scope) (c : Nat),
    let ea := s.me.ea m
    let n := Width.bytes w
    let r := s.me.ra m.y
    let T (i : Instr) (cause : Nat) : Prop := exec i s = .next (trapAt s.cur cause ea s)
    (ea.toNat % n ≠ 0 → T (.ld ⟨x, w, sx, m⟩) 0x07 ∧ T (.ldacq ⟨x, w, m, sc⟩) 0x07 ∧ T (.st ⟨x, w, m⟩) 0x07) ∧
    (ea.toNat % 16 ≠ 0 → T (.ldc ⟨x, m⟩) 0x07 ∧ T (.stc ⟨x, m⟩) 0x07) ∧
    (ea.toNat % n = 0 → route s.cur.core s.me.guards r ea n needR allKinds = .error c →
      T (.ld ⟨x, w, sx, m⟩) c ∧ T (.ldacq ⟨x, w, m, sc⟩) c) ∧
    (ea.toNat % n = 0 → route s.cur.core s.me.guards r ea n needW allKinds = .error c → T (.st ⟨x, w, m⟩) c) ∧
    (ea.toNat % 16 = 0 → route s.cur.core s.me.guards r ea 16 needR allKinds = .error c → T (.ldc ⟨x, m⟩) c) ∧
    (route s.cur.core s.me.guards r ea 1 needR allKinds = .error c → T (.touch m) c) ∧
    -- a local-only capability is stored into local memory only
    (∀ rt, (s.me.ra x).tag = true → (s.me.ra x).permL = true → ea.toNat % 16 = 0 →
      route s.cur.core s.me.guards r ea 16 needWC allKinds = .ok rt → rt ≠ .loc → T (.stc ⟨x, m⟩) 0x05)

/-- R126 to R128: LDS and STS set up the context's stream over the span they check and complete; a count of 0
has no effect, an active stream makes them wait. R127, R128: the stream unit moves the next element of a local
stream: from memory to its load queue, extended, when there is room, or from its store queue to memory when it
has an entry; the stream is idle after the last. An element waits for what the context has posted to the memory it is in
(R280; DEDUCED, log entry 5), and one that is pushed is noted with its LDS while that is ahead of the boundary (the model's own
record, log entry 10). -/
def Obligations.Streams : Prop :=
  (∀ (s : State) (o : StrmF), s.me.stream ≠ none →
     exec (.lds o) s = .next (s.withSig .stalled) ∧ exec (.sts o) s = .next (s.withSig .stalled)) ∧
  (∀ (s : State) (o : StrmF) (store : Bool), s.me.stream = none →
     let i : Instr := if store then .sts o else .lds o
     let d := s.me.ia (if o.desc = 0 then 13 else o.desc)
     let ea := s.me.eaB o.m
     let n := Width.bytes o.w
     let st : Int := ((d >>> 32).setWidth 32 : BitVec 32).toInt
     let cnt := d.toNat % 2 ^ 32
     let lo : Int := min (ea.toNat : Int) (ea.toNat + (cnt - 1 : Nat) * st)
     let hi : Int := max (ea.toNat : Int) (ea.toNat + (cnt - 1 : Nat) * st) + n - 1
     (cnt = 0 → exec i s = .next (s.past s.me)) ∧
     (cnt ≠ 0 → (ea.toNat % n ≠ 0 ∨ st % n ≠ 0) → exec i s = .next (trapAt s.cur 0x07 ea s)) ∧
     (cnt ≠ 0 → ea.toNat % n = 0 → st % n = 0 → (lo < 0 ∨ 2 ^ 64 ≤ hi) →
       exec i s = .next (trapAt s.cur (if (s.me.ra o.m.y).tag then 0x04 else 0x08) ea s)) ∧
     (cnt ≠ 0 → ea.toNat % n = 0 → st % n = 0 → 0 ≤ lo → hi < 2 ^ 64 →
       (∀ c, route s.cur.core s.me.guards (s.me.ra o.m.y) (BitVec.ofInt 64 lo) (hi - lo + 1).toNat
           (if store then needW else needR) [0, 1] = .error c →
           exec i s = .next (trapAt s.cur c (BitVec.ofInt 64 lo) s)) ∧
       (∀ rt, route s.cur.core s.me.guards (s.me.ra o.m.y) (BitVec.ofInt 64 lo) (hi - lo + 1).toNat
           (if store then needW else needR) [0, 1] = .ok rt →
         exec i s = .next (s.past { s.me with stream := some {
           store := store, q := o.q, w := o.w, sx := o.sx, next := 0, count := cnt, ea := ea, stride := st,
           cap := s.me.ra o.m.y, guards := s.me.guards, pc := s.me.pc, park := .free, ends := none } })))) ∧
  (∀ (s : State) (w : Who) (t : Stream), (s.ctx w).stream = some t → t.park = .free → t.ends = none →
     (s.core w.core).saved = false → (t.cap.tag = false ∨ t.cap.kind = 1) → postedTo w w.core s = false →
     let c := s.ctx w
     let a := (BitVec.ofInt 64 ((t.ea.toNat : Int) + t.next * t.stride) : DWord).toNat
     let n := Width.bytes t.w
     let rest : Option Stream := if t.next + 1 < t.count then some { t with next := t.next + 1 } else none
     (t.store = false → (c.q t.q.val).length < 16 →
       exec (.streamElement w) s = .next (s.setCtx w { c.setQ t.q.val (c.q t.q.val ++
         [extVal t.w t.sx (leNat ((s.core w.core).lm.getList a n))]) with
           stream := rest, ahead := markStream (· ++ [t.q.val]) c.ahead })) ∧
     (t.store = true → ∀ v l, c.q (2 + t.q.val) = v :: l →
       let s' := s.setCore w.core ((s.core w.core).store a (leBytes n v.toNat))
       exec (.streamElement w) s = .next (s'.setCtx w { c.setQ (2 + t.q.val) l with stream := rest })))

/-- R131: LDM and STM of local memory: d[X], d[X+1], … from and to consecutive doublewords; the zero register
and the aliases are passed over by LDM and stored as zero by STM. -/
def Obligations.SpillAndFill : Prop :=
  ∀ (s : State) (o : MultiF), s.me.resume = 0 →
    let ea := s.me.eaB o.m
    let at_ (i : Nat) : DWord := ea + BitVec.ofNat 64 (8 * i)
    let named (r : Nat) : Bool := r = 0 || r = 14 || r = 15
    let r := s.me.ra o.m.y
    ea.toNat % 8 = 0 → ea.toNat + 8 * o.n.val ≤ 2 ^ 64 →
    (∀ i, i < o.n.val → behindStream (.ctx s.cur) false (at_ i).toNat 8 s = false) →
    ((∀ i, i < o.n.val → route s.cur.core s.me.guards r (at_ i) 8 needR allKinds = .ok .loc) →
      ∃ t d, exec (.ldm o) s = .next t ∧ t = s.past { s.me with d := d } ∧
        (∀ i, i < o.n.val → named (o.x.val + i) = false →
          d.get (o.x.val + i) = BitVec.ofNat 64 (leNat (s.myCore.lm.getList (ea.toNat + 8 * i) 8))) ∧
        (∀ k, (k < o.x.val ∨ o.x.val + o.n.val ≤ k ∨ named k = true) → d.get k = s.me.d.get k)) ∧
    ((∀ i, i < o.n.val → route s.cur.core s.me.guards r (at_ i) 8 needW allKinds = .ok .loc) →
      ∃ t, exec (.stm o) s = .next t ∧ t.me = s.me.advance s.ilen ∧
        (∀ i, i < o.n.val → leNat (t.myCore.lm.getList (ea.toNat + 8 * i) 8) =
          if named (o.x.val + i) then 0 else (s.me.d.get (o.x.val + i)).toNat) ∧
        (∀ b, b < ea.toNat ∨ ea.toNat + 8 * o.n.val ≤ b → t.myCore.lm.get b = s.myCore.lm.get b) ∧
        s.sameButCore t s.cur.core)

/-! ### Access half: control flow -/

/-- R97, R137, R141: branches: the target from the instruction's own address, taken as each condition says; a
taken branch out of the body of an armed loop disarms it; the oldest bit of CQ is popped; CALL links and never
disarms. A target outside the instruction store is ILLEGAL, taken or not. R138, R139: jumps to a register's
value, with its link written after the value is read; a value of 0x8000 or more, or odd, is ILLEGAL. LOOP arms
the loop, or skips the body for a count of 0; end ≤ start, a body beyond the store, and an armed loop are
ILLEGAL. R140: an instruction whose next address is the end of an armed loop, at handler level 0, decrements the
counter and goes on at the start, or disarms the loop when the counter is 0; every other advance moves the pc
past the instruction and changes nothing else. -/
def Obligations.BranchesAndLoops : Prop :=
  (∀ (s : State) (imm : DWord) (x y : Fin 16),
     let t : BitVec 16 := s.me.pc + (imm <<< 1).setWidth 16
     let u := s.me.ia x
     let v := s.me.ia y
     let leaves (c : Ctx) : Ctx := { c with loop := match c.loop with
       | some l => if l.start ≤ t ∧ t < l.stop then some l else none
       | none => none }
     let B (i : Instr) (taken : Bool) : Prop :=
       exec i s = .next (if taken then s.jumped (leaves s.me) t else s.past s.me)
     (t.toNat < 0x8000 →
       B (.b imm) true ∧ B (.bz ⟨x, imm⟩) (u == 0) ∧ B (.bnz ⟨x, imm⟩) (u != 0) ∧
       B (.beq ⟨x, y, imm⟩) (u == v) ∧ B (.bne ⟨x, y, imm⟩) (u != v) ∧
       B (.blt ⟨x, y, imm⟩) (decide (u.toInt < v.toInt)) ∧ B (.bge ⟨x, y, imm⟩) (decide (v.toInt ≤ u.toInt)) ∧
       (∀ b q, s.me.cq = b :: q →
         exec (.bcqT imm) s = .next (if b then s.jumped (leaves { s.me with cq := q }) t
           else s.past { s.me with cq := q }) ∧
         exec (.bcqF imm) s = .next (if b then s.past { s.me with cq := q }
           else s.jumped (leaves { s.me with cq := q }) t)) ∧
       exec (.call imm) s = .next (s.jumped
         (s.me.wi 15 ((s.me.pc + BitVec.ofNat 16 (2 * s.ilen)).setWidth 64)) t)) ∧
     (0x8000 ≤ t.toNat → ∀ i, i = .b imm ∨ i = .bz ⟨x, imm⟩ ∨ i = .bnz ⟨x, imm⟩ ∨ i = .beq ⟨x, y, imm⟩ ∨
         i = .bne ⟨x, y, imm⟩ ∨ i = .blt ⟨x, y, imm⟩ ∨ i = .bge ⟨x, y, imm⟩ ∨ i = .bcqT imm ∨ i = .bcqF imm ∨
         i = .call imm →
       exec i s = .next (trapAt s.cur 0x01 (illegalTval s) s))) ∧
  ((∀ (s : State) (x y : Fin 16) (imm : DWord),
      let t := s.me.ia x
      let next := s.me.pc + BitVec.ofNat 16 (2 * s.ilen)
      let ok (t : DWord) : Prop := t.toNat < 0x8000 ∧ t.toNat % 2 = 0
      let leaves : Ctx := { s.me with loop := match s.me.loop with
        | some l => if l.start ≤ t.setWidth 16 ∧ t.setWidth 16 < l.stop then some l else none
        | none => none }
      (ok t → exec (.jr x) s = .next (s.jumped leaves (t.setWidth 16)) ∧
        exec (.jlr ⟨x, y⟩) s = .next (s.jumped (s.me.wi y (next.setWidth 64)) (t.setWidth 16))) ∧
      (¬ ok t → exec (.jr x) s = .next (trapAt s.cur 0x01 t s) ∧
        exec (.jlr ⟨x, y⟩) s = .next (trapAt s.cur 0x01 t s)) ∧
      (ok (s.me.ia 15) → exec .ret s = .next (s.jumped s.me ((s.me.ia 15).setWidth 16))) ∧
      (¬ ok (s.me.ia 15) → exec .ret s = .next (trapAt s.cur 0x01 (s.me.ia 15) s)) ∧
      (let start := s.me.pc.toNat + 2 * s.ilen
       let last := (s.me.pc + (imm <<< 1).setWidth 16).toNat
       (start < last + 2 → last ≤ 0x7FFE → s.me.loop = none →
         exec (.loop ⟨x, imm⟩) s = .next (if t = 0 then s.jumped s.me (BitVec.ofNat 16 (last + 2))
           else s.past { s.me with loop := some ⟨BitVec.ofNat 16 start, BitVec.ofNat 16 (last + 2), x⟩ })) ∧
       (last + 2 ≤ start ∨ 0x7FFE < last ∨ s.me.loop ≠ none →
         exec (.loop ⟨x, imm⟩) s = .next (trapAt s.cur 0x01 (illegalTval s) s)))) ∧
   (∀ (c : Ctx) (n : Nat),
      let nx := c.pc + BitVec.ofNat 16 (2 * n)
      (∀ l, c.loop = some l → c.h = false → nx = l.stop →
        let v := c.ia l.ctr - 1
        c.advance n = if v = 0 then { c.wi l.ctr v with loop := none, pc := nx } else { c.wi l.ctr v with pc := l.start }) ∧
      ((∀ l, c.loop = some l → c.h = true ∨ nx ≠ l.stop) → c.advance n = { c with pc := nx })))

/-! ### Traps, handlers and control registers -/

/-- R386 to R388: taking a trap at handler level 0 with a handler: the boundary's address, the cause and the
value are saved, the open packet is abandoned, handler level 1 is entered at ctl.tvec; guards, scratch, flags
and the loop-free registers of other contexts, and memory, stay. R389: a trap in a handler, or without one, ends
the group: its core runs none, its record in an open launch is the cause, and the launch is faulted. -/
def Obligations.Traps : Prop :=
  (∀ (w : Who) (cause : Nat) (tval : DWord) (s : State),
     (s.ctx w).h = false → (s.ctx w).tvec ≠ 0 →
     let t := trapAt w cause tval s
     let c := t.ctx w
     c.epc = (s.ctx w).pc.setWidth 64 ∧ c.cause = BitVec.ofNat 64 cause ∧ c.tval = tval ∧ c.h = true ∧
     c.pc = (s.ctx w).tvec.setWidth 16 ∧ c.packet = none ∧ c.tvec = (s.ctx w).tvec ∧ c.guards = (s.ctx w).guards ∧
     c.scratch = (s.ctx w).scratch ∧ c.eflags = (s.ctx w).eflags ∧ c.reports = (s.ctx w).reports ∧
     (∀ v, v ≠ w → t.ctx v = s.ctx v) ∧ t.mem = s.mem ∧ t.launches = s.launches ∧
     ((s.ctx w).ahead = [] → (s.ctx w).stream = none →
       c.a = (s.ctx w).a ∧ c.d = (s.ctx w).d ∧ c.fflags = (s.ctx w).fflags ∧ c.loop = (s.ctx w).loop ∧
       (∀ q, c.q q = (s.ctx w).q q))) ∧
  (∀ (w : Who) (cause : Nat) (tval : DWord) (s : State) (g : Grp),
     ((s.ctx w).h = true ∨ (s.ctx w).tvec = 0) → (s.core w.core).grp = some g → g.bulk = false →
     let t := trapAt w cause tval s
     (t.core w.core).grp = none ∧ (t.core w.core).ctxs = [] ∧
     (t.launchOf g.launch).gst.get g.idx = .terminated cause ∧ (t.launchOf g.launch).faulted = true ∧
     ((s.launchOf g.launch).faulted = false → (t.launchOf g.launch).cause = cause ∧
       (t.launchOf g.launch).fgroup = g.idx) ∧ t.mem = s.mem)

/-- R34, R205, R217, R218: NOP, WFE, ISYNC, YIELD, TRAP, BRK, ERET and HALT. ERET returns to ctl.epc at level 0
and is PRIV at level 0; HALT of context 0, and HALT or HEND of a helper, wait for what the rules name and end
the context. The model's own choices are that WFE ends at once (DESIGN CHOICE, log entry 32), that HALT ends an LDS stream
(DEDUCED, log entry 19), and that ERET takes the low 16 bits of any ctl.epc (DESIGN CHOICE, log entry 29). -/
def Obligations.SystemResults : Prop :=
  ∀ (s : State),
    exec .nop s = .next (s.past s.me) ∧ exec .wfe s = .next (s.past s.me) ∧
    ((∀ c ∈ s.myCore.cp.queue, c.who ≠ s.cur) → exec .isync s = .next (s.past { s.me with synced := syncedNow s.myCore })) ∧
    (∃ l, exec .yield s = .next (s.past { s.me with yielded := l }) ∧
      -- each other live context, once for either half
      ∀ i, i ∈ l ↔ i % 16 < 11 ∧ i < 32 ∧ i % 16 ≠ s.cur.ctx ∧ (s.ctx ⟨s.cur.core, i % 16⟩).live = true) ∧
    (∀ code, exec (.trap code) s = .next (trapAt s.cur 0x30 (code.setWidth 64) s)) ∧
    exec .brk s = .next (trapAt s.cur 0x31 0 s) ∧
    (s.me.h = true → exec .eret s = .next ((s.setMe { s.me with pc := s.me.epc.setWidth 16, h := false }).withSig .done)) ∧
    (s.me.h = false → exec .eret s = .next (trapAt s.cur 0x02 0 s)) ∧
    (s.cur.ctx = 0 →
      ((∀ i, 1 ≤ i → i < 11 → (s.ctx ⟨s.cur.core, i⟩).live = false) → (∀ t, s.me.stream = some t → t.store = false) →
        exec .halt s = .next ((s.setMe { s.me with live := false, stream := none }).withSig .done)) ∧
      ((∃ i, 1 ≤ i ∧ i < 11 ∧ (s.ctx ⟨s.cur.core, i⟩).live = true) → exec .halt s = .next (s.withSig .stalled)) ∧
      exec .hend s = .next (trapAt s.cur 0x01 (illegalTval s) s)) ∧
    (s.cur.ctx ≠ 0 → s.me.stream = none → postedOut s.cur s = false →
      ∃ t, exec .halt s = .next t ∧ exec .hend s = .next t ∧ (t.ctx s.cur).live = false ∧ t.mem = s.mem ∧
        t.myCore.lm = s.myCore.lm)

/-- R30, R31, R213: CTLR reads a register of the map, and a number not in it is ILLEGAL. CTLW, CTLS and CTLC
leave the value by their rule, after the checks in order: not in the map or read-only (ILLEGAL, the number), a
handler register at level 0 (PRIV), a nonzero reserved bit or a value the register may not hold (ILLEGAL, the
value). -/
def Obligations.ControlInstructions : Prop :=
  ∀ (s : State) (o : CtlF),
    let num := o.num.val
    let v := s.me.ia o.x
    let n64 := BitVec.ofNat 64 num
    let W (op : CtlOp) : Instr := match op with | .write => .ctlw o | .set => .ctls o | .clear => .ctlc o
    let T (i : Instr) (cause : Nat) (tv : DWord) : Prop := exec i s = .next (trapAt s.cur cause tv s)
    (ctlRead s.cur num s = none → T (.ctlr o) 0x01 n64 ∧ ∀ op, T (W op) 0x01 n64) ∧
    (∀ old, ctlRead s.cur num s = some old →
      exec (.ctlr o) s = .next (s.past (s.me.wi o.x old)) ∧
      (num ∈ ctlRO → ∀ op, T (W op) 0x01 n64) ∧
      (num ∉ ctlRO → num ∈ ctlRWH → s.me.h = false → ∀ op, T (W op) 0x02 0) ∧
      (num ∉ ctlRO → (num ∈ ctlRWH → s.me.h = true) → ∀ op,
        let nv := match op with | .write => v | .set => old ||| v | .clear => old &&& ~~~v
        (nv &&& ctlReserved num ≠ 0 → T (W op) 0x01 nv) ∧
        (nv &&& ctlReserved num = 0 → ctlBad s.cur num nv s = true → T (W op) 0x01 nv) ∧
        (nv &&& ctlReserved num = 0 → ctlBad s.cur num nv s = false → num ≠ 0x03C →
          let t := ctlApply s.cur num nv s
          exec (W op) s = .next (t.past t.me)) ∧
        -- OVF of rxflags is cleared by writing it as one, and set by no instruction
        (num = 0x03C → nv &&& ctlReserved num = 0 →
          let kept := if (op = .write ∨ op = .set) ∧ v.getLsbD 2 = true then 0 else old &&& 4
          let t := ctlApply s.cur num ((nv &&& 3) ||| kept) s
          exec (W op) s = .next (t.past t.me))))

/-- R30: a control register holds what an accepted write leaves in it, and no other register of the map changes,
but that the receive buffer's head and tail follow its base and size (R419). R26, R29, R76, R114, R387, R407 to
R409, R419: the events of the opcode table that are writes of a control register leave the register as an
accepted write does, and a write of ctl.epc clears the resume index. -/
def Obligations.ControlRegisterEffects : Prop :=
  (∀ (s : State) (w : Who) (num : Nat) (op : CtlOp) (x v : DWord), ctlCheck w num op x s = .ok v →
     let t := ctlApply w num v s
     (num ≠ 0 → ctlRead w num t = some v) ∧
     (num = 0 → ctlRead w 0 t = (ctlRead w 0 s).map fun old => (old &&& ~~~1) ||| (v &&& 1)) ∧
     (∀ m, m ≠ num → ¬ ((num = 0x038 ∨ num = 0x039) ∧ (m = 0x03A ∨ m = 0x03B)) →
       ctlRead w m t = ctlRead w m s) ∧
     (num = 0x038 → ctlRead w 0x03A t = some v ∧ ctlRead w 0x03B t = some v) ∧ t.mem = s.mem) ∧
  (∀ (s : State) (core : Nat) (w : Who) (op : CtlOp) (x v : DWord) (n : Fin 16) (k : Fin 4) (size : Bool),
     let E (i : Instr) (w : Who) (num : Nat) : Prop := (s.core w.core).grp ≠ none → ctlCheck w num op x s = .ok v →
       exec i s = .next (ctlApply w num v s)
     E (.rngWrite core op x) ⟨core, 0⟩ 0x020 ∧ E (.domWrite core n op x) ⟨core, 0⟩ (0x040 + n.val) ∧
     E (.winWrite core k op x) ⟨core, 0⟩ (0x030 + k.val) ∧ E (.ringWrite core op x) ⟨core, 0⟩ 0x060 ∧
     E (.rxbaseWrite core size op x) ⟨core, 0⟩ (if size then 0x039 else 0x038) ∧
     E (.rxheadWrite core op x) ⟨core, 0⟩ 0x03A ∧ E (.rxflagsWrite core op x) ⟨core, 0⟩ 0x03C ∧
     ((s.ctx w).live = true → E (.statusWrite w op x) w 0x000 ∧ E (.epcWrite w op x) w 0x002 ∧
       (ctlApply w 0x002 v s).ctx w = { s.ctx w with epc := v, resume := 0, ahead := (s.ctx w).aheadOf v }))

/-! ### Vector instructions -/

/-- R19, R168 to R170, R178, R182: a vector instruction without memory access is complete when it has entered
the core's vector queue, VBCAST and VMSK with the d operand read then; with eight items there it waits. -/
def Obligations.VectorIssue : Prop :=
  ∀ (s : State) (i : Instr),
    let item : VItem := ⟨s.cur, s.me.pc, i, 0, ⟨false, 0⟩, s.me.guards, 0, [], s.ilen, .here⟩
    (isVectorArith i = true →
      (s.myCore.vq.length < 8 → exec i s = .next ((s.queued item).past s.me)) ∧
      (8 ≤ s.myCore.vq.length → exec i s = .next (s.withSig .stalled))) ∧
    (∀ (y : Fin 32) (u : DWord) (c : Ctx), ((∃ o : VR2, i = .vbcast o ∧ o.y = y) ∨ ∃ o : VMskF, i = .vmsk o ∧ o.y = y) →
      s.myCore.vq.length < 8 → s.me.rd y = .ok (u, c) → ∃ t, exec i s = .next t ∧
        t.myCore.vq = s.myCore.vq ++ [{ item with dv := u }] ∧ t.me = c.advance s.ilen ∧
        s.sameButCore t s.cur.core ∧ t.myCore.v = s.myCore.v)

/-- R173 to R175, R185, R187: floating-point vector arithmetic and conversions, element by element: the rule of
the scalar form on the elements of the old registers, rounded once; the draw of SR is v[Z]'s. -/
def Obligations.VectorFloatResults : Prop :=
  ∀ (o : VF3) (p : VF2) (q : VFMAF) (cv : FCvt),
    let w (f : FFmt) : Nat := (FFmt.param f).width
    let n (f : FFmt) : Nat := if f = .fp32 then 64 else 128
    let en (f : FFmt) (m : Fin 8) (c : CoreSt) (e : Nat) : Bool :=
      e < n f && (c.mask m.val).getLsbD (if f = .fp32 then e else e / 2)
    let en64 (m : Fin 8) (c : CoreSt) (e : Nat) : Bool := e < 64 && (c.mask m.val).getLsbD e
    let el (c : CoreSt) (f : FFmt) (r : Fin 32) (e : Nat) : Val := valOf f (c.velem r.val (w f) e)
    let a : Fin 32 := if o.f.rm = .sr then o.f.x else FP3.fst o.f
    let b : Fin 32 := if o.f.rm = .sr then o.f.y else FP3.snd o.f
    let z : Nat := (o.f.z.map Fin.val).getD 0
    let draw (c : CoreSt) (e : Nat) : Nat := if o.f.rm = .sr
      then (if o.f.fmt = .fp32 then c.velem z 32 e % 65536 else c.velem z 16 e) else 0
    let A (i : Instr) (g : Val → Val → Val × Flags) : Prop :=
      computesElems i o.f.x.val (w o.f.fmt) (en o.f.fmt o.mask)
        fun c _ e => roundOp o.f.fmt o.f.rm (g (el c o.f.fmt a e) (el c o.f.fmt b e)) (draw c e)
    let M (i : Instr) (g : FFmt → Nat → Nat → Nat) : Prop :=
      computesElems i o.f.x.val (w o.f.fmt) (en o.f.fmt o.mask) fun c _ e =>
        (g o.f.fmt (c.velem (FP3.fst o.f).val (w o.f.fmt) e) (c.velem (FP3.snd o.f).val (w o.f.fmt) e), 0)
    let N (i : Instr) (g : FFmt → Nat → Nat) : Prop :=
      computesElems i p.f.x.val (w p.f.fmt) (en p.f.fmt p.mask) fun c _ e =>
        (g p.f.fmt (c.velem p.f.y.val (w p.f.fmt) e), 0)
    A (.vadd o) Val.add ∧ A (.vsub o) Val.sub ∧ A (.vmul o) Val.mul ∧
    M (.vmin o) fminPat ∧ M (.vmax o) fmaxPat ∧ N (.vabs p) fabsPat ∧ N (.vneg p) fnegPat ∧
    computesElems (.vfma q) q.f.x.val (w q.f.fmt) (en q.f.fmt q.mask) (fun c _ e => roundOp q.f.fmt q.f.rm
      ((el c q.f.fmt q.f.y e).fma (el c q.f.fmt q.f.z e) (el c q.f.fmt q.f.x e)) 0) ∧
    computesElems (.vcvtF2i p) p.f.x.val 32 (en64 p.mask) (fun c _ e =>
      round (.int 32) p.f.rm (el c p.f.fmt p.f.y e) (c.velem p.f.z.val 32 e % 65536)) ∧
    computesElems (.vcvtI2f p) p.f.x.val (w p.f.fmt) (en64 p.mask) (fun c _ e =>
      round (.flt p.f.fmt) p.f.rm (valOfInt (c.vw p.f.y.val e).toInt) (c.velem p.f.z.val 32 e % 65536)) ∧
    computesElems (.vcvtF2f cv) cv.x.val (w cv.dst) (fun _ e => e < 64) (fun c _ e =>
      round (.flt cv.dst) cv.rm (el c cv.src cv.y e) (c.velem cv.z.val 32 e % 65536)) ∧
    computesElems (.vdot q) q.f.x.val 32 (en64 q.mask) (fun c _ k =>
      let y (e : Nat) : Val := valOf q.f.fmt (c.velem q.f.y.val 16 e)
      let z (e : Nat) : Val := valOf q.f.fmt (c.velem q.f.z.val 16 e)
      let p0 := (y (2 * k)).mul (z (2 * k))
      let p1 := (y (2 * k + 1)).mul (z (2 * k + 1))
      let sum := p0.1.add p1.1
      let t := (valOf .fp32 (c.vw q.f.x.val k).toNat).add sum.1
      roundOp .fp32 q.f.rm (t.1, p0.2 ||| p1.2 ||| sum.2 ||| t.2) 0)

/-- R176, R178, R180, R181: integer vector arithmetic, moves, selections and permutations, word by word, from
the old registers. No flag is recorded. R177, R182: comparisons write the bits of the enabled words of a mask
register, the ordered ones raising invalid for a NaN in an enabled word; VMSK writes a whole mask, its operand
under the mask. vm0 discards. -/
def Obligations.VectorWordAndMaskResults : Prop :=
  (∀ (o : VR3) (m : VR2) (p : VPermF) (q : VIotaF),
     let en (k : Fin 8) (c : CoreSt) (e : Nat) : Bool := (c.mask k.val).getLsbD e
     let a : Nat := (DR3.fst o.r).val
     let b : Nat := (DR3.snd o.r).val
     let I (i : Instr) (f : Word → Word → Word) : Prop := computesElems i o.r.x.val 32 (en o.mask)
       fun c _ e => ((f (c.vw a e) (c.vw b e)).toNat, 0)
     I (.viadd o) (fun u v => u + v) ∧ I (.vimul o) (fun u v => u * v) ∧
     I (.vand o) (fun u v => u &&& v) ∧ I (.vor o) (fun u v => u ||| v) ∧ I (.vxor o) (fun u v => u ^^^ v) ∧
     I (.vshl o) (fun u v => u <<< (v.toNat % 32)) ∧ I (.vshr o) (fun u v => u >>> (v.toNat % 32)) ∧
     I (.vsar o) (fun u v => u.sshiftRight (v.toNat % 32)) ∧
     (o.r.z = none → computesElems (.vsel o) o.r.x.val 32 (en o.mask) fun c _ e => ((c.vw o.r.y.val e).toNat, 0)) ∧
     (∀ z, o.r.z = some z → computesElems (.vsel o) o.r.x.val 32 (fun _ _ => true) fun c _ e =>
       ((if (c.mask o.mask.val).getLsbD e then c.vw o.r.y.val e else c.vw z.val e).toNat, 0)) ∧
     computesElems (.vmov m) m.x.val 32 (en m.mask) (fun c _ e => ((c.vw m.y.val e).toNat, 0)) ∧
     computesElems (.vbcast m) m.x.val 32 (en m.mask) (fun _ v _ => (v.dv.toNat % 2 ^ 32, 0)) ∧
     computesElems (.vperm p) p.x.val 32 (en p.mask)
       (fun c _ e => ((c.vw p.y.val ((c.vw p.z.val e).toNat % 64)).toNat, 0)) ∧
     computesElems (.viota q) q.x.val 32 (en q.mask)
       (fun c _ e => (((List.range e).filter fun j => (c.mask q.mask.val).getLsbD j).length, 0)) ∧
     (∀ r : RndF, computesElems (.rndfill r) r.x.val 32 (fun _ _ => true)
       fun _ v e => ((v.vals.getD e 0).toNat, 0))) ∧
  (∀ (o : VCmpF) (m : VMskF),
     let el (c : CoreSt) (r : Fin 32) (k : Nat) : Val := valOf .fp32 (c.vw r.val k).toNat
     let nan (c : CoreSt) (k : Nat) : Bool := (el c o.y k).isNan || (el c o.z k).isNan
     let C (i : Instr) (f : Val → Val → Bool) (ordered : Bool) : Prop :=
       computesMask i o.k.val (fun c k => (c.mask o.mask.val).getLsbD k) (fun c _ k => f (el c o.y k) (el c o.z k))
         fun c => if ordered && (List.range 64).any fun k => (c.mask o.mask.val).getLsbD k && nan c k then 16 else 0
     C (.vcmpEq o) Val.eq false ∧ C (.vcmpLt o) Val.lt true ∧ C (.vcmpLe o) (fun a b => a.lt b || a.eq b) true ∧
     C (.vcmpUn o) (fun a b => a.isNan || b.isNan) false ∧
     computesMask (.vmsk m) m.k.val (fun _ _ => true)
       (fun c v k => v.dv.getLsbD k && (c.mask m.mask.val).getLsbD k) fun _ => 0)

/-- R183, R186: the reductions: word 0 of v[X] holds the balanced tree's result over the enabled elements, with
the neutral element for the others, the empty result without any, and words 1 to 63 zero. VF2X writes the 64-bit
results of the enabled words in pairs of words of v[X] and v[X + 1]. -/
def Obligations.VectorReductions : Prop :=
  ∀ (o : VRedF) (x : VFxF) (s : State) (core : Nat) (v : VItem) (rest : List VItem),
    (s.core core).saved = false → (s.core core).vq = v :: rest →
    let c := s.core core
    let w := (FFmt.param o.fmt).width
    let n := if o.fmt = .fp32 then 64 else 128
    let en (e : Nat) : Bool := (c.mask o.mask.val).getLsbD (if o.fmt = .fp32 then e else e / 2)
    let elem (e : Nat) : Nat := (round (.flt .fp32) .rne (valOf o.fmt (c.velem o.y.val w e)) 0).1
    let some_ : Bool := (List.range n).any en
    -- the tree of R183: neighbours combined, level by level, down to one
    let R (i : Instr) (leaf : Nat → Nat) (f : Nat → Nat → Nat × Flags) (empty : Nat) : Prop := v.ins = i →
      ∃ t, exec (.vectorPerform core) s = .next t ∧ (t.core core).vq = rest ∧
        (t.core core).vw o.x.val 0 = BitVec.ofNat 32
          (if some_ then (treeFold f 7 ((List.range n).map leaf)).1.headD 0 else empty) ∧
        (∀ k, 0 < k → k < 64 → (t.core core).vw o.x.val k = 0) ∧
        (∀ r k, r ≠ o.x.val → k < 64 → (t.core core).vw r k = c.vw r k) ∧ t.mem = s.mem
    R (.vsum o) (fun e => if en e then elem e else 0x80000000) add32 0 ∧
    R (.vsqn o) (fun e => if en e then (mul32 (elem e) (elem e)).1 else 0x80000000) add32 0 ∧
    R (.vminr o) (fun e => if en e then elem e else 0x7F800000) (fun a b => (fminPat .fp32 a b, 0)) 0x7F800000 ∧
    R (.vmaxr o) (fun e => if en e then elem e else 0xFF800000) (fun a b => (fmaxPat .fp32 a b, 0)) 0xFF800000 ∧
    (v.ins = .vf2x x → ∃ t, exec (.vectorPerform core) s = .next t ∧ (t.core core).vq = rest ∧
      (∀ k, k < 64 →
        let r := (x.f.x.val + k / 32) % 32
        let q := (round (.int 64) .rne ((valOf .fp32 (c.vw x.f.y.val k).toNat).scale x.f.p.val) 0).1
        (t.core core).vw r (2 * (k % 32)) = (if (c.mask x.mask.val).getLsbD k then BitVec.ofNat 32 q
          else c.vw r (2 * (k % 32))) ∧
        (t.core core).vw r (2 * (k % 32) + 1) = (if (c.mask x.mask.val).getLsbD k then BitVec.ofNat 32 (q / 2 ^ 32)
          else c.vw r (2 * (k % 32) + 1))) ∧ t.mem = s.mem)

/-- R133 to R136: vector loads from local memory by a context with nothing before them in the queue: each
enabled word of v[X], or the mask register, from its address, in place of nothing else; the instruction is
complete. R134 to R136, R195: vector stores to local memory, scatters and VAMO, which adds each word to the word
of memory at its address, in ascending order of elements; no byte outside the enabled elements changes. VST.BF ORs the flags
of its roundings into ctl.fflags (R134), and no other vector store or load changes a flag. VEXT writes the d register (R179). In
a state whose steps are fine (log entry 1) a step performs one element, and the resume index names the next (R114). -/
def Obligations.VectorLoadsAndStores : Prop :=
  (∀ (s : State) (m : Mem) (b : MemB) (x z : Fin 32) (k : Fin 8),
     s.fine = false → s.myCore.vq = [] → s.me.vwait = false → s.me.resume = 0 → s.me.park = .free →
     s.myCore.saved = false → s.myCore.halted = false →
     let clear (a n : Nat) : Prop := behindStream (.vector s.cur) false a n s = false
     let ea := s.me.ea m
     let c := s.myCore
     let on (e : Nat) : Bool := (c.mask k.val).getLsbD e
     let L (i : Instr) (f : Nat → Word) : Prop := ∃ t, exec i s = .next t ∧
       (∀ e, e < 64 → t.myCore.vw x.val e = if on e then f e else c.vw x.val e) ∧
       (∀ r e, r ≠ x.val → e < 64 → t.myCore.vw r e = c.vw r e) ∧ t.myCore.vm = c.vm ∧ t.myCore.vq = [] ∧
       t.me = (s.me.advance s.ilen).counted ∧ t.myCore.lm = c.lm ∧ s.sameButCore t s.cur.core
     let num (a n : Nat) : Nat := leNat (c.lm.getList a n)
     let ok (v : AVal) (a : DWord) (n : Nat) : Prop := route s.cur.core s.me.guards v a n needR allKinds = .ok .loc
     (ea.toNat % 4 = 0 → ok (s.me.ra m.y) ea 256 → (∀ e, e < 64 → on e = true → clear (ea.toNat + 4 * e) 4) →
       L (.vld ⟨x, m, k⟩) fun e => BitVec.ofNat 32 (num (ea.toNat + 4 * e) 4)) ∧
     (ea.toNat % 2 = 0 → ok (s.me.ra m.y) ea 128 → (∀ e, e < 64 → on e = true → clear (ea.toNat + 2 * e) 2) →
       L (.vldBf ⟨x, m, k⟩) fun e => BitVec.ofNat 32
         (round (.flt .fp32) .rne (valOf .bf16 (num (ea.toNat + 2 * e) 2)) 0).1) ∧
     (let at_ (e : Nat) : DWord := s.me.eaB b + 4 * (c.vw z.val e).signExtend 64
      (s.me.eaB b).toNat % 4 = 0 →
       (∀ e, e < 64 → on e = true → ok (s.me.ra b.y) (at_ e) 4 ∧ clear (at_ e).toNat 4) →
       L (.vldx ⟨x, z, b, k⟩) fun e => BitVec.ofNat 32 (num (at_ e).toNat 4)) ∧
     (ea.toNat % 8 = 0 → ok (s.me.ra m.y) ea 8 → clear ea.toNat 8 → ∃ t, exec (.vldm ⟨k, m⟩) s = .next t ∧
       (k ≠ 0 → t.myCore.mask k.val = BitVec.ofNat 64 (num ea.toNat 8)) ∧
       (∀ j, j ≠ k.val → t.myCore.mask j = c.mask j) ∧ t.myCore.v = c.v ∧ t.myCore.vq = [] ∧
       t.me = (s.me.advance s.ilen).counted ∧ t.myCore.lm = c.lm ∧ s.sameButCore t s.cur.core)) ∧
  (∀ (s : State) (m : Mem) (b : MemB) (x z : Fin 32) (k : Fin 8) (sc : Scope),
     s.fine = false → s.myCore.vq = [] → s.me.vwait = false → s.me.resume = 0 → s.me.park = .free →
     s.myCore.saved = false → s.myCore.halted = false → s.me.live = true →
     let clear (a n : Nat) : Prop := behindStream (.vector s.cur) false a n s = false
     let ea := s.me.ea m
     let c := s.myCore
     let put (l : SMap Byte) (p : Nat × List Byte) : SMap Byte := l.putList p.1 p.2
     let S (i : Instr) (writes : List (Nat × List Byte)) (fl : Flags) : Prop := ∃ t, exec i s = .next t ∧
       t.myCore.lm = writes.foldl put c.lm ∧ t.myCore.v = c.v ∧ t.myCore.vm = c.vm ∧ t.myCore.vq = [] ∧
       t.me = ({ s.me with fflags := s.me.fflags ||| fl.setWidth 64 }.advance s.ilen).counted ∧ s.sameButCore t s.cur.core
     let ok (v : AVal) (a : DWord) (n : Nat) (nd : Need) : Prop :=
       route s.cur.core s.me.guards v a n nd allKinds = .ok .loc
     let on : List Nat := (List.range 64).filter fun e => (c.mask k.val).getLsbD e
     let at_ (e : Nat) : DWord := s.me.eaB b + 4 * (c.vw z.val e).signExtend 64
     let bf (e : Nat) : Nat × Flags := round (.flt .bf16) .rne (valOf .fp32 (c.vw x.val e).toNat) 0
     (ea.toNat % 4 = 0 → ok (s.me.ra m.y) ea 256 needW → (∀ e, e ∈ on → clear (ea.toNat + 4 * e) 4) →
       S (.vst ⟨x, m, k⟩) (on.map fun e => (ea.toNat + 4 * e, leBytes 4 (c.vw x.val e).toNat)) 0) ∧
     (ea.toNat % 2 = 0 → ok (s.me.ra m.y) ea 128 needW → (∀ e, e ∈ on → clear (ea.toNat + 2 * e) 2) →
       S (.vstBf ⟨x, m, k⟩) (on.map fun e => (ea.toNat + 2 * e, leBytes 2 (bf e).1))
         (on.foldl (fun f e => f ||| (bf e).2) 0)) ∧
     (ea.toNat % 8 = 0 → ok (s.me.ra m.y) ea 8 needW → clear ea.toNat 8 →
       S (.vstm ⟨k, m⟩) [(ea.toNat, leBytes 8 (c.mask k.val).toNat)] 0) ∧
     ((s.me.eaB b).toNat % 4 = 0 → (∀ e, e ∈ on → ok (s.me.ra b.y) (at_ e) 4 needW ∧ clear (at_ e).toNat 4) →
       S (.vstx ⟨x, z, b, k⟩) (on.map fun e => ((at_ e).toNat, leBytes 4 (c.vw x.val e).toNat)) 0) ∧
     ((s.me.eaB b).toNat % 4 = 0 → (∀ e, e < 64 → ok (s.me.ra b.y) (at_ e) 4 needA ∧ clear (at_ e).toNat 4) →
       ∃ t, exec (.vamo ⟨x, z, b, sc⟩) s = .next t ∧ t.me = (s.me.advance s.ilen).counted ∧ t.myCore.v = c.v ∧
         t.myCore.lm = (List.range 64).foldl (fun l e =>
           SMap.putList l (at_ e).toNat (leBytes 4 ((leNat (SMap.getList l (at_ e).toNat 4) + (c.vw x.val e).toNat) % 2 ^ 32)))
           c.lm ∧ s.sameButCore t s.cur.core) ∧
     (∀ (d : Fin 32) (e : Fin 64) (c' : Ctx), s.me.wd d ((c.vw x.val e.val).setWidth 64) = .ok c' →
       ∃ t, exec (.vext ⟨d, x, e⟩) s = .next t ∧ t.me = (c'.advance s.ilen).counted ∧ t.myCore.vq = [] ∧
         t.myCore.v = c.v ∧ s.sameButCore t s.cur.core)) ∧
  (∀ (s : State) (m : Mem) (x : Fin 32) (k : Fin 8) (e f : Nat) (rest : List Nat),
     s.fine = true → s.myCore.vq = [] → s.me.vwait = false → s.me.resume = 0 → s.me.park = .free →
     s.myCore.saved = false → s.myCore.halted = false →
     ((List.range 64).filter fun j => (s.myCore.mask k.val).getLsbD j) = e :: f :: rest →
     let ea := s.me.ea m
     let ok (nd : Need) : Prop := route s.cur.core s.me.guards (s.me.ra m.y) ea 256 nd allKinds = .ok .loc
     ea.toNat % 4 = 0 → behindStream (.vector s.cur) false (ea.toNat + 4 * e) 4 s = false →
     (ok needR → ∃ t, exec (.vld ⟨x, m, k⟩) s = .next t ∧ t.sig = .stalled ∧ t.me = { s.me with vwait := true, resume := f } ∧
       t.myCore.v = (s.myCore.setVw x.val e
         (BitVec.ofNat 32 (leNat (s.myCore.lm.getList (ea.toNat + 4 * e) 4)))).v) ∧
     (ok needW → ∃ t, exec (.vst ⟨x, m, k⟩) s = .next t ∧ t.sig = .stalled ∧ t.me = { s.me with vwait := true, resume := f } ∧
       t.myCore.lm = s.myCore.lm.putList (ea.toNat + 4 * e) (leBytes 4 (s.myCore.vw x.val e).toNat)))

/-! ### Synchronisation -/

/-- R192 to R194: AMO and CAS of local memory: the old value zero-extended into a[X], and the new one written;
every byte outside the operand reads as before. A release waits for the context's stream and its posted writes. -/
def Obligations.AtomicResults : Prop :=
  ∀ (s : State) (o : AtomF),
    let n := if o.dbl then 8 else 4
    let ea := s.me.eaB o.m
    let rel := o.ord = .rel ∨ o.ord = .ar
    let old := leNat (s.myCore.lm.getList ea.toNat n)
    let b := (s.me.ia o.z).toNat % 2 ^ (8 * n)
    let done (i : Instr) (new : Option Nat) : Prop := ∃ t, exec i s = .next t ∧
      t.me = (s.me.wi o.x (BitVec.ofNat 64 old)).advance s.ilen ∧
      leNat (t.myCore.lm.getList ea.toNat n) = new.getD old ∧
      (∀ a, a < ea.toNat ∨ ea.toNat + n ≤ a → t.myCore.lm.get a = s.myCore.lm.get a) ∧
      s.sameButCore t s.cur.core
    let sg (v : Nat) : Int := if v < 2 ^ (8 * n - 1) then v else (v : Int) - 2 ^ (8 * n)
    ((rel → releaseWait s = false) → ea.toNat % n = 0 → behindStream (.ctx s.cur) false ea.toNat n s = false →
      route s.cur.core s.me.guards (s.me.ra o.m.y) ea n needA allKinds = .ok .loc →
      done (.amo .add o) (some ((old + b) % 2 ^ (8 * n))) ∧ done (.amo .and o) (some (old &&& b)) ∧
      done (.amo .or o) (some (old ||| b)) ∧ done (.amo .xor o) (some (old ^^^ b)) ∧
      done (.amo .min o) (some (if sg old ≤ sg b then old else b)) ∧
      done (.amo .max o) (some (if sg old ≤ sg b then b else old)) ∧
      done (.amo .minz o) (some (if old ≤ b then old else b)) ∧
      done (.amo .maxz o) (some (if old ≤ b then b else old)) ∧ done (.amo .swap o) (some b) ∧
      done (.cas o) (if old = (s.me.ia o.x).toNat % 2 ^ (8 * n) then some b else none)) ∧
    (rel → s.me.stream ≠ none ∨ postedOut s.cur s = true → ∀ op, exec (.amo op o) s = .next (s.withSig .stalled) ∧
      exec (.cas o) s = .next (s.withSig .stalled)) ∧
    ((rel → releaseWait s = false) → ea.toNat % n ≠ 0 → ∀ op, exec (.amo op o) s = .next (trapAt s.cur 0x07 ea s) ∧
      exec (.cas o) s = .next (trapAt s.cur 0x07 ea s))

/-- R197 to R199: full/empty operations on a word of the own core: FEPEEK reads the bit, FEINIT writes and
leaves empty, FEPUT of an empty word that nobody waits for writes and fills, of a full one raises FEOVER (0x0A), FETAKE
of a full word reads and empties it; FETAKE of an empty one enters the owner's list and waits. R198: a FEPUT
serves the oldest deferred FETAKE of the word: its requester completes with the value, and the word stays empty;
a FETAKE that was refused is repeated by its event, and then completes when the word is full. -/
def Obligations.FullEmptyWords : Prop :=
  (∀ (s : State) (o : FeF),
     let ea := s.me.ea o.m
     let k := s.cur.core
     let full := s.myCore.fe.get (ea.toNat / 8)
     let b := leBytes 8 (s.me.ia o.x).toNat
     let ok (nd : Need) : Prop := route k s.me.guards (s.me.ra o.m.y) ea 8 nd [1, 2, 3] = .ok .loc
     let stored (f : Bool) : CoreSt :=
       { s.myCore.store ea.toNat b with fe := s.myCore.fe.put (ea.toNat / 8) f }
     ea.toNat % 8 = 0 → behindStream (.ctx s.cur) false ea.toNat 8 s = false →
     (ok needPeek → exec (.fepeek o) s = .next (s.past (s.me.wi o.x (if full then 1 else 0)))) ∧
     (ok needFE →
       exec (.feinit o) s = .next ((s.setMyCore (stored false)).past s.me) ∧
       (releaseWait s = false → full = false → (∀ t ∈ s.myCore.takes, t.addr % 65536 ≠ ea.toNat) →
         exec (.feput o) s = .next ((s.setMyCore (stored true)).past s.me)) ∧
       (releaseWait s = false → full = true → exec (.feput o) s = .next (trapAt s.cur 0x0A ea s)) ∧
       (s.me.taking = false → full = true → exec (.fetake o) s = .next
         ((s.setMyCore { s.myCore with fe := s.myCore.fe.put (ea.toNat / 8) false }).past
           (s.me.wi o.x (BitVec.ofNat 64 (leNat (s.myCore.lm.getList ea.toNat 8)))))) ∧
       (s.me.taking = false → full = false → s.myCore.takes.length < 16 → ∃ t, exec (.fetake o) s = .next t ∧
         t.me = { s.me with taking := true } ∧ t.sig = .stalled ∧
         t.myCore.takes = s.myCore.takes ++ [⟨s.cur, none, ea.toNat, false⟩] ∧ t.myCore.lm = s.myCore.lm ∧
         t.myCore.fe = s.myCore.fe) ∧
       (s.me.taking = false → full = false → 16 ≤ s.myCore.takes.length → ∃ t, exec (.fetake o) s = .next t ∧
         t.me = { s.me with taking := true } ∧ t.myCore.takes = s.myCore.takes ∧
         t.myCore.ferefuse = satInc32 s.myCore.ferefuse))) ∧
  ((∀ (s : State) (o p : FeF) (w : Who) (a : Nat) (l : List Take) (n : Nat),
     let ea := s.me.ea o.m
     s.myCore.takes = ⟨w, none, a, false⟩ :: l → a % 65536 = ea.toNat → w ≠ s.cur → releaseWait s = false →
     behindStream (.ctx s.cur) false ea.toNat 8 s = false → ea.toNat % 8 = 0 → s.myCore.fe.get (ea.toNat / 8) = false →
     route s.cur.core s.me.guards (s.me.ra o.m.y) ea 8 needFE [1, 2, 3] = .ok .loc →
     fetchAt (s.core w.core) (s.ctx w) (s.ctx w).pc = .ok (.fetake p) n →
     ∃ t, exec (.feput o) s = .next t ∧ t.myCore.takes = l ∧ t.myCore.fe.get (ea.toNat / 8) = false ∧
       t.ctx w = (({ s.ctx w with taking := false }.wi p.x (s.me.ia o.x)).advance n).counted ∧
       t.me = s.me.advance s.ilen) ∧
   (∀ (s : State) (w : Who) (p : FeF) (n : Nat),
     (s.ctx w).live = true → (s.core w.core).saved = false → refusedTake w s = true →
     fetchAt (s.core w.core) (s.ctx w) (s.ctx w).pc = .ok (.fetake p) n →
     let c := { s.ctx w with taking := false }
     let a := (c.ea p.m).toNat
     a % 8 = 0 → route w.core c.guards (c.ra p.m.y) (c.ea p.m) 8 needFE [1, 2, 3] = .ok .loc →
     (s.core w.core).fe.get (a / 8) = true → behindStream (.ctx w) false a 8 s = false →
     ∃ t, exec (.fetakeRetry w) s = .next t ∧ (t.core w.core).fe.get (a / 8) = false ∧
       t.ctx w = (c.wi p.x (BitVec.ofNat 64 (leNat ((s.core w.core).lm.getList a 8)))).advance n))

/-- R200 to R202, R294: FENCE ends when no stream of its predecessor set is active, nor, at pod scope, one that stores
through a GLOBAL capability, no posted write of it is unplaced, with .eng no engine command of the context remains, and at
pod scope, whatever its predecessor set, no message is on its way to another device; else it waits. The BAR instructions of a channel: an arrival enters the channel with its phase, two at
most, and on channel 0 of a bulk launch is made by context 0 alone and held when it ends an exchange phase (R297, R411,
R418); BAR.WT takes the oldest when its phase is released; BAR.TST pushes whether it is. A channel without a key
is ILLEGAL. -/
def Obligations.FenceAndBarrierResults : Prop :=
  ∀ (s : State) (f : FenceF) (n : Fin 16),
    (let pod := f.scope = .pod
     let waits (t : Stream) : Prop := if t.store then f.predW = true ∨ (pod ∧ t.cap.tag = true ∧ t.cap.kind = 0)
       else f.predR = true
     ((∀ t, s.me.stream = some t → ¬ waits t) → (f.predW = true → postedOut s.cur s = false) →
       (pod → messageAway s.cur s = false) → (f.eng = true → engineBusy s.cur s = false) →
       exec (.fence f) s = .next (s.past s.me)) ∧
     ((∃ t, s.me.stream = some t ∧ waits t) ∨ (f.predW = true ∧ postedOut s.cur s = true) ∨
         (pod ∧ messageAway s.cur s = true) ∨ (f.eng = true ∧ engineBusy s.cur s = true) → exec (.fence f) s = .next (s.withSig .stalled))) ∧
    (let c := s.myCore
     let h := c.chans.get n.val
     let T (i : Instr) : Prop := exec i s = .next (trapAt s.cur 0x01 (BitVec.ofNat 64 n.val) s)
     (c.key n.val = none → T (.barArv n) ∧ T (.barWt n) ∧ T (.barTst n)) ∧
     (∀ key, c.key n.val = some key →
       let R := s.keys.get key
       let p := h.next.getD R
       (h.arrived.length < 2 → releaseWait s = false →
         let u := s.setMyCore { c with
           chans := c.chans.put n.val { h with arrived := h.arrived ++ [p], next := some (p + 1) } }
         (n.val ≠ 0 ∨ c.isBulk = false → n.val ≠ 15 → exec (.barArv n) s = .next (u.past s.me)) ∧
         (n.val = 15 → let u := podAdvance key u
           exec (.barArv n) s = .next (u.past u.me))) ∧
       -- channel 0 of a bulk launch: an arrival that ends an exchange phase is held with the copy commands before it
       (n.val = 0 → c.isBulk = true →
         (s.cur.ctx ≠ 0 → T (.barArv n)) ∧
         (s.cur.ctx = 0 → h.arrived.length < 2 → releaseWait s = false →
           exec (.barArv n) s = .next ((s.setMyCore { c with
             xphase := false
             chans := c.chans.put 0 { h with
               arrived := h.arrived ++ [p], next := some (p + 1)
               held := if endsExchange c p R then h.held ++ [(p, c.cp.seq.toNat)] else h.held } }).past s.me))) ∧
       (2 ≤ h.arrived.length ∨ releaseWait s = true → n.val ≠ 0 ∨ c.isBulk = false ∨ s.cur.ctx = 0 →
         exec (.barArv n) s = .next (s.withSig .stalled)) ∧
       (h.arrived = [] → T (.barWt n) ∧ T (.barTst n)) ∧
       (∀ q rest, h.arrived = q :: rest →
         (q < R → exec (.barWt n) s = .next ((s.setMyCore { c with
           chans := c.chans.put n.val { h with arrived := rest } }).past s.me)) ∧
         (R ≤ q → exec (.barWt n) s = .next (s.withSig .stalled)) ∧
         (s.me.cq.length < 8 → exec (.barTst n) s = .next (s.past
           { s.me with cq := s.me.cq ++ [decide (q < R)] })))))

/-- R204 to R206: HSTART gives the lowest free helper the target, a1, guards and handler of its starter, and its
number in a[X], and waits when none is free; HJOIN waits for a helper's end; HKILL ends one, once its vector memory operation
and remote access are over and what it has posted is placed (R290). All are ILLEGAL in a
helper, HSTART for a target outside the instruction store, and the others for a number outside 1 to 10. -/
def Obligations.HelperResults : Prop :=
  (∀ (s : State) (o : HStartF) (x : Fin 16) (i : Instr), s.cur.ctx ≠ 0 → i = .hstart o ∨ i = .hjoin x ∨ i = .hkill x →
     exec i s = .next (trapAt s.cur 0x01 (illegalTval s) s)) ∧
  ∀ (s : State) (o : HStartF) (x : Fin 16) (h : Nat), s.cur.ctx = 0 →
    let t : BitVec 16 := s.me.pc + (o.imm <<< 1).setWidth 16
    let w : Who := ⟨s.cur.core, h⟩
    (t.toNat < 0x8000 → releaseWait s = false → 1 ≤ h → h < 11 → (s.ctx w).live = false →
      (∀ j, 1 ≤ j → j < h → (s.ctx ⟨s.cur.core, j⟩).live = true) →
      ∃ u, exec (.hstart o) s = .next u ∧ u.me = (s.me.wi o.x (BitVec.ofNat 64 h)).advance s.ilen ∧
        (let c := u.ctx w
         c.live = true ∧ c.pc = t ∧ c.guards = s.me.guards ∧ c.tvec = s.me.tvec ∧ c.h = false ∧ c.d = [] ∧
         (∀ k : Fin 16, k ≠ 1 → c.ra k = ⟨false, 0⟩) ∧
         ((s.me.ra o.y).neverTagged = false → (s.me.ra o.y).tag = true → c.ra 1 = s.me.ra o.y)) ∧
        s.sameButCore u s.cur.core) ∧
    (0x8000 ≤ t.toNat → exec (.hstart o) s = .next (trapAt s.cur 0x01 (illegalTval s) s)) ∧
    (t.toNat < 0x8000 → releaseWait s = true ∨ (∀ j, 1 ≤ j → j < 11 → (s.ctx ⟨s.cur.core, j⟩).live = true) →
      exec (.hstart o) s = .next (s.withSig .stalled)) ∧
    ((s.me.ia x).toNat = h → 1 ≤ h → h < 11 →
      ((s.ctx w).live = false → exec (.hjoin x) s = .next (s.past s.me) ∧ exec (.hkill x) s = .next (s.past s.me)) ∧
      ((s.ctx w).live = true → exec (.hjoin x) s = .next (s.withSig .stalled)) ∧
      ((s.ctx w).live = true → (s.ctx w).vwait = false → reqOut w s = false → postedOut w s = false →
        ∃ u, exec (.hkill x) s = .next u ∧ (u.ctx w).live = false ∧ u.me = s.me.advance s.ilen) ∧
      ((s.ctx w).live = true → reqOut w s = true ∨ postedOut w s = true →
        ∃ u, exec (.hkill x) s = .next u ∧ u.sig = .stalled ∧ (u.ctx w).live = true ∧ (u.ctx w).killed = true)) ∧
    ((s.me.ia x).toNat = 0 ∨ 10 < (s.me.ia x).toNat →
      exec (.hjoin x) s = .next (trapAt s.cur 0x01 (s.me.ia x) s) ∧
      exec (.hkill x) s = .next (trapAt s.cur 0x01 (s.me.ia x) s))

/-- R207 to R211, R298: a SENDS due in this cycle hands its bytes to the send port once the stream and the messages of its
context are over; SENDP and PKEND send a message to
a core of this device, and hold one to another device in a tentative group (R358, R359); PK.OPEN, PK.PUT and PK.ABT build or abandon the open packet; RXWT reads the head of the
receive buffer, RXREL moves it past the record. -/
def Obligations.SendResults : Prop :=
  ∀ (s : State) (x : Fin 16) (o : SendpF) (slot : DWord),
    (∀ e b g, sendsEntry s.myCore s.me.planEnt (planGroups s.myCore s) slot = some (e, b) → s.myCore.grp = some g →
      (s.myCore.xcyc.toNat = e.cycle → s.me.stream = none → messagesOf (· == s.cur) s = 0 →
        localOk s.me.guards e.loff e.len needR = true →
        exec (.sends slot) s = .next ((s.setMyCore { s.myCore with xfers := s.myCore.xfers ++
          [⟨s.cur, g.launch, g.idx, slot.toNat, e.cycle, e.peer, e.roff, s.myCore.lm.getList e.loff e.len⟩] }).past
            { s.me with planEnt := none })) ∧
      -- before its cycle, or before earlier events of the context, it keeps the entry that it has read, and after it it is late
      (s.myCore.xcyc.toNat < e.cycle ∨
          (s.myCore.xcyc.toNat = e.cycle ∧ (s.me.stream ≠ none ∨ messagesOf (· == s.cur) s ≠ 0)) →
        exec (.sends slot) s = .next ((s.setMe { s.me with planEnt := some b }).withSig .stalled)) ∧
      (e.cycle < s.myCore.xcyc.toNat → exec (.sends slot) s = .next (trapAt s.cur 0x1A slot s))) ∧
    (let dest := s.me.ia o.x
     let src := s.me.ra o.y
     let n := (s.me.ia o.z).toNat
     let dst := bitsOf dest.toNat 11 0
     destOk dest = true → releaseWait s = false → reportLoad s.cur s < 16 →
     src.tag = false → n % 8 = 0 → 8 ≤ n → n ≤ 2048 → localOk s.me.guards src.int.toNat n needR = true →
     (destHere dest s = false → s.myCore.tentative = true → exec (.sendp o) s = heldAt s.cur s) ∧
     (destHere dest s = true → dst ≠ s.cur.core →
     ∃ t, exec (.sendp o) s = .next t ∧ t.me = s.me.advance s.ilen ∧
       (t.core dst).rxIn = (s.core dst).rxIn ++ [⟨s.cur, none, dest, false, s.cur.core, s.myCore.vdevNo,
         s.myCore.lm.getList src.int.toNat n⟩] ∧ t.mem = s.mem)) ∧
    (destOk (s.me.ia x) = true → s.me.packet = none →
      exec (.pkopen x) s = .next (s.past { s.me with packet := some ⟨s.me.ia x, []⟩ })) ∧
    exec .pkabt s = .next (s.past { s.me with packet := none }) ∧
    (s.me.packet = none → exec (.pkput x) s = .next (trapAt s.cur 0x01 (illegalTval s) s) ∧
      exec (.pkend x) s = .next (trapAt s.cur 0x01 (illegalTval s) s)) ∧
    (∀ p, s.me.packet = some p →
      (p.words.length < 63 → exec (.pkput x) s = .next (s.past
        { s.me with packet := some ⟨p.dest, p.words ++ [s.me.ia x]⟩ })) ∧
      (destHere p.dest s = false → releaseWait s = false → reportLoad s.cur s < 16 → s.myCore.tentative = true →
        exec (.pkend x) s = heldAt s.cur s) ∧
      (destHere p.dest s = true → bitsOf p.dest.toNat 11 0 ≠ s.cur.core → releaseWait s = false →
        reportLoad s.cur s < 16 →
        ∃ t, exec (.pkend x) s = .next t ∧ t.me = { s.me with packet := none }.advance s.ilen ∧
          (t.core (bitsOf p.dest.toNat 11 0)).rxIn = (s.core (bitsOf p.dest.toNat 11 0)).rxIn ++
            [⟨s.cur, none, p.dest, true, s.cur.core, s.myCore.vdevNo,
              (p.words ++ [s.me.ia x]).flatMap fun v => leBytes 8 v.toNat⟩])) ∧
    (let c := s.myCore
     let head := c.rxhead.toNat
     (c.rxhead = c.rxtail → exec (.rxwt x) s = .next (s.withSig .stalled)) ∧
     (c.rxhead ≠ c.rxtail → isPad c head = false →
       exec (.rxwt x) s = .next (s.past (s.me.wi x c.rxhead))) ∧
     (c.rxhead = c.rxtail → releaseWait s = false → exec .rxrel s = .next (s.past s.me)) ∧
     (c.rxhead ≠ c.rxtail → isPad c head = false → releaseWait s = false → c.rxbase.toNat ≤ head → 0 < c.rxsize.toNat →
       let next := c.rxbase.toNat + (head - c.rxbase.toNat + 8 + 8 * bitsOf (leNat (c.lm.getList head 8)) 40 32) %
         c.rxsize.toNat
       (next = c.rxtail.toNat ∨ isPad c next = false) → next < 2 ^ 64 →
       exec .rxrel s = .next ((s.setMyCore { c with rxhead := BitVec.ofNat 64 next }).past s.me)))

/-- R214 to R216: a group of a pergola attaches, when it is not tentative (R358), and reads its member id, detaches, and reads the pergola's
state; CMKW and CMKC make a capability on a member's or a core's memory, of the form that R216 gives. Without a
pergola PGATT, PGDET and CMKW are ILLEGAL and PGSTAT reads 0. -/
def Obligations.PergolaResults : Prop :=
  ∀ (s : State) (x : Fin 16) (o : AR2),
    let v := s.me.ia o.y
    let made (kind target : Nat) : AVal := ⟨true, BitVec.ofNat 128
      (kind * 2 ^ 120 + target * 2 ^ 104 + 0xC000 * 2 ^ 64 + 2 ^ 62 + 7 * 2 ^ 57 + v.toNat * 2 ^ 16)⟩
    (pergOf s.cur.core s = none →
      exec (.pgatt x) s = .next (trapAt s.cur 0x01 (illegalTval s) s) ∧
      exec .pgdet s = .next (trapAt s.cur 0x01 (illegalTval s) s) ∧
      exec (.cmkw o) s = .next (trapAt s.cur 0x01 (illegalTval s) s) ∧
      exec (.pgstat x) s = .next (s.past (s.me.wi x 0))) ∧
    (∀ pg k, pergOf s.cur.core s = some (pg, k) →
      let p := s.fab.pergs.get pg
      (s.myCore.tentative = true → exec (.pgatt x) s = heldAt s.cur s) ∧
      (s.myCore.tentative = false → ∃ t, exec (.pgatt x) s = .next t ∧
        t.me = (s.me.wi x (BitVec.ofNat 64 k)).advance s.ilen ∧
        ((t.fab.pergs.get pg).members.get k).att = true ∧ t.mem = s.mem) ∧
      (∃ t, exec .pgdet s = .next t ∧ ((t.fab.pergs.get pg).members.get k).det = true ∧ t.mem = s.mem) ∧
      exec (.pgstat x) s = .next (s.past (s.me.wi x (pgstatVal p pg k))) ∧
      (p.m ≤ v.toNat → exec (.cmkw o) s = .next (trapAt s.cur 0x04 v s)) ∧
      (v.toNat < p.m → exec (.cmkw o) s = .next (s.past (s.me.wa o.x (made 3 pg))))) ∧
    (2303 < v.toNat → exec (.cmkc o) s = .next (trapAt s.cur 0x04 v s)) ∧
    (v.toNat ≤ 2303 →
      let mine := ((s.vdev s.myCore.vdevNo).quarters.getLsbD (v.toNat / 576 * 4 + v.toNat % 576 / 144))
      (mine = false → exec (.cmkc o) s = .next (trapAt s.cur 0x05 v s)) ∧
      (mine = true → exec (.cmkc o) s = .next (s.past (s.me.wa o.x (made 2 0)))))

/-! ### The matrix engine and promises -/

/-- R223 to R225, R302, R308, R310: a page 4 or page 6 command whose operand passes the precise checks enters
the matrix queue with its captured operands and the next number, and is complete; PRISS also takes the lowest
free slot and the next seq, and a[X] is the handle. -/
def Obligations.MatrixIssue : Prop :=
  ∀ (s : State), releaseWait s = false → reportLoad s.cur s < 16 →
    (s.myCore.mx.queue.filter fun c => !c.begun).length < 2 →
    let num := s.myCore.mx.seq
    let R (i : Instr) (ea : DWord) (x y z : AVal) : Prop :=
      ∃ c : Cmd, c.fresh s i ea x y z num ∧ exec i s = .next ((s.withMx c).past s.me)
    let ok (m : Mem) (al : Nat) (nd : Need) (kinds : List Nat) : Prop :=
      (s.me.ea m).toNat % al = 0 ∧ ((s.me.ra m.y).tag = true →
        capCheck (s.me.ra m.y) (s.me.ea m) 0 nd kinds false = none)
    let M (i : Instr) (m : Mem) (x : AVal) (al : Nat) (nd : Need) (kinds : List Nat) : Prop :=
      ok m al nd kinds → R i (s.me.ea m) x (s.me.ra m.y) ⟨false, 0⟩
    let h (x : Fin 16) : AVal := ⟨false, (s.me.ia x).setWidth 128⟩
    let handle (x : Fin 16) : Prop := (s.me.ia x).toNat / 16 % 2 ^ 28 = 0 ∧ (s.me.ia x).toNat / 2 ^ 32 ≠ 0
    let o : AVal := ⟨false, 0⟩
    (∀ m, M (.mxctx m) m o 8 needR [1] ∧ M (.mxup m) m o 8 needR [1] ∧ M (.prls m) m o 8 needR [1] ∧
      M (.prcfg m) m o 8 needW [1]) ∧
    (∀ p : MxMskF, R (.mxmsk p) 0 o (s.me.ra p.y) (s.me.ra p.z)) ∧
    (∀ p : MxLdbF, M (.mxldb p) p.m (s.me.ra p.x) 16 needR [0, 1] ∧ M (.mxldbT p) p.m (s.me.ra p.x) 16 needR [0, 1]) ∧
    R .mxrot 0 o o o ∧ R .mxswp 0 o o o ∧ R .prapl 0 o o o ∧ (∀ a, R (.mxzero a) 0 o o o) ∧
    (∀ p : MxMmaF, M (.mxmma p) p.m o 16 needR [1] ∧ M (.mxmmaOw p) p.m o 16 needR [1] ∧
      M (.mxrun p) p.m o 16 needR [1]) ∧
    (∀ p : MxDrainF, M (.mxdrain p) p.m o 16 needW [1]) ∧
    (∀ p : MxPartF, M (.mxsave p) p.m o 16 needW [0, 1] ∧ M (.mxrest p) p.m o 16 needR [0, 1]) ∧
    (∀ p : MxMbxF, (p.scope = none → R (.mxmbx p) 0 o o o) ∧ (p.scope ≠ none → M (.mxmbx p) p.m o 8 needW [1])) ∧
    (∀ p : PrF, handle p.x → M (.prrdm p) p.m (h p.x) 4 needR [0, 1] ∧ M (.prstat p) p.m (h p.x) 8 needW [1]) ∧
    (∀ x, handle x → R (.prsq x) 0 (h x) o o) ∧
    (∀ x, ¬ handle x → exec (.prsq x) s = .next (trapAt s.cur 0x01 (s.me.ia x) s)) ∧
    (∀ (p : PrF) (k : Nat), ok p.m 8 needRW [1] → k < 16 → (s.myCore.mx.promises.get k).inUse = false →
      (∀ j, j < k → (s.myCore.mx.promises.get j).inUse = true) →
      let seq := s.myCore.mx.nextSeq
      ∃ t c, exec (.priss p) s = .next t ∧
        t.me = (s.me.wi p.x (BitVec.ofNat 64 (seq.toNat * 2 ^ 32 + k))).advance s.ilen ∧
        c.fresh s (.priss p) (s.me.ea p.m) o (s.me.ra p.m.y) o num ∧ c.slot = k ∧ c.seq = seq ∧
        t.myCore.mx.queue = s.myCore.mx.queue ++ [c] ∧ t.myCore.mx.seq = num + 1 ∧
        (t.myCore.mx.promises.get k).inUse = true ∧ (t.myCore.mx.promises.get k).seq = seq ∧
        t.myCore.mx.nextSeq = (if seq.toNat = 2 ^ 32 - 1 then 1 else seq + 1) ∧
        s.sameButCore t s.cur.core) ∧
    (∀ p : PrF, ok p.m 8 needRW [1] → (∀ j, j < 16 → (s.myCore.mx.promises.get j).inUse = true) →
      exec (.priss p) s = .next (trapAt s.cur 0x22 0 s))

/-- R223, R225, R253, R255, R284, R392: what an engine command's issue traps on, before any wait, and what it
waits for: two commands not begun in the queue, an active stream, a message or transfer of the context still on its
way (R282, R290), sixteen reports; MXWAIT and CPWAIT wait for the context's own commands; CPQRY reads the count of completed copy commands. R253 to R255: a copy command whose
operand registers pass tests 1 to 4 enters the copy queue with its captured operands and the next number; a
capability as the descriptor address is CAPPERM. -/
def Obligations.EngineWaitsAndCopyIssue : Prop :=
  (∀ (s : State) (p : MxMmaF) (o : CopyF) (x : Fin 16),
     let ea := s.me.ea p.m
     let cap := s.me.ra p.m.y
     (ea.toNat % 16 ≠ 0 → exec (.mxmma p) s = .next (trapAt s.cur 0x07 ea s)) ∧
     (ea.toNat % 16 = 0 → cap.tag = true → ∀ c, capCheck cap ea 0 needR [1] false = some c →
       exec (.mxmma p) s = .next (trapAt s.cur c ea s)) ∧
     (2 ≤ (s.myCore.mx.queue.filter fun c => !c.begun).length ∨ s.me.stream ≠ none ∨
         postedOut s.cur s = true ∨ 16 ≤ reportLoad s.cur s →
       exec .mxswp s = .next (s.withSig .stalled) ∧ exec .prapl s = .next (s.withSig .stalled)) ∧
     ((∀ c ∈ s.myCore.mx.queue, c.who ≠ s.cur) → exec .mxwait s = .next (s.past s.me)) ∧
     ((∃ c ∈ s.myCore.mx.queue, c.who = s.cur) → exec .mxwait s = .next (s.withSig .stalled)) ∧
     ((∀ c ∈ s.myCore.cp.queue, c.who ≠ s.cur) → exec .cpwait s = .next (s.past s.me)) ∧
     ((∃ c ∈ s.myCore.cp.queue, c.who = s.cur) → exec .cpwait s = .next (s.withSig .stalled)) ∧
     exec (.cpqry x) s = .next (s.past (s.me.wi x s.myCore.cp.done)) ∧
     (let ed := s.me.ia o.z + o.imm
      (s.me.ra o.z).tag = false → ed.toNat % 16 ≠ 0 → exec (.crall o) s = .next (trapAt s.cur 0x07 ed s))) ∧
  (∀ (s : State) (o : CopyF),
     let ea := s.me.ia o.z + o.imm
     let x := s.me.ra o.x
     let y := s.me.ra o.y
     let rights (v : AVal) (nd : Need) : Prop := v.tag = true → capCheck v 0 0 nd allKinds false = none
     let R (i : Instr) : Prop := ∃ c : Cmd, c.fresh s i ea x y ⟨false, 0⟩ s.myCore.cp.seq ∧
       exec i s = .next ((s.withCp c).past s.me)
     ((s.me.ra o.z).tag = false → ea.toNat % 16 = 0 → releaseWait s = false → reportLoad s.cur s < 16 →
       (s.myCore.cp.queue.filter fun c => !c.begun).length < 2 →
       (rights x needW → rights y needR → R (.cpy o) ∧ R (.cpyw o)) ∧ (rights x needW → R (.cpfil o)) ∧
       (rights y needR → R (.cpcode o)) ∧ (rights x needRW → rights y needR → R (.crstep o) ∧ R (.crstepSq o)) ∧
       R (.crall o)) ∧
     ((s.me.ra o.z).tag = true → ∀ i, i = .cpy o ∨ i = .cpyw o ∨ i = .cpfil o ∨ i = .cpcode o ∨ i = .crstep o ∨
       i = .crstepSq o ∨ i = .crall o → exec i s = .next (trapAt s.cur 0x05 ea s)))

/-- R233, R234, R237, R238, R242, R244, R247: the commands of the matrix engine without a product: what each
leaves in the engine of its core, or in its ring neighbour's, and the ENGARG of a refused operand. -/
def Obligations.MatrixStateCommands : Prop :=
  ∀ (s : State) (core : Nat) (c : Cmd) (rest : List Cmd),
    (s.core core).mx.queue = c :: rest → (s.core core).saved = false → c.park = .free → c.begun = false → c.who.core < 2304 →
    let k := s.core core
    let m := k.mx
    let B : Out := exec (.mxCommandBegin core) s
    let done (fl : Flags) (m' : Mx) : Prop := ∃ t, B = .next t ∧ mxCompletes s t core c fl [] m' k.lm
    let failed (cause : Nat) (v : DWord) : Prop := ∃ t, B = .next t ∧ mxCompletes s t core c 0 [(cause, v)] m k.lm
    let at_ (n : Nat) (nd : Need) : Prop := route core c.guards c.capY c.ea n nd [1] = .ok .loc
    let b (n : Nat) : List Byte := k.lm.getRange c.ea.toNat n
    (∀ p : MxMskF, c.ins = .mxmsk p → p.p ≠ 0 → m.masks.length = 3 → done 0 { m with
      masks := m.masks.set (p.p.val - 1) (c.capY.int.setWidth 32, c.capZ.int) }) ∧
    (c.ins = .mxswp → m.inc = .full → done 0 { m with cur := !m.cur, inc := .empty }) ∧
    (c.ins = .mxswp → m.inc ≠ .full → B = .next s) ∧
    (∀ p : MxMbxF, c.ins = .mxmbx p → p.scope = none → done 0 { m with mbScope := 7 }) ∧
    (∀ (p : MxMbxF) (sc : Scope), c.ins = .mxmbx p → p.scope = some sc → at_ 8 needW →
      done 0 { m with mbScope := Scope.num sc, mbAddr := c.ea.toNat }) ∧
    (∀ q, c.ins = .mxup q → at_ 8 needR →
      (progValid (b 8) = true → done 0 { m with prog := (b 8).take 5 }) ∧
      (progValid (b 8) = false → failed 0x0B 2)) ∧
    (∀ q, c.ins = .mxctx q → at_ 32 needR →
      let f := fmtCtx (b 32)
      let p := (valOf .fp32 f.ta).mul (valOf .fp32 f.tb)
      let r := round (.flt .fp32) .rne p.1 0
      (fmtValid f = true → done (p.2 ||| r.2)
        { m with fctx := b 32, t := BitVec.ofNat 32 r.1, n := 0, seed := k.srseed }) ∧
      (fmtValid f = false → failed 0x0B 1)) ∧
    (∀ q : Fin 2, c.ins = .mxzero q → ∃ t, B = .next t ∧ (t.core core).mx.queue = rest ∧
      (∀ e, e < 2048 → (t.core core).mx.acc.get (2048 * q.val + e) = 0) ∧
      (∀ a, a < 2048 * q.val ∨ 2048 * q.val + 2048 ≤ a → (t.core core).mx.acc.get a = m.acc.get a)) ∧
    (∀ g, c.ins = .mxrot → k.grp = some g → ∀ g', (s.core k.ring.toNat).grp = some g' → g'.launch = g.launch →
      k.ring.toNat ≠ core → SMap.wf m.latch = true → (s.core k.ring.toNat).saved = false → (s.core k.ring.toNat).mx.inc = .empty →
      let n := (s.core k.ring.toNat).mx
      ∃ t, B = .next t ∧ (t.core core).mx.queue = rest ∧ (t.core k.ring.toNat).mx.inc = .full ∧
        (∀ e, e < 8704 → (t.core k.ring.toNat).mx.latch.get (8704 * bankNo (!n.cur) + e) =
          m.latch.get (8704 * bankNo m.cur + e))) ∧
    -- a span that a check refuses ends the command with a report of that check's cause
    (∀ q e, c.ins = .mxup q → route core c.guards c.capY c.ea 8 needR [1] = .error e → failed e c.ea)

/-- R79, R80, R239, R243, R244, R251: in a canonical accumulator map, a product outside the governor's hold
replaces each element of its accumulator that the masks select by what R79 (`mmaElem`) or the microprogram
(`runElem`) gives of the old one, and counts n; the other tile and the unselected elements stay. MXDRAIN writes
the 32 rows, each element converted. R251, R252, R471: a governor window starts with nothing charged, the budget
in force, and in ctl.gov what each core was charged in the window before; a product held by the governor is let
go, or waits through this window. -/
def Obligations.MatrixProductsAndGovernor : Prop :=
  (∀ (s : State) (core : Nat) (c : Cmd) (rest : List Cmd),
     (s.core core).mx.queue = c :: rest → (s.core core).saved = false → c.park = .free → c.begun = false → c.who.core < 2304 →
     SMap.wf (s.core core).mx.acc = true →
     let k := s.core core
     let m := k.mx
     let f := m.fmt
     let ops := operands k (aRows f k c.ea.toNat) c.ea.toNat
     let free : Prop := k.xphase = true ∨ (m.govHeld = 0 ∧
       s.plat.spent.get (clusterOf core) + govEst k c ≤ budgetOf s (clusterOf core))
     let P (o : MxMmaF) (g : Nat → Nat → Word → Word × Flags) : Prop :=
       ∃ t, exec (.mxCommandBegin core) s = .next t ∧ (t.core core).mx.queue = rest ∧ (t.core core).mx.n = m.n + 1 ∧
         (∀ i j, i < 32 → j < 64 →
           let a := 2048 * o.acc.val + 64 * i + j
           let mask := m.mask o.pair.val
           (t.core core).mx.acc.get a =
             if mask.1.getLsbD i && mask.2.getLsbD j then (g i j (m.acc.get a)).1 else m.acc.get a) ∧
         (∀ a, a < 2048 * o.acc.val ∨ 2048 * o.acc.val + 2048 ≤ a → (t.core core).mx.acc.get a = m.acc.get a) ∧
         (t.core core).mx.latch = m.latch ∧ (t.core core).mx.fctx = m.fctx ∧ t.mem = s.mem
     (route core c.guards c.capY c.ea (aSpan f) needR [1] = .ok .loc → free → ∀ o : MxMmaF,
       (c.ins = .mxmma o → P o fun i j w => mmaElem ops m.seed m.n i j w) ∧
       (c.ins = .mxmmaOw o → P o fun i j _ => mmaElem ops m.seed m.n i j 0) ∧
       (c.ins = .mxrun o → f.accf ≠ 3 → P o fun i j w => runElem ops m.prog m.seed m.n i j w)) ∧
     (∀ o : MxDrainF, c.ins = .mxdrain o →
       let wo := ofmW f.ofm
       let sd := if f.dst = 0 then 8 * wo else f.dst
       route core c.guards c.capY c.ea (31 * sd + 8 * wo) needW [1] = .ok .loc →
       let row (i : Nat) : Nat := ((List.range 64).map fun j =>
         (drainElem f m.t (m.acc.get (2048 * o.acc.val + 64 * i + j))).1 * 2 ^ (wo * j)).sum
       ∃ t fl, exec (.mxCommandBegin core) s = .next t ∧ mxCompletes s t core c fl [] m
         ((List.range 32).foldl (fun (l : SMap Byte) i => l.putList (c.ea.toNat + i * sd) (leBytes (8 * wo) (row i))) k.lm))) ∧
  (∀ (s : State), (∀ k, (s.core k).mx.govHeld = 0) → s.cores.keys.Nodup →
     ∃ t, exec .governorWindow s = .next t ∧ t.plat.spent = [] ∧ t.plat.powerNow = s.plat.power ∧
       (∀ k, k ∈ s.cores.keys → (t.core k).mx.govLast = (s.core k).mx.govCharged ∧ (t.core k).mx.govCharged = 0) ∧
       t.mem = s.mem) ∧
  (∀ (s : State) (core : Nat) (c : Cmd) (rest : List Cmd) (o : MxMmaF),
     (s.core core).mx.queue = c :: rest → c.ins = .mxmma o → (s.core core).mx.govHeld ≠ 0 →
     (s.core core).xphase = false → (s.core core).saved = false → s.cores.keys.Nodup →
     (∀ k, k ≠ core → (s.core k).mx.govHeld = 0) →
     let e := govEst (s.core core) c
     let budget := budgetOf { s with plat := { s.plat with powerNow := s.plat.power } } (clusterOf core)
     ∃ t, exec .governorWindow s = .next t ∧
       (c.waited = true ∨ e ≤ budget → t.plat.spent.get (clusterOf core) = e ∧
         (t.core core).mx.govHeld = 0 ∧ (t.core core).mx.govCharged = e) ∧
       (c.waited = false → budget < e → t.plat.spent = [] ∧
         (t.core core).mx.queue = { c with waited := true } :: rest))

/-- R235, R236, R245, R246: loads of the incoming bank, and saves and restores of the parts of the engine's
state, through local memory: the bytes of R236, of `partOf` and `restorePart`; a control block that R246 refuses
ends with ENGARG 7. -/
def Obligations.MatrixTransfers : Prop :=
  ∀ (s : State) (core : Nat) (c : Cmd) (rest : List Cmd),
    (s.core core).mx.queue = c :: rest → (s.core core).saved = false → c.park = .free → c.begun = false → c.who.core < 2304 →
    c.prog = 0 → c.buf = [] → SMap.wf (s.core core).lm = true →
    let k := s.core core
    let m := k.mx
    let B : Out := exec (.mxCommandBegin core) s
    let e := c.ea.toNat
    let at_ (n : Nat) (nd : Need) : Prop := route core c.guards c.capY c.ea n nd [0, 1] = .ok .loc
    (∀ o : MxPartF, c.ins = .mxsave o → at_ (partBytes o.part.val) needW →
      (partOf m o.part.val).length = partBytes o.part.val →
      ∃ t, B = .next t ∧ mxCompletes s t core c 0 [] m (k.lm.putList e (partOf m o.part.val))) ∧
    (∀ o : MxPartF, c.ins = .mxrest o → at_ (partBytes o.part.val) needR →
      let b := k.lm.getRange e (partBytes o.part.val)
      (o.part.val < 4 ∨ controlValid b = true →
        ∃ t, B = .next t ∧ mxCompletes s t core c 0 [] (restorePart m o.part.val b) k.lm) ∧
      (o.part.val = 4 → controlValid b = false →
        ∃ t, B = .next t ∧ mxCompletes s t core c 0 [(0x0B, 7)] m k.lm)) ∧
    (∀ (o : MxLdbF) (tr : Bool), c.ins = (if tr then .mxldbT o else .mxldb o) → m.inc ≠ .loading →
      let f := m.fmt
      let p := ldbPlan f tr c.capX.int
      at_ (max ((p.rows - 1) * p.stride + p.rlen) (if p.scales = 0 then 0 else p.rows * p.stride + p.scales)) needR →
      p.stride % 16 = 0 → p.rlen ≤ p.stride → (tr = true → codeMX f.bf = false) →
      let bytes := ((List.range p.rows).flatMap fun i => k.lm.getRange (e + i * p.stride) p.rlen) ++
        k.lm.getRange (e + p.rows * p.stride) p.scales
      let b := bankNo (!m.cur)
      ∃ t, B = .next t ∧ mxCompletes s t core c 0 []
        { m.setBank b 0 (ldbPut f tr p (m.bank b) bytes) with inc := .full } k.lm) ∧
    (∀ o : MxLdbF, c.ins = .mxldb o → m.inc ≠ .loading →
      let p := ldbPlan m.fmt false c.capX.int
      at_ (max ((p.rows - 1) * p.stride + p.rlen) (if p.scales = 0 then 0 else p.rows * p.stride + p.scales)) needR →
      p.stride % 16 ≠ 0 ∨ p.stride < p.rlen →
      ∃ t, B = .next t ∧ mxCompletes s t core c 0 [(0x0B, 4)] { m with inc := .empty } k.lm)

/-- R302, R304, R316 to R319: PRSTAT, PRLS and PRCFG, and the end of PRSQ of an open promise: reverted, its slot
free; a handle that names no live promise ends with ENGARG 13, a bad loss block with ENGARG 14. -/
def Obligations.PromiseCommands : Prop :=
  ∀ (s : State) (core : Nat) (c : Cmd) (rest : List Cmd),
    (s.core core).mx.queue = c :: rest → (s.core core).saved = false → c.park = .free → c.begun = false → c.who.core < 2304 →
    let k := s.core core
    let m := k.mx
    let B : Out := exec (.mxCommandBegin core) s
    let at_ (n : Nat) (nd : Need) : Prop := route core c.guards c.capY c.ea n nd [1] = .ok .loc
    let slot := c.capX.int.toNat % 16
    let seq := c.capX.int.toNat / 2 ^ 32
    let sl := m.promises.get slot
    (∀ q, c.ins = .prls q → at_ 16 needR →
      let b := k.lm.getRange c.ea.toNat 16
      (lossValid b = true → ∃ t, B = .next t ∧ mxCompletes s t core c 0 [] { m with loss := b } k.lm) ∧
      (lossValid b = false → ∃ t, B = .next t ∧ mxCompletes s t core c 0 [(0x0B, 14)] m k.lm)) ∧
    (∀ q, c.ins = .prstat q → at_ 8 needW →
      let here : Bool := sl.seq.toNat = seq
      (here && sl.inUse) = false ∨ localOk c.guards (sl.roff + 8) 2 needR = true →
      let bytes := leBytes 4 seq ++ leBytes 1 (if here then PrState.num sl.last else 0xFF) ++
        leBytes 1 (if here && sl.inUse then 1 else 0) ++
        leBytes 2 (if here && sl.inUse then leNat (((k.lm.getRange sl.roff 64).drop 8).take 2) else 0)
      ∃ t, B = .next t ∧ mxCompletes s t core c 0 [] m (k.lm.putList c.ea.toNat bytes)) ∧
    (∀ q, c.ins = .prcfg q → at_ 32 needW →
      let mask (st : PrState) : Nat := ((slotsIn m [st]).map fun i => 2 ^ i).sum
      let free := ((List.range 16).filter fun i => !(m.promises.get i).inUse).length
      let bytes := m.loss ++ leBytes 4 m.nextSeq.toNat ++ leBytes 2 (mask .opened) ++ leBytes 2 (mask .redeemed) ++
        leBytes 8 free
      ∃ t, B = .next t ∧ mxCompletes s t core c 0 [] m (k.lm.putList c.ea.toNat bytes)) ∧
    (∀ x, c.ins = .prsq x → sl.seq.toNat = seq → sl.inUse = true → (sl.last = .opened ∨ sl.last = .redeemed) →
      badRegion c.guards ((prRec k sl.roff).correctRegions false false) = none →
      ∃ t, B = .next t ∧ (t.core core).mx.queue = rest ∧ ((t.core core).mx.promises.get slot).last = .reverted ∧
        ((t.core core).mx.promises.get slot).inUse = false ∧ t.mem = s.mem) ∧
    (∀ x, c.ins = .prsq x → sl.seq.toNat ≠ seq →
      ∃ t, B = .next t ∧ mxCompletes s t core c 0 [(0x0B, 13)] m k.lm) ∧
    (c.ins = .prapl → slotsIn m [.opened, .redeemed] = [] → ∃ t, B = .next t ∧ mxCompletes s t core c 0 [] m k.lm)

/-! ### The copy engine and the governor -/

/-- R256, R258, R260, R265, R269: the copy engine's turn: a descriptor that the guards refuse ends with
LOCALGUARD and neither record nor mailbox; a copy of one row within local memory, through untagged operands that
do not overlap, moves the bytes, completes and stores the mailbox, in one step of a state whose steps are not fine (log entry
1); a reduction that every member has delivered to, or that was complete before, writes its result and completes. -/
def Obligations.CopyPerformance : Prop :=
  ∀ (s : State) (core : Nat) (c : Cmd) (rest : List Cmd),
    (s.core core).cp.queue = c :: rest → (s.core core).saved = false → c.park = .free → c.who.core < 2304 →
    let k := s.core core
    let w := creditTo c.who s
    (c.begun = false → localOk c.guards c.ea.toNat 64 needR = false →
      ∃ t, exec (.cpCommandBegin core) s = .next t ∧ (t.core core).cp.queue = rest ∧
        (t.core core).cp.done = k.cp.done + 1 ∧ (t.core core).lm = k.lm ∧
        (t.ctx w).reports.map (fun r => (r.cause, r.tval)) =
          (s.ctx w).reports.map (fun r => (r.cause, r.tval)) ++ [(0x08, c.ea)]) ∧
    (∀ o, s.fine = false → c.begun = false → c.ins = .cpy o → c.prog = 0 → c.hist = [] → c.flags = 0 → c.capX.tag = false →
      c.capY.tag = false → localOk c.guards c.ea.toNat 64 needR = true →
      let d := k.lm.getRange c.ea.toNat 64
      let n := descF d 16 4
      let src := (c.capY.int + BitVec.ofNat 64 (descF d 0 8)).toNat
      let dst := (c.capX.int + BitVec.ofNat 64 (descF d 8 8)).toNat
      let mbx := descF d 50 2
      descOk c d = true → descF d 20 2 = 1 → descF d 22 2 = 1 → descF d 48 2 = 0 →
      (mbx = 0 ∨ (mbx % 8 = 0 ∧ localOk c.guards mbx 8 needW = true)) →
      localOk c.guards src n needR = true → localOk c.guards dst n needW = true →
      (src + n ≤ dst ∨ dst + n ≤ src) → src % 2048 + n ≤ 2048 → dst % 2048 + n ≤ 2048 →
      let l := k.lm.setRange dst (k.lm.getRange src n)
      ∃ t, exec (.cpCommandBegin core) s = .next t ∧ (t.core core).cp.queue = rest ∧
        (t.core core).cp.done = k.cp.done + 1 ∧
        (t.core core).lm = (if mbx = 0 then l else l.putList mbx (leBytes 8 (c.num + 1).toNat)) ∧ t.mem = s.mem) ∧
    (∀ (n key j op : Nat) (v : DWord), crallOf k = some (n, key, j) →
      let l := s.reds.get (redNo key j)
      (l.find? (fun x => x.core == finalMark) = some ⟨finalMark, op, v⟩) ∨
        (n ≠ 15 ∧ redHere n key j s = true ∧ (∀ x ∈ l, x.core ≠ finalMark ∧ x.core ≠ sentMark) ∧ redValue l = (op, v)) →
      op ≠ 255 → dRec c.buf = 0 → dMbx c.buf = 0 → c.buf.length = 64 →
      ∃ t, exec (.crallComplete core) s = .next t ∧ (t.core core).cp.queue = rest ∧
        (t.core core).cp.done = k.cp.done + 1 ∧
        (t.core core).lm = k.lm.putList (descF c.buf 8 2) (leBytes 8 v.toNat))

/-! ### Events of the units of a core -/

/-- R391, R428, R409 to R412, R418: the oldest pending report of a context is raised as a trap; a request that
was answered MOVING goes out again; a phase of a barrier key is released at every member once all have arrived;
the oldest held arrival is delivered once its transfers, messages and copy commands are done. R415 to R417,
R420, R421: a transfer that has both ports and no rival takes them for a cycle for each 32 bytes, and each of its bytes is
written at the receiver then or when it ends, or it is refused by its windows; R208: a message for whose buffer no window of the
receiver admits its sender is refused and counted in ctl.winrej; another is placed at the tail behind its header,
or is refused and counted; one for a virtual device that is moving waits (R448). That the windows are looked at before the
room is the model's (DEDUCED, log entry 11), as is when the words of a transfer are written (DESIGN CHOICE, log entry 23). -/
def Obligations.UnitEvents : Prop :=
  (∀ (s : State),
     (∀ w, reportReady w s = false → exec (.reportRaise w) s = .next s) ∧
     (∀ w r rest, reportReady w s = true → (s.ctx w).reports = r :: rest → (s.ctx w).lossfloor = none →
       expiredFor w s = [] → exec (.reportRaise w) s =
         .next (trapAt w r.cause r.tval (s.setCtx w { s.ctx w with reports := rest }))) ∧
     (∀ w r, reportReady w s = true → (s.ctx w).reports = [] → (s.ctx w).lossfloor = some r →
       expiredFor w s = [] → exec (.reportRaise w) s =
         .next (trapAt w r.cause r.tval (s.setCtx w { s.ctx w with lossfloor := none }))) ∧
     (∀ id r, s.fab.reqs.get id = some r → r.moving = true → routeLost r.pkt.ddev s = false →
       ∃ t, exec (.movingRetry id) s = .next t ∧ t.fab.reqs.get id = some { r with moving := false } ∧
         t.fab.outbox = (sendPkt r.pkt s).fab.outbox ∧ t.cores = s.cores ∧ t.mem = s.mem) ∧
     (∀ id r w, s.fab.reqs.get id = some r → r.moving = true → routeLost r.pkt.ddev s = true → r.agent = .ctx w →
       r.pkt.typ ≠ 0x30 → exec (.movingRetry id) s =
         .next (setReq id (some { r with answer := some (0x19, []), moving := false }) s)) ∧
     -- releases
     (∀ core (n : Fin 16) key, (s.core core).key n.val = some key → s.cores.keys.Nodup → n ≠ 15 →
       (allArrived n.val key s = false → exec (.barrierRelease core n) s = .next s) ∧
       (allArrived n.val key s = true → n ≠ 0 →
         ∃ t, exec (.barrierRelease core n) s = .next t ∧ t.keys.get key = s.keys.get key + 1 ∧ t.mem = s.mem ∧
           ∀ k, t.core k = if (s.core k).key n.val = some key
             then { s.core k with barph := (s.core k).barph ^^^ (1 <<< n.val) } else s.core k) ∧
       (allArrived n.val key s = true → n = 0 → endsSuperstep key s = false →
         ∃ t, exec (.barrierRelease core n) s = .next t ∧ t.keys.get key = s.keys.get key + 1 ∧ t.mem = s.mem ∧
           ∀ k, t.core k =
             if (s.core k).key 0 = some key then
               if (s.core k).isBulk then { s.core k with
                 barph := (s.core k).barph ^^^ 1
                 xphase := decide (((s.core k).chans.get 0).next.getD 0 ≤ s.keys.get key + 1), xcyc := 0 }
               else { s.core k with barph := (s.core k).barph ^^^ 1 }
             else s.core k) ∧
       (allArrived n.val key s = true → n = 0 → repairHolds key s = true ∨ releaseHeld key s = true →
         exec (.barrierRelease core n) s = .next s) ∧
       (allArrived n.val key s = true → n = 0 → endsSuperstep key s = true → repairHolds key s = false →
         releaseHeld key s = false → (∀ l ∈ launchesOf key s, (s.launchOf l).resolved = none ∧ (s.launchOf l).noPreempt = true) →
         ∃ t, exec (.barrierRelease core n) s = .next t ∧ t.keys.get key = s.keys.get key + 1 ∧
           ∀ k, (s.core k).key 0 = some key → (s.core k).isBulk = true → (s.core k).barph.getLsbD 0 = true →
             t.core k = { s.core k with
               barph := (s.core k).barph ^^^ 1, xphase := false, step := (s.core k).step + 1 })) ∧
     -- held arrivals
     (∀ core q rest, let c := s.core core
       (c.chans.get 0).held = q :: rest → q.1 ≤ releasedOf c 0 s → (∀ x ∈ c.xfers, x.who.core ≠ core) →
       c.sendBusy ≤ s.time → coreMessages core s = 0 → q.2 ≤ c.cp.done.toNat → exec (.arrivalDeliver core) s =
         .next (s.setCore core { c with chans := c.chans.put 0 { c.chans.get 0 with held := rest } }))) ∧
  (∀ (s : State) (core : Nat) (g : Grp), (s.core core).grp = some g → core < 2304 →
     let c := s.core core
     (∀ (x : Xfer) (k : Nat), c.xfers = [x] → x.who.core = core → coreOfGroup x.launch x.peer s = some k →
       (s.core k).saved = false → c.sendBusy ≤ s.time → (s.core k).recvBusy ≤ s.time → hasRival core x s = false →
       let sender : Sender := ⟨s.fab.devid, core, (s.launchOf x.launch).vdev⟩
       let until_ := s.time + (x.bytes.length + 31) / 32
       ∃ t, exec (.exchangeTransfer core) s = .next t ∧ t.mem = s.mem ∧ (t.core core).xfers = [] ∧
         (t.core core).sendBusy = until_ ∧ (t.core k).recvBusy = until_ ∧
         (k = core ∨ windowOk s k sender x.roff x.bytes.length needW = true →
           (∀ a, ((t.core k).lm.get a = (s.core k).land.lm.get a ∨
               x.roff ≤ a ∧ x.bytes[a - x.roff]? = some ((t.core k).lm.get a)) ∧
             (t.core k).land.lm.get a = (if x.roff ≤ a then x.bytes[a - x.roff]? else none).getD
               ((s.core k).land.lm.get a)) ∧
           ∀ j, j ≠ core → j ≠ k → t.core j = s.core j) ∧
         (k ≠ core → windowOk s k sender x.roff x.bytes.length needW = false →
           (t.core k).lm = (s.core k).lm ∧ (t.core k).winrej = satInc32 (s.core k).winrej ∧
           (t.ctx (reportWho x.who s)).reports.map (fun r => (r.cause, r.tval)) =
             (s.ctx (reportWho x.who s)).reports.map (fun r => (r.cause, r.tval)) ++
               [(0x18, nackTval 0x18 (BitVec.ofNat 64 x.slot))])) ∧
     (∀ (m : Message) (rest : List Message), c.rxIn = m :: rest → c.saved = false → m.pkt = none →
       let c' := { c with rxIn := rest }
       (migrating (bitsOf m.dest.toNat 31 16) s = true → exec (.rxMessagePlace core) s = .next s) ∧
       (migrating (bitsOf m.dest.toNat 31 16) s = false →
       (g.vdev ≠ bitsOf m.dest.toNat 31 16 → exec (.rxMessagePlace core) s =
         .next (addReport m.who 0x18 (nackTval 0x19 m.dest) (s.setCore core c'))) ∧
       let sender : Sender := ⟨s.fab.devid, m.core, m.vdev⟩
       (g.vdev = bitsOf m.dest.toNat 31 16 →
         windowOk s core sender c.rxbase.toNat c.rxsize.toNat needW = false → exec (.rxMessagePlace core) s =
           .next (addReport m.who 0x18 (nackTval 0x18 m.dest) (s.setCore core { c' with winrej := satInc32 c.winrej }))) ∧
       (g.vdev = bitsOf m.dest.toNat 31 16 →
         windowOk s core sender c.rxbase.toNat c.rxsize.toNat needW = true →
         let base := c.rxbase.toNat
         let size := c.rxsize.toNat
         let head := c.rxhead.toNat
         let tail := c.rxtail.toNat
         let need := m.payload.length + 8
         let free := if head = tail then size else (size + head - tail) % size
         let header := m.payload.length / 8 * 2 ^ 32 + (if m.isPkt then 2 ^ 29 else 0) + m.core % 4096 * 2 ^ 16 +
           m.vdev % 65536
         (c.rxflags.getLsbD 0 = false ∨ size = 0 ∨ free < need + 8 → exec (.rxMessagePlace core) s =
           .next (addReport m.who 0x18 (nackTval 0x1C m.dest) (s.setCore core
             { c' with rxdrop := satInc32 c.rxdrop, rxflags := c.rxflags ||| 4 }))) ∧
         (c.rxflags.getLsbD 0 = true → size ≠ 0 → need + 8 ≤ free → tail + need ≤ base + size →
           exec (.rxMessagePlace core) s = .next (s.setCore core
             { c'.store tail (leBytes 8 header ++ m.payload) with
               rxtail := BitVec.ofNat 64 (base + (tail - base + need) % size) }))))))

/-! ### Queues and their commands -/

/-- R330 to R335, R345: a wake write of a queue's own capability raises the tail or counts as stale, another is
counted; the fetcher takes the slot at the head when it is published and stops at one that is not; a queue whose
LAUNCH has waited its age for cores rises a level. -/
def Obligations.WakeWritesAndFetch : Prop :=
  ∀ (s : State),
    (∀ wr (b : List Byte), b.length ≠ 64 → exec (.wakeWrite wr b) s = .next s) ∧
    (∀ (n t : Nat) (q : Que) (b : List Byte) (wr : Option Nat), b.length = 64 → s.queue n = q → n < 4096 →
      q.alive = true → migrating q.vdev s = false → bodyF b 0 8 = q.w0.toNat → bodyF b 8 8 = q.w1.toNat →
      bodyF b 16 8 = q.w2.toNat → bitsOf q.w1.toNat 47 32 = n → bodyF b 32 8 = t →
      (queueTag s.plat.starts q.w0 q.w1 q.w2 ≠ BitVec.ofNat 64 (bodyF b 24 8) →
        exec (.wakeWrite wr b) s = .next { s with plat := { s.plat with badWakes := s.plat.badWakes + 1 } }) ∧
      (queueTag s.plat.starts q.w0 q.w1 q.w2 = BitVec.ofNat 64 (bodyF b 24 8) → (b.drop 40).any (· != 0) = false →
        bitAt q.w1.toNat 48 = true → q.opened = true → (wr = none ∨ wr = some q.vdev) →
        (q.tail < t → ∃ u, exec (.wakeWrite wr b) s = .next u ∧ (u.queue n).tail = t ∧ (u.queue n).woken = true) ∧
        (t ≤ q.tail → q.blkPark = .free → ∃ u, exec (.wakeWrite wr b) s = .next u ∧ (u.queue n).tail = q.tail ∧
          (u.queue n).stale = min (q.stale + 1) 0xFFFFFFFF))) ∧
    (∀ (n : Nat) (w : List Byte) (s1 : State), canFetch n s = true →
      let q := s.queue n
      let va := q.w0.toNat + 64 * (q.head % q.slots)
      ioRead n q.vdev q.space (va + 56) 8 (fetchStart n s) = .ok w s1 →
      (leNat w ≠ (q.head + 1) % 2 ^ 64 → ∃ t, exec (.queueFetch n) s = .next t ∧
        (t.queue n).woken = ((fetchStart n s).queue n).fresh ∧
        (t.queue n).head = q.head ∧ (t.queue n).cmds = q.cmds) ∧
      (∀ b s2, leNat w = (q.head + 1) % 2 ^ 64 → ioRead n q.vdev q.space va 56 s1 = .ok b s2 →
        let c : QCmd := { (default : QCmd) with idx := q.head, body := b }
        ∃ t, exec (.queueFetch n) s = .next t ∧ (t.queue n).head = q.head + 1 ∧
          (∀ h, headCmd q = some h → h.joined = true → (t.queue n).cmds = q.cmds ++ [c]) ∧
          (q.cmds = [] → bNeeds b = [] → ∃ r, (t.queue n).cmds =
            [{ c with joined := true, satisfied := true, ready := some r }]))) ∧
    (∀ n c r t0, let q := s.queue n
      migrating q.vdev s = false → headCmd q = some c → c.ready = some (r, t0) → bKind c.body = 1 →
      c.short.isSome = true → q.age ≠ 0 → 0 < q.level → t0 + (min 7 (bPrio c.body) - q.level + 1) * q.age * 1900 ≤ s.time →
      ∃ t, exec (.queueAge n) s = .next t ∧ (t.queue n).level = q.level - 1)

/-- R338 to R345: a ready WAIT or SIGNAL that nothing holds back, and such a PRELOAD whose image is valid, completes and
signals its event; one that waits does not start; a LAUNCH that passes its checks and has cores for its first gang (DEDUCED, log
entry 11) becomes a launch with the next launch id, and one that fails them ends with the status of the first
row; a LAUNCH completes when its groups are over. -/
def Obligations.QueueCommands : Prop :=
  ∀ (s : State) (n : Nat) (c : QCmd),
    let q := s.queue n
    let b := c.body
    q.cmds = [c] → c.result = none → c.recPark = .free → bRec b = 0 → migrating q.vdev s = false →
    (c.started = false → c.joined = true → c.launch = none →
      let i : Instr := match bKind b with | 2 => .wait n | 3 => .signal n | 4 => .preload n | _ => .launch n
      (c.ready = none → exec i s = .next s) ∧
      (c.ready.isSome = true →
        (bKind b = 2 ∨ bKind b = 3 → heldOther n c.rank s = false → badOther b = false → q.right 50 = true →
          (s.vdev q.vdev).waits.get (bSigev b) = [] →
          ∃ t, exec i s = .next t ∧ (t.queue n).cmds = [] ∧ (bSigev b ≠ 0 →
            (t.vdev q.vdev).events.get (bSigev b) =
              min ((s.vdev q.vdev).events.get (bSigev b) + 1) 0xFFFFFFFF)) ∧
        (∀ im s1, bKind b = 4 → heldOther n c.rank s = false → badOther b = false → q.right 51 = true →
          readImage (recTask n c.idx) q.vdev q.space (bImage b) (startCmd n c s) = .ok (im, true) s1 →
          ∃ t, exec i s = .next t ∧ (t.queue n).cmds = [] ∧ (n, im) ∈ (t.vdev q.vdev).pinned ∧
            (bSigev b ≠ 0 → (s1.vdev q.vdev).waits.get (bSigev b) = [] → (t.vdev q.vdev).events.get (bSigev b) =
              min ((s1.vdev q.vdev).events.get (bSigev b) + 1) 0xFFFFFFFF)) ∧
        (bKind b = 1 → heldBack n c.rank s = false → quiesces q.vdev s = false →
          let s0 := mapCmd n c.idx (fun c => { c with tried := true }) s
          (badLaunch b q.perg.isSome = true → launchCheck n c.idx b s0 = .ok (.error 2) s0) ∧
          (badLaunch b q.perg.isSome = false → q.right 49 = false → launchCheck n c.idx b s0 = .ok (.error 3) s0) ∧
          (∀ st s1, launchCheck n c.idx b s0 = .ok (.error st) s1 →
            ∃ t, exec i s = .next t ∧ (t.queue n).cmds = []) ∧
          (∀ im a s1, launchCheck n c.idx b s0 = .ok (.ok (im, a)) s1 → bitAt (bFlags b) 0 = false →
            bitAt (bFlags b) 1 = false →
            let id := (s1.vdev q.vdev).nextId
            let key := launchKey q.vdev id
            let l := newLaunch n c im a id s1
            placeable key q.vdev (firstGang l) l.ganged s1 = true →
            ∃ t, exec i s = .next t ∧ (t.launchOf key).alive = true ∧ (t.launchOf key).id = id ∧
              (t.launchOf key).image = im ∧ (t.launchOf key).groups = bGroups b ∧
              (t.launchOf key).predicted = bGroups b ∧ (t.launchOf key).args = a.1 ∧
              (t.vdev q.vdev).nextId = (if 0xFFFFFFFF ≤ id then 1 else id + 1) ∧
              (t.queue n).cmds =
                [{ c with started := true, tried := true, short := none, launch := some key }])))) ∧
    (∀ key, c.launch = some key → let l := s.launchOf key
      launchOver l = true → launchOut key s = false → l.vdev = q.vdev → l.q = n → l.idx = c.idx →
      ∃ t, exec (.launchComplete key) s = .next t ∧ t.launchOf key = default ∧ (t.queue n).cmds = [])

/-- R378, R393, R394: the count of a remote TLB entry goes to memory and is 0; the oldest waiting fault is
written to the next place of the fault queue, with the count of those that wait and the new tail; a full queue
leaves it waiting; a queue that the host has placed outside memory stops the model (noMemory). -/
def Obligations.RemoteCountsAndFaultQueue : Prop :=
  ∀ (s : State),
    (∀ i t, s.tlb[i]? = some t → ∃ u, exec (.rcountFlush i) s = .next u ∧ u.tlb[i]? = some { t with count := 0 } ∧
      (∀ j, j ≠ i → u.tlb[j]? = s.tlb[j]?) ∧ u.mem = (flushCount t s).mem) ∧
    (∀ vd a f rest, let v := s.vdev vd
      migrating vd s = false → v.fqBlock = some a → v.fwait = f :: rest →
      let base := s.physNum a 8
      let entries := s.physNum (a + 8) 4
      let tail := s.physNum (a + 16) 8
      let head := s.physNum (a + 24) 8
      let p := base + 32 * (tail % max 1 entries)
      (hbmEnd < a + 64 → exec (.faultEntryWrite vd) s = .fault (.noMemory a)) ∧
      (a + 64 ≤ hbmEnd → entries ≤ tail - head →
        exec (.faultEntryWrite vd) s = .next (s.physStore (a + 12) (leBytes 4 v.fwait.length))) ∧
      (a + 64 ≤ hbmEnd → tail - head < entries → hbmEnd < p + 32 →
        exec (.faultEntryWrite vd) s = .fault (.noMemory p)) ∧
      (a + 64 ≤ hbmEnd → tail - head < entries → p + 32 ≤ hbmEnd → (p + 32 ≤ a ∨ a + 64 ≤ p) →
        ∃ t, exec (.faultEntryWrite vd) s = .next t ∧
          (∀ i, i < 32 → SMap.get (α := Byte) t.mem (p + i) = (faultEntry f (tail % 2 ^ 32)).getD i 0) ∧
          t.physNum (a + 16) 8 = (tail + 1) % 2 ^ 64 ∧ t.physNum (a + 12) 4 = rest.length % 2 ^ 32 ∧
          (t.vdev vd).fwait = rest ∧ (t.vdev vd).fout.get (tail % 2 ^ 32) = some f))

/-! ### Groups -/

/-- R327, R347: the placement of a gang: RESERVE to every Kiosk of the candidate set while each link has a permit, the
answer of each to the RESERVE at the head of its link, COMMIT when all grant, and else release with a wait of
min(64, 2^a) µs before the next candidate set. A message behind a RESERVE waits on the link; a RELEASE that
arrives gives its Kiosk's cores back. That a permit is held until a message is received, that every RESERVE waits until each
link has one, and that a message on an empty link acts at once, is the model's (DEDUCED, log entry 11). -/
def Obligations.GangPlacement : Prop :=
  ∀ (s : State) (key : Nat), let l := s.launchOf key
    (∀ n set, l.alive = true → l.ganged = true → l.place = .none → l.killed = false → l.reserved = [] →
      currentSet key s = some (n, set) →
      ((∀ cl ∈ set, (s.links.get cl).length < 8) → exec (.reserve key) s = .next
        ((shares s set n).foldl (fun u a => sendLink (.reserve key a.2) u a.1) (s.setLaunch key
          { l with place := .reserved, asked := shares s set n, granted := [], reserved := [] }))) ∧
      ((∃ cl ∈ set, 8 ≤ (s.links.get cl).length) → exec (.reserve key) s = .next s)) ∧
    (∀ cl k n rest m, s.links.get cl = .reserve k n :: rest →
      sendLink m s cl = { s with links := s.links.put cl (.reserve k n :: (rest ++ [m])) } ∧
      (k ≠ key → ∀ g, exec (.grant key cl g) s = .next s)) ∧
    (∀ cl, s.links.get cl = [] → l.alive = true → sendLink (.release key) s cl =
      { s.setLaunch key { l with leaving := l.leaving.filter fun k => k / 4 ≠ cl } with links := s.links.put cl [] }) ∧
    (∀ cl n rest, s.links.get cl = .reserve key n :: rest →
      (n ≤ (freeIn key cl s).length → exec (.grant key cl true) s = .next (drainLink cl rest (s.setLaunch key
        { l with granted := l.granted ++ [cl], reserved := l.reserved ++ (freeIn key cl s).take n }))) ∧
      ((freeIn key cl s).length < n → exec (.grant key cl false) s = .next (drainLink cl rest (s.setLaunch key
        { l with granted := l.granted ++ [576 + cl], reserved := l.reserved ++ [] })))) ∧
    (l.place = .reserved → l.asked.length ≤ l.granted.length →
      ((∀ g ∈ l.granted, g < 576) → l.pergola = false → (∀ a ∈ l.asked, (s.links.get a.1).length < 8) →
        exec (.commit key) s = .next (l.asked.foldl (fun u a => sendLink (.commit key) u a.1)
          (s.setLaunch key { l with place := .committed }))) ∧
      ((∃ g ∈ l.granted, 576 ≤ g) →
        let gs := l.granted.filter fun g => decide (g < 576)
        (∀ g ∈ gs, (s.links.get g).length < 8) →
        exec (.release key) s = .next (gs.foldl (sendLink (.release key)) (s.setLaunch key { l with
          place := .backoff, asked := [], granted := [], reserved := [], leaving := l.leaving ++ l.reserved
          conflicts := l.conflicts + 1, retry := s.time + 1900 * min 64 (2 ^ l.conflicts) })))) ∧
    (l.place = .backoff → l.retry ≤ s.time →
      exec (.placementRetry key) s = .next (s.setLaunch key { l with place := .none, cand := l.cand + 1 }))

/-- R21, R23, R27 to R29, R32, R34, R222, R301, R360 to R365: a group starts on a free core with context 0 alone
at the entry, all registers zero, the argument block and the plan in local memory; it ends when its contexts
have ended and its engines are idle; a launch is resolved to its shape word between floor and N_max, the
resolution makes groups below it definite and squashes the others, and a tail launch runs the missing groups. That a core is
free once its group of a bulk launch has ended is the model's choice (DESIGN CHOICE, log entry 31), as is ctl.plan = 0x40 for
an image without a plan (DESIGN CHOICE, log entry 2). -/
def Obligations.GroupLifecycle : Prop :=
  ∀ (s : State) (key : Nat), let l := s.launchOf key
    (∀ g core a s1, l.alive = true → l.killed = false → quiesces l.vdev s = false → l.ganged = false →
      l.nextGroup = some g → vdevHas (s.vdev l.vdev) core = true → coreFree key core s = true →
      outranked l s = false → planOk l.image.plan l.groups = true → readArgs (2 ^ 33 * 2 ^ 64 + key) l.vdev l.space l.argva s = .ok a s1 →
      a.1.length = 64 →
      ∃ t, exec (.groupStart key g core) s = .next t ∧ (t.launchOf key).gst.get g = .running core ∧
        (t.core core).grp = some (newGrp key g l) ∧
        let k := t.core core
        let c := t.ctx ⟨core, 0⟩
        c.live = true ∧ c.pc = BitVec.ofNat 16 l.image.entry ∧ c.h = false ∧
        c.tvec = BitVec.ofNat 64 l.image.tvec ∧ c.guards.get 0 = 0x7BFFF0000 ∧
        (∀ r, c.d.get r = 0 ∧ c.a.get r = default) ∧ (∀ i, i ≠ 0 → (t.ctx ⟨core, i⟩).live = false) ∧
        (∀ i, i < 64 → k.lm.get i = a.1.getD i 0) ∧
        (∀ i, 64 ≤ i → k.lm.get i = l.image.plan.getD (i - 64) 0) ∧
        (∀ i, k.istore.get i = l.image.code.getD i 0) ∧ k.plan = 0x40 ∧ k.step = 0 ∧ k.cycle = 0 ∧
        k.ring.toNat = core / 4 * 4 + (core + 1) % 4 ∧ k.mx.prog = [0x31, 0, 0, 0, 0] ∧ k.mx.nextSeq = 1) ∧
    (∀ core g, (s.core core).grp = some g → groupOver (s.core core) = true → pergOf core s = none →
      g.launch = key → (∀ k, l.gst.get g.idx ≠ .detaching k) →
      ∃ t, exec (.groupEnd core) s = .next t ∧ (t.core core).grp = none ∧ (t.launchOf key).gst.get g.idx = .ended ∧
        (t.launchOf key).endT = s.time ∧ t.mem = s.mem) ∧
    (∀ b s1, l.alive = true → l.killed = false → migrating l.vdev s = false → l.spec = true → l.served = true →
      l.resolved = none → l.shapePark = .free →
      ioRead (2 ^ 34 * 2 ^ 64 + key) l.vdev l.space l.shapeva 8 s = .ok b s1 →
      ∃ t, exec (.shapeResolve key) s = .next t ∧
        (t.launchOf key).resolved = some (min l.groups (max l.floor (leNat b)))) ∧
    (∀ n, l.alive = true → l.applied = false → l.resolved = some n → l.bulk = false →
      ∃ t, exec (.resolutionApply key) s = .next t ∧ (t.launchOf key).applied = true ∧
        (∀ g k x, l.gst = [(g, .running k)] → (s.core k).grp = some x → x.launch = key → x.idx = g → g < n →
          (t.core k).grp = (s.core k).grp.map fun x => { x with tent := false, res := true, n := n }) ∧
        (∀ g k x, l.gst = [(g, .running k)] → (s.core k).grp = some x → x.launch = key → x.idx = g → n ≤ g →
          (t.core k).grp = none ∧ (t.launchOf key).gst.get g = .squashed)) ∧
    (∀ n, l.alive = true → l.applied = true → l.tailRun = false → l.killed = false → l.bulk = false →
      l.resolved = some n → l.predicted < n →
      exec (.tailLaunchStart key) s = .next (s.setLaunch key { l with tailRun := true, place := .none, cand := 0 }))

/-- R400 to R402, R58, R466 to R468: a group that must be saved stops issuing, goes on when nothing calls for the save any
more, and, once nothing of it is on its way, leaves its core with its state kept under a number, the model's own (DESIGN CHOICE, log entry 1); it is restored on a free core
as it was; a unit that must be retired is replaced by the spare core of its cluster once no group runs on it. That the groups
go on when nothing calls for the save is the model's (DEDUCED, log entry 11), and so is that a save leaves memory unchanged
(DESIGN CHOICE, log entry 24). -/
def Obligations.SavesAndRepairs : Prop :=
  ∀ (s : State),
    (∀ core reason g, (s.core core).grp = some g → wantSave core s = some reason → g.bulk = false →
      g.pergola = false → packetOpen (s.core core) = false →
      (g.halted = false → ∃ t, exec (.preemptSave core reason) s = .next t ∧
        (t.core core).grp = some { g with halted := true } ∧ (t.core core).lm = (s.core core).lm ∧
        (∀ k, k ≠ core → (t.core k).grp = (s.core k).grp ∧ (t.core k).lm = (s.core k).lm) ∧ t.mem = s.mem) ∧
      (g.halted = true → saveReady core s = true →
        ∃ t v, exec (.preemptSave core reason) s = .next t ∧ (t.core core).grp = none ∧
          (t.core core).saved = true ∧ t.savedGroups.get s.stamp = some v ∧ v.core = core ∧ v.launch = g.launch ∧
          v.group = g.idx ∧ v.reason = reason ∧ v.img.grp = some { g with halted := false } ∧
          v.img.lm = (s.core core).land.lm ∧ v.img.istore = (s.core core).istore ∧ v.img.v = (s.core core).v ∧
          v.img.mx = (s.core core).mx.saved ∧ (t.launchOf g.launch).gst.get g.idx = .saved s.stamp ∧ t.mem = s.mem ∧
          ∀ i, v.img.ctxs.get i = { s.ctx ⟨core, i⟩ with yielded := [], planEnt := none })) ∧
    (∀ core reason g, (s.core core).grp = some g → wantSave core s ≠ some reason → g.bulk = false →
      g.pergola = false → g.halted = true → exec (.preemptSave core reason) s =
        .next (s.setCore core { s.core core with grp := some { g with halted := false } })) ∧
    (∀ slot core v home, s.savedGroups.get slot = some v → v.reason ≠ 3 → v.term = none → let l := s.launchOf v.launch
      l.alive = true → outranked l s = false → (s.vdev l.vdev).moving = false → l.bulk = false → l.pergola = false →
      vdevHas (s.vdev l.vdev) core = true → coreFree v.launch core s = true →
      -- one whose save was a substitution's too comes back on the replacement
      (v.homeOnly s = false ∧ home = core) ∨ (v.homeOnly s = true ∧ home = v.core ∧ coreFree v.launch v.core s = true) →
      ∃ t, exec (.restore slot core) s = .next t ∧ (t.core home).grp = v.img.grp ∧ (t.core home).saved = false ∧
        (t.core home).lm = v.img.lm ∧ (t.core home).ctxs = v.img.ctxs ∧ t.savedGroups.get slot = none ∧
        (t.launchOf v.launch).gst.get v.group = .running home ∧ t.mem = s.mem) ∧
    (∀ core, core < 2304 → s.plat.coreSpareUsed.get (clusterOf core) = false →
      s.plat.retiring.get (clusterUnit (clusterOf core)) = false → reservedElse 0 core s = false →
      let p := s.plat
      let replaced : Platform := { p with
        pcore := p.pcore.put core (1 + spareCore (clusterOf core) s)
        coreSpareUsed := p.coreSpareUsed.put (clusterOf core) true
        retiredCores := p.retiredCores + 1, retiring := (p.retiring.put (clusterUnit (clusterOf core)) false).put core false }
      (p.retiring.get core = true → (s.core core).grp = none →
        ∃ t, exec (.repairSubstitution core) s = .next t ∧ t.plat = replaced) ∧
      (p.absent.get core = false → (s.core core).grp = none → (s.core core).saved = false →
        ∃ t, exec (.selfTest core) s = .next t ∧ t.plat = replaced ∧
          exec (.correctedErrorLimit core) s = .next t) ∧
      (p.absent.get core = false → (s.core core).grp ≠ none → exec (.correctedErrorLimit core) s =
        .next { s with plat := { p with retiring := p.retiring.put core true } }))

/-! ### Packets -/

/-- R384, R395, R425 to R434, R441, R26: a port that is down takes nothing, as it takes nothing whose checksums do not match
or that does not stand next, and discards what is malformed or of a type that R427 does not list; an access waits behind
one of its class that is held for a fault; an access to a pergola member is made in its core's local memory where a window admits it, and else refused; an access to
an exported space is made at the physical ranges of its pages; an ATOMIC that has been performed is answered
again; a message goes to the core its destination word names; a wake write takes effect, or is answered MOVING or MOVED (R443,
R448). The fields that say which member and offset a packet means, that it is an access to a pergola, and which atomic it is, are
the model's (DESIGN CHOICE, log entry 12); so is MOVING for a virtual device whose state is arriving, and the virtual device
that a wake write to a queue that is not here concerns (DESIGN CHOICE, log entry 16). MOVING where a member's core no longer
holds it is read from the rules by inference (DEDUCED, log entry 25). -/
def Obligations.RemoteAccesses : Prop :=
  (∀ (s : State) (p : Packet) (i : Instr) (typ : Nat),
     ((i, typ) = (.read p, 1) ∨ (i, typ) = (.write p, 2) ∨ (i, typ) = (.atomic p, 3) ∨ (i, typ) = (.msg p, 4) ∨
      (i, typ) = (.wake p, 5) ∨ (i, typ) = (.answer p, 0x10) ∨ (i, typ) = (.bararv p, 0x20) ∨
      (i, typ) = (.barrel p, 0x21) ∨ (i, typ) = (.pgctl p, 0x22) ∨ (i, typ) = (.state p, 0x30) ∨
      (i, typ) = (.page p, 0x31)) →
     let q := s.fab.ports.get p.port
     (q.down = true ∨ crcOk p = false ∨ q.expect.get p.cls ≠ p.lseq → exec i s = .next s) ∧
     (p.typ ≠ typ → listedType p.typ = true → exec i s = .next s) ∧
     (q.down = false → crcOk p = true → q.expect.get p.cls = p.lseq → packetOk p typ = false →
       (p.typ = typ ∨ listedType p.typ = false) →
       exec i s = .next { s with fab := { s.fab with
         ports := s.fab.ports.put p.port { (s.took p).fab.ports.get p.port with discarded := q.discarded + 1 } } })) ∧
  (∀ (s : State) (p : Packet) (i : Instr),
     (i = .read p ∧ comesNext p 1 s) ∨ (i = .write p ∧ comesNext p 2 s) ∨ (i = .atomic p ∧ comesNext p 3 s) →
     let s' := s.took p
     let q := s.fab.ports.get p.port
     let r := s.fab.residues.get p.tvdev
     let takeBack : Prop := p.typ = 3 ∧ bitAt p.scause.toNat 6 = true ∧ p.sflags = 4
     let seen : Prop := p.typ = 3 ∧ ∃ k ∈ q.kept,
       k.sdev = p.sdev ∧ k.score = p.score ∧ k.sctx = p.sctx ∧ k.reqid = p.reqid
     let fresh : Prop := ¬ takeBack ∧ ¬ seen ∧ q.stuck.get p.cls = false
     (¬ takeBack → ¬ seen → q.stuck.get p.cls = true → exec i s = .next { s' with fab := { s'.fab with
       ports := s'.fab.ports.put p.port { s'.fab.ports.get p.port with behind := q.behind ++ [p] } } }) ∧
     (∀ k, p.typ = 3 → ¬ takeBack → q.kept = [k] → k.sdev = p.sdev → k.score = p.score → k.sctx = p.sctx →
       k.reqid = p.reqid →
       exec i s = .next (sendPkt { p with
         typ := 0x10, ddev := p.sdev, sdev := s.fab.devid, scause := 0, sflags := 0, replay := false
         len := k.data.length, payload := k.data, op0 := 0, op1 := 0 } s')) ∧
     (fresh → s.fab.movedTo.get p.tvdev ≠ 0 →
       exec i s = .next (replyMoved p (s.fab.movedTo.get p.tvdev - 1) p.tvdev s')) ∧
     (fresh → s.fab.movedTo.get p.tvdev = 0 → (s.vdev p.tvdev).alive = false → r.held = false →
       exec i s = .next (reply p (if arrivingHere p.tvdev s then 0x40 else 0x19) [] s')) ∧
     (fresh → s.fab.movedTo.get p.tvdev = 0 → (s.vdev p.tvdev).alive = true → migrating p.tvdev s = true →
       exec i s = .next (reply p 0x40 [] s')) ∧
     (fresh → s.fab.movedTo.get p.tvdev = 0 → (s.vdev p.tvdev).alive = true → migrating p.tvdev s = false →
       pktTags p = false →
       -- a member of a pergola
       (pktWindow p = true →
         let b := bitsOf p.addr.toNat 27 16
         let m := (s.fab.pergs.get p.space).members.get b
         let off := bitsOf p.addr.toNat 15 0
         let k := s.core m.core
         let open_ (nd : Need) : Bool := windowOk s m.core ⟨p.sdev, p.score, p.svdev⟩ off (pktBytes p) nd
         (m.present = false ∨ m.departed = true → exec i s = .next (reply p 0x42 [] s')) ∧
         (m.present = true → m.departed = false →
           (m.moving = true ∨ k.saved = true ∨ holdsMember p.space b m.core s = false) →
           exec i s = .next (reply p 0x40 [] s')) ∧
         (m.present = true → m.departed = false → m.moving = false → k.saved = false →
           holdsMember p.space b m.core s = true →
           (p.typ = 1 → open_ needR = true → exec i s = .next (reply p 0 (k.lm.getRange off p.len) s')) ∧
           (p.typ = 1 → open_ needR = false → exec i s = .next (reply p 0x18 [] (refuseAt m.core s'))) ∧
           (p.typ = 2 → open_ needW = true →
             exec i s = .next (reply p 0 [] (s'.setCore m.core (k.store off p.payload)))) ∧
           (p.typ = 3 → bitAt p.scause.toNat 6 = false → open_ needA = true → ∀ v,
             pktAtomic p (k.num off (pktBytes p)) = some v → exec i s = .next
               (reply p 0 (leBytes (pktBytes p) (k.num off (pktBytes p)))
                 (s'.setCore m.core (k.store off (leBytes (pktBytes p) v))))))) ∧
       -- an exported space
       (pktWindow p = false → p.space = 0xFFFF →
         (exportedSpace (s.vdev p.tvdev) = none → exec i s = .next (reply p 0x10 [] s')) ∧
         (∀ sp, exportedSpace (s.vdev p.tvdev) = some sp → ((s.vdev p.tvdev).spaces.get sp).st ≠ .opened →
           exec i s = .next (reply p 0x10 [] s')) ∧
         (∀ sp ranges s1, exportedSpace (s.vdev p.tvdev) = some sp → ((s.vdev p.tvdev).spaces.get sp).st = .opened →
           isFrozen p p.tvdev sp s' = false →
           let parts := portPieces p.addr.toNat (pktBytes p)
           portRanges p p.tvdev sp parts s' = (.ok ranges, s1) → (∀ x ∈ ranges, x.1 < wakeBase) → ranges ≠ [] →
           let s2 := countPieces p p.tvdev sp ((s.vdev p.tvdev).spaces.get sp).gen parts s1
           (p.typ = 1 → exec i s = .next (reply p 0 (physBytes s2 ranges) s2)) ∧
           (p.typ = 2 → exec i s = .next (reply p 0 [] (storeBytes ranges p.payload s2))) ∧
           (p.typ = 3 → ∀ v, pktAtomic p (leNat (physBytes s2 ranges)) = some v → exec i s = .next
             (reply p 0 (leBytes (pktBytes p) (leNat (physBytes s2 ranges)))
               (storeBytes ranges (leBytes (pktBytes p) v) s2))))))) ∧
  (∀ (s : State) (p : Packet), comesNext p 4 s →
     let s' := s.took p
     let k := bitsOf p.addr.toNat 11 0
     (p.len < 8 ∨ p.len % 8 ≠ 0 ∨ destOk p.addr = false → exec (.msg p) s = .next (reply p 0x19 [] s')) ∧
     (8 ≤ p.len → p.len % 8 = 0 → destOk p.addr = true → s.fab.movedTo.get p.tvdev = 0 →
       (s.vdev p.tvdev).alive = true → migrating p.tvdev s = false →
       exec (.msg p) s = .next (s'.setCore k { s.core k with rxIn := (s.core k).rxIn ++
         [⟨⟨4096, 0⟩, some p, p.addr, p.op0 == 1, p.score, p.svdev, p.payload⟩] }))) ∧
  (∀ (s : State) (p : Packet), comesNext p 5 s →
     let ok := p.len = 64 ∧ wakeBase ≤ p.addr.toNat ∧ p.addr.toNat < wakeBase + 4096 ∧ p.addr.toNat % 64 = 0
     (¬ ok → exec (.wake p) s = .next (reply p 0 [] (s.took p))) ∧
     let q := s.queue (bitsOf (bodyF p.payload 8 8) 47 32)
     let v := if q.alive then q.vdev else bitsOf (bodyF p.payload 16 8) 15 0
     (ok → migrating v s = true → exec (.wake p) s = .next (reply p 0x40 [] (s.took p))) ∧
     (ok → migrating v s = false → q.alive = false → s.fab.movedTo.get v ≠ 0 →
       exec (.wake p) s = .next (replyMoved p (s.fab.movedTo.get v - 1) v (s.took p))) ∧
     (ok → migrating v s = false → q.alive = true ∨ s.fab.movedTo.get v = 0 →
       exec (.wake p) s = .next (reply p 0 []
         (wakeOp (if p.svdev = 0xFFFF then none else some p.svdev) p.payload (s.took p)))))

/-- R428 to R430, R441, R442, R425: an answer is kept for the agent that waits, MOVING repeats the request, and
that of a message drops it and reports a refusal; arrivals and releases of channel 15; the changes of a
pergola's members; the replay of a link and the retraining of a port. That an arrival or a release is ignored by a device that
does not count its phase, the key and the parity that they carry, and what a device keeps of those below it are the model's
(DESIGN CHOICE, log entry 15); so are the operation numbers of a pergola, which device keeps a member that two hold (DESIGN
CHOICE, log entry 12), and how what concerns a virtual device that moves goes after it (DESIGN CHOICE, log entry 16). -/
def Obligations.AnswersBarriersAndLinks : Prop :=
  (∀ (s : State) (p : Packet) (r : Req), comesNext p 0x10 s → s.fab.reqs.get p.reqid = some r → r.answer = none →
     r.pkt.ddev = p.sdev → r.pkt.typ ≠ 0x30 → r.withdrawn = false →
     let s' := s.took p
     let put (x : Req) : State := { s' with fab := { s'.fab with reqs := s.fab.reqs.put p.reqid (some x) } }
     (p.scause = 0x40 → exec (.answer p) s = .next (put { r with moving := true })) ∧
     (p.scause ≠ 0x40 → p.scause ≠ 0x41 → (∀ w, r.agent ≠ .message w) → (∀ n, r.agent ≠ .post n) →
       exec (.answer p) s = .next (put { r with answer := some (p.scause.toNat, p.payload), moving := false })) ∧
     (∀ w, p.scause ≠ 0x40 → p.scause ≠ 0x41 → r.agent = .message w →
       let d : State := { s' with fab := { s'.fab with reqs := s.fab.reqs.drop p.reqid } }
       exec (.answer p) s = .next (if p.scause = 0 then d
         else addReport w 0x18 (nackTval p.scause.toNat r.pkt.addr) d))) ∧
  (∀ (s : State) (p : Packet), p.len = 0 →
     let s' := s.took p
     let key := podKeyOf p.op0
     let s2 := belowHas key p.sdev (some (bitsOf p.op0.toNat 47 32)) s'
     (comesNext p 0x20 s → bitsOf p.op0.toNat 24 24 ≠ podParity key s → exec (.bararv p) s = .next s') ∧
     (comesNext p 0x20 s → bitsOf p.op0.toNat 24 24 = podParity key s →
       (members 15 key s ≠ [] → allArrived 15 key s = false → exec (.bararv p) s = .next s2) ∧
       (members 15 key s = [] ∨ allArrived 15 key s = true → exec (.bararv p) s = .next (podAdvance key s2))) ∧
     (comesNext p 0x21 s → early p s = true → exec (.barrel p) s = .next (holdMark p s')) ∧
     (comesNext p 0x21 s → early p s = false →
       (s.fab.pods.get key).synced = false ∨ bitsOf p.op0.toNat 24 24 ≠ podParity key s →
       exec (.barrel p) s = .next (passOn p (podMovers key s') s')) ∧
     (comesNext p 0x21 s → early p s = false → (s.fab.pods.get key).synced = true → bitsOf p.op0.toNat 24 24 = podParity key s →
       s.cores.keys.Nodup →
       ∃ t, exec (.barrel p) s = .next t ∧ t.keys.get key = s.keys.get key + 1 ∧ t.mem = s.mem ∧
         ∀ k, (t.core k).barph = if (s.core k).key 15 = some key
           then (s.core k).barph ^^^ 0x8000 else (s.core k).barph)) ∧
  (∀ (s : State) (p : Packet), comesNext p 0x22 s →
     let s' := s.took p
     let op := leNat (p.payload.take 1)
     let k := leNat ((p.payload.drop 1).take 1)
     let core := leNat ((p.payload.drop 2).take 2)
     let g := s.fab.pergs.get p.space
     let m := g.members.get k
     let on (t : State) : Out := .next (passOn p (pergTargets p.space s') t)
     (early p s = true → exec (.pgctl p) s = .next (holdMark p s')) ∧
     (early p s = false →
       (op ≠ 6 → op ≠ 7 → op ≠ 8 → op ≠ 15 → op ≠ 17 → (op = 10 → m.dev = p.sdev) →
         ∃ t, exec (.pgctl p) s = .next t ∧ t.mem = s.mem ∧
           t.fab.pergs = s.fab.pergs.put p.space { g with members := g.members.put k (m.mark op) }) ∧
       (op = 10 → m.dev ≠ p.sdev → exec (.pgctl p) s = on s') ∧
       (op = 7 ∨ op = 15 → m.present = false ∨ m.dev = p.sdev →
         exec (.pgctl p) s = on (holdMember p.space k p.sdev (leNat ((p.payload.drop 4).take 2)) core
           (p.payload.getD 6 0 != 0) (op == 7) s')) ∧
       (op = 7 ∨ op = 15 → m.present = true → m.dev = s.fab.devid → s.fab.devid < p.sdev →
         exec (.pgctl p) s = on (pgPkt p.space p.sdev 0xFFFF [17, BitVec.ofNat 8 k] s')) ∧
       (op = 17 → exec (.pgctl p) s = on (loseClaim p.space k s')) ∧
       (op = 8 → exec (.pgctl p) s = on (askPreempt p.space s')) ∧
       (op = 6 → exec (.pgctl p) s = on (moveMember p.space k p.sdev core s')))) ∧
  (∀ (s : State) (port cls lseq : Nat),
     let q := s.fab.ports.get port
     let m := q.served.get cls
     let n := (m + 65536 - lseq) % 65536
     let gone := (s.fab.outbox.filter fun p => p.port == port && p.cls == cls).take m
     (q.down = true ∨ m < n → exec (.linkReplay port cls lseq) s = .next s) ∧
     (q.down = false → n ≤ m → exec (.linkReplay port cls lseq) s = .next { s with fab := { s.fab with
       wire := s.fab.wire ++ gone.drop (m - n) } })) ∧
  (∀ (s : State) (port : Nat) (lo hi : Bool), port < 12 →
     let q := s.fab.ports.get port
     let put (x : Port) : State := { s with fab := { s.fab with ports := s.fab.ports.put port x } }
     (lo = true ∨ hi = true →
       exec (.portRetrain port lo hi) s = .next (put { q with half := true, down := false })) ∧
     (lo = false → hi = false → exec (.portRetrain port lo hi) s = .next (loseRoute port (put { q with down := true }))))

/-! ### Migration -/

/-- R443 to R448: what a migration and the moves of a residue's pages do at the source and at the target:
MIGRATE asks for it, the state goes out once every group is saved, the commit makes the memory the residue and
the device answer MOVED (a residue that holds no page is destroyed at once), a failure ends it with status 7, and so does a port
lost before the commit (R447); a page that is due is frozen and sent, and forwarded once the target has taken it. The fields
of STATE and PAGE packets, MOVING for a page that comes before the commit, and what becomes of a page that the target refuses
are the model's (DESIGN CHOICE, log entry 16). -/
def Obligations.MigrationSteps : Prop :=
  (∀ (s : State) (v : Nat), let m := s.fab.migs.get v
     (m.active = true → m.sent = false → quiesced v s = false → exec (.migrationCommit v) s = .next s) ∧
     (m.active = true → m.sent = false → quiesced v s = true →
       ∃ t, exec (.migrationCommit v) s = .next t ∧ t.mem = s.mem ∧ (t.fab.migs.get v).sent = true ∧
         (t.fab.migs.get v).total = ((movedState v (markMoving v s)).bytes.length + 1023) / 1024) ∧
     (m.active = true → m.sent = true → m.refused = false → m.total ≤ m.acks → routeLost m.target s = true →
       ∃ t, exec (.migrationCommit v) s = .next t ∧ (t.fab.migs.get v).refused = true ∧ t.vdevs = s.vdevs ∧
         t.cores = s.cores ∧ t.mem = s.mem) ∧
     (m.active = true → m.sent = true → m.refused = false → m.total ≤ m.acks → routeLost m.target s = false →
       s.fab.waitReqs.get v = [] →
       ∃ t, exec (.migrationCommit v) s = .next t ∧ t.fab.movedTo.get v = m.target + 1 ∧
         (t.fab.migs.get v).active = false ∧ (t.vdev v).alive = false ∧
         ((s.vdev v).faults = [] → s.tlb = [] → t.mem = s.mem ∧
           (t.fab.residues.get m.residue).held = holdsPages v s ∧
           (holdsPages v s = true → (t.fab.residues.get m.residue).vdev = v))) ∧
     (m.active = true → (∀ k, quiescedLaunch v k s = false) → s.fab.waitReqs.get v = [] →
       ∃ t, exec (.migrationFail v) s = .next t ∧ (t.fab.migs.get v).active = false ∧ (t.vdev v).moving = false ∧
         t.cores = s.cores ∧ t.mem = s.mem ∧
         t.fab.outbox = (mgmtAnswer 0x000A m.req 7 [] (tellTarget v 62 s)).fab.outbox) ∧
     (m.active = false → (s.fab.arriving.get v).commit = false → exec (.migrationCommit v) s = .next s) ∧
     (m.active = false → (s.fab.arriving.get v).commit = false → exec (.migrationFail v) s = .next { s with fab := { s.fab with
       arriving := s.fab.arriving.drop v } })) ∧
  (∀ (s : State) (r : MgmtReq), admitted r s →
     let b := r.body
     let target := bodyF b 0 2
     let residue := bodyF b 2 2
     (b.length = 8 → (s.vdev r.vdev).alive = true → target < 4096 → target ≠ s.fab.devid → bodyF b 4 2 ≠ 0 →
       residue ≠ 0xFFFF → idInUse residue s = false → zeros b 6 2 = true →
       ∃ t, exec (.migrate r) s = .next t ∧ (t.vdev r.vdev).moving = true ∧
         t.fab.migs.get r.vdev = ⟨true, target, residue, bodyF b 4 2, r, false, 0, 0, false⟩ ∧
         t.fab.outbox = s.fab.outbox ∧ t.cores = s.cores ∧ t.mem = s.mem) ∧
     (∀ res x, b.length = 16 → s.fab.residues.find? (fun p => p.2.held && p.2.vdev == r.vdev) = some (res, x) →
       x.asked = [] → bodyF b 10 2 = 0 → zeros b 12 4 = true →
       (heldLeaf res (bodyF b 8 2) (bodyF b 0 8) s).isSome = true → holdsPages res s = true →
       ∃ t, exec (.pagemove r) s = .next t ∧ t.mem = s.mem ∧
         t.fab.residues.get res = { x with asked := [(r, some (bodyF b 8 2, bodyF b 0 8))] }) ∧
     (b.length = 16 → s.fab.residues.find? (fun p => p.2.held && p.2.vdev == r.vdev) = none →
       exec (.pagemove r) s = .next (mgmtAnswer 0x000B r 6 [] s))) ∧
  (∀ (s : State) (p : Packet), comesNext p 0x30 s →
     let s' := s.took p
     let drop_ : State := { s' with fab := { s'.fab with arriving := s.fab.arriving.drop p.tvdev } }
     let a := s.fab.arriving.get p.tvdev
     let need := quarterCount (bitsOf p.op0.toNat 63 48)
     let more (k : BitVec 16) : Arriving :=
       { a with bytes := a.bytes.setRange p.addr.toNat p.payload, total := bitsOf p.op0.toNat 47 0
                got := a.got + p.len, quarters := k }
     let put (x : Arriving) : State := { s' with fab := { s'.fab with arriving := s.fab.arriving.put p.tvdev x } }
     (bitAt p.addr.toNat 63 = true → exec (.state p) s = .next (reply p 0 [] (put { a with commit := a.whole.isSome }))) ∧
     (bitAt p.addr.toNat 63 = false → bitAt p.addr.toNat 62 = true →
       exec (.state p) s = .next (reply p 0 [] drop_)) ∧
     (bitAt p.addr.toNat 63 = false → bitAt p.addr.toNat 62 = false →
       (s.plat.mode ≠ .full ∨ need = 0 ∨
           (arrivingHere p.tvdev s = false ∧ (idInUse p.tvdev s = true ∨ (freeQuarters s).length < need)) →
         exec (.state p) s = .next (reply p 0x19 [] drop_)) ∧
       (s.plat.mode = .full → need ≠ 0 → a.got + p.len < bitsOf p.op0.toNat 47 0 →
         (arrivingHere p.tvdev s = true → exec (.state p) s = .next (reply p 0 [] (put (more a.quarters)))) ∧
         (arrivingHere p.tvdev s = false → idInUse p.tvdev s = false → need ≤ (freeQuarters s).length →
           exec (.state p) s = .next (reply p 0 [] (put (more (keepQuarters need s)))))))) ∧
  (∀ (s : State) (p : Packet) (l : Leaf) (f : Nat), comesNext p 0x31 s →
     let s' := s.took p
     let va := p.addr.toNat
     ((s.vdev p.tvdev).alive = false → arrivingHere p.tvdev s = true → exec (.page p) s = .next (reply p 0x40 [] s')) ∧
     (walk s.mem ((s.vdev p.tvdev).spaces.get p.space).root va = .ok l → (s.vdev p.tvdev).alive = true →
     s.fab.movedTo.get p.tvdev = 0 →
     ((s.vdev p.tvdev).spaces.get p.space).st ≠ .absent → twBit l.word 5 = true →
     s.fab.frames.get l.entry = f + 1 → va - l.page + 1024 < 4096 * 2 ^ twSize l.word →
     exec (.page p) s = .next (reply p 0 [] (putTags (f + (va - l.page)) (leNat (p.payload.drop 1024))
       (s'.physStore (f + (va - l.page)) (p.payload.take 1024)))))) ∧
  (∀ (s : State) (residue space : Nat) (va : DWord) (l : Leaf),
     let r := s.fab.residues.get residue
     heldLeaf residue space va.toNat s = some l → r.held = true →
     (r.frozen = none → wantsMove r residue space l s = false → exec (.pageMove residue space va) s = .next s) ∧
     (r.frozen = none → wantsMove r residue space l s = true → s.tlb = [] →
       ∃ t, exec (.pageMove residue space va) s = .next t ∧ t.mem = s.mem ∧
         (t.fab.residues.get residue).frozen = some ⟨space, l.page, BitVec.ofNat 64 l.word⟩) ∧
     (∀ w, r.frozen = some ⟨space, l.page, w⟩ →
       (pageAnswers residue s = none → exec (.pageMove residue space va) s = .next s) ∧
       (pageAnswers residue s = some true → r.waiting = [] → r.asked = [] → (s.vdev residue).faults = [] → s.tlb = [] →
         ∃ t, exec (.pageMove residue space va) s = .next t ∧ t.physNum l.entry 8 =
           (l.word % 256 - l.word % 2 + 1 + 32 + twSize l.word * 256 + r.vdev * 4096) % 2 ^ 64) ∧
       (pageAnswers residue s = some false → r.waiting = [] →
         ∃ t, exec (.pageMove residue space va) s = .next t ∧ t.mem = s.mem ∧
           (t.fab.residues.get residue).frozen = none)))

/-! ### Management -/

/-- R369, R381 to R385, R393, R396, R431, R435 to R440, R471: the requests of the management class: what each
does to the device and the answer that follows; a packet of the class whose header does not agree with it is answered
BADREQ, an operation that R437 does not list BADOP, and an invalidation waits for the remote accesses that may have used
what it covers. VDDESTROY and QDESTROY wait for what the launches that they end have sent (R290, R341), and an answer to a fault
goes over the command link of its cluster, behind a RESERVE that waits there (R327). QCREATE takes some free queue number, an
open value (log entry 4). BADREQ for a header that does not agree, and that what has ended is waited for, are the model's (DESIGN
CHOICE, log entry 22); so is that an invalidation waits for every unanswered request of its space (DESIGN CHOICE, log entry
21), and what a change of the pod barrier domain does to the keys in use (DESIGN CHOICE, log entry 18). -/
def Obligations.ManagementRequests : Prop :=
  (∀ (s : State) (r : MgmtReq), admitted r s →
    let b := r.body
    let A (i : Instr) (mop : Nat) (t : State) : Prop := exec i s = .next (mgmtAnswer mop r 0 [] t)
    let f (o n : Nat) : Nat := bodyF b o n
    let v := s.vdev r.vdev
    -- virtual devices
    (b.length = 8 → f 0 2 ≠ 0 → zeros b 2 6 = true → r.vdev < 0xFFFF →
      (idInUse r.vdev s = false → takenQuarters s &&& BitVec.ofNat 16 (f 0 2) = 0 →
        A (.vdcreate r) 1 (newVdev r.vdev (BitVec.ofNat 16 (f 0 2)) s)) ∧
      (idInUse r.vdev s = true → exec (.vdcreate r) s = .next (mgmtAnswer 1 r 3 [] s))) ∧
    (v.alive = true →
      (b = [] →
        let qs := queuesOf r.vdev s
        let t := qs.foldl (fun s n => endQueue n s) s
        ((∀ n ∈ qs, queueOut n t = false) → A (.vddestroy r) 2 (destroyVdev r.vdev s) ∧
          ((destroyVdev r.vdev s).vdev r.vdev).alive = false) ∧
        ((∃ n ∈ qs, queueOut n t = true) → exec (.vddestroy r) s =
          .next { t with fab := { t.fab with ending := t.fab.ending ++ [(2, r)] } })) ∧
      -- queues
      (b.length = 32 → f 0 8 % 64 = 0 → f 8 8 % 64 = 0 → slotCountOk (f 16 4) = true →
        (v.spaces.get (f 20 2)).st = .opened → f 22 1 < 16 → zeros b 23 1 = true → zeros b 26 6 = true →
        (∃ k, k < 4096 ∧ (s.queue k).alive = false ∧ k ∉ arrivingQueues s) →
        ∃ n, n < 4096 ∧ (s.queue n).alive = false ∧ n ∉ arrivingQueues s ∧
          let q := newQueue r.vdev n (s.queue n).gen b s.plat.starts
          exec (.qcreate r) s = .next (mgmtAnswer 3 r 0 q.cap (putQueue n q s.bump))) ∧
      (∀ n, b.length = 32 → capQueue r.vdev b s = some n →
        let t := endQueue n s
        (queueOut n t = false → A (.qdestroy r) 4 (destroyQueue n s) ∧
          (destroyQueue n s).queue n = { (default : Que) with gen := ((s.queue n).gen + 1) % 2 ^ 32 }) ∧
        (queueOut n t = true → exec (.qdestroy r) s =
          .next { t with fab := { t.fab with ending := t.fab.ending ++ [(4, r)] } })) ∧
      (b.length = 32 → capQueue r.vdev b s = none → exec (.qdestroy r) s = .next (mgmtAnswer 4 r 1 [] s)) ∧
      (∀ n, b.length = 40 → capQueue r.vdev b s = some n → zeros b 34 6 = true →
        A (.qage r) 5 (putQueue n { s.queue n with age := f 32 2 } s)) ∧
      -- the fault queue
      (b.length = 8 → f 0 8 % 64 = 0 → f 0 8 + 64 ≤ hbmEnd → (∀ p ∈ v.fout, p.2 = none) →
        A (.fqset r) 6 ((s.setVdev r.vdev { v with fqBlock := some (f 0 8) }).physStore (f 0 8 + 12)
          (leBytes 4 v.fwait.length))) ∧
      (∀ (a : Byte) (x : FaultRec) (w : Who) (g : Grp), b.length = 9 → b.drop 8 = [a] → f 4 1 = 1 →
        zeros b 5 3 = true → v.fout.get (f 0 4) = some x → x.party = .ctx w → w.core < 8192 →
        (s.ctx w).live = true → (s.ctx w).park = .parked → (s.core w.core).grp = some g → g.vdev = r.vdev → g.id = x.launch →
        g.idx = x.group → a.toNat ≤ 1 →
        let cl := clusterOf w.core
        let taken := s.setVdev r.vdev { v with fout := v.fout.drop (f 0 4) }
        (s.links.get cl = [] → A (.fqanswer r) 7 { taken.setCtx w
          { s.ctx w with park := if a.toNat = 1 then .deliver x.cause x.va else .free } with links := s.links.put cl [] }) ∧
        (∀ k n rest, s.links.get cl = .reserve k n :: rest → A (.fqanswer r) 7
          { taken with links := s.links.put cl (s.links.get cl ++ [.answer r.vdev a.toNat x]) })) ∧
      -- address spaces
      (∀ op fl : Nat, b.length = 32 → f 0 1 = op → zeros b 1 1 = true → f 2 2 = r.vdev → f 6 2 = fl →
        zeros b 24 8 = true →
        let sp := f 4 2
        let x := v.spaces.get sp
        (op = 1 → fl ≤ 1 → f 8 8 % 8192 = 0 → f 16 8 = 0 → x.st = .absent →
          (fl = 0 ∨ exportedSpace v = none) → A (.create r) 8 (setSpace r.vdev sp
            ⟨.opened, f 8 8, (x.gen + 1) % 2 ^ 32, 0, decide (fl = 1)⟩ s)) ∧
        (op = 2 → fl = 2 → f 8 8 % 4096 = 0 → f 16 8 % 4096 = 0 → f 16 8 ≠ 0 → x.st ≠ .absent →
          spaceReqs r.vdev sp s = [] → ∃ t, A (.invrange r) 8 t ∧ t.tlb = s.tlb.filter fun e => !e.inRange r.vdev sp (f 8 8) (f 16 8)) ∧
        (op = 3 → fl = 0 → f 8 8 = 0 → f 16 8 = 0 → x.st ≠ .absent →
          (spaceReqs r.vdev sp s = [] →
            ∃ t, A (.invspace r) 8 t ∧ t.tlb = s.tlb.filter fun e => !(e.vdev == r.vdev && e.space == sp)) ∧
          (spaceReqs r.vdev sp s ≠ [] → ∃ t, exec (.invspace r) s = .next t ∧
            t.tlb = (s.tlb.filter fun e => !(e.vdev == r.vdev && e.space == sp)) ∧
            t.fab = { s.fab with invals := s.fab.invals ++ [⟨r, sp, spaceReqs r.vdev sp s, false⟩] })) ∧
        (op = 4 → fl = 0 → f 8 8 = 0 → f 16 8 = 0 → x.st ≠ .absent →
          ((∃ p ∈ s.launches, p.2.alive = true ∧ p.2.vdev = r.vdev ∧ p.2.space = sp) →
            exec (.teardown r) s = .next (mgmtAnswer 8 r 2 [] s)) ∧
          ((∀ p ∈ s.launches, ¬ (p.2.alive = true ∧ p.2.vdev = r.vdev ∧ p.2.space = sp)) →
            (∀ n ∈ queuesOf r.vdev s, (s.queue n).space ≠ sp) → spaceReqs r.vdev sp s = [] →
            ∃ t, A (.teardown r) 8 t ∧ ((t.vdev r.vdev).spaces.get sp).st = .absent ∧
              ((t.vdev r.vdev).spaces.get sp).gen = (x.gen + 1) % 2 ^ 32))) ∧
      -- pergolas
      (b.length = 8 → let n := f 0 2
        (s.queue n).alive = true → (s.queue n).vdev = r.vdev → 0 < f 4 1 → f 4 1 ≤ 64 → f 5 1 < f 4 1 →
        zeros b 6 2 = true → ∃ t, A (.pgbind r) 9 t ∧ (t.queue n).perg = some (f 2 2, f 4 1, f 5 1) ∧
          (t.fab.pergs.get (f 2 2)).m = f 4 1)) ∧
    -- the device as a whole
    (r.vdev = 0xFFFF →
      (b.length = 4 → bitsOf (f 2 2) 14 12 = 0 → ∃ t, A (.peerset r) 0xC t ∧ ∀ i, i < 12 →
        (t.fab.ports.get i).peers.get (f 0 2) = f 2 2 ∧
        ∀ u, u ≠ f 0 2 → (t.fab.ports.get i).peers.get u = (s.fab.ports.get i).peers.get u) ∧
      (b.length = 2 → f 0 2 ≤ 4095 → (∀ p ∈ s.vdevs, p.2.alive = false) →
        A (.devid r) 0xD { s with fab := { s.fab with devid := f 0 2 } }) ∧
      (b.length = 4 → zeros b 2 2 = true → A (.pdomset r) 0xE (setPdom (f 0 2) s)) ∧
      (b.length = 4 → 600 ≤ f 0 2 → f 0 2 ≤ 2600 → zeros b 2 2 = true →
        A (.plset r) 0xF { s with plat := { s.plat with power := f 0 2 } }) ∧
      (b.length = 4 → f 0 2 ≤ 4095 → zeros b 2 2 = true →
        A (.notifyto r) 0x16 { s with fab := { s.fab with notify := some (f 0 2) } }))) ∧
  (∀ (s : State) (p : Packet), comesNext p 6 s → 16 ≤ p.len → bodyF p.payload 9 1 = 0 →
    let mop := (requestOf p).1
    let r := (requestOf p).2
    let t := s.took p
    (mgmtHeaderOk p = true → execMgmt p s = receiveRequest mop r t) ∧
    (mgmtHeaderOk p = false → s.plat.mode = .full →
      (p.svdev = 0xFFFF → execMgmt p s = .next (mgmtAnswer mop r 1 [] t)) ∧
      (p.svdev ≠ 0xFFFF → execMgmt p s = .next (mgmtAnswer mop r 4 [] t))) ∧
    (s.plat.mode = .full → p.svdev = 0xFFFF → mop = 0 ∨ 0x16 < mop →
      receiveRequest mop r t = .next (mgmtAnswer mop r 5 [] t)))

/-! ### The platform -/

/-- R438, R461 to R465, R467, R470 to R472: the requests and sideband reads about the platform; a start comes up
in full mode exactly when it finds a Belvedere image and a Kiosk image that pass, and a stage that fails or
stands still counts, the third in a row in minimal mode with a boot failure record; an uncorrectable error ends
its group with MACHINE and is reported on the sideband. In minimal mode a request that is not allowed there is denied. That
the Belvedere watchdog leaves the state as it is, that a sideband reset acts at any time, and how a stage fails or stands still,
is the model's choice (DESIGN CHOICE, log entry 22). -/
def Obligations.PlatformEvents : Prop :=
  (∀ (s : State) (r : MgmtReq), r.svdev = 0xFFFF → r.vdev = 0xFFFF → s.plat.mode ≠ .starting →
     let b := r.body
     let A (i : Instr) (mop st : Nat) (body : List Byte) (t : State) : Prop :=
       exec i s = .next (mgmtAnswer mop r st body t)
     (s.plat.mode = .full → (b.length = 32 → A (.attest r) 0x10 0 (attestReport b s) (bump8 s)) ∧
       (b = [] → A (.status r) 0x11 0 (statusBody s) s)) ∧
     (s.plat.mode ≠ .full → A (.attest r) 0x10 4 [] s ∧ A (.status r) 0x11 4 [] s ∧ A (.plset r) 0xF 4 [] s) ∧
     (b = [] → A (.bootrec r) 0x12 0 (bootBytes s) s ∧
       A (.clearfail r) 0x14 0 [] { s with plat := { s.plat with fails := 0 } } ∧
       exec (.reset r) s = .next (restart (sendAll (Config.portOf r.sdev).val 2 (mgmtAnswer 0x15 r 0 [] s)))) ∧
     (9 ≤ b.length → b.length ≤ 2032 → bodyF b 0 1 ≤ 1 → zeros b 1 3 = true →
       bodyF b 4 4 + (b.length - 8) ≤ 2 ^ 32 →
       (s.plat.mode = .full ∧ bodyF b 0 1 = s.plat.slot → A (.slotwrite r) 0x13 4 [] s) ∧
       (¬ (s.plat.mode = .full ∧ bodyF b 0 1 = s.plat.slot) →
         let flash := s.plat.flash.setRange (bodyF b 0 1 * 2 ^ 32 + bodyF b 4 4) ((b.drop 8).map some)
         A (.slotwrite r) 0x13 0 [] { s with plat := { s.plat with flash := flash } }))) ∧
  (∀ (s : State) (e : StartEnv), s.plat.mode = .starting → s.plat.stage = 1 → s.plat.standing = false →
     let p := s.plat
     let b : State := { s with plat := { p with starts := min 0xFFFFFFFF (p.starts + 1), power := 2600, powerNow := 2600 } }
     let running (slot : Nat) : State := { b with plat := { b.plat with slot := slot, mbel := sha256 (imageBytes p slot 1) } }
     let up (t : State) : Prop := t.plat.mode = .full ∧ t.plat.stage = 6 ∧ t.plat.fails = 0
     ∃ t, exec (.powerOnStart e) s = .next t ∧ t.plat.starts = min (p.starts + 1) 0xFFFFFFFF ∧
       (e.hang = some 1 → t.plat.mode = .starting ∧ t.plat.stage = 1 ∧ t.plat.standing = true) ∧
       (let a := verifyImage p 0 1
         let slot := if a = none then 0 else 1
         e.hang = none → e.hbmFail = none → meshDie (selfTestAll e (running slot)).plat = none → e.portMask ≠ 0xFFF →
         ((a = none ∨ verifyImage p 1 1 = none) ∧ verifyImage p slot 2 = none → up t ∧ t.plat.slot = slot) ∧
         (¬ ((a = none ∨ verifyImage p 1 1 = none) ∧ verifyImage p slot 2 = none) →
           t.plat.mode ≠ .full ∧ t.plat.fails = min 255 (p.fails + 1)))) ∧
  (∀ (s : State) (e : StartEnv), s.plat.standing = true → exec (.powerOnStart e) s = .next s) ∧
  (∀ (s : State), s.plat.mode = .starting →
     ∃ t, exec .stageWatchdog s = .next t ∧ t.plat.fails = min 255 (s.plat.fails + 1) ∧
       (s.plat.fails < 2 → t.plat.mode = .starting ∧ t.plat.stage = 1) ∧
       (2 ≤ s.plat.fails → t.plat.mode = (if s.plat.stage ≤ 1 then .minimalRom else .minimalSlot) ∧
         t.plat.bootrec.take 6 = leBytes 4 0x42465231 ++ leBytes 1 s.plat.stage ++ leBytes 1 8)) ∧
  (∀ (s : State) (core : Nat) (g : Grp), core < 2304 → (s.core core).grp = some g →
     ∃ t, exec (.machineError core) s = .next t ∧ (t.core core).grp = none ∧
       (t.launchOf g.launch).gst.get g.idx = .terminated 0x3F ∧ t.plat.machines = (g.vdev, core) :: s.plat.machines) ∧
  (∀ (s : State) (nonce : List Byte) (cl : Nat),
     let r (b : List Byte) : State := { s with plat := { s.plat with sideband := b } }
     exec .belvedereWatchdog s = .next s ∧
     (cl < 576 → let at_ (n : Nat) : State := { s with plat := { s.plat with budget := s.plat.budget.put cl n } }
       exec (.thermalLimit cl none) s = .next (at_ 0) ∧
       (∀ b, b < 4 * s.plat.power → exec (.thermalLimit cl (some b)) s = .next (at_ (b + 1))) ∧
       ∀ b, 4 * s.plat.power ≤ b → exec (.thermalLimit cl (some b)) s = .next (at_ 0)) ∧
     exec .i3cBootRecord s = .next (r (bootBytes s)) ∧ exec .i3cStatus s = .next (r (statusBody s)) ∧
     exec (.i3cAttest nonce) s = .next { r (attestReport nonce s) with freeCtr := s.freeCtr + 8 } ∧
     exec .i3cReset s = .next (restart s))

/-! ### The whole machine -/

/-- R461, R471, R3: the machine right after reset: before stage 1 of a start, PL at 2,600 W, one unused spare
core in every cluster and twelve spare clusters in every die; no virtual device, queue, launch, group or
translation; no byte of memory is listed and no granule is tagged. The counts of failures and of used spares are the model's
(DESIGN CHOICE, log entry 2), as are the empty memory and the clear tags (DESIGN CHOICE, log entry 3). -/
def Obligations.ResetState : Prop :=
  let s := State.reset
  s.plat.mode = .starting ∧ s.plat.stage = 1 ∧ s.plat.standing = false ∧ s.plat.power = 2600 ∧ s.plat.fails = 0 ∧
  (∀ c, s.plat.coreSpareUsed.get c = false) ∧ (∀ d, d < 4 → s.plat.clusterSpares.get d = 12) ∧
  (∀ v, (s.vdev v).alive = false) ∧ (∀ q, (s.queue q).alive = false) ∧ (∀ l, (s.launchOf l).alive = false) ∧
  (∀ k, (s.core k).grp = none) ∧ (∀ w, (s.ctx w).live = false) ∧ s.tlb = [] ∧ s.memWf ∧ s.mem = [] ∧
  ∀ g, s.mtag.get g = false

/-- The model's own promise (NOTES.md, Stops): no step refuses, and the only instruction that can end in a fault
is the write of fault queue entries, for a queue that the host has placed outside memory: the fault is noMemory, of an address
whose bytes, 64 of the control block or 32 of the entry, do not lie in memory. The turn of that event, asked for or in the
round, is the only step that faults, and it answers that fault. -/
def Obligations.NothingIsRefused : Prop :=
  (∀ (i : Instr) (s : State) (r : Refusal), exec i s ≠ .refused r) ∧
  (∀ (i : Instr) (s : State) (x : Fault), exec i s = .fault x →
     ∃ v a, i = .faultEntryWrite v ∧ x = .noMemory a ∧ hbmEnd < a + 64 ∧
       (hbmEnd < a + 32 ∨ (s.vdev v).fqBlock = some a)) ∧
  (∀ (s : State) (r : Refusal), step s ≠ .refused r) ∧
  (∀ (s : State) (x : Fault), step s = .fault x →
     ∃ v, (∃ rest, s.agenda = .event (.faultEntryWrite v) :: rest ∧ exec (.faultEntryWrite v) { s with agenda := rest } = .fault x) ∨
       (s.agenda = [] ∧ exec (.faultEntryWrite v) s = .fault x)) ∧
  ∀ (s : State) (v : Nat) (rest : List Turn) (x : Fault), s.agenda = .event (.faultEntryWrite v) :: rest →
    exec (.faultEntryWrite v) { s with agenda := rest } = .fault x → step s = .fault x

/-- Every step keeps the canonical form of memory: addresses strictly rising and no byte listed that an unlisted
address reads as (zero, the model's choice: DESIGN CHOICE, log entry 3); so equal memories are equal data. -/
def Obligations.MemoryStaysCanonical : Prop :=
  ∀ (s t : State), s.memWf → step s = .next t → t.memWf
end

