-- ==== Sys2Proof/Laws/State.lean ====
section
/-! SUPPORT. The small lemmas of the state: sparse maps, and for every update of a state, a core and a
context what it changes and what it leaves alone. -/

namespace Sys2Proof

/-! ### Sparse maps -/

theorem SMap.get_drop_self {α : Type} [Inhabited α] (m : SMap α) (k : Nat) :
    SMap.get (SMap.drop m k) k = default := by
  induction m with
  | nil => rfl
  | cons p t ih =>
    obtain ⟨k', v⟩ := p
    by_cases h : k' = k <;> simp [SMap.drop, SMap.get, h, ih]

theorem SMap.get_drop_ne {α : Type} [Inhabited α] (m : SMap α) {k j : Nat} (h : j ≠ k) :
    SMap.get (SMap.drop m k) j = SMap.get m j := by
  induction m with
  | nil => rfl
  | cons p t ih =>
    obtain ⟨k', v⟩ := p
    by_cases hk : k' = k
    · subst hk
      simp [SMap.drop, SMap.get, ih, Ne.symm h]
    · by_cases hj : k' = j
      · subst hj; simp [SMap.drop, SMap.get, h]
      · simp [SMap.drop, SMap.get, hk, hj, ih]

theorem SMap.get_ins_self {α : Type} [Inhabited α] (m : SMap α) (k : Nat) (v : α)
    (h : ∀ p ∈ m, p.1 ≠ k) : SMap.get (SMap.ins m k v) k = v := by
  induction m with
  | nil => simp [SMap.ins, SMap.get]
  | cons p t ih =>
    obtain ⟨k', v'⟩ := p
    have hk : k' ≠ k := h (k', v') (by simp)
    have ht : ∀ p ∈ t, p.1 ≠ k := fun p hp => h p (by simp [hp])
    by_cases hl : k < k' <;> simp [SMap.ins, SMap.get, hl, hk, ih ht]

theorem SMap.get_ins_ne {α : Type} [Inhabited α] (m : SMap α) {k j : Nat} (v : α) (h : j ≠ k) :
    SMap.get (SMap.ins m k v) j = SMap.get m j := by
  induction m with
  | nil => simp [SMap.ins, SMap.get, Ne.symm h]
  | cons p t ih =>
    obtain ⟨k', v'⟩ := p
    by_cases hl : k < k'
    · simp [SMap.ins, SMap.get, hl, Ne.symm h]
    · by_cases hj : k' = j
      · subst hj; simp [SMap.ins, SMap.get, hl]
      · simp [SMap.ins, SMap.get, hl, hj, ih]

theorem SMap.drop_keys {α : Type} (m : SMap α) (k : Nat) : ∀ p ∈ SMap.drop m k, p.1 ≠ k := by
  induction m with
  | nil => simp [SMap.drop]
  | cons p t ih =>
    obtain ⟨k', v⟩ := p
    by_cases hk : k' = k
    · simpa [SMap.drop, hk] using ih
    · simp only [SMap.drop, hk, if_false, List.mem_cons]
      rintro q (rfl | hq)
      · exact hk
      · exact ih q hq

/-- A key that has been set reads as the value set. -/
@[simp] theorem SMap.get_put_self {α : Type} [DecidableEq α] [Inhabited α] (m : SMap α) (k : Nat) (v : α) :
    SMap.get (SMap.put m k v) k = v := by
  unfold SMap.put
  split
  · next h => rw [SMap.get_drop_self, h]
  · exact SMap.get_ins_self _ _ _ (SMap.drop_keys m k)

/-- A key that has been set leaves every other key alone. -/
theorem SMap.get_put_ne {α : Type} [DecidableEq α] [Inhabited α] (m : SMap α) {k j : Nat} (v : α)
    (h : j ≠ k) : SMap.get (SMap.put m k v) j = SMap.get m j := by
  unfold SMap.put
  split
  · exact SMap.get_drop_ne m h
  · rw [SMap.get_ins_ne _ _ h, SMap.get_drop_ne m h]

/-- Both cases in one. -/
theorem SMap.get_put {α : Type} [DecidableEq α] [Inhabited α] (m : SMap α) (k j : Nat) (v : α) :
    SMap.get (SMap.put m k v) j = if j = k then v else SMap.get m j := by
  split
  · next h => rw [h, SMap.get_put_self]
  · next h => exact SMap.get_put_ne m v h

theorem SMap.drop_drop {α : Type} (m : SMap α) (k : Nat) : SMap.drop (SMap.drop m k) k = SMap.drop m k := by
  induction m with
  | nil => rfl
  | cons p t ih =>
    obtain ⟨k', v⟩ := p
    by_cases h : k' = k <;> simp [SMap.drop, h, ih]

theorem SMap.drop_ins {α : Type} (m : SMap α) (k : Nat) (v : α) :
    SMap.drop (SMap.ins m k v) k = SMap.drop m k := by
  induction m with
  | nil => simp [SMap.ins, SMap.drop]
  | cons p t ih =>
    obtain ⟨k', v'⟩ := p
    by_cases hl : k < k'
    · simp [SMap.ins, SMap.drop, hl]
    · by_cases h : k' = k <;> simp [SMap.ins, SMap.drop, hl, h, ih]

/-- The later of two settings of a key stands. -/
@[simp] theorem SMap.put_put {α : Type} [DecidableEq α] [Inhabited α] (m : SMap α) (k : Nat) (u v : α) :
    SMap.put (SMap.put m k u) k v = SMap.put m k v := by
  have h : SMap.drop (SMap.put m k u) k = SMap.drop m k := by
    unfold SMap.put
    split
    · exact SMap.drop_drop m k
    · rw [SMap.drop_ins, SMap.drop_drop]
  unfold SMap.put at *
  rw [h]

/-! ### The canonical form of a sparse map -/

/-- Every key listed is at least a bound. -/
def SMap.above {α : Type} (b : Nat) (m : SMap α) : Prop := ∀ p ∈ m, b ≤ p.1

theorem SMap.wf_cons {α : Type} [DecidableEq α] [Inhabited α] (k : Nat) (v : α) (m : SMap α) :
    SMap.wf ((k, v) :: m) = true ↔ v ≠ default ∧ SMap.above (k + 1) m ∧ SMap.wf m = true := by
  induction m generalizing k v with
  | nil => simp [SMap.wf, SMap.above]
  | cons p t ih =>
    obtain ⟨k', v'⟩ := p
    rw [SMap.wf]
    simp only [Bool.and_eq_true, decide_eq_true_eq]
    constructor
    · rintro ⟨⟨hv, hk⟩, ht⟩
      refine ⟨hv, ?_, ht⟩
      have := (ih k' v').mp ht
      intro q hq
      rcases List.mem_cons.mp hq with rfl | hq
      · exact hk
      · have := this.2.1 q hq; omega
    · rintro ⟨hv, ha, ht⟩
      exact ⟨⟨hv, ha (k', v') (by simp)⟩, ht⟩

theorem SMap.above_drop {α : Type} {b : Nat} (m : SMap α) (k : Nat) (h : SMap.above b m) :
    SMap.above b (SMap.drop m k) := by
  induction m with
  | nil => simpa [SMap.drop] using h
  | cons p t ih =>
    obtain ⟨k', v⟩ := p
    have ht : SMap.above b t := fun q hq => h q (by simp [hq])
    by_cases hk : k' = k
    · simpa [SMap.drop, hk] using ih ht
    · simp only [SMap.drop, hk, if_false]
      intro q hq
      rcases List.mem_cons.mp hq with rfl | hq
      · exact h (k', v) (by simp)
      · exact ih ht q hq

theorem SMap.wf_drop {α : Type} [DecidableEq α] [Inhabited α] (m : SMap α) (k : Nat)
    (h : SMap.wf m = true) : SMap.wf (SMap.drop m k) = true := by
  induction m with
  | nil => rfl
  | cons p t ih =>
    obtain ⟨k', v⟩ := p
    obtain ⟨hv, ha, ht⟩ := (SMap.wf_cons k' v t).mp h
    by_cases hk : k' = k
    · simpa [SMap.drop, hk] using ih ht
    · simp only [SMap.drop, hk, if_false]
      exact (SMap.wf_cons _ _ _).mpr ⟨hv, SMap.above_drop t k ha, ih ht⟩

theorem SMap.above_ins {α : Type} {b : Nat} (m : SMap α) (k : Nat) (v : α) (hk : b ≤ k)
    (h : SMap.above b m) : SMap.above b (SMap.ins m k v) := by
  induction m with
  | nil => intro q hq; simp only [SMap.ins, List.mem_singleton] at hq; subst hq; exact hk
  | cons p t ih =>
    obtain ⟨k', v'⟩ := p
    have ht : SMap.above b t := fun q hq => h q (by simp [hq])
    simp only [SMap.ins]
    split
    · intro q hq
      rcases List.mem_cons.mp hq with rfl | hq
      · exact hk
      · exact h q hq
    · intro q hq
      rcases List.mem_cons.mp hq with rfl | hq
      · exact h (k', v') (by simp)
      · exact ih ht q hq

theorem SMap.wf_ins {α : Type} [DecidableEq α] [Inhabited α] (m : SMap α) (k : Nat) (v : α)
    (hv : v ≠ default) (hk : ∀ p ∈ m, p.1 ≠ k) (h : SMap.wf m = true) :
    SMap.wf (SMap.ins m k v) = true := by
  induction m with
  | nil => simp [SMap.ins, SMap.wf, hv]
  | cons p t ih =>
    obtain ⟨k', v'⟩ := p
    obtain ⟨hv', ha, ht⟩ := (SMap.wf_cons k' v' t).mp h
    have hne : k' ≠ k := hk (k', v') (by simp)
    have hkt : ∀ p ∈ t, p.1 ≠ k := fun q hq => hk q (by simp [hq])
    simp only [SMap.ins]
    split
    · next hl =>
      refine (SMap.wf_cons _ _ _).mpr ⟨hv, ?_, h⟩
      intro q hq
      rcases List.mem_cons.mp hq with rfl | hq
      · exact hl
      · have := ha q hq; omega
    · next hl =>
      exact (SMap.wf_cons _ _ _).mpr ⟨hv', SMap.above_ins t k v (by omega) ha, ih hkt ht⟩

/-- Setting a key keeps the canonical form. -/
theorem SMap.wf_put {α : Type} [DecidableEq α] [Inhabited α] (m : SMap α) (k : Nat) (v : α)
    (h : SMap.wf m = true) : SMap.wf (SMap.put m k v) = true := by
  unfold SMap.put
  split
  · exact SMap.wf_drop m k h
  · next hv => exact SMap.wf_ins _ _ _ hv (SMap.drop_keys m k) (SMap.wf_drop m k h)

/-- So does setting a run of keys. -/
theorem SMap.wf_putList {α : Type} [DecidableEq α] [Inhabited α] (m : SMap α) (k : Nat) (l : List α)
    (h : SMap.wf m = true) : SMap.wf (SMap.putList m k l) = true := by
  induction l generalizing m k with
  | nil => exact h
  | cons v t ih => exact ih _ _ (SMap.wf_put m k v h)

/-- A run of keys set reads as the values inside the run and as before outside it. -/
theorem SMap.get_putList {α : Type} [DecidableEq α] [Inhabited α] (m : SMap α) (k : Nat) (l : List α)
    (j : Nat) :
    SMap.get (SMap.putList m k l) j =
      if k ≤ j ∧ j < k + l.length then l.getD (j - k) default else SMap.get m j := by
  induction l generalizing m k with
  | nil =>
    have h : ¬(k ≤ j ∧ j < k + ([] : List α).length) := by simp
    rw [if_neg h]; rfl
  | cons v t ih =>
    rw [SMap.putList, ih, SMap.get_put]
    by_cases h1 : j = k
    · subst h1; simp
    · by_cases h2 : k ≤ j ∧ j < k + (v :: t).length
      · have h3 : k + 1 ≤ j ∧ j < k + 1 + t.length := by simp at h2 ⊢; omega
        obtain ⟨d, hd⟩ : ∃ d, j - k = d + 1 := ⟨j - k - 1, by omega⟩
        have hd' : j - (k + 1) = d := by omega
        rw [if_pos h2, if_pos h3, hd, hd']
        simp
      · have h3 : ¬(k + 1 ≤ j ∧ j < k + 1 + t.length) := by simp at h2 ⊢; omega
        rw [if_neg h2, if_neg h3, if_neg h1]

namespace Machine

/-! ### Memory -/

/-- The empty memory of reset has the canonical form. -/
theorem memWf_reset : State.reset.memWf := rfl

/-- Every write of memory keeps its canonical form. -/
theorem Memory.wf_store (m : List Host.Cell) (a : Nat) (bs : List Byte) (h : Memory.wf m = true) :
    Memory.wf (Memory.store m a bs) = true := SMap.wf_putList m a bs h

theorem memWf_physStore (s : State) (a : Nat) (bs : List Byte) (h : s.memWf) : (s.physStore a bs).memWf :=
  Memory.wf_store s.mem a bs h

/-- What one byte of memory reads as after a write. -/
theorem Memory.get_store (m : List Host.Cell) (a : Nat) (bs : List Byte) (j : Nat) :
    SMap.get (α := Byte) (Memory.store m a bs) j =
      if a ≤ j ∧ j < a + bs.length then bs.getD (j - a) 0 else SMap.get (α := Byte) m j :=
  SMap.get_putList m a bs j

/-! ### What each update of a state leaves alone -/

@[simp] theorem State.setCore_mem (s : State) (c : Nat) (x : CoreSt) : (s.setCore c x).mem = s.mem := rfl
@[simp] theorem State.setCore_mtag (s : State) (c : Nat) (x : CoreSt) : (s.setCore c x).mtag = s.mtag := rfl
@[simp] theorem State.setCore_tlb (s : State) (c : Nat) (x : CoreSt) : (s.setCore c x).tlb = s.tlb := rfl
@[simp] theorem State.setCore_vdevs (s : State) (c : Nat) (x : CoreSt) : (s.setCore c x).vdevs = s.vdevs := rfl
@[simp] theorem State.setCore_queues (s : State) (c : Nat) (x : CoreSt) : (s.setCore c x).queues = s.queues := rfl
@[simp] theorem State.setCore_launches (s : State) (c : Nat) (x : CoreSt) : (s.setCore c x).launches = s.launches := rfl
@[simp] theorem State.setCore_savedGroups (s : State) (c : Nat) (x : CoreSt) : (s.setCore c x).savedGroups = s.savedGroups := rfl
@[simp] theorem State.setCore_links (s : State) (c : Nat) (x : CoreSt) : (s.setCore c x).links = s.links := rfl
@[simp] theorem State.setCore_keys (s : State) (c : Nat) (x : CoreSt) : (s.setCore c x).keys = s.keys := rfl
@[simp] theorem State.setCore_reds (s : State) (c : Nat) (x : CoreSt) : (s.setCore c x).reds = s.reds := rfl
@[simp] theorem State.setCore_fab (s : State) (c : Nat) (x : CoreSt) : (s.setCore c x).fab = s.fab := rfl
@[simp] theorem State.setCore_plat (s : State) (c : Nat) (x : CoreSt) : (s.setCore c x).plat = s.plat := rfl
@[simp] theorem State.setCore_agenda (s : State) (c : Nat) (x : CoreSt) : (s.setCore c x).agenda = s.agenda := rfl
@[simp] theorem State.setCore_fine (s : State) (c : Nat) (x : CoreSt) : (s.setCore c x).fine = s.fine := rfl
@[simp] theorem State.setCore_cur (s : State) (c : Nat) (x : CoreSt) : (s.setCore c x).cur = s.cur := rfl
@[simp] theorem State.setCore_ilen (s : State) (c : Nat) (x : CoreSt) : (s.setCore c x).ilen = s.ilen := rfl
@[simp] theorem State.setCore_time (s : State) (c : Nat) (x : CoreSt) : (s.setCore c x).time = s.time := rfl
@[simp] theorem State.setCore_rr (s : State) (c : Nat) (x : CoreSt) : (s.setCore c x).rr = s.rr := rfl
@[simp] theorem State.setCore_freeCtr (s : State) (c : Nat) (x : CoreSt) : (s.setCore c x).freeCtr = s.freeCtr := rfl
@[simp] theorem State.setCore_stamp (s : State) (c : Nat) (x : CoreSt) : (s.setCore c x).stamp = s.stamp := rfl
@[simp] theorem State.setCore_sig (s : State) (c : Nat) (x : CoreSt) : (s.setCore c x).sig = s.sig := rfl
@[simp] theorem State.setCtx_mem (s : State) (w : Who) (x : Ctx) : (s.setCtx w x).mem = s.mem := rfl
@[simp] theorem State.setCtx_mtag (s : State) (w : Who) (x : Ctx) : (s.setCtx w x).mtag = s.mtag := rfl
@[simp] theorem State.setCtx_tlb (s : State) (w : Who) (x : Ctx) : (s.setCtx w x).tlb = s.tlb := rfl
@[simp] theorem State.setCtx_vdevs (s : State) (w : Who) (x : Ctx) : (s.setCtx w x).vdevs = s.vdevs := rfl
@[simp] theorem State.setCtx_queues (s : State) (w : Who) (x : Ctx) : (s.setCtx w x).queues = s.queues := rfl
@[simp] theorem State.setCtx_launches (s : State) (w : Who) (x : Ctx) : (s.setCtx w x).launches = s.launches := rfl
@[simp] theorem State.setCtx_savedGroups (s : State) (w : Who) (x : Ctx) : (s.setCtx w x).savedGroups = s.savedGroups := rfl
@[simp] theorem State.setCtx_links (s : State) (w : Who) (x : Ctx) : (s.setCtx w x).links = s.links := rfl
@[simp] theorem State.setCtx_keys (s : State) (w : Who) (x : Ctx) : (s.setCtx w x).keys = s.keys := rfl
@[simp] theorem State.setCtx_reds (s : State) (w : Who) (x : Ctx) : (s.setCtx w x).reds = s.reds := rfl
@[simp] theorem State.setCtx_fab (s : State) (w : Who) (x : Ctx) : (s.setCtx w x).fab = s.fab := rfl
@[simp] theorem State.setCtx_plat (s : State) (w : Who) (x : Ctx) : (s.setCtx w x).plat = s.plat := rfl
@[simp] theorem State.setCtx_agenda (s : State) (w : Who) (x : Ctx) : (s.setCtx w x).agenda = s.agenda := rfl
@[simp] theorem State.setCtx_fine (s : State) (w : Who) (x : Ctx) : (s.setCtx w x).fine = s.fine := rfl
@[simp] theorem State.setCtx_cur (s : State) (w : Who) (x : Ctx) : (s.setCtx w x).cur = s.cur := rfl
@[simp] theorem State.setCtx_ilen (s : State) (w : Who) (x : Ctx) : (s.setCtx w x).ilen = s.ilen := rfl
@[simp] theorem State.setCtx_time (s : State) (w : Who) (x : Ctx) : (s.setCtx w x).time = s.time := rfl
@[simp] theorem State.setCtx_rr (s : State) (w : Who) (x : Ctx) : (s.setCtx w x).rr = s.rr := rfl
@[simp] theorem State.setCtx_freeCtr (s : State) (w : Who) (x : Ctx) : (s.setCtx w x).freeCtr = s.freeCtr := rfl
@[simp] theorem State.setCtx_stamp (s : State) (w : Who) (x : Ctx) : (s.setCtx w x).stamp = s.stamp := rfl
@[simp] theorem State.setCtx_sig (s : State) (w : Who) (x : Ctx) : (s.setCtx w x).sig = s.sig := rfl
@[simp] theorem State.setMe_mem (s : State) (x : Ctx) : (s.setMe x).mem = s.mem := rfl
@[simp] theorem State.setMe_mtag (s : State) (x : Ctx) : (s.setMe x).mtag = s.mtag := rfl
@[simp] theorem State.setMe_tlb (s : State) (x : Ctx) : (s.setMe x).tlb = s.tlb := rfl
@[simp] theorem State.setMe_vdevs (s : State) (x : Ctx) : (s.setMe x).vdevs = s.vdevs := rfl
@[simp] theorem State.setMe_queues (s : State) (x : Ctx) : (s.setMe x).queues = s.queues := rfl
@[simp] theorem State.setMe_launches (s : State) (x : Ctx) : (s.setMe x).launches = s.launches := rfl
@[simp] theorem State.setMe_savedGroups (s : State) (x : Ctx) : (s.setMe x).savedGroups = s.savedGroups := rfl
@[simp] theorem State.setMe_links (s : State) (x : Ctx) : (s.setMe x).links = s.links := rfl
@[simp] theorem State.setMe_keys (s : State) (x : Ctx) : (s.setMe x).keys = s.keys := rfl
@[simp] theorem State.setMe_reds (s : State) (x : Ctx) : (s.setMe x).reds = s.reds := rfl
@[simp] theorem State.setMe_fab (s : State) (x : Ctx) : (s.setMe x).fab = s.fab := rfl
@[simp] theorem State.setMe_plat (s : State) (x : Ctx) : (s.setMe x).plat = s.plat := rfl
@[simp] theorem State.setMe_agenda (s : State) (x : Ctx) : (s.setMe x).agenda = s.agenda := rfl
@[simp] theorem State.setMe_fine (s : State) (x : Ctx) : (s.setMe x).fine = s.fine := rfl
@[simp] theorem State.setMe_cur (s : State) (x : Ctx) : (s.setMe x).cur = s.cur := rfl
@[simp] theorem State.setMe_ilen (s : State) (x : Ctx) : (s.setMe x).ilen = s.ilen := rfl
@[simp] theorem State.setMe_time (s : State) (x : Ctx) : (s.setMe x).time = s.time := rfl
@[simp] theorem State.setMe_rr (s : State) (x : Ctx) : (s.setMe x).rr = s.rr := rfl
@[simp] theorem State.setMe_freeCtr (s : State) (x : Ctx) : (s.setMe x).freeCtr = s.freeCtr := rfl
@[simp] theorem State.setMe_stamp (s : State) (x : Ctx) : (s.setMe x).stamp = s.stamp := rfl
@[simp] theorem State.setMe_sig (s : State) (x : Ctx) : (s.setMe x).sig = s.sig := rfl
@[simp] theorem State.setMyCore_mem (s : State) (x : CoreSt) : (s.setMyCore x).mem = s.mem := rfl
@[simp] theorem State.setMyCore_mtag (s : State) (x : CoreSt) : (s.setMyCore x).mtag = s.mtag := rfl
@[simp] theorem State.setMyCore_tlb (s : State) (x : CoreSt) : (s.setMyCore x).tlb = s.tlb := rfl
@[simp] theorem State.setMyCore_vdevs (s : State) (x : CoreSt) : (s.setMyCore x).vdevs = s.vdevs := rfl
@[simp] theorem State.setMyCore_queues (s : State) (x : CoreSt) : (s.setMyCore x).queues = s.queues := rfl
@[simp] theorem State.setMyCore_launches (s : State) (x : CoreSt) : (s.setMyCore x).launches = s.launches := rfl
@[simp] theorem State.setMyCore_savedGroups (s : State) (x : CoreSt) : (s.setMyCore x).savedGroups = s.savedGroups := rfl
@[simp] theorem State.setMyCore_links (s : State) (x : CoreSt) : (s.setMyCore x).links = s.links := rfl
@[simp] theorem State.setMyCore_keys (s : State) (x : CoreSt) : (s.setMyCore x).keys = s.keys := rfl
@[simp] theorem State.setMyCore_reds (s : State) (x : CoreSt) : (s.setMyCore x).reds = s.reds := rfl
@[simp] theorem State.setMyCore_fab (s : State) (x : CoreSt) : (s.setMyCore x).fab = s.fab := rfl
@[simp] theorem State.setMyCore_plat (s : State) (x : CoreSt) : (s.setMyCore x).plat = s.plat := rfl
@[simp] theorem State.setMyCore_agenda (s : State) (x : CoreSt) : (s.setMyCore x).agenda = s.agenda := rfl
@[simp] theorem State.setMyCore_fine (s : State) (x : CoreSt) : (s.setMyCore x).fine = s.fine := rfl
@[simp] theorem State.setMyCore_cur (s : State) (x : CoreSt) : (s.setMyCore x).cur = s.cur := rfl
@[simp] theorem State.setMyCore_ilen (s : State) (x : CoreSt) : (s.setMyCore x).ilen = s.ilen := rfl
@[simp] theorem State.setMyCore_time (s : State) (x : CoreSt) : (s.setMyCore x).time = s.time := rfl
@[simp] theorem State.setMyCore_rr (s : State) (x : CoreSt) : (s.setMyCore x).rr = s.rr := rfl
@[simp] theorem State.setMyCore_freeCtr (s : State) (x : CoreSt) : (s.setMyCore x).freeCtr = s.freeCtr := rfl
@[simp] theorem State.setMyCore_stamp (s : State) (x : CoreSt) : (s.setMyCore x).stamp = s.stamp := rfl
@[simp] theorem State.setMyCore_sig (s : State) (x : CoreSt) : (s.setMyCore x).sig = s.sig := rfl
@[simp] theorem State.setVdev_cores (s : State) (v : Nat) (x : VDev) : (s.setVdev v x).cores = s.cores := rfl
@[simp] theorem State.setVdev_mem (s : State) (v : Nat) (x : VDev) : (s.setVdev v x).mem = s.mem := rfl
@[simp] theorem State.setVdev_mtag (s : State) (v : Nat) (x : VDev) : (s.setVdev v x).mtag = s.mtag := rfl
@[simp] theorem State.setVdev_tlb (s : State) (v : Nat) (x : VDev) : (s.setVdev v x).tlb = s.tlb := rfl
@[simp] theorem State.setVdev_queues (s : State) (v : Nat) (x : VDev) : (s.setVdev v x).queues = s.queues := rfl
@[simp] theorem State.setVdev_launches (s : State) (v : Nat) (x : VDev) : (s.setVdev v x).launches = s.launches := rfl
@[simp] theorem State.setVdev_savedGroups (s : State) (v : Nat) (x : VDev) : (s.setVdev v x).savedGroups = s.savedGroups := rfl
@[simp] theorem State.setVdev_links (s : State) (v : Nat) (x : VDev) : (s.setVdev v x).links = s.links := rfl
@[simp] theorem State.setVdev_keys (s : State) (v : Nat) (x : VDev) : (s.setVdev v x).keys = s.keys := rfl
@[simp] theorem State.setVdev_reds (s : State) (v : Nat) (x : VDev) : (s.setVdev v x).reds = s.reds := rfl
@[simp] theorem State.setVdev_fab (s : State) (v : Nat) (x : VDev) : (s.setVdev v x).fab = s.fab := rfl
@[simp] theorem State.setVdev_plat (s : State) (v : Nat) (x : VDev) : (s.setVdev v x).plat = s.plat := rfl
@[simp] theorem State.setVdev_agenda (s : State) (v : Nat) (x : VDev) : (s.setVdev v x).agenda = s.agenda := rfl
@[simp] theorem State.setVdev_fine (s : State) (v : Nat) (x : VDev) : (s.setVdev v x).fine = s.fine := rfl
@[simp] theorem State.setVdev_cur (s : State) (v : Nat) (x : VDev) : (s.setVdev v x).cur = s.cur := rfl
@[simp] theorem State.setVdev_ilen (s : State) (v : Nat) (x : VDev) : (s.setVdev v x).ilen = s.ilen := rfl
@[simp] theorem State.setVdev_time (s : State) (v : Nat) (x : VDev) : (s.setVdev v x).time = s.time := rfl
@[simp] theorem State.setVdev_rr (s : State) (v : Nat) (x : VDev) : (s.setVdev v x).rr = s.rr := rfl
@[simp] theorem State.setVdev_freeCtr (s : State) (v : Nat) (x : VDev) : (s.setVdev v x).freeCtr = s.freeCtr := rfl
@[simp] theorem State.setVdev_stamp (s : State) (v : Nat) (x : VDev) : (s.setVdev v x).stamp = s.stamp := rfl
@[simp] theorem State.setVdev_sig (s : State) (v : Nat) (x : VDev) : (s.setVdev v x).sig = s.sig := rfl
@[simp] theorem State.setQueue_cores (s : State) (q : Nat) (x : Que) : (s.setQueue q x).cores = s.cores := rfl
@[simp] theorem State.setQueue_mem (s : State) (q : Nat) (x : Que) : (s.setQueue q x).mem = s.mem := rfl
@[simp] theorem State.setQueue_mtag (s : State) (q : Nat) (x : Que) : (s.setQueue q x).mtag = s.mtag := rfl
@[simp] theorem State.setQueue_tlb (s : State) (q : Nat) (x : Que) : (s.setQueue q x).tlb = s.tlb := rfl
@[simp] theorem State.setQueue_vdevs (s : State) (q : Nat) (x : Que) : (s.setQueue q x).vdevs = s.vdevs := rfl
@[simp] theorem State.setQueue_launches (s : State) (q : Nat) (x : Que) : (s.setQueue q x).launches = s.launches := rfl
@[simp] theorem State.setQueue_savedGroups (s : State) (q : Nat) (x : Que) : (s.setQueue q x).savedGroups = s.savedGroups := rfl
@[simp] theorem State.setQueue_links (s : State) (q : Nat) (x : Que) : (s.setQueue q x).links = s.links := rfl
@[simp] theorem State.setQueue_keys (s : State) (q : Nat) (x : Que) : (s.setQueue q x).keys = s.keys := rfl
@[simp] theorem State.setQueue_reds (s : State) (q : Nat) (x : Que) : (s.setQueue q x).reds = s.reds := rfl
@[simp] theorem State.setQueue_fab (s : State) (q : Nat) (x : Que) : (s.setQueue q x).fab = s.fab := rfl
@[simp] theorem State.setQueue_plat (s : State) (q : Nat) (x : Que) : (s.setQueue q x).plat = s.plat := rfl
@[simp] theorem State.setQueue_agenda (s : State) (q : Nat) (x : Que) : (s.setQueue q x).agenda = s.agenda := rfl
@[simp] theorem State.setQueue_fine (s : State) (q : Nat) (x : Que) : (s.setQueue q x).fine = s.fine := rfl
@[simp] theorem State.setQueue_cur (s : State) (q : Nat) (x : Que) : (s.setQueue q x).cur = s.cur := rfl
@[simp] theorem State.setQueue_ilen (s : State) (q : Nat) (x : Que) : (s.setQueue q x).ilen = s.ilen := rfl
@[simp] theorem State.setQueue_time (s : State) (q : Nat) (x : Que) : (s.setQueue q x).time = s.time := rfl
@[simp] theorem State.setQueue_rr (s : State) (q : Nat) (x : Que) : (s.setQueue q x).rr = s.rr := rfl
@[simp] theorem State.setQueue_freeCtr (s : State) (q : Nat) (x : Que) : (s.setQueue q x).freeCtr = s.freeCtr := rfl
@[simp] theorem State.setQueue_stamp (s : State) (q : Nat) (x : Que) : (s.setQueue q x).stamp = s.stamp := rfl
@[simp] theorem State.setQueue_sig (s : State) (q : Nat) (x : Que) : (s.setQueue q x).sig = s.sig := rfl
@[simp] theorem State.setLaunch_cores (s : State) (l : Nat) (x : LaunchSt) : (s.setLaunch l x).cores = s.cores := rfl
@[simp] theorem State.setLaunch_mem (s : State) (l : Nat) (x : LaunchSt) : (s.setLaunch l x).mem = s.mem := rfl
@[simp] theorem State.setLaunch_mtag (s : State) (l : Nat) (x : LaunchSt) : (s.setLaunch l x).mtag = s.mtag := rfl
@[simp] theorem State.setLaunch_tlb (s : State) (l : Nat) (x : LaunchSt) : (s.setLaunch l x).tlb = s.tlb := rfl
@[simp] theorem State.setLaunch_vdevs (s : State) (l : Nat) (x : LaunchSt) : (s.setLaunch l x).vdevs = s.vdevs := rfl
@[simp] theorem State.setLaunch_queues (s : State) (l : Nat) (x : LaunchSt) : (s.setLaunch l x).queues = s.queues := rfl
@[simp] theorem State.setLaunch_savedGroups (s : State) (l : Nat) (x : LaunchSt) : (s.setLaunch l x).savedGroups = s.savedGroups := rfl
@[simp] theorem State.setLaunch_links (s : State) (l : Nat) (x : LaunchSt) : (s.setLaunch l x).links = s.links := rfl
@[simp] theorem State.setLaunch_keys (s : State) (l : Nat) (x : LaunchSt) : (s.setLaunch l x).keys = s.keys := rfl
@[simp] theorem State.setLaunch_reds (s : State) (l : Nat) (x : LaunchSt) : (s.setLaunch l x).reds = s.reds := rfl
@[simp] theorem State.setLaunch_fab (s : State) (l : Nat) (x : LaunchSt) : (s.setLaunch l x).fab = s.fab := rfl
@[simp] theorem State.setLaunch_plat (s : State) (l : Nat) (x : LaunchSt) : (s.setLaunch l x).plat = s.plat := rfl
@[simp] theorem State.setLaunch_agenda (s : State) (l : Nat) (x : LaunchSt) : (s.setLaunch l x).agenda = s.agenda := rfl
@[simp] theorem State.setLaunch_fine (s : State) (l : Nat) (x : LaunchSt) : (s.setLaunch l x).fine = s.fine := rfl
@[simp] theorem State.setLaunch_cur (s : State) (l : Nat) (x : LaunchSt) : (s.setLaunch l x).cur = s.cur := rfl
@[simp] theorem State.setLaunch_ilen (s : State) (l : Nat) (x : LaunchSt) : (s.setLaunch l x).ilen = s.ilen := rfl
@[simp] theorem State.setLaunch_time (s : State) (l : Nat) (x : LaunchSt) : (s.setLaunch l x).time = s.time := rfl
@[simp] theorem State.setLaunch_rr (s : State) (l : Nat) (x : LaunchSt) : (s.setLaunch l x).rr = s.rr := rfl
@[simp] theorem State.setLaunch_freeCtr (s : State) (l : Nat) (x : LaunchSt) : (s.setLaunch l x).freeCtr = s.freeCtr := rfl
@[simp] theorem State.setLaunch_stamp (s : State) (l : Nat) (x : LaunchSt) : (s.setLaunch l x).stamp = s.stamp := rfl
@[simp] theorem State.setLaunch_sig (s : State) (l : Nat) (x : LaunchSt) : (s.setLaunch l x).sig = s.sig := rfl
@[simp] theorem State.withSig_cores (s : State) (g : Sig) : (s.withSig g).cores = s.cores := rfl
@[simp] theorem State.withSig_mem (s : State) (g : Sig) : (s.withSig g).mem = s.mem := rfl
@[simp] theorem State.withSig_mtag (s : State) (g : Sig) : (s.withSig g).mtag = s.mtag := rfl
@[simp] theorem State.withSig_tlb (s : State) (g : Sig) : (s.withSig g).tlb = s.tlb := rfl
@[simp] theorem State.withSig_vdevs (s : State) (g : Sig) : (s.withSig g).vdevs = s.vdevs := rfl
@[simp] theorem State.withSig_queues (s : State) (g : Sig) : (s.withSig g).queues = s.queues := rfl
@[simp] theorem State.withSig_launches (s : State) (g : Sig) : (s.withSig g).launches = s.launches := rfl
@[simp] theorem State.withSig_savedGroups (s : State) (g : Sig) : (s.withSig g).savedGroups = s.savedGroups := rfl
@[simp] theorem State.withSig_links (s : State) (g : Sig) : (s.withSig g).links = s.links := rfl
@[simp] theorem State.withSig_keys (s : State) (g : Sig) : (s.withSig g).keys = s.keys := rfl
@[simp] theorem State.withSig_reds (s : State) (g : Sig) : (s.withSig g).reds = s.reds := rfl
@[simp] theorem State.withSig_fab (s : State) (g : Sig) : (s.withSig g).fab = s.fab := rfl
@[simp] theorem State.withSig_plat (s : State) (g : Sig) : (s.withSig g).plat = s.plat := rfl
@[simp] theorem State.withSig_agenda (s : State) (g : Sig) : (s.withSig g).agenda = s.agenda := rfl
@[simp] theorem State.withSig_fine (s : State) (g : Sig) : (s.withSig g).fine = s.fine := rfl
@[simp] theorem State.withSig_cur (s : State) (g : Sig) : (s.withSig g).cur = s.cur := rfl
@[simp] theorem State.withSig_ilen (s : State) (g : Sig) : (s.withSig g).ilen = s.ilen := rfl
@[simp] theorem State.withSig_time (s : State) (g : Sig) : (s.withSig g).time = s.time := rfl
@[simp] theorem State.withSig_rr (s : State) (g : Sig) : (s.withSig g).rr = s.rr := rfl
@[simp] theorem State.withSig_freeCtr (s : State) (g : Sig) : (s.withSig g).freeCtr = s.freeCtr := rfl
@[simp] theorem State.withSig_stamp (s : State) (g : Sig) : (s.withSig g).stamp = s.stamp := rfl
@[simp] theorem State.bump_cores (s : State)  : (s.bump).cores = s.cores := rfl
@[simp] theorem State.bump_mem (s : State)  : (s.bump).mem = s.mem := rfl
@[simp] theorem State.bump_mtag (s : State)  : (s.bump).mtag = s.mtag := rfl
@[simp] theorem State.bump_tlb (s : State)  : (s.bump).tlb = s.tlb := rfl
@[simp] theorem State.bump_vdevs (s : State)  : (s.bump).vdevs = s.vdevs := rfl
@[simp] theorem State.bump_queues (s : State)  : (s.bump).queues = s.queues := rfl
@[simp] theorem State.bump_launches (s : State)  : (s.bump).launches = s.launches := rfl
@[simp] theorem State.bump_savedGroups (s : State)  : (s.bump).savedGroups = s.savedGroups := rfl
@[simp] theorem State.bump_links (s : State)  : (s.bump).links = s.links := rfl
@[simp] theorem State.bump_keys (s : State)  : (s.bump).keys = s.keys := rfl
@[simp] theorem State.bump_reds (s : State)  : (s.bump).reds = s.reds := rfl
@[simp] theorem State.bump_fab (s : State)  : (s.bump).fab = s.fab := rfl
@[simp] theorem State.bump_plat (s : State)  : (s.bump).plat = s.plat := rfl
@[simp] theorem State.bump_agenda (s : State)  : (s.bump).agenda = s.agenda := rfl
@[simp] theorem State.bump_fine (s : State)  : (s.bump).fine = s.fine := rfl
@[simp] theorem State.bump_cur (s : State)  : (s.bump).cur = s.cur := rfl
@[simp] theorem State.bump_ilen (s : State)  : (s.bump).ilen = s.ilen := rfl
@[simp] theorem State.bump_time (s : State)  : (s.bump).time = s.time := rfl
@[simp] theorem State.bump_rr (s : State)  : (s.bump).rr = s.rr := rfl
@[simp] theorem State.bump_stamp (s : State)  : (s.bump).stamp = s.stamp := rfl
@[simp] theorem State.bump_sig (s : State)  : (s.bump).sig = s.sig := rfl
@[simp] theorem State.physStore_cores (s : State) (a : Nat) (bs : List Byte) : (s.physStore a bs).cores = s.cores := rfl
@[simp] theorem State.physStore_tlb (s : State) (a : Nat) (bs : List Byte) : (s.physStore a bs).tlb = s.tlb := rfl
@[simp] theorem State.physStore_vdevs (s : State) (a : Nat) (bs : List Byte) : (s.physStore a bs).vdevs = s.vdevs := rfl
@[simp] theorem State.physStore_queues (s : State) (a : Nat) (bs : List Byte) : (s.physStore a bs).queues = s.queues := rfl
@[simp] theorem State.physStore_launches (s : State) (a : Nat) (bs : List Byte) : (s.physStore a bs).launches = s.launches := rfl
@[simp] theorem State.physStore_savedGroups (s : State) (a : Nat) (bs : List Byte) : (s.physStore a bs).savedGroups = s.savedGroups := rfl
@[simp] theorem State.physStore_links (s : State) (a : Nat) (bs : List Byte) : (s.physStore a bs).links = s.links := rfl
@[simp] theorem State.physStore_keys (s : State) (a : Nat) (bs : List Byte) : (s.physStore a bs).keys = s.keys := rfl
@[simp] theorem State.physStore_reds (s : State) (a : Nat) (bs : List Byte) : (s.physStore a bs).reds = s.reds := rfl
@[simp] theorem State.physStore_fab (s : State) (a : Nat) (bs : List Byte) : (s.physStore a bs).fab = s.fab := rfl
@[simp] theorem State.physStore_plat (s : State) (a : Nat) (bs : List Byte) : (s.physStore a bs).plat = s.plat := rfl
@[simp] theorem State.physStore_agenda (s : State) (a : Nat) (bs : List Byte) : (s.physStore a bs).agenda = s.agenda := rfl
@[simp] theorem State.physStore_fine (s : State) (a : Nat) (bs : List Byte) : (s.physStore a bs).fine = s.fine := rfl
@[simp] theorem State.physStore_cur (s : State) (a : Nat) (bs : List Byte) : (s.physStore a bs).cur = s.cur := rfl
@[simp] theorem State.physStore_ilen (s : State) (a : Nat) (bs : List Byte) : (s.physStore a bs).ilen = s.ilen := rfl
@[simp] theorem State.physStore_time (s : State) (a : Nat) (bs : List Byte) : (s.physStore a bs).time = s.time := rfl
@[simp] theorem State.physStore_rr (s : State) (a : Nat) (bs : List Byte) : (s.physStore a bs).rr = s.rr := rfl
@[simp] theorem State.physStore_freeCtr (s : State) (a : Nat) (bs : List Byte) : (s.physStore a bs).freeCtr = s.freeCtr := rfl
@[simp] theorem State.physStore_stamp (s : State) (a : Nat) (bs : List Byte) : (s.physStore a bs).stamp = s.stamp := rfl
@[simp] theorem State.physStore_sig (s : State) (a : Nat) (bs : List Byte) : (s.physStore a bs).sig = s.sig := rfl

/-! ### Cores and contexts -/

@[simp] theorem State.core_setCore (s : State) (c : Nat) (x : CoreSt) : (s.setCore c x).core c = x := by
  simp [State.core, State.setCore]

theorem State.core_setCore_ne (s : State) {c k : Nat} (x : CoreSt) (h : k ≠ c) :
    (s.setCore c x).core k = s.core k := by
  simp [State.core, State.setCore, SMap.get_put_ne _ _ h]

@[simp] theorem State.core_setCtx (s : State) (w : Who) (x : Ctx) :
    (s.setCtx w x).core w.core = { s.core w.core with ctxs := (s.core w.core).ctxs.put w.ctx x } := by
  simp [State.setCtx]

theorem State.core_setCtx_ne (s : State) (w : Who) (x : Ctx) {k : Nat} (h : k ≠ w.core) :
    (s.setCtx w x).core k = s.core k := State.core_setCore_ne s _ h

@[simp] theorem State.ctx_setCtx (s : State) (w : Who) (x : Ctx) : (s.setCtx w x).ctx w = x := by
  simp [State.ctx]

theorem State.ctx_setCtx_ne (s : State) {w v : Who} (x : Ctx) (h : v ≠ w) :
    (s.setCtx w x).ctx v = s.ctx v := by
  unfold State.ctx
  by_cases hc : v.core = w.core
  · have hx : v.ctx ≠ w.ctx := fun he => h (by cases v; cases w; simp_all)
    rw [hc, State.core_setCtx]
    exact SMap.get_put_ne _ _ hx
  · rw [State.core_setCtx_ne s w x hc]

@[simp] theorem State.me_setMe (s : State) (x : Ctx) : (s.setMe x).me = x := State.ctx_setCtx s s.cur x

@[simp] theorem State.setCore_setCore (s : State) (c : Nat) (x y : CoreSt) :
    (s.setCore c x).setCore c y = s.setCore c y := by
  simp [State.setCore]

@[simp] theorem State.setCtx_setCtx (s : State) (w : Who) (x y : Ctx) :
    (s.setCtx w x).setCtx w y = s.setCtx w y := by
  show (s.setCtx w x).setCore w.core _ = s.setCore w.core _
  unfold State.setCtx
  simp

@[simp] theorem State.setMe_setMe (s : State) (x y : Ctx) : (s.setMe x).setMe y = s.setMe y :=
  State.setCtx_setCtx s s.cur x y

@[simp] theorem State.core_withSig (s : State) (g : Sig) (k : Nat) : (s.withSig g).core k = s.core k := rfl
@[simp] theorem State.ctx_withSig (s : State) (g : Sig) (w : Who) : (s.withSig g).ctx w = s.ctx w := rfl
@[simp] theorem State.me_withSig (s : State) (g : Sig) : (s.withSig g).me = s.me := rfl
@[simp] theorem State.withSig_sig (s : State) (g : Sig) : (s.withSig g).sig = g := rfl
@[simp] theorem State.core_physStore (s : State) (a : Nat) (bs : List Byte) (k : Nat) :
    (s.physStore a bs).core k = s.core k := rfl
@[simp] theorem State.ctx_physStore (s : State) (a : Nat) (bs : List Byte) (w : Who) :
    (s.physStore a bs).ctx w = s.ctx w := rfl
@[simp] theorem State.me_physStore (s : State) (a : Nat) (bs : List Byte) : (s.physStore a bs).me = s.me := rfl

@[simp] theorem State.myCore_setMyCore (s : State) (x : CoreSt) : (s.setMyCore x).myCore = x :=
  State.core_setCore s s.cur.core x

/-- A change of the executing core that keeps the contexts keeps the executing context. -/
theorem State.me_setMyCore (s : State) (x : CoreSt) (h : x.ctxs = s.myCore.ctxs) : (s.setMyCore x).me = s.me := by
  have hc : (s.setMyCore x).core s.cur.core = x := State.core_setCore s s.cur.core x
  show SMap.get ((s.setMyCore x).core s.cur.core).ctxs s.cur.ctx = SMap.get (s.core s.cur.core).ctxs s.cur.ctx
  rw [hc, h]
  rfl

@[simp] theorem State.vdev_setVdev (s : State) (v : Nat) (x : VDev) : (s.setVdev v x).vdev v = x := by
  simp [State.vdev, State.setVdev]
@[simp] theorem State.queue_setQueue (s : State) (q : Nat) (x : Que) : (s.setQueue q x).queue q = x := by
  simp [State.queue, State.setQueue]
@[simp] theorem State.launchOf_setLaunch (s : State) (l : Nat) (x : LaunchSt) :
    (s.setLaunch l x).launchOf l = x := by
  simp [State.launchOf, State.setLaunch]

end Machine

end Sys2Proof
end

