-- ==== Sys2Proof/Laws/Access.lean ====
section
/-! SUPPORT. One lemma for each shared operation of an instruction: completion, the checks of an access, and
reads and writes by route. -/

namespace Sys2Proof.Machine

/-! ### Completion -/

theorem finish_eq (s : State) : finish s = .next (s.past s.me) := rfl
theorem finishWith_eq (s : State) (c : Ctx) : finishWith s c = .next (s.past c) := rfl
theorem acOp_eq (s : State) (x : Fin 16) (v : DWord) : acOp s x v = .next (s.past (s.me.wi x v)) := rfl
theorem trap_eq (s : State) (c : Nat) (v : DWord) : trap s c v = .next (trapAt s.cur c v s) := rfl
theorem stall_eq (s : State) : stall s = .next (s.withSig .stalled) := rfl

/-- The state after completion, seen from the executing context. -/
theorem me_past (s : State) (c : Ctx) : (s.past c).me = c.advance s.ilen := by simp [State.past]

/-- Completion changes the executing context only. -/
theorem sameButCtx_past (s : State) (c : Ctx) : s.sameButCtx (s.past c) s.cur := by
  refine ⟨rfl, ?_, ?_⟩
  · intro v hv
    show (s.setCtx s.cur _).ctx v = s.ctx v
    exact State.ctx_setCtx_ne s _ hv
  · intro k
    show { (s.setCtx s.cur _).core k with ctxs := (s.core k).ctxs } = s.core k
    unfold State.setCtx
    by_cases h : k = s.cur.core
    · subst h; simp
    · rw [State.core_setCore_ne _ _ h]

/-- Advancing changes the pc, and the counter and loop of an armed loop. -/
theorem advance_frame (c : Ctx) (n : Nat) :
    { c.advance n with pc := c.pc, a := c.a, loop := c.loop } = c := by
  unfold Ctx.advance Ctx.after
  cases hl : c.loop with
  | none => simp [← hl]
  | some l =>
    simp only [Ctx.wi]
    split
    · split <;> split <;> simp [← hl]
    · simp [← hl]

/-- Without an armed loop, advancing moves the pc past the instruction. -/
theorem advance_plain (c : Ctx) (n : Nat) (h : c.loop = none) :
    c.advance n = { c with pc := c.pc + BitVec.ofNat 16 (2 * n) } := by
  simp [Ctx.advance, Ctx.after, h]

/-! ### Outcomes of accesses -/

theorem access_ok {α : Type} (s : State) (p : Nat) (v : α) (t : State) (k : α → State → Out) :
    access s p (.ok v t) k = k v t := rfl
theorem access_trap {α : Type} (s : State) (p c : Nat) (tv : DWord) (t : State) (k : α → State → Out) :
    access s p (.trap c tv t) k = trap t c tv := rfl
theorem access_fault {α : Type} (s : State) (p c b : Nat) (va : DWord) (a : Nat) (t : State)
    (k : α → State → Out) : access s p (.fault c b va a t) k = .next (parkCtx s.cur c b a p va t) := rfl
theorem access_held {α : Type} (s : State) (p : Nat) (t : State) (k : α → State → Out) :
    access s p (.held t) k = heldAt t.cur t := rfl

/-- An aligned access whose checks pass goes on along its route. -/
theorem checked_ok {s : State} {v : AVal} {ea : DWord} {n al : Nat} {nd : Need} {kinds : List Nat} {rt : Route}
    {k : Route → Out} (ha : ea.toNat % al = 0) (hr : route s.cur.core s.me.guards v ea n nd kinds = .ok rt) :
    checked s v ea n al nd kinds k = k rt := by
  simp [checked, aligned, ha, hr]

/-- A misaligned access traps with MISALIGN. -/
theorem checked_misaligned {s : State} {v : AVal} {ea : DWord} {n al : Nat} {nd : Need} {kinds : List Nat}
    {k : Route → Out} (ha : ea.toNat % al ≠ 0) : checked s v ea n al nd kinds k = trap s 0x07 ea := by
  simp [checked, aligned, ha]

/-- An access that a check refuses traps with the check's cause. -/
theorem checked_refused {s : State} {v : AVal} {ea : DWord} {n al : Nat} {nd : Need} {kinds : List Nat} {c : Nat}
    {k : Route → Out} (ha : ea.toNat % al = 0) (hr : route s.cur.core s.me.guards v ea n nd kinds = .error c) :
    checked s v ea n al nd kinds k = trap s c ea := by
  simp [checked, aligned, ha, hr]

/-! ### Local memory -/

theorem isHeld_loc (core : Nat) (ea n : Nat) (s : State) : isHeld core .loc ea n s = false := by
  unfold isHeld; split <;> simp

theorem readN_loc {ag : Agent} {ea : DWord} {n : Nat} {s : State} (hb : behindStream ag false ea.toNat n s = false) :
    readN ag .loc ea n s = .ok ((s.core ag.core).num ea.toNat n) s := by
  simp [readN, perform, isHeld_loc, hb]

theorem writeN_loc {ag : Agent} {ea : DWord} {bs : List Byte} {s : State}
    (hb : behindStream ag false ea.toNat bs.length s = false) :
    writeN ag .loc ea bs s = .ok () (s.setCore ag.core ((s.core ag.core).store ea.toNat bs)) := by
  simp [writeN, perform, isHeld_loc, hb]

theorem readCap_loc {ag : Agent} {ea : DWord} {s : State} (hb : behindStream ag false ea.toNat 16 s = false) :
    readCap ag .loc ea s = .ok ⟨(s.core ag.core).ltag.get (ea.toNat / 16),
      BitVec.ofNat 128 ((s.core ag.core).num ea.toNat 16)⟩ s := by
  simp [readCap, perform, isHeld_loc, hb]

theorem writeCap_loc {ag : Agent} {ea : DWord} (v : AVal) {s : State}
    (hb : behindStream ag false ea.toNat 16 s = false) :
    writeCap ag .loc ea v s = .ok () (s.setCore ag.core
      (if v.tag then
        { (s.core ag.core).store ea.toNat (leBytes 16 (if v.tag then v.bits.toNat else v.int.toNat)) with
          ltag := ((s.core ag.core).store ea.toNat
            (leBytes 16 (if v.tag then v.bits.toNat else v.int.toNat))).ltag.put (ea.toNat / 16) true }
       else (s.core ag.core).store ea.toNat (leBytes 16 (if v.tag then v.bits.toNat else v.int.toNat)))) := by
  simp [writeCap, perform, isHeld_loc, hb]

theorem rmwN_loc {ag : Agent} {ea : DWord} {n : Nat} (g : Nat → Option Nat) (q f : Nat) (p r : DWord) {s : State}
    (hb : behindStream ag false ea.toNat n s = false) :
    rmwN ag .loc ea n g q f p r s = .ok ((s.core ag.core).num ea.toNat n)
      (match g ((s.core ag.core).num ea.toNat n) with
       | some v => s.setCore ag.core ((s.core ag.core).store ea.toNat (leBytes n v))
       | none => s) := by
  simp only [rmwN, perform, isHeld_loc, hb, Bool.and_false, Bool.false_eq_true, if_false]
  cases g ((s.core ag.core).num ea.toNat n) <;> rfl

/-- An access that meets an element of the agent's own stream still to be performed waits for it. -/
theorem readN_behind {ag : Agent} {ea : DWord} {n : Nat} {s : State} (hb : behindStream ag false ea.toNat n s = true) :
    readN ag .loc ea n s = .wait s := by
  simp [readN, perform, isHeld_loc, hb]

/-- A context that has no stream, and has posted nothing to its own core, is behind nothing. -/
theorem behindStream_none {w : Who} {s : State} (h : (s.ctx w).stream = none) (hp : postedTo w w.core s = false)
    (glob : Bool) (a n : Nat) : behindStream (.ctx w) glob a n s = false := by
  cases glob <;> simp [behindStream, behindAt, Agent.orderedIn, Agent.core, h, hp]

/-- A store of bytes leaves every byte outside them. -/
theorem get_lm_store (c : CoreSt) (a : Nat) (bs : List Byte) {b : Nat} (h : b < a ∨ a + bs.length ≤ b) :
    (c.store a bs).lm.get b = c.lm.get b := by
  unfold CoreSt.store; simp only
  rw [SMap.get_putList, if_neg (by omega)]

/-! ### Global memory -/

/-- A read through a translation that succeeds. -/
theorem readN_glob {ag : Agent} {ea : DWord} {n : Nat} {s t : State} {g : Grp} {pa e : Nat}
    (hg : (s.core ag.core).grp = some g) (hb : behindStream ag true ea.toNat n s = false)
    (hr : sentGlob ag g.space ea (remRead n) s = none)
    (ht : translate (.core ag.core) g.vdev g.space ea.toNat .rd s = .phys pa e t) :
    readN ag .glob ea n s = .ok (if pa ≥ wakeBase then 0 else t.physNum pa n) t := by
  simp [readN, perform, hg, hb, hr, ht, needR]

/-- A write through a translation that succeeds, of a group that is not tentative. -/
theorem writeN_glob {ag : Agent} {ea : DWord} {bs : List Byte} {s t : State} {g : Grp} {pa e : Nat}
    (hg : (s.core ag.core).grp = some g) (hT : g.tent = false) (hb : behindStream ag true ea.toNat bs.length s = false)
    (hr : sentGlob ag g.space ea (remWrite bs) s = none)
    (ht : translate (.core ag.core) g.vdev g.space ea.toNat .wr s = .phys pa e t) :
    writeN ag .glob ea bs s = .ok () (if pa ≥ wakeBase then t else t.physStore pa bs) := by
  simp [writeN, perform, hg, hb, hr, ht, isHeld, hT]

/-- A write of a tentative group outside its own slice is held. -/
theorem writeN_held {ag : Agent} {rt : Route} {ea : DWord} {bs : List Byte} {s : State}
    (h : isHeld ag.core rt ea.toNat bs.length s = true) : writeN ag rt ea bs s = .held s := by
  simp [writeN, perform, h, needW]

end Sys2Proof.Machine
end

