-- ==== Sys2Proof/Laws/Bytes.lean ====
section
/-! SUPPORT. Laws of little-endian bytes and numbers. -/

namespace Sys2Proof.Machine

@[simp] theorem length_leBytes (n v : Nat) : (leBytes n v).length = n := by
  induction n generalizing v with
  | zero => rfl
  | succ n ih => simp [leBytes, ih]

/-- The number that the low n bytes of a number stand for. -/
theorem leNat_leBytes (n v : Nat) : leNat (leBytes n v) = v % 256 ^ n := by
  induction n generalizing v with
  | zero => simp [leBytes, leNat, Nat.mod_one]
  | succ n ih =>
    have h : v % 256 ^ (n + 1) = v % 256 + 256 * (v / 256 % 256 ^ n) := by
      rw [Nat.pow_succ, Nat.mul_comm, Nat.mod_mul]
    simp [leBytes, leNat, ih, h]

/-- n bytes hold numbers below 256^n. -/
theorem leNat_lt (l : List Byte) : leNat l < 256 ^ l.length := by
  induction l with
  | nil => simp [leNat]
  | cons b t ih =>
    have hb : b.toNat < 256 := b.isLt
    simp only [leNat, List.length_cons, Nat.pow_succ]
    omega

/-- A doubleword comes back from its bytes. -/
@[simp] theorem leNat_leBytes_toNat (x : DWord) : leNat (leBytes 8 x.toNat) = x.toNat := by
  rw [leNat_leBytes]
  exact Nat.mod_eq_of_lt x.isLt

theorem leBytes_append (m n v : Nat) : leBytes m v ++ leBytes n (v / 256 ^ m) = leBytes (m + n) v := by
  induction m generalizing v with
  | zero => simp [leBytes]
  | succ m ih =>
    have h : v / 256 ^ (m + 1) = v / 256 / 256 ^ m := by rw [Nat.pow_succ, Nat.mul_comm, Nat.div_div_eq_div_mul]
    rw [Nat.succ_add]
    simp only [leBytes, List.cons_append, List.cons.injEq, true_and]
    rw [h, ih]

end Sys2Proof.Machine
end

