-- ==== Sys2Proof/Laws/Encoding.lean ====
section
/-! SUPPORT. The encoder read back field by field: the words of a chain, the fields of an instruction word
and a PR word, and the immediates. -/

namespace Sys2Proof

/-! ### Words -/

/-- A chain that R93 and R102 let stand: at most four prefix words, and an instruction word that is no prefix,
no reserved word and not 0x0000. -/
structure Chain.Good (c : Chain) : Prop where
  page : c.page < 8
  q : c.page = 0 → c.q = 0
  len : (if c.page = 0 then 0 else 1) + (if c.pr.isSome then 1 else 0) + c.px.length ≤ 4
  op : opOf c.w < 60
  nz : c.w ≠ 0

theorem opOf_append (k : BitVec 6) (b : BitVec 10) : opOf (k ++ b : BitVec 16) = k.toNat := by
  have h : ((k ++ b : BitVec 16) >>> 10).toNat = k.toNat := by
    rw [BitVec.toNat_ushiftRight, BitVec.toNat_append, Nat.shiftRight_eq_div_pow]
    have hb := b.isLt
    rw [Nat.shiftLeft_eq, Nat.mul_comm, ← Nat.two_pow_add_eq_or_of_lt hb]
    omega
  exact h

theorem px_append (b : BitVec 10) : (60#6 ++ b : BitVec 16).extractLsb' 0 10 = b := by
  apply BitVec.eq_of_toNat_eq
  simp only [BitVec.extractLsb'_toNat, BitVec.toNat_append, Nat.shiftRight_zero]
  have hb := b.isLt
  rw [Nat.shiftLeft_eq, Nat.mul_comm, ← Nat.two_pow_add_eq_or_of_lt hb]
  simp
  omega

theorem prOf_append (p : PrWord) :
    prOf (61#6 ++ BitVec.ofBool p.xh ++ BitVec.ofBool p.yh ++ p.z ++ p.mode : BitVec 16) = p := by
  obtain ⟨a, b, z, m⟩ := p
  have h : ∀ (a b : Bool) (z : BitVec 5) (m : BitVec 3),
      prOf (61#6 ++ BitVec.ofBool a ++ BitVec.ofBool b ++ z ++ m : BitVec 16) = ⟨a, b, z, m⟩ := by
    decide +kernel
  exact h a b z m

theorem opOf_pr (a b : Bool) (z : BitVec 5) (m : BitVec 3) :
    opOf (61#6 ++ BitVec.ofBool a ++ BitVec.ofBool b ++ z ++ m : BitVec 16) = 61 := by
  revert a b z m
  decide +kernel

theorem pp_fields (p : BitVec 3) (q : BitVec 7) :
    opOf (62#6 ++ p ++ q : BitVec 16) = 62 ∧ (62#6 ++ p ++ q : BitVec 16).extractLsb' 7 3 = p ∧
      (62#6 ++ p ++ q : BitVec 16).extractLsb' 0 7 = q := by
  revert p q
  decide +kernel

/-- One turn of the loop of R102. -/
theorem chainLoop_cons (pp pr : Option Half) (px : List (BitVec 10)) (k : Nat) (w : Half) (rest : List Half) :
    chainLoop pp pr px k (w :: rest) =
      if opOf w = 62 then
        if pp.isSome || pr.isSome || !px.isEmpty || k ≥ 4 then .error (k, some w)
        else chainLoop (some w) pr px (k + 1) rest
      else if opOf w = 61 then
        if pr.isSome || !px.isEmpty || k ≥ 4 then .error (k, some w)
        else chainLoop pp (some w) px (k + 1) rest
      else if opOf w = 60 then
        if k ≥ 4 then .error (k, some w)
        else chainLoop pp pr (w.extractLsb' 0 10 :: px) (k + 1) rest
      else
        if opOf w = 63 || w == 0 then .error (k, some w)
        else match pp with
          | none => .ok ⟨0, 0, pr.map prOf, px.reverse, w⟩
          | some p =>
            if (p.extractLsb' 7 3).toNat = 0 then .error (k, some w)
            else .ok ⟨(p.extractLsb' 7 3).toNat, p.extractLsb' 0 7, pr.map prOf, px.reverse, w⟩ := by
  conv => lhs; unfold chainLoop
  all_goals cases pp <;> rfl

/-- The PR word of a chain, when it has one. -/
def prWords : Option PrWord → List Half
  | none => []
  | some p => [(61#6 ++ BitVec.ofBool p.xh ++ BitVec.ofBool p.yh ++ p.z ++ p.mode : BitVec 16)]

theorem Chain.words_eq (c : Chain) : c.words =
    (if c.page = 0 then [] else [(62#6 ++ BitVec.ofNat 3 c.page ++ c.q : BitVec 16)]) ++ prWords c.pr ++
      c.px.map (fun b => (60#6 ++ b : BitVec 16)) ++ [c.w] := rfl

/-- The loop of R102 passes PX words. -/
theorem chainLoop_px (pp pr : Option Half) (px acc : List (BitVec 10)) (k : Nat) (rest : List Half)
    (h : k + px.length ≤ 4) :
    chainLoop pp pr acc k (px.map (fun b => (60#6 ++ b : BitVec 16)) ++ rest) =
      chainLoop pp pr (px.reverse ++ acc) (k + px.length) rest := by
  induction px generalizing acc k with
  | nil => simp
  | cons b t ih =>
    have hk : ¬ k ≥ 4 := by simp only [List.length_cons] at h; omega
    have hop : opOf (60#6 ++ b : BitVec 16) = 60 := opOf_append 60#6 b
    rw [List.map_cons, List.cons_append, chainLoop_cons]
    simp only [hop, if_neg hk, px_append]
    rw [if_neg (by omega), if_neg (by omega), if_pos trivial,
      ih _ _ (by simp only [List.length_cons] at h; omega)]
    simp only [List.reverse_cons, List.append_assoc, List.cons_append, List.nil_append, List.length_cons]
    congr 1
    omega

/-- The words of a chain are read back as the chain. -/
theorem Chain.loop_words (c : Chain) (h : c.Good) : chainLoop none none [] 0 c.words = .ok c := by
  obtain ⟨page, q, pr, px, w⟩ := c
  obtain ⟨hp, hq, hl, ho, hn⟩ := h
  simp only at hp hq hl ho hn
  have fin : ∀ (pp pr' : Option Half) (acc : List (BitVec 10)) (k : Nat),
      chainLoop pp pr' acc k [w] =
        match pp with
        | none => .ok ⟨0, 0, pr'.map prOf, acc.reverse, w⟩
        | some p =>
          if (p.extractLsb' 7 3).toNat = 0 then .error (k, some w)
          else .ok ⟨(p.extractLsb' 7 3).toNat, p.extractLsb' 0 7, pr'.map prOf, acc.reverse, w⟩ := by
    intro pp pr' acc k
    rw [chainLoop_cons]
    have h0 : (w == 0) = false := by simpa using hn
    have h3 : ¬ (decide (opOf w = 63) || w == 0) = true := by
      rw [h0, Bool.or_false, decide_eq_true_eq]; omega
    rw [if_neg (by omega), if_neg (by omega), if_neg (by omega), if_neg h3]
  have tail : ∀ (pp pr' : Option Half) (k : Nat), k + px.length ≤ 4 →
      chainLoop pp pr' [] k (px.map (fun b => (60#6 ++ b : BitVec 16)) ++ [w]) =
        match pp with
        | none => .ok ⟨0, 0, pr'.map prOf, px, w⟩
        | some p =>
          if (p.extractLsb' 7 3).toNat = 0 then .error (k + px.length, some w)
          else .ok ⟨(p.extractLsb' 7 3).toNat, p.extractLsb' 0 7, pr'.map prOf, px, w⟩ := by
    intro pp pr' k hk
    rw [chainLoop_px _ _ _ _ _ _ hk, fin]
    simp
  have mid : ∀ (pp : Option Half) (k : Nat), k + (if pr.isSome then 1 else 0) + px.length ≤ 4 →
      chainLoop pp none [] k (prWords pr ++ px.map (fun b => (60#6 ++ b : BitVec 16)) ++ [w]) =
        match pp with
        | none => .ok ⟨0, 0, pr, px, w⟩
        | some p =>
          if (p.extractLsb' 7 3).toNat = 0 then
            .error (k + (if pr.isSome then 1 else 0) + px.length, some w)
          else .ok ⟨(p.extractLsb' 7 3).toNat, p.extractLsb' 0 7, pr, px, w⟩ := by
    intro pp k hk
    cases pr with
    | none => simpa [prWords] using tail pp none k (by simpa using hk)
    | some p =>
      have hk' : ¬ k ≥ 4 := by simp at hk; omega
      rw [prWords, List.append_assoc, List.cons_append, List.nil_append, chainLoop_cons, opOf_pr]
      rw [if_neg (by omega), if_pos rfl, if_neg (by simp; omega),
        tail pp _ (k + 1) (by simp at hk; omega)]
      cases pp <;> simp [prOf_append]
  rw [Chain.words_eq]
  simp only
  by_cases h0 : page = 0
  · subst h0
    rw [hq rfl, if_pos rfl, List.nil_append]
    exact mid none 0 (by simpa using hl)
  · obtain ⟨ho', h1, h2⟩ := pp_fields (BitVec.ofNat 3 page) q
    rw [if_neg h0, List.append_assoc, List.append_assoc, List.cons_append, List.nil_append, chainLoop_cons]
    simp only [ho']
    rw [if_pos trivial, if_neg (by simp), ← List.append_assoc,
      mid (some _) 1 (by rw [if_neg h0] at hl; omega)]
    simp only [h1, h2]
    have hpage : (BitVec.ofNat 3 page).toNat = page := by simp; omega
    simp only [hpage]
    rw [if_neg h0]

/-- An instruction whose chain stands and is read as the instruction decodes from its words. -/
theorem decode_encode_of (i : Instr) (c : Chain) (hc : chainOf i = some c) (hg : c.Good)
    (hi : c.instr = some i) : decode (encode i) = .ok i c.len := by
  unfold encode decode
  simp only [hc, Chain.loop_words c hg, hi]

/-- The length of a chain is the number of its words. -/
theorem Chain.length_words (c : Chain) : c.words.length = c.len := by
  obtain ⟨page, q, pr, px, w⟩ := c
  unfold Chain.words Chain.len
  by_cases h0 : page = 0 <;> cases pr <;> simp [h0] <;> omega

/-! ### Fields of an instruction word -/

theorem wRR_fields (op x y f : Nat) (ho : op < 60) (hf : f < 4) :
    opOf (wRR op x y f) = op ∧ ((wRR op x y f).extractLsb' 6 4).toNat = x % 16 ∧
      ((wRR op x y f).extractLsb' 2 4).toNat = y % 16 ∧ ((wRR op x y f).extractLsb' 0 2).toNat = f ∧
      (wRR op x y f).toNat = op * 1024 + x % 16 * 64 + y % 16 * 4 + f := by
  have hx : x % 16 < 16 := Nat.mod_lt _ (by decide)
  have hy : y % 16 < 16 := Nat.mod_lt _ (by decide)
  have ht : (wRR op x y f).toNat = op * 1024 + x % 16 * 64 + y % 16 * 4 + f := by
    unfold wRR
    rw [BitVec.toNat_ofNat]
    omega
  unfold opOf
  simp only [BitVec.toNat_ushiftRight, BitVec.extractLsb'_toNat, ht, Nat.shiftRight_eq_div_pow]
  refine ⟨?_, ?_, ?_, ?_, trivial⟩ <;> omega

theorem wRI_fields (op x i : Nat) (ho : op < 60) :
    opOf (wRI op x i) = op ∧ ((wRI op x i).extractLsb' 6 4).toNat = x % 16 ∧
      ((wRI op x i).extractLsb' 0 6).toNat = i % 64 ∧ (wRI op x i).toNat = op * 1024 + x % 16 * 64 + i % 64 := by
  have hx : x % 16 < 16 := Nat.mod_lt _ (by decide)
  have hy : i % 64 < 64 := Nat.mod_lt _ (by decide)
  have ht : (wRI op x i).toNat = op * 1024 + x % 16 * 64 + i % 64 := by
    unfold wRI
    rw [BitVec.toNat_ofNat]
    omega
  unfold opOf
  simp only [BitVec.toNat_ushiftRight, BitVec.extractLsb'_toNat, ht, Nat.shiftRight_eq_div_pow]
  refine ⟨?_, ?_, ?_, trivial⟩ <;> omega

/-- What the PR word of an encoded chain says of each field, present or not. -/
theorem prIf_fields (x y z mode : Nat) (must : Bool) (hz : z < 32) (hm : mode < 8) :
    (match prIf x y z mode must with | some p => p.xh | none => false) = decide (16 ≤ x) ∧
    (match prIf x y z mode must with | some p => p.yh | none => false) = decide (16 ≤ y) ∧
    (match prIf x y z mode must with | some p => p.z | none => 0).toNat = z ∧
    (match prIf x y z mode must with | some p => p.mode.toNat | none => 0) = mode ∧
    (prIf x y z mode must).isNone = !(must || decide (16 ≤ x) || decide (16 ≤ y) || z != 0 || mode != 0) := by
  unfold prIf
  by_cases h : (must || decide (x ≥ 16) || decide (y ≥ 16) || z != 0 || mode != 0) = true
  · rw [if_pos h]
    have h' : (must || decide (16 ≤ x) || decide (16 ≤ y) || z != 0 || mode != 0) = true := h
    rw [h']
    simp
    omega
  · rw [if_neg h]
    have h' : (must || decide (16 ≤ x) || decide (16 ≤ y) || z != 0 || mode != 0) = false := by
      simpa using h
    rw [h']
    simp only [Bool.or_eq_false_iff, decide_eq_false_iff_not, bne_eq_false_iff_eq] at h'
    obtain ⟨⟨⟨⟨-, h1⟩, h2⟩, h3⟩, h4⟩ := h'
    subst h3; subst h4
    simp [h1, h2]

/-! ### Immediates -/

theorem asmImm_cons (b : BitVec 10) (t : List (BitVec 10)) (fw field : Nat) :
    asmImm (b :: t) fw field = b.toNat * 1024 ^ t.length * 2 ^ fw + asmImm t fw field := by
  have h : ∀ (l : List (BitVec 10)) (a : Nat),
      l.foldl (fun a b => a * 1024 + b.toNat) a =
        a * 1024 ^ l.length + l.foldl (fun a b => a * 1024 + b.toNat) 0 := by
    intro l
    induction l with
    | nil => simp
    | cons c l ih =>
      intro a
      simp only [List.foldl_cons, List.length_cons]
      rw [ih (a * 1024 + c.toNat), ih (0 * 1024 + c.toNat)]
      ring
  unfold asmImm
  rw [List.foldl_cons, h t]
  ring

theorem pxWords_length (fw n : Nat) (v : DWord) : (pxWords fw n v).length = n := by simp [pxWords]

/-- The PX words and the field of a value together hold its low bits. -/
theorem asmImm_pxWords (fw n : Nat) (v : DWord) :
    asmImm (pxWords fw n v) fw (v.toNat % 2 ^ fw) = v.toNat % 2 ^ (10 * n + fw) := by
  induction n with
  | zero => simp [pxWords, asmImm]
  | succ n ih =>
    have hs : pxWords fw (n + 1) v = v.extractLsb' (fw + 10 * n) 10 :: pxWords fw n v := by
      simp [pxWords, List.range_succ]
    rw [hs, asmImm_cons, ih, pxWords_length, BitVec.extractLsb'_toNat, Nat.shiftRight_eq_div_pow]
    have e1 : (1024 : Nat) ^ n = 2 ^ (10 * n) := by rw [show (1024 : Nat) = 2 ^ 10 from rfl, ← pow_mul]
    have e2 : 10 * (n + 1) + fw = (fw + 10 * n) + 10 := by ring
    have e3 : 10 * n + fw = fw + 10 * n := by ring
    rw [e1, e2, e3, pow_add 2 (fw + 10 * n) 10, Nat.mod_mul, mul_assoc, ← pow_add, add_comm (10 * n) fw]
    ring

theorem sext64_of_fits (w : Nat) (v : DWord) (hw : w ≤ 50) (h : fitsS w v = true) :
    sext64 w (v.toNat % 2 ^ w) = v := by
  unfold sext64
  unfold fitsS at h
  by_cases h0 : w = 0
  · subst h0
    simp only [if_true, beq_iff_eq] at h ⊢
    exact h.symm
  rw [if_neg h0]
  rw [if_neg h0, if_neg (by omega)] at h
  simp only [Bool.and_eq_true, decide_eq_true_eq] at h
  obtain ⟨h1, h2⟩ := h
  have hp : (2 : Nat) ^ w = 2 * 2 ^ (w - 1) := by
    rw [← pow_succ']; congr 1; omega
  have hle : (2 : Nat) ^ (w - 1) ≤ 2 ^ 49 := Nat.pow_le_pow_right (by decide) (by omega)
  have hpos : 0 < (2 : Nat) ^ (w - 1) := by positivity
  have hcast : (2 : Int) ^ (w - 1) = ((2 ^ (w - 1) : Nat) : Int) := by push_cast; rfl
  have hcast2 : (2 : Int) ^ w = ((2 ^ w : Nat) : Int) := by push_cast; rfl
  rw [hcast] at h1 h2
  rw [hcast2]
  generalize hP : (2 : Nat) ^ (w - 1) = P at *
  rw [hp]
  have hv := v.isLt
  rw [BitVec.toInt_eq_toNat_cond] at h1 h2
  split at h1
  · next hlt =>
    rw [if_pos hlt] at h2
    have hvP : v.toNat < P := by omega
    rw [Nat.mod_eq_of_lt (by omega), if_neg (by omega)]
    simp
  · next hge =>
    rw [if_neg hge] at h2
    have hge' : v.toNat ≥ 2 ^ 64 - P := by omega
    have hdvd : (2 * P) ∣ 2 ^ 64 := by
      rw [← hP, ← pow_succ']
      exact pow_dvd_pow 2 (by omega)
    obtain ⟨k, hk⟩ := hdvd
    have hmod : v.toNat % (2 * P) = v.toNat - 2 * P * (k - 1) := by
      have hk1 : 1 ≤ k := by
        rcases Nat.eq_zero_or_pos k with h0 | h0
        · subst h0; simp at hk
        · exact h0
      have hk2 : 2 * P * (k - 1) = 2 ^ 64 - 2 * P := by rw [Nat.mul_sub, ← hk]; omega
      have hlt2 : v.toNat - 2 * P * (k - 1) < 2 * P := by omega
      calc v.toNat % (2 * P) = (v.toNat - 2 * P * (k - 1) + 2 * P * (k - 1)) % (2 * P) := by
            congr 1; omega
        _ = v.toNat - 2 * P * (k - 1) := by rw [Nat.add_mul_mod_self_left, Nat.mod_eq_of_lt hlt2]
    have hk2 : 2 * P * (k - 1) = 2 ^ 64 - 2 * P := by rw [Nat.mul_sub, ← hk]; omega
    rw [hmod, hk2, if_pos (by omega)]
    apply BitVec.eq_of_toInt_eq
    rw [BitVec.toInt_ofInt, BitVec.toInt_eq_toNat_cond, if_neg hge]
    have e : ((v.toNat - (2 ^ 64 - 2 * P) : Nat) : Int) - ((2 * P : Nat) : Int) = (v.toNat : Int) - 2 ^ 64 := by
      omega
    rw [e, Int.bmod_def]
    omega

/-- The count of PX words chosen fits, is at least the least allowed, and at most the room that fits. -/
theorem pxCount_spec (fits : Nat → DWord → Bool) (fw lo room : Nat) (v : DWord) (hr : room ≤ 4) (hl : lo ≤ room)
    (h : fits (10 * room + fw) v = true) :
    fits (10 * pxCount fits fw lo v + fw) v = true ∧ lo ≤ pxCount fits fw lo v ∧
      pxCount fits fw lo v ≤ room := by
  unfold pxCount
  have e : List.range 4 = [0, 1, 2, 3] := rfl
  rw [e]
  simp only [List.find?]
  have hroom : room = 0 ∨ room = 1 ∨ room = 2 ∨ room = 3 ∨ room = 4 := by omega
  have hlo : lo = 0 ∨ lo = 1 ∨ lo = 2 ∨ lo = 3 ∨ lo = 4 := by omega
  rcases hroom with rfl | rfl | rfl | rfl | rfl <;> rcases hlo with rfl | rfl | rfl | rfl | rfl <;>
    first
    | omega
    | (cases h0 : fits (10 * 0 + fw) v <;> cases h1 : fits (10 * 1 + fw) v <;>
        cases h2 : fits (10 * 2 + fw) v <;> cases h3 : fits (10 * 3 + fw) v <;> simp_all)

/-- A signed immediate that fits is read back from its PX words and field. -/
theorem immS_pxWords (fw n : Nat) (v : DWord) (hn : 10 * n + fw ≤ 50) (h : fitsS (10 * n + fw) v = true) :
    sext64 (10 * (pxWords fw n v).length + fw) (asmImm (pxWords fw n v) fw (v.toNat % 2 ^ fw)) = v := by
  rw [pxWords_length, asmImm_pxWords]
  exact sext64_of_fits _ v hn h

/-- An unsigned immediate that fits is read back. -/
theorem immU_pxWords (fw n : Nat) (v : DWord) (h : fitsU (10 * n + fw) v = true) :
    BitVec.ofNat 64 (asmImm (pxWords fw n v) fw (v.toNat % 2 ^ fw)) = v := by
  rw [asmImm_pxWords]
  unfold fitsU at h
  rw [decide_eq_true_eq] at h
  rw [Nat.mod_eq_of_lt h]
  simp

/-! ### Fields of an encoded chain -/

section
variable (page q op x y f z mode : Nat) (must : Bool) (px : List (BitVec 10))

@[simp] theorem mkRR_page : (mkRR page q op x y f z mode must px).page = page := rfl
@[simp] theorem mkRR_q : (mkRR page q op x y f z mode must px).q = BitVec.ofNat 7 q := rfl
@[simp] theorem mkRR_px : (mkRR page q op x y f z mode must px).px = px := rfl
@[simp] theorem mkRR_pr : (mkRR page q op x y f z mode must px).pr = prIf x y z mode must := rfl
theorem mkRR_op (ho : op < 60) (hf : f < 4) : opOf (mkRR page q op x y f z mode must px).w = op :=
  (wRR_fields op x y f ho hf).1
theorem mkRR_x4 (ho : op < 60) (hf : f < 4) : (mkRR page q op x y f z mode must px).x4 = x % 16 :=
  (wRR_fields op x y f ho hf).2.1
theorem mkRR_y4 (ho : op < 60) (hf : f < 4) : (mkRR page q op x y f z mode must px).y4 = y % 16 :=
  (wRR_fields op x y f ho hf).2.2.1
theorem mkRR_f (ho : op < 60) (hf : f < 4) : (mkRR page q op x y f z mode must px).f = f :=
  (wRR_fields op x y f ho hf).2.2.2.1
theorem mkRR_xh (hz : z < 32) (hm : mode < 8) :
    (mkRR page q op x y f z mode must px).xh = decide (16 ≤ x) := (prIf_fields x y z mode must hz hm).1
theorem mkRR_yh (hz : z < 32) (hm : mode < 8) :
    (mkRR page q op x y f z mode must px).yh = decide (16 ≤ y) := (prIf_fields x y z mode must hz hm).2.1
theorem mkRR_z (hz : z < 32) (hm : mode < 8) :
    (mkRR page q op x y f z mode must px).z = BitVec.ofNat 5 z := by
  apply BitVec.eq_of_toNat_eq
  rw [BitVec.toNat_ofNat, Nat.mod_eq_of_lt hz]
  exact (prIf_fields x y z mode must hz hm).2.2.1
theorem mkRR_mode (hz : z < 32) (hm : mode < 8) :
    (mkRR page q op x y f z mode must px).mode = mode := (prIf_fields x y z mode must hz hm).2.2.2.1
theorem mkRR_noPr (hz : z < 32) (hm : mode < 8) :
    (mkRR page q op x y f z mode must px).noPr =
      !(must || decide (16 ≤ x) || decide (16 ≤ y) || z != 0 || mode != 0) :=
  (prIf_fields x y z mode must hz hm).2.2.2.2

/-- An encoded RR chain stands when its PX words fit beside its other prefixes and its word is not 0x0000. -/
theorem mkRR_good (hp : page < 8) (hq : page = 0 → q = 0) (ho : op < 60) (hf : f < 4) (hz : z < 32)
    (hm : mode < 8)
    (hl : px.length + (if page = 0 then 0 else 1) +
      (must || decide (16 ≤ x) || decide (16 ≤ y) || z != 0 || mode != 0).toNat ≤ 4)
    (hw : op ≠ 0 ∨ x % 16 ≠ 0 ∨ y % 16 ≠ 0 ∨ f ≠ 0) : (mkRR page q op x y f z mode must px).Good := by
  have ht := (wRR_fields op x y f ho hf).2.2.2.2
  refine ⟨hp, fun h => ?_, ?_, ?_, ?_⟩
  · rw [mkRR_q, hq h]; rfl
  · have hn := mkRR_noPr page q op x y f z mode must px hz hm
    unfold Chain.noPr at hn
    have hs : (mkRR page q op x y f z mode must px).pr.isSome =
        (must || decide (16 ≤ x) || decide (16 ≤ y) || z != 0 || mode != 0) := by
      rw [← Option.not_isNone, hn, Bool.not_not]
    rw [mkRR_page, mkRR_px, hs]
    cases hb : (must || decide (16 ≤ x) || decide (16 ≤ y) || z != 0 || mode != 0) <;>
      simp only [hb, Bool.toNat_true, Bool.toNat_false] at hl ⊢ <;> simp <;> omega
  · rw [mkRR_op _ _ _ _ _ _ _ _ _ _ ho hf]; exact ho
  · intro h0
    have : (wRR op x y f).toNat = 0 := by
      have : wRR op x y f = 0 := h0
      rw [this]; rfl
    omega
end

/-- PX words chosen for a signed RR immediate: their number and the value they hold. -/
theorem pxRR_spec (lo room : Nat) (v : DWord) (hr : room ≤ 4) (hl : lo ≤ room)
    (h : fitsS (10 * room) v = true) :
    lo ≤ (pxRR lo v).length ∧ (pxRR lo v).length ≤ room ∧
      sext64 (10 * (pxRR lo v).length) (asmImm (pxRR lo v) 0 0) = v := by
  obtain ⟨h1, h2, h3⟩ := pxCount_spec fitsS 0 lo room v hr hl h
  unfold pxRR
  rw [pxWords_length]
  refine ⟨h2, h3, ?_⟩
  have := immS_pxWords 0 (pxCount fitsS 0 lo v) v (by omega) h1
  rwa [pxWords_length, show v.toNat % 2 ^ 0 = 0 from by simp [Nat.mod_one]] at this

/-- PX words chosen for an unsigned RR immediate. -/
theorem pxRRU_spec (lo room : Nat) (v : DWord) (hr : room ≤ 4) (hl : lo ≤ room)
    (h : fitsU (10 * room) v = true) :
    lo ≤ (pxRRU lo v).length ∧ (pxRRU lo v).length ≤ room ∧ asmImm (pxRRU lo v) 0 0 = v.toNat := by
  obtain ⟨h1, h2, h3⟩ := pxCount_spec fitsU 0 lo room v hr hl h
  unfold pxRRU
  rw [pxWords_length]
  refine ⟨h2, h3, ?_⟩
  have := asmImm_pxWords 0 (pxCount fitsU 0 lo v) v
  rw [show v.toNat % 2 ^ 0 = 0 from by simp [Nat.mod_one]] at this
  rw [this]
  unfold fitsU at h1
  rw [decide_eq_true_eq] at h1
  exact Nat.mod_eq_of_lt h1

/-- An RI chain with a signed immediate: it stands, and its fields. -/
theorem mkRI_spec (op x : Nat) (v : DWord) (ho : op < 60) (h0 : op ≠ 0) (hx : x < 16)
    (h : immOk 0 false 6 v = true) :
    (mkRI op x v).Good ∧ opOf (mkRI op x v).w = op ∧ (mkRI op x v).x4 = x ∧
      (mkRI op x v).immS 6 (mkRI op x v).imm6 = v ∧ (mkRI op x v).noPr = true ∧ (mkRI op x v).page = 0 ∧
      (mkRI op x v).q = 0 := by
  obtain ⟨h1, -, h3⟩ := pxCount_spec fitsS 6 0 4 v (by omega) (by omega) h
  obtain ⟨f1, f2, f3, f4⟩ := wRI_fields op x (v.extractLsb' 0 6).toNat ho
  have hi : (v.extractLsb' 0 6).toNat % 64 = v.toNat % 2 ^ 6 := by
    rw [BitVec.extractLsb'_toNat]; simp
  refine ⟨⟨Nat.zero_lt_succ 7, fun _ => rfl, ?_, ?_, ?_⟩, f1, ?_, ?_, rfl, rfl, rfl⟩
  · simpa [mkRI, pxWords_length] using h3
  · rw [show opOf (mkRI op x v).w = op from f1]; exact ho
  · intro hw
    have : (wRI op x (v.extractLsb' 0 6).toNat).toNat = 0 := by
      have : wRI op x (v.extractLsb' 0 6).toNat = 0 := hw
      rw [this]; rfl
    omega
  · rw [show (mkRI op x v).x4 = x % 16 from f2]; omega
  · have := immS_pxWords 6 (pxCount fitsS 6 0 v) v (by omega) h1
    have hf : (mkRI op x v).imm6 = v.toNat % 2 ^ 6 := f3.trans hi
    rw [hf]
    exact this

/-- A BR chain: it stands, and its fields. -/
theorem mkBR_spec (op : Nat) (v : DWord) (ho : op < 60) (h0 : op ≠ 0) (h : immOk 0 false 10 v = true) :
    (mkBR op v).Good ∧ opOf (mkBR op v).w = op ∧
      (mkBR op v).immS 10 ((mkBR op v).w.extractLsb' 0 10).toNat = v ∧ (mkBR op v).noPr = true ∧
      (mkBR op v).page = 0 := by
  obtain ⟨h1, -, h3⟩ := pxCount_spec fitsS 10 0 4 v (by omega) (by omega) h
  have hw : (mkBR op v).w = ((BitVec.ofNat 6 op) ++ v.extractLsb' 0 10 : BitVec 16) := by
    apply BitVec.eq_of_toNat_eq
    show (BitVec.ofNat 16 (op * 1024) ||| (v.extractLsb' 0 10).setWidth 16).toNat = _
    rw [BitVec.toNat_or, BitVec.toNat_append, BitVec.toNat_ofNat, BitVec.toNat_ofNat, BitVec.toNat_setWidth]
    have hb := (v.extractLsb' 0 10).isLt
    rw [Nat.shiftLeft_eq, Nat.mod_eq_of_lt (by omega), Nat.mod_eq_of_lt (by omega),
      Nat.mod_eq_of_lt (by omega)]
  have hop : opOf (mkBR op v).w = op := by
    rw [hw, opOf_append, BitVec.toNat_ofNat]; omega
  have hf : ((mkBR op v).w.extractLsb' 0 10).toNat = v.toNat % 2 ^ 10 := by
    rw [hw, BitVec.extractLsb'_toNat, BitVec.toNat_append]
    have hb := (v.extractLsb' 0 10).isLt
    rw [Nat.shiftLeft_eq, Nat.mul_comm, ← Nat.two_pow_add_eq_or_of_lt hb, BitVec.extractLsb'_toNat]
    simp
  refine ⟨⟨Nat.zero_lt_succ 7, fun _ => rfl, ?_, ?_, ?_⟩, hop, ?_, rfl, rfl⟩
  · simpa [mkBR, pxWords_length] using h3
  · rw [hop]; exact ho
  · intro hz
    rw [hz] at hop
    exact h0 (by rw [← hop]; rfl)
  · have := immS_pxWords 10 (pxCount fitsS 10 0 v) v (by omega) h1
    rw [hf]
    exact this

end Sys2Proof
end

