-- ==== Sys2Proof/Laws/Fabric.lean ====
section
/-! SUPPORT. Which shared operations change nothing but the fabric: packets, requests, answers and the tables of
pergolas and pod groups. A caller learns from `FabOnly` that cores, memory, launches and virtual devices stay. -/

namespace Sys2Proof.Machine

/-- A state differs from another in its fabric alone. -/
def FabOnly (s t : State) : Prop := t = { s with fab := t.fab }

namespace FabOnly

theorem refl (s : State) : FabOnly s s := rfl

theorem trans {s t u : State} (h : FabOnly s t) (g : FabOnly t u) : FabOnly s u := by
  unfold FabOnly at *; rw [g, h]

theorem fold {α : Type} {f : State → α → State} (hf : ∀ s a, FabOnly s (f s a)) (l : List α) (s : State) :
    FabOnly s (l.foldl f s) := by
  induction l generalizing s with
  | nil => exact refl s
  | cons a l ih => exact (hf s a).trans (ih _)

theorem ite {s t u : State} {p : Prop} [Decidable p] (ht : FabOnly s t) (hu : FabOnly s u) :
    FabOnly s (if p then t else u) := by split <;> assumption

theorem mem {s t : State} (h : FabOnly s t) : t.mem = s.mem := by rw [h]
theorem mtag {s t : State} (h : FabOnly s t) : t.mtag = s.mtag := by rw [h]
theorem core {s t : State} (h : FabOnly s t) (k : Nat) : t.core k = s.core k := by rw [h]; rfl
theorem ctx {s t : State} (h : FabOnly s t) (w : Who) : t.ctx w = s.ctx w := by rw [h]; rfl
theorem launchOf {s t : State} (h : FabOnly s t) (l : Nat) : t.launchOf l = s.launchOf l := by rw [h]; rfl
theorem vdev {s t : State} (h : FabOnly s t) (v : Nat) : t.vdev v = s.vdev v := by rw [h]; rfl
theorem queue {s t : State} (h : FabOnly s t) (q : Nat) : t.queue q = s.queue q := by rw [h]; rfl

end FabOnly

/-! ### Packets and requests (R428, R432, R433) -/

theorem sendPkt_fabOnly (p : Packet) (s : State) : FabOnly s (sendPkt p s) := rfl
theorem setReq_fabOnly (n : Nat) (r : Option Req) (s : State) : FabOnly s (setReq n r s) := rfl
theorem routeReq_fabOnly (n : Nat) (r : Req) (s : State) : FabOnly s (routeReq n r s) :=
  .ite (setReq_fabOnly ..) (.trans (sendPkt_fabOnly r.pkt s) (setReq_fabOnly ..))
theorem issueReq_fabOnly (ag : Agent) (p : Packet) (s : State) : FabOnly s (issueReq ag p s) :=
  .trans (t := { s with fab := { s.fab with nextReq := (freshId s + 1) % 2 ^ 32 } }) rfl (routeReq_fabOnly ..)
theorem forgetReqs_fabOnly (gone : Agent → Bool) (s : State) : FabOnly s (forgetReqs gone s) := rfl

theorem reply_fabOnly (p : Packet) (n : Nat) (b : List Byte) (s : State) : FabOnly s (reply p n b s) := by
  unfold reply
  exact .ite (.trans (sendPkt_fabOnly _ s) rfl) (sendPkt_fabOnly ..)
theorem replyMoved_fabOnly (p : Packet) (d v : Nat) (s : State) : FabOnly s (replyMoved p d v s) := sendPkt_fabOnly ..

/-! ### Pergolas (R441, R442) -/

theorem pgPkt_fabOnly (pg d v : Nat) (b : List Byte) (s : State) : FabOnly s (pgPkt pg d v b s) := sendPkt_fabOnly ..
theorem pergTell_fabOnly (pg : Nat) (b : List Byte) (s : State) : FabOnly s (pergTell pg b s) :=
  .trans (.fold (fun s x => pgPkt_fabOnly pg x.1 x.2 b s) (pergTargets pg s) s) (.fold (fun _ _ => pgPkt_fabOnly ..) ..)
theorem markMember_fabOnly (pg k op : Nat) (s : State) : FabOnly s (markMember pg k op s) := rfl
theorem pergMark_fabOnly (pg k op : Nat) (s : State) : FabOnly s (pergMark pg k op s) :=
  .trans (markMember_fabOnly pg k op s) (pergTell_fabOnly ..)
theorem holdMember_fabOnly (pg k d v c : Nat) (n p : Bool) (s : State) : FabOnly s (holdMember pg k d v c n p s) := rfl
theorem tellMembers_fabOnly (l : LaunchSt) (p : Bool) (cs : List (Nat × Nat)) (s : State) :
    FabOnly s (tellMembers l p cs s) := by
  unfold tellMembers
  refine .fold (fun s x => ?_) cs s
  exact .trans (holdMember_fabOnly ..) (.fold (fun _ _ => pgPkt_fabOnly ..) _ _)
theorem tellMember_fabOnly (k : Nat) (s : State) : FabOnly s (tellMember k s) := by
  unfold tellMember
  split
  · exact .refl s
  · exact .trans (.ite (.refl s) (pergMark_fabOnly ..)) (.ite (.refl _) (pergMark_fabOnly ..))

/-! ### What follows a virtual device that has moved (R441, R443) -/

theorem passOn_fabOnly (p : Packet) (l : List (Nat × Nat)) (s : State) : FabOnly s (passOn p l s) :=
  .fold (fun _ _ => sendPkt_fabOnly ..) ..
theorem holdMark_fabOnly (p : Packet) (s : State) : FabOnly s (holdMark p s) := rfl

/-! ### Faults (R396) -/

/-- Renaming the parties of faults touches the faults of the virtual device and the answers on the links. -/
theorem renameFaults_eq (f : Party → Party) (v : Nat) (s : State) :
    renameFaults f v s = { s with vdevs := (renameFaults f v s).vdevs, links := (renameFaults f v s).links } := rfl

end Sys2Proof.Machine
end

