-- ==== Sys2Proof/Laws/Units.lean ====
section
/-! SUPPORT. What the words of an exchange transfer and the units of a copy do, and where units stand. -/

namespace Sys2Proof.Machine

/-! ### Exchange transfers (R415, R417) -/

/-- A byte of local memory after a store. -/
theorem get_lm_store_all (c : CoreSt) (o : Nat) (bs : List Byte) (a : Nat) :
    (c.store o bs).lm.get a = (if o ≤ a then bs[a - o]? else none).getD (c.lm.get a) := by
  simp only [CoreSt.store, SMap.get_putList]
  by_cases h : o ≤ a
  · by_cases h' : a < o + bs.length
    · have : a - o < bs.length := by omega
      simp [h, h', this]
    · have : bs.length ≤ a - o := by omega
      simp [h, h', this]
  · simp [h]

/-- Stored words change a byte as its own value before alone says. -/
theorem get_lm_fold_congr (l : List (Nat × List Byte)) (c d : CoreSt) (a : Nat)
    (h : c.lm.get a = d.lm.get a) :
    (l.foldl (fun c p => c.store p.1 p.2) c).lm.get a = (l.foldl (fun c p => c.store p.1 p.2) d).lm.get a := by
  induction l generalizing c d with
  | nil => exact h
  | cons p t ih => exact ih _ _ (by simp only [get_lm_store_all, h])

/-- Words that lie elsewhere leave a byte as it is. -/
theorem get_lm_fold_ne (l : List (Nat × List Byte)) (c : CoreSt) (a : Nat)
    (h : ∀ p ∈ l, p.1 + p.2.length ≤ a) :
    (l.foldl (fun c p => c.store p.1 p.2) c).lm.get a = c.lm.get a := by
  induction l generalizing c with
  | nil => rfl
  | cons p t ih =>
    rw [List.foldl_cons, ih _ fun q hq => h q (List.mem_cons_of_mem _ hq),
      get_lm_store c p.1 p.2 (.inr (h p (List.mem_cons_self ..)))]

/-- A store below or above words still to be written: landing comes to the same byte. -/
theorem get_land_store (c : CoreSt) (o : Nat) (bs : List Byte) (a : Nat)
    (h : ∀ p ∈ c.landing, p.1 + p.2.length ≤ o) :
    (c.store o bs).land.lm.get a = (if o ≤ a then bs[a - o]? else none).getD (c.land.lm.get a) := by
  by_cases ho : o ≤ a
  · have h' : ∀ p ∈ c.landing, p.1 + p.2.length ≤ a := fun p hp => Nat.le_trans (h p hp) ho
    have e1 := get_lm_fold_ne c.landing { c.store o bs with landing := [] } a h'
    have e2 := get_lm_fold_ne c.landing { c with landing := [] } a h'
    have e3 := get_lm_store_all c o bs a
    simp only [CoreSt.land]
    exact e1.trans (e3.trans (by rw [e2]))
  · simp only [ho, if_false, Option.getD_none]
    exact get_lm_fold_congr _ _ _ _ (by
      have := get_lm_store_all c o bs a
      simpa [ho] using this)

/-- A word left to be written: landing writes it last. -/
theorem get_land_late (c : CoreSt) (o : Nat) (bs : List Byte) (a : Nat) :
    ({ c with landing := c.landing ++ [(o, bs)] } : CoreSt).land.lm.get a =
      (if o ≤ a then bs[a - o]? else none).getD (c.land.lm.get a) := by
  simp only [CoreSt.land, List.foldl_append, List.foldl_cons, List.foldl_nil]
  exact get_lm_store_all _ o bs a

/-- The bytes of a transfer in a byte of the receiver: eight of them at a word, the rest behind it. -/
theorem word_then_rest (o : Nat) (bs : List Byte) (a : Nat) (x : Byte) :
    (if o + 8 ≤ a then (bs.drop 8)[a - (o + 8)]? else none).getD
        ((if o ≤ a then (bs.take 8)[a - o]? else none).getD x) =
      (if o ≤ a then bs[a - o]? else none).getD x := by
  by_cases h : o + 8 ≤ a
  · have h1 : o ≤ a := by omega
    have h2 : ¬ a - o < 8 := by omega
    have h3 : 8 + (a - (o + 8)) = a - o := by omega
    simp [h, h1, h2, h3, List.getElem?_drop]
  · by_cases h1 : o ≤ a
    · have h2 : a - o < 8 := by omega
      simp [h, h1, h2]
    · simp [h, h1]

/-- What the words of a transfer do at its receiver: a byte of it is written now or not yet, and once the
words have landed all of them are written. -/
theorem get_landWords (n free o : Nat) (bs : List Byte) (c : CoreSt) (hn : bs.length ≤ 8 * n)
    (h : ∀ p ∈ c.landing, p.1 + p.2.length ≤ o) (a : Nat) :
    (landWords n free o bs c).land.lm.get a =
      (if o ≤ a then bs[a - o]? else none).getD (c.land.lm.get a) := by
  induction n generalizing free o bs c with
  | zero =>
    have : bs = [] := List.eq_nil_of_length_eq_zero (by omega)
    subst this
    simp [landWords]
  | succ n ih =>
    have hd : (bs.drop 8).length ≤ 8 * n := by simp; omega
    simp only [landWords]
    split
    · rw [ih _ _ _ _ hd, get_land_late, word_then_rest]
      intro p hp
      rcases List.mem_append.1 hp with hp | hp
      · have := h p hp; omega
      · rw [List.mem_singleton.1 hp]
        have := List.length_take_le 8 bs
        exact Nat.add_le_add_left this o
    · rw [ih _ _ _ _ hd, get_land_store c o _ a h, word_then_rest]
      intro p hp
      have := h p hp
      show p.1 + p.2.length ≤ o + 8
      omega

/-- Until then a byte at the receiver is as before or as the transfer writes it. -/
theorem get_landWords_now (n free o : Nat) (bs : List Byte) (c : CoreSt) (a : Nat) :
    (landWords n free o bs c).lm.get a = c.lm.get a ∨
      o ≤ a ∧ bs[a - o]? = some ((landWords n free o bs c).lm.get a) := by
  induction n generalizing free o bs c with
  | zero => exact .inl rfl
  | succ n ih =>
    simp only [landWords]
    rcases ih (free + 1) (o + 8) (bs.drop 8) (if (Config.freeValue free).getLsbD 0 then
        { c with landing := c.landing ++ [(o, bs.take 8)] } else c.store o (bs.take 8)) with h | ⟨h, h'⟩
    · rw [h]
      split
      · exact .inl rfl
      · rw [get_lm_store_all]
        by_cases ho : o ≤ a
        · by_cases ha : a - o < (bs.take 8).length
          · have hb : a - o < bs.length := Nat.lt_of_lt_of_le ha (List.length_take_le' 8 bs)
            refine .inr ⟨ho, ?_⟩
            have h8 : a - o < 8 := Nat.lt_of_lt_of_le ha (List.length_take_le 8 bs)
            simp [ho, hb, h8]
          · refine .inl ?_
            rw [if_pos ho, List.getElem?_eq_none (by omega)]
            rfl
        · exact .inl (by simp [ho])
    · refine .inr ⟨by omega, ?_⟩
      rw [List.getElem?_drop] at h'
      have : 8 + (a - (o + 8)) = a - o := by omega
      rwa [this] at h'

/-! ### Copies (R262) -/

/-- A unit of a copy whose source bytes the command has not written, and does not write, is copied as read. -/
theorem mixUnit_apart (n0 b i src dst : Nat) (sa da : DWord) (free : Nat) (now : List Byte) (n : Nat)
    (l : List Byte) (j : Nat) (h : SMap (List (Nat × Byte))) (hl : j + l.length ≤ n)
    (hs : ∀ k, k < n → h.get (src + k) = []) (hd : ∀ k m, k < n → m < n → src + k ≠ dst + m) :
    (mixUnit n0 b i src dst sa da free now j l h).1 = l := by
  induction l generalizing j h with
  | nil => rfl
  | cons x t ih =>
    simp only [List.length_cons] at hl
    simp only [mixUnit]
    have h0 := hs j (by omega)
    rw [ih (j + 1) _ (by omega)]
    · simp [h0, asOf]
    · intro k hk
      rw [SMap.get_put_ne _ _ (hd k j hk (by omega))]
      exact hs k hk

/-! ### Places of units (R3, R473) -/

/-- n entries picked of a list are n different entries of it, whatever the picks. -/
theorem pickFrom_nodup (pick : Nat → Nat) (n : Nat) (l : List Nat) (h : l.Nodup) (hn : n ≤ l.length) :
    (pickFrom pick n l).Nodup ∧ (pickFrom pick n l).length = n ∧ ∀ x ∈ pickFrom pick n l, x ∈ l := by
  induction n generalizing l with
  | zero => simp [pickFrom]
  | succ n ih =>
    have hk : pick n % max 1 l.length < l.length := by
      have := Nat.mod_lt (pick n) (show 0 < max 1 l.length by omega); omega
    simp only [pickFrom]
    generalize pick n % max 1 l.length = k at hk
    obtain ⟨h1, h2, h3⟩ := ih (l.eraseIdx k) (h.sublist (List.eraseIdx_sublist l k))
      (by rw [List.length_eraseIdx_of_lt hk]; omega)
    have hx : l.getD k 0 = l[k] := by simp [hk]
    refine ⟨List.nodup_cons.mpr ⟨fun hm => ?_, h1⟩, by simp [h2], fun x hx' => ?_⟩
    · obtain ⟨i, hi, he⟩ := List.mem_iff_getElem.mp (h3 _ hm)
      rw [hx, List.getElem_eraseIdx] at he
      have hl := List.length_eraseIdx_of_lt hk
      split at he
      · have := (List.Nodup.getElem_inj_iff h).mp he; omega
      · have := (List.Nodup.getElem_inj_iff h).mp he; omega
    · rcases List.mem_cons.mp hx' with rfl | hm
      · rw [hx]; exact List.getElem_mem hk
      · exact (List.eraseIdx_sublist l k).subset (h3 _ hm)

/-- R3: the 144 logical clusters of a die stand at different places of its array, and the four logical cores of a
cluster on different physical cores. -/
theorem places_distinct (die cl : Nat) :
    ((clusterPlaces die).Nodup ∧ (clusterPlaces die).length = 144 ∧ ∀ p ∈ clusterPlaces die, p < 156) ∧
    ((corePlaces cl).Nodup ∧ (corePlaces cl).length = 4 ∧ ∀ k ∈ corePlaces cl, k < 5) := by
  have a := pickFrom_nodup (Config.clusterPick die) 144 (List.range 156) List.nodup_range (by simp)
  have b := pickFrom_nodup (Config.corePick cl) 4 (List.range 5) List.nodup_range (by simp)
  exact ⟨⟨a.1, a.2.1, fun p h => List.mem_range.mp (a.2.2 p h)⟩, b.1, b.2.1, fun k h => List.mem_range.mp (b.2.2 k h)⟩

end Sys2Proof.Machine
end

