-- ==== Sys2Proof/Tests/Slice0.lean ====
section
/-! SUPPORT. The model's own tests: ill-formed terms that well-formedness refuses, words that decode, results
of single steps, and for every statement states and operands that meet its hypotheses (`test_witness_…`, with
the clauses in the statement's order). -/

namespace Sys2Proof.Tests

open Sys2Proof Sys2Proof.Machine

-- one theorem after the other: each thread of the checker reserves its own stack
set_option Elab.async false

/-! ### Well-formedness -/

/-- R96, R101: immediates and offsets beyond their fields. -/
theorem test_wf_immediates :
    Instr.wf (.li ⟨1, 2 ^ 45⟩) = false ∧ Instr.wf (.ali ⟨1, 2 ^ 45⟩) = false ∧ Instr.wf (.b (2 ^ 49)) = false ∧
    Instr.wf (.bcqT (2 ^ 45)) = false ∧ Instr.wf (.beq ⟨1, 2, 2 ^ 39⟩) = false ∧ Instr.wf (.loop ⟨1, 2 ^ 46⟩) = false ∧
    Instr.wf (.ld ⟨1, .w64, false, ⟨2, 3, 2 ^ 29⟩⟩) = false ∧ Instr.wf (.ld ⟨1, .w64, false, ⟨2, 0, 2 ^ 39⟩⟩) = false ∧
    Instr.wf (.ldq ⟨0, .w8, true, ⟨2, 0, 2 ^ 29⟩⟩) = false ∧ Instr.wf (.st ⟨1, .w8, ⟨2, 1, 2 ^ 29⟩⟩) = false ∧
    Instr.wf (.stq ⟨1, .w8, ⟨2, 1, 2 ^ 29⟩⟩) = false ∧ Instr.wf (.lds ⟨0, .w8, false, 1, ⟨2, 2 ^ 29⟩⟩) = false ∧
    Instr.wf (.ldc ⟨1, ⟨2, 0, 2 ^ 39⟩⟩) = false ∧ Instr.wf (.touch ⟨2, 1, 2 ^ 29⟩) = false ∧
    Instr.wf (.vld ⟨16, ⟨2, 0, 2 ^ 29⟩, 0⟩) = false ∧ Instr.wf (.vldm ⟨1, ⟨2, 0, 2 ^ 39⟩⟩) = false ∧
    Instr.wf (.vldx ⟨1, 2, ⟨3, 2 ^ 29⟩, 0⟩) = false ∧ Instr.wf (.ldacq ⟨1, .w8, ⟨2, 0, 2 ^ 29⟩, .pod⟩) = false ∧
    Instr.wf (.amo .add ⟨1, 2, ⟨3, 2 ^ 19⟩, true, .ar, .pod⟩) = false ∧ Instr.wf (.cas ⟨1, 2, ⟨3, 2 ^ 19⟩, true, .ar, .pod⟩) = false ∧
    Instr.wf (.vamo ⟨1, 2, ⟨3, 2 ^ 19⟩, .pod⟩) = false ∧ Instr.wf (.fetake ⟨1, ⟨2, 0, 2 ^ 19⟩, .pod⟩) = false ∧
    Instr.wf (.hstart ⟨1, 2, 2 ^ 29⟩) = false ∧ Instr.wf (.sends (2 ^ 30)) = false ∧
    Instr.wf (.mxctx ⟨1, 0, 2 ^ 29⟩) = false ∧ Instr.wf (.mxldb ⟨1, ⟨2, 0, 2 ^ 29⟩⟩) = false ∧
    Instr.wf (.mxmma ⟨0, ⟨2, 0, 2 ^ 19⟩, 1⟩) = false ∧ Instr.wf (.mxdrain ⟨0, ⟨2, 0, 2 ^ 29⟩⟩) = false ∧
    Instr.wf (.mxsave ⟨0, ⟨2, 0, 2 ^ 29⟩⟩) = false ∧ Instr.wf (.mxup ⟨2, 0, 2 ^ 29⟩) = false ∧
    Instr.wf (.mxmbx ⟨some .core, ⟨2, 0, 2 ^ 29⟩⟩) = false ∧ Instr.wf (.cpyw ⟨1, 2, 3, 2 ^ 19⟩) = false ∧
    Instr.wf (.prrdm ⟨1, ⟨2, 0, 2 ^ 29⟩⟩) = false ∧ Instr.wf (.prls ⟨2, 0, 2 ^ 29⟩) = false := by decide

/-- R92, R95, R98, R147, R148, R162: registers, formats and roundings that no encoding of the form holds. -/
theorem test_wf_forms :
    Instr.wf (.add ⟨16, 2, none⟩) = false ∧ Instr.wf (.fadd ⟨1, 2, none, .e4m3, .rne⟩) = false ∧
    Instr.wf (.fadd ⟨1, 2, none, .fp32, .sr⟩) = false ∧ Instr.wf (.fadd ⟨16, 16, some 1, .fp32, .rne⟩) = false ∧
    Instr.wf (.fmin ⟨1, 2, none, .fp32, .rtz⟩) = false ∧ Instr.wf (.fabs ⟨1, 2, 3, .fp32, .rne⟩) = false ∧
    Instr.wf (.fsqrt ⟨1, 2, 3, .fp32, .rne⟩) = false ∧ Instr.wf (.ffma ⟨1, 2, 3, .fp32, .sr⟩) = false ∧
    Instr.wf (.fcmpEq ⟨1, 2, .e2m1⟩) = false ∧ Instr.wf (.fcvtF2f ⟨1, 2, 3, .fp32, .bf16, .rtz⟩) = false ∧
    Instr.wf (.fcvtF2i ⟨1, 2, 3, .fp32, .rtz⟩) = false ∧ Instr.wf (.vadd ⟨⟨1, 2, none, .fp32, .rne⟩, 1⟩) = false ∧
    Instr.wf (.vadd ⟨⟨0, 16, some 1, .fp32, .rne⟩, 1⟩) = false ∧ Instr.wf (.viadd ⟨⟨1, 2, none⟩, 1⟩) = false ∧
    Instr.wf (.vabs ⟨⟨1, 2, 0, .fp32, .sr⟩, 0⟩) = false ∧ Instr.wf (.vfma ⟨⟨1, 2, 3, .e5m2, .rne⟩, 0⟩) = false ∧
    Instr.wf (.vsum ⟨1, 2, .e4m3, 0⟩) = false ∧ Instr.wf (.vcvtI2f ⟨⟨1, 2, 3, .fp32, .rne⟩, 0⟩) = false ∧
    Instr.wf (.vf2x ⟨⟨1, 2, 3⟩, 0⟩) = false ∧ Instr.wf (.vdot ⟨⟨1, 2, 3, .fp32, .rne⟩, 0⟩) = false ∧
    Instr.wf (.sts ⟨0, .w8, true, 0, ⟨2, 0⟩⟩) = false ∧ Instr.wf (.ldm ⟨1, 0, ⟨2, 0⟩⟩) = false ∧
    Instr.wf (.stm ⟨1, 32, ⟨2, 0⟩⟩) = false ∧ Instr.wf (.mxctx ⟨0, 0, 0⟩) = false ∧
    Instr.wf (.mxmbx ⟨none, ⟨1, 0, 0⟩⟩) = false ∧ Instr.wf (.cpy ⟨0, 0, 1, 0⟩) = false ∧
    Instr.wf (.cpfil ⟨1, 2, 3, 0⟩) = false ∧ Instr.wf (.cpcode ⟨1, 2, 3, 0⟩) = false ∧
    Instr.wf (.crall ⟨1, 0, 3, 0⟩) = false ∧ Instr.wf (.priss ⟨0, ⟨0, 0, 0⟩⟩) = false ∧
    Instr.wf (.prstat ⟨1, ⟨2, 0, 1⟩⟩) = false := by decide

/-- R6, R7, R426, R435: identifiers of events beyond their ranges. -/
theorem test_wf_events :
    Instr.wf (.rngWrite 2304 .write 0) = false ∧ Instr.wf (.statusWrite ⟨0, 11⟩ .write 0) = false ∧
    Instr.wf (.streamElement ⟨2304, 0⟩) = false ∧ Instr.wf (.movingRetry (2 ^ 32)) = false ∧
    Instr.wf (.groupStart 0 0 2304) = false ∧ Instr.wf (.faultEntryWrite 65536) = false ∧
    Instr.wf (.read { (default : Packet) with port := 12 }) = false ∧
    Instr.wf (.write { (default : Packet) with score := 4096 }) = false ∧
    Instr.wf (.msg { (default : Packet) with sctx := 16 }) = false ∧
    Instr.wf (.linkReplay 0 4 0) = false ∧ Instr.wf (.portRetrain 12 true true) = false ∧
    Instr.wf (.migrationCommit 65536) = false ∧ Instr.wf (.pageMove 0 65536 0) = false ∧
    Instr.wf (.vdcreate { (default : MgmtReq) with sdev := 4096 }) = false ∧
    Instr.wf (.selfTest 2880) = false ∧ Instr.wf (.correctedErrorLimit 2880) = false ∧ Instr.wf (.thermalLimit 576 none) = false ∧
    Instr.wf (.grant 0 576 true) = false := by decide

/-! ### Decoding: the words of each family from its encoding (R90 to R101) -/

/-- Page 0: HALT is op 0 with x 4, ADD op 32, LI op 30; LD.z64 stands behind a PX word. -/
theorem test_words_page0 :
    decode [0x0040] = .ok .halt 1 ∧ decodeTableWord 16 0x0040 = some .halt ∧
    decode [0x8048] = .ok (.add ⟨1, 2, none⟩) 1 ∧ decode [0x797F] = .ok (.li ⟨5, -1⟩) 1 ∧
    decode [0xF005, 0x204B] = .ok (.ld ⟨1, .w64, false, ⟨2, 0, 5⟩⟩) 2 := by decide

/-- Pages 1 to 6. -/
theorem test_words_pages :
    decode [0xF881, 0x0048] = .ok (.fadd ⟨1, 2, none, .fp32, .rtz⟩) 2 ∧
    decode [0xF900, 0xF419, 0x0848] = .ok (.viadd ⟨⟨1, 2, some 3⟩, 1⟩) 3 ∧
    decode [0xF9B0, 0xF41C, 0x004B] = .ok (.amo .add ⟨1, 3, ⟨2, 0⟩, true, .ar, .package⟩) 3 ∧
    decode [0xFA00, 0x0803] = .ok .mxswp 2 ∧ decode [0xFA80, 0xF418, 0x0048] = .ok (.cpy ⟨1, 2, 3, 0⟩) 3 ∧
    decode [0xFB00, 0x0002] = .ok .prapl 2 := by decide

/-- R102: the all-zero word, a reserved major opcode, five prefixes, a chain cut short. -/
theorem test_words_refused :
    decode [0x0000] = .bad 0 (some 0) ∧ decode [0xFC00] = .bad 0 (some 0xFC00) ∧
    (decode [0xF000, 0xF000, 0xF000, 0xF000, 0xF000] matches .bad _ _) ∧ (decode [0xF881] matches .bad _ _) := by
  decide

/-! ### A word of every instruction, with x 1, y 2 and, where a PR word stands, z 3 (R90 to R101)

Each chain is PP, PR, PX and the instruction word as chapter 08 lays them out; the opcode and f are those of
R100, and the fields above are put where R91 and R94 say. -/

/-- Page 0, system and the address half. -/
theorem test_words_system_and_addresses :
    ∀ p ∈ ([(0x0001, .nop), (0x0040, .halt), (0x0080, .yield), (0x00C0, .isync), (0x0100, .wfe), (0x0140, .eret),
      (0x0186, .trap 6), (0x01C0, .brk), (0x0445, .ali ⟨1, 5⟩), (0x0845, .aaddi ⟨1, 5⟩), (0x0C48, .aadd ⟨1, 2, none⟩),
      (0x0C49, .asub ⟨1, 2, none⟩), (0x0C4A, .amul ⟨1, 2, none⟩), (0x0C4B, .aand ⟨1, 2, none⟩),
      (0x1048, .aor ⟨1, 2, none⟩), (0x1049, .axor ⟨1, 2, none⟩), (0x104A, .ashl ⟨1, 2, none⟩),
      (0x104B, .ashr ⟨1, 2, none⟩), (0x1448, .asar ⟨1, 2, none⟩), (0x1449, .amov ⟨1, 2⟩), (0x1442, .xpop 1),
      (0x144B, .aqp 1 2), (0x1848, .cbnd ⟨1, 2, none⟩), (0x1849, .cprm ⟨1, 2, none⟩), (0x184A, .cseal ⟨1, 2, none⟩),
      (0x184B, .cunsl ⟨1, 2, none⟩), (0x1C48, .ctag ⟨1, 2⟩), (0x1C49, .cbase ⟨1, 2⟩), (0x1C4A, .clen ⟨1, 2⟩),
      (0x1C4B, .cclr ⟨1, 2⟩)] : List (Half × Instr)), decode [p.1] = .ok p.2 1 := by decide

/-- Page 0, memory. -/
theorem test_words_memory :
    ∀ p ∈ ([([0x204B], .ld ⟨1, .w64, false, ⟨2, 0, 0⟩⟩), ([0xF419, 0x204A], .ld ⟨1, .w32, true, ⟨2, 3, 0⟩⟩),
      ([0x244B], .ldq ⟨1, .w64, false, ⟨2, 0, 0⟩⟩), ([0x2849], .st ⟨1, .w16, ⟨2, 0, 0⟩⟩),
      ([0x2C48], .stq ⟨1, .w8, ⟨2, 0, 0⟩⟩), ([0xF419, 0x304B], .lds ⟨1, .w64, true, 3, ⟨2, 0⟩⟩),
      ([0x344B], .sts ⟨1, .w64, false, 0, ⟨2, 0⟩⟩), ([0x3848], .ldc ⟨1, ⟨2, 0, 0⟩⟩), ([0x3849], .stc ⟨1, ⟨2, 0, 0⟩⟩),
      ([0x380A], .touch ⟨2, 0, 0⟩), ([0x380B], .touchN ⟨2, 0, 0⟩), ([0x3C49], .ldm ⟨1, 2, ⟨2, 0⟩⟩),
      ([0x4049], .stm ⟨1, 2, ⟨2, 0⟩⟩), ([0x6448], .vld ⟨1, ⟨2, 0, 0⟩, 0⟩), ([0x6449], .vldBf ⟨1, ⟨2, 0, 0⟩, 0⟩),
      ([0x64CA], .vldm ⟨3, ⟨2, 0, 0⟩⟩), ([0xF41D, 0x644B], .vldx ⟨1, 3, ⟨2, 0⟩, 5⟩), ([0x6848], .vst ⟨1, ⟨2, 0, 0⟩, 0⟩),
      ([0x6849], .vstBf ⟨1, ⟨2, 0, 0⟩, 0⟩), ([0x68CA], .vstm ⟨3, ⟨2, 0, 0⟩⟩), ([0xF41D, 0x684B], .vstx ⟨1, 3, ⟨2, 0⟩, 5⟩),
      ([0x6C4B], .ldacq ⟨1, .w64, ⟨2, 0, 0⟩, .package⟩), ([0xF41D, 0x704B], .strel ⟨1, .w64, ⟨2, 3, 0⟩, .pod⟩)] :
      List (List Half × Instr)), decode p.1 = .ok p.2 p.1.length := by decide

/-- Page 0, control flow. -/
theorem test_words_control :
    ∀ p ∈ ([([0x4405], .b 5), ([0x4BFF], .call (-1)), ([0x4C05], .bcqT 5), ([0x4C45], .bcqF 5), ([0x5045], .bz ⟨1, 5⟩),
      ([0x5445], .bnz ⟨1, 5⟩), ([0xF005, 0x5848], .beq ⟨1, 2, 5⟩), ([0xF3FF, 0x5849], .bne ⟨1, 2, -1⟩),
      ([0xF005, 0x584A], .blt ⟨1, 2, 5⟩), ([0xF005, 0x584B], .bge ⟨1, 2, 5⟩), ([0x5C00], .ret), ([0x5C41], .jr 1),
      ([0x5C4A], .jlr ⟨1, 2⟩), ([0x607F], .loop ⟨1, 63⟩)] : List (List Half × Instr)),
      decode p.1 = .ok p.2 p.1.length := by decide

/-- Page 0, the execute half. -/
theorem test_words_execute :
    ∀ p ∈ ([(0x7440, .xpush 1), (0x7845, .li ⟨1, 5⟩), (0x7C45, .addi ⟨1, 5⟩), (0x8048, .add ⟨1, 2, none⟩),
      (0x8049, .sub ⟨1, 2, none⟩), (0x804A, .mul ⟨1, 2, none⟩), (0x804B, .mulh ⟨1, 2, none⟩), (0x8448, .dand ⟨1, 2, none⟩),
      (0x8449, .dor ⟨1, 2, none⟩), (0x844A, .dxor ⟨1, 2, none⟩), (0x844B, .shl ⟨1, 2, none⟩), (0x8848, .shr ⟨1, 2, none⟩),
      (0x8849, .sar ⟨1, 2, none⟩), (0x884A, .min ⟨1, 2, none⟩), (0x884B, .max ⟨1, 2, none⟩), (0x8C48, .minz ⟨1, 2, none⟩),
      (0x8C49, .maxz ⟨1, 2, none⟩), (0x8C4A, .div ⟨1, 2, none⟩), (0x8C4B, .rem ⟨1, 2, none⟩), (0x9048, .mov ⟨1, 2⟩),
      (0x9049, .sel ⟨1, 2, none⟩), (0x904A, .divz ⟨1, 2, none⟩), (0x904B, .remz ⟨1, 2, none⟩), (0x9448, .cmpEq ⟨1, 2⟩),
      (0x9449, .cmpNe ⟨1, 2⟩), (0x944A, .cmpLt ⟨1, 2⟩), (0x944B, .cmpLtz ⟨1, 2⟩), (0x9840, .cqp 1)] :
      List (Half × Instr)), decode [p.1] = .ok p.2 1 := by decide

/-- Page 1. -/
theorem test_words_page1 :
    ∀ p ∈ ([([0xF885, 0xF798, 0x0048], .fadd ⟨17, 18, some 19, .bf16, .rtz⟩), ([0xF880, 0x0049], .fsub ⟨1, 2, none, .fp32, .rne⟩),
      ([0xF880, 0x004A], .fmul ⟨1, 2, none, .fp32, .rne⟩), ([0xF880, 0x004B], .fmin ⟨1, 2, none, .fp32, .rne⟩),
      ([0xF880, 0x0448], .fmax ⟨1, 2, none, .fp32, .rne⟩), ([0xF880, 0x0449], .fabs ⟨1, 2, 0, .fp32, .rne⟩),
      ([0xF880, 0x044A], .fneg ⟨1, 2, 0, .fp32, .rne⟩), ([0xF880, 0x044B], .fsqrt ⟨1, 2, 0, .fp32, .rne⟩),
      ([0xF881, 0xF418, 0x0848], .ffma ⟨1, 2, 3, .fp32, .rtz⟩), ([0xF884, 0x0C48], .fcmpEq ⟨1, 2, .bf16⟩),
      ([0xF884, 0x0C49], .fcmpLt ⟨1, 2, .bf16⟩), ([0xF884, 0x0C4A], .fcmpLe ⟨1, 2, .bf16⟩),
      ([0xF884, 0x0C4B], .fcmpUn ⟨1, 2, .bf16⟩), ([0xF885, 0xF400, 0x1048], .fcvtF2f ⟨1, 2, 0, .bf16, .fp32, .rtz⟩),
      ([0xF885, 0x1049], .fcvtF2i ⟨1, 2, 0, .bf16, .rtz⟩), ([0xF885, 0x104A], .fcvtI2f ⟨1, 2, 0, .bf16, .rtz⟩),
      ([0xF880, 0x1448], .frcp ⟨1, 2, 0, .fp32, .rne⟩), ([0xF880, 0x1449], .frsq ⟨1, 2, 0, .fp32, .rne⟩),
      ([0xF881, 0x144A], .fdiv ⟨1, 2, none, .fp32, .rtz⟩), ([0xF880, 0xF018, 0x1848], .f2x ⟨1, 2, 24⟩),
      ([0xF880, 0xF018, 0x1849], .x2f ⟨1, 2, 24⟩), ([0xF880, 0x1C44], .rndfill ⟨1, true⟩), ([0xF880, 0x1C09], .rndseed 2)] :
      List (List Half × Instr)), decode p.1 = .ok p.2 p.1.length := by decide

/-- Page 2. -/
theorem test_words_page2 :
    ∀ p ∈ ([([0xF901, 0xF41D, 0x0048], .vadd ⟨⟨1, 2, some 3, .fp32, .rtz⟩, 5⟩), ([0xF900, 0x0049], .vsub ⟨⟨1, 2, none, .fp32, .rne⟩, 0⟩),
      ([0xF900, 0x004A], .vmul ⟨⟨1, 2, none, .fp32, .rne⟩, 0⟩), ([0xF900, 0x004B], .vmin ⟨⟨1, 2, none, .fp32, .rne⟩, 0⟩),
      ([0xF900, 0x0448], .vmax ⟨⟨1, 2, none, .fp32, .rne⟩, 0⟩), ([0xF900, 0xF405, 0x0449], .vabs ⟨⟨1, 2, 0, .fp32, .rne⟩, 5⟩),
      ([0xF900, 0x044A], .vneg ⟨⟨1, 2, 0, .fp32, .rne⟩, 0⟩), ([0xF900, 0xF41D, 0x044B], .vfma ⟨⟨1, 2, 3, .fp32, .rne⟩, 5⟩),
      ([0xF900, 0xF41D, 0x0848], .viadd ⟨⟨1, 2, some 3⟩, 5⟩), ([0xF900, 0x0849], .vand ⟨⟨1, 2, none⟩, 0⟩),
      ([0xF900, 0x084A], .vor ⟨⟨1, 2, none⟩, 0⟩), ([0xF900, 0x084B], .vxor ⟨⟨1, 2, none⟩, 0⟩),
      ([0xF900, 0x0C48], .vshl ⟨⟨1, 2, none⟩, 0⟩), ([0xF900, 0x0C49], .vshr ⟨⟨1, 2, none⟩, 0⟩),
      ([0xF900, 0x0C4A], .vsar ⟨⟨1, 2, none⟩, 0⟩), ([0xF900, 0x0C4B], .vimul ⟨⟨1, 2, none⟩, 0⟩),
      ([0xF900, 0xF41D, 0x10C8], .vcmpEq ⟨3, 2, 3, 5⟩), ([0xF900, 0x10C9], .vcmpLt ⟨3, 2, 0, 0⟩),
      ([0xF900, 0x10CA], .vcmpLe ⟨3, 2, 0, 0⟩), ([0xF900, 0x10CB], .vcmpUn ⟨3, 2, 0, 0⟩),
      ([0xF900, 0xF41D, 0x1448], .vsel ⟨⟨1, 2, some 3⟩, 5⟩), ([0xF900, 0x1449], .vmov ⟨1, 2, 0⟩),
      ([0xF900, 0x144A], .vbcast ⟨1, 2, 0⟩), ([0xF900, 0xF005, 0x144B], .vext ⟨1, 2, 5⟩)] :
      List (List Half × Instr)), decode p.1 = .ok p.2 p.1.length := by decide

/-- Page 2, reductions, conversions and moves. -/
theorem test_words_page2_rest :
    ∀ p ∈ ([([0xF900, 0x1848], .vsum ⟨1, 2, .fp32, 0⟩), ([0xF900, 0x1849], .vminr ⟨1, 2, .fp32, 0⟩),
      ([0xF900, 0x184A], .vmaxr ⟨1, 2, .fp32, 0⟩), ([0xF900, 0x184B], .vsqn ⟨1, 2, .fp32, 0⟩),
      ([0xF904, 0xF401, 0x1C48], .vcvtF2f ⟨1, 2, 0, .bf16, .bf16, .rne⟩), ([0xF901, 0x1C49], .vcvtF2i ⟨⟨1, 2, 0, .fp32, .rtz⟩, 0⟩),
      ([0xF901, 0x1C4A], .vcvtI2f ⟨⟨1, 2, 0, .fp32, .rtz⟩, 0⟩), ([0xF900, 0xF018, 0x1D0B], .vf2x ⟨⟨4, 2, 24⟩, 0⟩),
      ([0xF900, 0xF41D, 0x2048], .vperm ⟨1, 2, 3, 5⟩), ([0xF900, 0x2041], .viota ⟨1, 0⟩),
      ([0xF904, 0xF41D, 0x204A], .vdot ⟨⟨1, 2, 3, .bf16, .rne⟩, 5⟩), ([0xF900, 0x20CB], .vmsk ⟨3, 2, 0⟩)] :
      List (List Half × Instr)), decode p.1 = .ok p.2 p.1.length := by decide

/-- Page 3. -/
theorem test_words_page3 :
    ∀ p ∈ ([([0xF9B1, 0xF41D, 0x004B], .amo .and ⟨1, 3, ⟨2, 0⟩, true, .ar, .pod⟩),
      ([0xF990, 0xF41C, 0x044A], .cas ⟨1, 3, ⟨2, 0⟩, false, .acq, .package⟩), ([0xF980, 0xF41D, 0x0848], .vamo ⟨1, 3, ⟨2, 0⟩, .pod⟩),
      ([0xF980, 0x0C48], .fetake ⟨1, ⟨2, 0, 0⟩, .package⟩), ([0xF980, 0x0C49], .feput ⟨1, ⟨2, 0, 0⟩, .package⟩),
      ([0xF980, 0x0C4A], .fepeek ⟨1, ⟨2, 0, 0⟩, .package⟩), ([0xF980, 0x0C4B], .feinit ⟨1, ⟨2, 0, 0⟩, .package⟩),
      ([0xF980, 0x13C4], .fence ⟨true, true, true, true, false, .package⟩), ([0xF980, 0x1440], .barArv 1),
      ([0xF980, 0x1441], .barWt 1), ([0xF980, 0x1442], .barTst 1), ([0xF980, 0xF005, 0x1848], .hstart ⟨1, 2, 5⟩),
      ([0xF980, 0x1801], .hend), ([0xF980, 0x1842], .hjoin 1), ([0xF980, 0x1843], .hkill 1),
      ([0xF980, 0xF005, 0x1C00], .sends 5), ([0xF980, 0xF418, 0x1C49], .sendp ⟨1, 2, 3⟩), ([0xF980, 0x1C42], .rxwt 1),
      ([0xF980, 0x1C03], .rxrel), ([0xF980, 0x2040], .pkopen 1), ([0xF980, 0x2041], .pkput 1), ([0xF980, 0x2042], .pkend 1),
      ([0xF980, 0x2003], .pkabt), ([0xF980, 0xF001, 0x2444], .ctlr ⟨1, 17⟩), ([0xF980, 0x2445], .ctlw ⟨1, 1⟩),
      ([0xF980, 0x2446], .ctls ⟨1, 1⟩), ([0xF980, 0x2447], .ctlc ⟨1, 1⟩), ([0xF980, 0x2840], .pgatt 1), ([0xF980, 0x2801], .pgdet),
      ([0xF980, 0x2842], .pgstat 1), ([0xF980, 0x2C48], .cmkw ⟨1, 2⟩), ([0xF980, 0x2C49], .cmkc ⟨1, 2⟩)] :
      List (List Half × Instr)), decode p.1 = .ok p.2 p.1.length := by decide

/-- Pages 4, 5 and 6. -/
theorem test_words_engines :
    ∀ p ∈ ([([0xFA00, 0x0008], .mxctx ⟨2, 0, 0⟩), ([0xFA00, 0xF418, 0x0488], .mxmsk ⟨2, 2, 3⟩), ([0xFA00, 0x0848], .mxldb ⟨1, ⟨2, 0, 0⟩⟩),
      ([0xFA00, 0x0849], .mxldbT ⟨1, ⟨2, 0, 0⟩⟩), ([0xFA00, 0x0802], .mxrot), ([0xFA00, 0x0803], .mxswp),
      ([0xFA00, 0xF402, 0x0C48], .mxmma ⟨1, ⟨2, 0, 0⟩, 2⟩), ([0xFA00, 0x0C49], .mxmmaOw ⟨1, ⟨2, 0, 0⟩, 0⟩),
      ([0xFA00, 0x0C4A], .mxrun ⟨1, ⟨2, 0, 0⟩, 0⟩), ([0xFA00, 0x1040], .mxzero 1), ([0xFA00, 0x1049], .mxdrain ⟨1, ⟨2, 0, 0⟩⟩),
      ([0xFA00, 0x104A], .mxsave ⟨1, ⟨2, 0, 0⟩⟩), ([0xFA00, 0x104B], .mxrest ⟨1, ⟨2, 0, 0⟩⟩), ([0xFA00, 0x1408], .mxup ⟨2, 0, 0⟩),
      ([0xFA00, 0x1800], .mxwait), ([0xFA00, 0x1849], .mxmbx ⟨some .core, ⟨2, 0, 0⟩⟩), ([0xFA00, 0x19C1], .mxmbx ⟨none, ⟨0, 0, 0⟩⟩),
      ([0xFA80, 0xF418, 0x0048], .cpy ⟨1, 2, 3, 0⟩), ([0xFA80, 0xF418, 0x0049], .cpyw ⟨1, 2, 3, 0⟩),
      ([0xFA80, 0xF418, 0x0042], .cpfil ⟨1, 0, 3, 0⟩), ([0xFA80, 0xF418, 0x000B], .cpcode ⟨0, 2, 3, 0⟩),
      ([0xFA80, 0xF418, 0x0448], .crstep ⟨1, 2, 3, 0⟩), ([0xFA80, 0xF418, 0x0449], .crstepSq ⟨1, 2, 3, 0⟩),
      ([0xFA80, 0xF418, 0xF005, 0x0402], .crall ⟨0, 0, 3, 5⟩), ([0xFA80, 0x0800], .cpwait), ([0xFA80, 0x0841], .cpqry 1),
      ([0xFB00, 0x0048], .priss ⟨1, ⟨2, 0, 0⟩⟩), ([0xFB00, 0x0049], .prrdm ⟨1, ⟨2, 0, 0⟩⟩), ([0xFB00, 0x0002], .prapl),
      ([0xFB00, 0x0043], .prsq 1), ([0xFB00, 0x0448], .prstat ⟨1, ⟨2, 0, 0⟩⟩), ([0xFB00, 0x0409], .prls ⟨2, 0, 0⟩),
      ([0xFB00, 0x040A], .prcfg ⟨2, 0, 0⟩)] : List (List Half × Instr)), decode p.1 = .ok p.2 p.1.length := by decide

/-! ### Small states -/

/-- Context 0 of core 0 runs a group of virtual device 0; nothing else is going on. -/
def base : State := { State.reset.withFetchWord 16 0x0001 with agenda := [], ilen := 1 }
/-- The same with its context changed. -/
def withCtx (f : Ctx → Ctx) : State := base.setMe (f base.me)
/-- The same with its core changed. -/
def withCore (f : CoreSt → CoreSt) : State := base.setMyCore (f base.myCore)
/-- A capability: kind, target, length, permissions with seal and L from bit 57, base (R15). -/
def cap (kind target len perms b : Nat) : AVal :=
  ⟨true, BitVec.ofNat 128 (kind * 2 ^ 120 + target * 2 ^ 104 + len * 2 ^ 64 + perms * 2 ^ 57 + b)⟩
/-- A core that runs a group of the launch of `base`. -/
def inGroup (k idx : Nat) (s : State) : State :=
  s.setCore k { s.core 0 with grp := some { placedGrp with idx := idx } }
/-- An active stream of words from the last 16 bytes of local memory on. -/
def lastWords (store : Bool) : Stream :=
  { (default : Stream) with store := store, count := 2, w := .w64, ea := 0xBFF0, stride := 8 }
/-- A message of context 0 of core 0 that core 1 has not placed yet. -/
def posted (s : State) : State :=
  s.setCore 1 { s.core 1 with rxIn := [⟨⟨0, 0⟩, none, 1, false, 0, 0, [0]⟩] }

/-- A message of context 0 of core 0 that another device has not answered. -/
def sentAway (s : State) : State :=
  { s with fab := { s.fab with reqs := [(2 ^ 32 - 1, some { (default : Req) with agent := .message ⟨0, 0⟩ })] } }

/-! ### Witnesses: decoding, registers, the execute half -/

theorem test_witness_StepRunsTheTurn :
    let s := { base with agenda := [.run 0 0] }
    let i := Instr.nop
    (s.core 0).grp = some placedGrp ∧ placedGrp.halted = false ∧ (s.core 0).saved = false ∧
    (s.ctx ⟨0, 0⟩).live = true ∧ (s.ctx ⟨0, 0⟩).park = .free ∧ (s.ctx ⟨0, 0⟩).ahead = [] ∧
    awaited none ⟨0, 0⟩ s = false ∧ yields none ⟨0, 0⟩ s = false ∧
    endsNow ⟨0, 0⟩ s = false ∧ reportReady ⟨0, 0⟩ s = false ∧ reportDue ⟨0, 0⟩ s = false ∧
    decode (fetchWords (s.core 0) (s.ctx ⟨0, 0⟩) (s.ctx ⟨0, 0⟩).pc) = .ok i 1 ∧
    (nextOf (exec i { noteRun ⟨0, 0⟩ { s with agenda := [] } with cur := ⟨0, 0⟩, ilen := 1 })).isSome = true ∧
    oldCode (s.core 0) (s.ctx ⟨0, 0⟩) = [] ∧
    (fetchWords { s.core 0 with codeOld := [(16383, 7)] } (s.ctx ⟨0, 0⟩) 0x7FFE)[0]?.isSome = true ∧
    (nextOf (exec .nop { s with agenda := [] })).isSome = true := by decide +kernel

/-- R27, R217: after ISYNC a halfword is fetched as the CPCODE before it wrote it. -/
theorem test_isync_new_halfwords :
    let k : CoreSt := { base.myCore with istore := [(9, 5)], codeOld := [(9, 7)] }
    let s := base.setMyCore k
    (nextOf (exec .isync s)).map (fun t => fetchHalf t.myCore t.me 9) = some 5 := by decide +kernel

theorem test_witness_DecodeOfEncode :
    Instr.wf (.add ⟨31, 2, some 3⟩) = true ∧ encode (.add ⟨31, 2, some 3⟩) ≠ [] ∧
    Instr.wf (.ld ⟨15, .w64, false, ⟨15, 0, 2 ^ 39 - 1⟩⟩) = true ∧ encode (.ld ⟨15, .w64, false, ⟨15, 0, 2 ^ 39 - 1⟩⟩) ≠ [] := by
  decide

theorem test_witness_DecodeRefuses :
    decode [0x8048] = .ok (.add ⟨1, 2, none⟩) 1 ∧ 63 * 1024 ≤ (0xFC00 : Half).toNat := by decide

theorem test_witness_RegistersAndQueues :
    let c : Ctx := { base.me with lq0 := [5], lq1 := [6] }
    let full : Ctx := { base.me with sq0 := List.replicate 16 0, sq1 := List.replicate 16 0 }
    let v := cap 0 0 16 7 0
    c.lq0 = 5 :: [] ∧ c.lq1 = 6 :: [] ∧ c.sq0.length < 16 ∧ c.sq1.length < 16 ∧ ((31 : Fin 32) ≠ 0 ∧ (31 : Fin 32) ≠ 14 ∧
    (31 : Fin 32) ≠ 15) ∧ base.me.lq0 = [] ∧ base.me.lq1 = [] ∧ full.sq0.length ≥ 16 ∧ full.sq1.length ≥ 16 ∧
    (15 : Fin 16) ≠ 0 ∧ v.tag = true ∧ v.neverTagged = false ∧ (⟨false, 7⟩ : AVal).tag = false ∧
    (cap 15 0 16 7 0).neverTagged = true ∧ (3 : Fin 16) ≠ 15 := by decide

theorem test_witness_IntegerResults :
    let s := withCtx fun c => { c with d := [(1, -2 ^ 63), (2, -1)] }
    let o : DR3 := ⟨3, 1, some 2⟩
    s.me.rds [DR3.fst o, DR3.snd o] = .ok ([-2 ^ 63, -1], s.me) ∧
    s.me.wd o.x 7 = .ok { s.me with d := [(1, -2 ^ 63), (2, -1), (3, 7)] } ∧
    base.me.rds [1, 2] = .ok ([0, 0], base.me) := by decide +kernel

theorem test_witness_MoveAndCompareResults :
    let s := withCtx fun c => { c with d := [(1, 9)], cq := [true, false] }
    let c1 : Ctx := { s.me with d := [(1, 5)] }
    s.me.wd (d16 1) 5 = .ok c1 ∧ s.me.rd (d16 1) = .ok (9, s.me) ∧ s.me.wd (d16 1) (9 + 5) = .ok { s.me with d := [(1, 14)] } ∧
    s.me.rd 1 = .ok (9, s.me) ∧ s.me.wd 31 9 = .ok { s.me with d := [(1, 9), (31, 9)] } ∧
    s.me.cq = true :: [false] ∧ Ctx.rds { s.me with cq := [false] } [1, 2] = .ok ([9, 0], { s.me with cq := [false] }) ∧
    Ctx.wd { s.me with cq := [false] } 1 5 = .ok { c1 with cq := [false] } ∧ s.me.xq.length < 8 ∧ s.me.cq.length < 8 ∧
    s.me.rds [1, 2] = .ok ([9, 0], s.me) := by decide +kernel

theorem test_witness_FloatBinaryResults :
    let s := withCtx fun c => { c with d := [(1, 0x3F800000), (2, 0x7FC00000), (3, 0xFFFF)] }
    RMode.rtz ≠ RMode.sr ∧ s.me.rds [1, 2] = .ok ([0x3F800000, 0x7FC00000], s.me) ∧
    s.me.rds [1, 2, 3] = .ok ([0x3F800000, 0x7FC00000, 0xFFFF], s.me) ∧
    s.me.wd 3 0x3F800000 = .ok { s.me with d := [(1, 0x3F800000), (2, 0x7FC00000), (3, 0x3F800000)] } := by
  decide +kernel

theorem test_witness_FloatOneOperandResults :
    let s := withCtx fun c => { c with d := [(1, 0xBF800000)] }
    RMode.rne ≠ RMode.sr ∧ s.me.rd 1 = .ok (0xBF800000, s.me) ∧ s.me.rds [1, 1] = .ok ([0xBF800000, 0xBF800000], s.me) ∧
    s.me.wd 2 0x7FC00000 = .ok { s.me with d := [(1, 0xBF800000), (2, 0x7FC00000)] } := by decide +kernel

theorem test_witness_GeneratorResults :
    let s := base.setMyCore { base.myCore with rng := 0x9E3779B97F4A7C15 }
    s.me.wd 1 (mix 0x9E3779B97F4A7C15) = .ok { s.me with d := [(1, mix 0x9E3779B97F4A7C15)] } ∧
    base.myCore.vq.length < 8 ∧ base.me.rd 1 = .ok (0, base.me) := by decide +kernel

theorem test_witness_ExecuteFrame :
    dResult (.fadd ⟨14, 15, none, .fp32, .rne⟩) = some 14 ∧
    (nextOf (exec (.fadd ⟨14, 15, none, .fp32, .rne⟩) (withCtx fun c => { c with lq0 := [1], lq1 := [2] }))).isSome = true := by
  decide +kernel

/-! ### Witnesses: the access half -/

theorem test_witness_AddressResults :
    let s := withCtx fun c => { c with xq := [7] }
    s.me.xq = 7 :: [] ∧ (s.me.q 0).length < 16 ∧ s.me.streamOn 0 = false ∧
    ((withCtx fun c => { c with lq1 := List.replicate 15 0 }).me.q 1).length < 16 := by decide +kernel

theorem test_witness_CapabilityResults :
    let v (p t : Nat) : Ctx := { base.me with a := [(1, cap 0 0 16 p 0), (2, ⟨false, BitVec.ofNat 128 t⟩)] }
    (base.me.ra 1).tag = false ∧ ((v 23 0).ra 1).tag = true ∧ ((v 23 0).ra 1).sealed = true ∧ ((v 7 0).ra 1).sealed = false ∧
    ((v 7 17).ia 2).toNat > ((v 7 17).ra 1).length ∧ ((v 7 16).ia 2).toNat ≤ ((v 7 16).ra 1).length ∧
    ((v 7 0).ia 2).toNat < 1 ∧ ((v 7 16).ia 2).toNat > 15 ∧ (1 ≤ ((v 7 15).ia 2).toNat ∧ ((v 7 15).ia 2).toNat ≤ 15) ∧
    1 ≤ ((v 7 1).ia 2).toNat ∧ ((v 23 1).ra 1).otype.toNat ≠ ((v 23 1).ia 2).toNat ∧
    ((v 23 0).ra 1).otype.toNat = ((v 23 0).ia 2).toNat := by decide +kernel

theorem test_witness_AddressFrame :
    aResult (.aadd ⟨15, 0, some 1⟩) = some 15 ∧
    (nextOf (exec (.aadd ⟨15, 0, some 1⟩) (withCtx fun c => { c with loop := some ⟨0, 2, 3⟩ }))).isSome = true := by
  decide +kernel

/-- The clauses of `AccessChecks` at the ends of local memory, of a region and of a capability's bounds. -/
theorem test_witness_AccessChecks :
    let g := base.me.guards
    let admits (ea : DWord) (n : Nat) : Prop := ea.toNat + n ≤ 0xC000 ∧ ∃ i, i < 4 ∧
      (g.get i).toNat % 65536 ≤ ea.toNat ∧ ea.toNat + n ≤ (g.get i).toNat / 65536 % 65536 + 1 ∧
      (g.get i).getLsbD 32 = true
    let within (v : AVal) (ea : DWord) (n : Nat) : Prop := (ea - v.baseS).toNat + n ≤ v.length
    admits 0xBFF8 8 ∧ ¬ admits 0xBFF9 8 ∧ (cap 0 0 16 17 0).sealed = true ∧ (cap 1 0 16 1 0).sealed = false ∧
    (cap 5 0 16 1 0).kind ∉ allKinds ∧ (cap 4 0 16 1 0).kind ∈ allKinds ∧ (cap 0 0 16 2 0).permR = false ∧
    (cap 0 0 16 1 0).permR = true ∧ within (cap 1 0 16 1 8) 16 8 ∧ ¬ within (cap 1 0 16 1 8) 17 8 ∧
    (cap 0 0 16 1 0).kind = 0 ∧ (cap 1 0 16 1 0).kind = 1 := by decide +kernel

theorem test_witness_LocalLoads :
    let s := withCtx fun c => { c with a := [(1, ⟨false, 0xBFF0⟩), (2, cap 0 0 16 1 0)], lq1 := List.replicate 15 0 }
    let m : Mem := ⟨1, 0, 8⟩
    let r (b : Fin 16) (ea : DWord) (n : Nat) := route s.cur.core s.me.guards (s.me.ra b) ea n needR allKinds
    let u := s.setMe { s.me with stream := some (lastWords true) }
    (s.me.ea m).toNat % 8 = 0 ∧ r 1 (s.me.ea m) 8 = .ok .loc ∧ (s.me.q 1).length < 16 ∧ s.me.streamOn 1 = false ∧
    behindStream (.ctx s.cur) false 0xBFF8 8 s = false ∧ behindStream (.ctx u.cur) false 0xBFF8 8 u = true ∧
    (u.me.ea m).toNat = 0xBFF8 ∧ behindStream (.ctx s.cur) false 0xBFF0 16 s = false ∧
    behindStream (.ctx u.cur) false 0xBFF0 16 u = true ∧
    (let w := s.setMe { s.me with lq1 := List.replicate 16 0 }
     (w.me.q 1).length ≥ 16 ∧ w.me.streamOn 1 = false ∧ behindStream (.ctx w.cur) false 0xBFF8 8 w = false) ∧
    (s.me.ea ⟨1, 0, 0⟩).toNat % 16 = 0 ∧ r 1 (s.me.ea ⟨1, 0, 0⟩) 16 = .ok .loc ∧ r 1 (s.me.ea ⟨1, 0, 15⟩) 1 = .ok .loc ∧
    r 1 (s.me.ea ⟨1, 0, 16⟩) 1 ≠ .ok .glob ∧ r 2 (s.me.ea ⟨2, 0, 0⟩) 1 = .ok .glob := by decide +kernel

theorem test_witness_LocalStores :
    let s := withCtx fun c => { c with a := [(1, ⟨false, 0xBFF0⟩), (2, cap 1 0 16 15 0), (3, cap 0 0 1 1 0)], sq1 := [5] }
    let m : Mem := ⟨1, 0, 8⟩
    let r (b : Fin 16) (ea : DWord) (n : Nat) (nd : Need) := route s.cur.core s.me.guards (s.me.ra b) ea n nd allKinds
    (s.me.ea m).toNat % 8 = 0 ∧ r 1 (s.me.ea m) 8 needW = .ok .loc ∧ s.me.stream = none ∧ s.me.q 3 = 5 :: [] ∧
    s.me.streamOn 3 = false ∧ (s.me.ea ⟨1, 0, 0⟩).toNat % 16 = 0 ∧ r 1 (s.me.ea ⟨1, 0, 0⟩) 16 needW = .ok .loc ∧
    (s.me.ra 3).tag = true ∧ r 2 (s.me.ea ⟨2, 0, 0⟩) 16 needWC = .ok .loc ∧ releaseWait s = false ∧
    behindStream (.ctx s.cur) false 0xBFF8 8 s = false ∧ behindStream (.ctx s.cur) false 0xBFF0 16 s = false ∧
    (let u := withCtx fun c => { c with stream := some (lastWords false) }
     u.me.stream ≠ none ∧ behindStream (.ctx u.cur) false 0xBFF8 8 u = true ∧ behindStream (.ctx u.cur) false 0xBFF0 16 u = true) ∧
    s.me.q 3 ≠ [] ∧
    postedOut base.cur (posted base) = true := by decide +kernel

theorem test_witness_LocalStoreFrame :
    let s := withCtx fun c => { c with a := [(1, ⟨false, 0xBFF8⟩)], sq0 := [5] }
    let m : Mem := ⟨1, 0, 0⟩
    route s.cur.core s.me.guards (s.me.ra m.y) (s.me.ea m) 8 needW allKinds = .ok .loc ∧ aligned (s.me.ea m) 8 = true ∧
    (nextOf (exec (.st ⟨1, .w64, m⟩) s)).isSome = true ∧ (nextOf (exec (.stq ⟨0, .w64, m⟩) s)).isSome = true ∧
    (nextOf (exec (.strel ⟨1, .w64, m, .core⟩) s)).isSome = true := by decide +kernel

/-- A translation of the page of address 0 in space 0, held by core 0 and by the I/O die: 4 KiB at physical
0x10000 with the rights of `w`. -/
def mapped (w : Nat) (s : State) : State :=
  let t : Tlb := ⟨.core 0, 0, 0, 0, 0, 0, BitVec.ofNat 64 (0x10000 + w), 0x8000, false, 0, 0⟩
  { s with tlb := [t, { t with place := .io, d := true }] }

/-- What a translation answers, as data. -/
def physOf (x : XRes) : Option Nat := match x with | .phys pa _ _ => some pa | _ => none
/-- The cause of a failed translation. -/
def causeOf (x : XRes) : Option Nat := match x with | .fault c _ _ => some c | _ => none

theorem test_witness_GlobalAccesses :
    let s (w : Nat) := mapped w (withCtx fun c => { c with a := [(1, cap 0 0 4096 3 0)] })
    let m : Mem := ⟨1, 0, 0xFF8⟩
    let tr (w : Nat) (a : Acc) := translate (.core (s 7).cur.core) 0 0 0xFF8 a (s w)
    (s 7).myCore.grp = some placedGrp ∧ placedGrp.vdev = 0 ∧ placedGrp.space = 0 ∧ placedGrp.tent = false ∧
    ((s 7).me.ea m).toNat % 8 = 0 ∧ ((s 7).me.ea m).toNat = 0xFF8 ∧ reqOf (s 7) (.ctx (s 7).cur) = none ∧ behindStream (.ctx (s 7).cur) true 0xFF8 8 (s 7) = false ∧
    route 0 (s 7).me.guards ((s 7).me.ra 1) ((s 7).me.ea m) 8 needR allKinds = .ok .glob ∧
    route 0 (s 7).me.guards ((s 7).me.ra 1) ((s 7).me.ea m) 8 needW allKinds = .ok .glob ∧
    physOf (tr 7 .rd) = some 0x10FF8 ∧ physOf (tr 7 .wr) = some 0x10FF8 ∧ 0x10FF8 < wakeBase ∧
    causeOf (tr 0xC1 .rd) = some 0x12 ∧ causeOf (tr 1 .rd) = some 0x11 ∧
    -- an element of a stream through a GLOBAL capability on the same bytes, and a tentative group without a slice
    (let t : Stream := { (default : Stream) with count := 2, w := .w64, ea := 0xFF0, stride := 8, cap := cap 0 0 4096 3 0 }
     let u := (s 7).setMe { (s 7).me with stream := some t }
     (u.me.ea m).toNat = 0xFF8 ∧ behindStream (.ctx u.cur) true 0xFF8 8 u = true ∧ reqOf u (.ctx u.cur) = none) ∧
    (let g := { placedGrp with tent := true }
     g.tent = true ∧ ownSlice g 0xFF8 8 = false ∧ Route.glob ≠ .loc ∧ Route.glob ≠ .core 0) := by decide +kernel

/-- `GlobalAccesses` through a CORE capability: to the own core, to one that admits, one that refuses, one that has no group
of the virtual device and one whose group is saved; and behind a message of the context to that core. -/
theorem test_witness_GlobalAccesses_core :
    let s := inGroup 1 1 (withCtx fun c => { c with a := [(1, cap 2 0 (2 ^ 24 - 1) 3 0)] })
    let open_ := s.setCore 1 { s.core 1 with win := [(0, 0x3BFFF0000)] }
    let shut := s.setCore 1 { s.core 1 with win := [] }
    let m (id : DWord) : Mem := ⟨1, 0, id * 65536 + 0xBFF8⟩
    let r (id : DWord) (nd : Need) := route 0 s.me.guards (s.me.ra 1) (s.me.ea (m id)) 8 nd allKinds
    let at_ (s : State) (k : Nat) (nd : Need) := atCore s 0 k 0xBFF8 8 nd true
    s.myCore.grp = some placedGrp ∧ placedGrp.tent = false ∧ (s.me.ra 1).tag = true ∧ (s.me.ra 1).kind = 2 ∧
    (s.me.ea (m 1)).toNat % 8 = 0 ∧ (s.me.ea (m 1)).toNat % 65536 = 0xBFF8 ∧ bitsOf (s.me.ea (m 1)).toNat 27 16 = 1 ∧
    r 0 needR = .ok (.core 0) ∧ r 0 needW = .ok (.core 0) ∧ r 1 needR = .ok (.core 1) ∧ r 1 needW = .ok (.core 1) ∧
    r 2 needR = .ok (.core 2) ∧ r 2 needW = .ok (.core 2) ∧
    behindAt (.ctx s.cur) 1 0xBFF8 8 s = false ∧ behindAt (.ctx s.cur) 1 0xBFF8 8 (posted s) = true ∧
    at_ s 0 needR = .here ∧ at_ s 0 needW = .here ∧ at_ open_ 1 needR = .here ∧ at_ open_ 1 needW = .here ∧
    at_ shut 1 needR = .nack 0x18 ∧ at_ shut 1 needW = .nack 0x18 ∧ at_ s 2 needR = .nack 0x19 ∧ at_ s 2 needW = .nack 0x19 ∧
    at_ (s.setCore 1 { s.core 1 with saved := true }) 1 needR = .moving ∧
    at_ (s.setCore 1 { s.core 1 with saved := true }) 1 needW = .moving := by decide +kernel

theorem test_witness_AccessTraps :
    let s := withCtx fun c => { c with
      a := [(1, ⟨false, 0xBFF9⟩), (2, ⟨false, 0xC000⟩), (3, cap 0 0 64 15 0), (4, cap 0 0 64 33 0)] }
    let r (b : Fin 16) (n : Nat) (nd : Need) := route s.cur.core s.me.guards (s.me.ra b) (s.me.ea ⟨b, 0, 0⟩) n nd allKinds
    (s.me.ea ⟨1, 0, 0⟩).toNat % 8 ≠ 0 ∧ (s.me.ea ⟨1, 0, 0⟩).toNat % 16 ≠ 0 ∧ (s.me.ea ⟨2, 0, 0⟩).toNat % 16 = 0 ∧
    r 2 8 needR = .error 8 ∧ r 2 8 needW = .error 8 ∧ r 2 16 needR = .error 8 ∧ r 2 1 needR = .error 8 ∧
    (s.me.ra 4).tag = true ∧ (s.me.ra 4).permL = true ∧ (s.me.ea ⟨3, 0, 0⟩).toNat % 16 = 0 ∧ r 3 16 needWC = .ok .glob ∧
    Route.glob ≠ Route.loc := by decide +kernel

theorem test_witness_Streams :
    let s (d a : Nat) := withCtx fun c => { c with a := [(1, ⟨false, BitVec.ofNat 128 a⟩), (13, ⟨false, BitVec.ofNat 128 d⟩)] }
    let d (n : Nat) (st : Int) : Nat := n + (st % 2 ^ 32).toNat * 2 ^ 32
    let st (x : State) : Int := ((x.me.ia 13 >>> 32).setWidth 32 : BitVec 32).toInt
    (s 0 0).me.stream = none ∧ (withCtx fun c => { c with stream := some default }).me.stream ≠ none ∧ ((s (d 0 8) 0).me.ia 13).toNat % 2 ^ 32 = 0 ∧ ((s (d 2 8) 0).me.ia 13).toNat % 2 ^ 32 = 2 ∧
    st (s (d 2 (-8)) 0) = -8 ∧ ((s 0 4).me.eaB ⟨1, 0⟩).toNat % 8 ≠ 0 ∧ (-4 : Int) % 8 ≠ 0 ∧
    -- from address 0 downwards, and up to the last byte of local memory
    min (((s (d 2 (-8)) 0).me.eaB ⟨1, 0⟩).toNat : Int) (0 + (2 - 1 : Nat) * (-8 : Int)) < 0 ∧
    route 0 base.me.guards (base.me.ra 1) (BitVec.ofInt 64 0xBFF8) (0xC000 - 0xBFF8 + 8) needR [0, 1] = .error 8 ∧
    route 0 base.me.guards (base.me.ra 1) (BitVec.ofInt 64 0xBFF0) 16 needW [0, 1] = .ok .loc ∧
    (let t : Stream := { (default : Stream) with count := 2, next := 1, w := .w64, ea := 0xBFF0, stride := 8 }
     let u := withCtx fun c => { c with stream := some t, lq0 := List.replicate 15 0 }
     (u.ctx ⟨0, 0⟩).stream = some t ∧ t.park = .free ∧ t.ends = none ∧ (u.core 0).saved = false ∧ t.cap.tag = false ∧ t.store = false ∧
     postedTo ⟨0, 0⟩ 0 u = false ∧ ((u.ctx ⟨0, 0⟩).q 0).length < 16 ∧ (cap 1 0 64 3 0).kind = 1) ∧
    (let t : Stream := { (default : Stream) with store := true, count := 2 }
     let u := withCtx fun c => { c with stream := some t, sq0 := [5] }
     (u.ctx ⟨0, 0⟩).stream = some t ∧ t.park = .free ∧ t.ends = none ∧ t.cap.tag = false ∧
     postedTo ⟨0, 0⟩ 0 u = false ∧ (u.ctx ⟨0, 0⟩).q 2 = 5 :: []) := by
  decide +kernel

theorem test_witness_SpillAndFill :
    let s := withCtx fun c => { c with a := [(1, ⟨false, 0xBF00⟩)] }
    let ea := s.me.eaB ⟨1, 0⟩
    let r (i : Nat) (nd : Need) := route 0 s.me.guards (s.me.ra 1) (ea + BitVec.ofNat 64 (8 * i)) 8 nd allKinds
    s.me.resume = 0 ∧ ea.toNat % 8 = 0 ∧ ea.toNat + 8 * 32 ≤ 2 ^ 64 ∧ (∀ i, i < 32 → r i needR = .ok .loc) ∧
    (∀ i, i < 32 → r i needW = .ok .loc) ∧
    (∀ i, i < 32 → behindStream (.ctx s.cur) false (ea + BitVec.ofNat 64 (8 * i)).toNat 8 s = false) := by decide +kernel

theorem test_witness_BranchesAndLoops :
    let s := withCtx fun c => { c with pc := 0x7FFC, cq := [true], a := [(1, ⟨false, 0x8000⟩), (2, ⟨false, 0x7FFE⟩), (15, ⟨false, 4⟩)] }
    (s.me.pc + ((1 : DWord) <<< 1).setWidth 16).toNat < 0x8000 ∧ 0x8000 ≤ (s.me.pc + ((2 : DWord) <<< 1).setWidth 16).toNat ∧
    s.me.cq = true :: [] ∧ ((s.me.ia 2).toNat < 0x8000 ∧ (s.me.ia 2).toNat % 2 = 0) ∧ ¬ ((s.me.ia 1).toNat < 0x8000) ∧
    ((s.me.ia 15).toNat < 0x8000 ∧ (s.me.ia 15).toNat % 2 = 0) ∧
    (0x7FFC + 2 * s.ilen < 0x7FFE + 2 ∧ 0x7FFE ≤ 0x7FFE ∧ s.me.loop = none) ∧
    0x7FFC + 2 * 0 + 2 ≤ s.me.pc.toNat + 2 * s.ilen ∧ 0x7FFE < s.me.pc.toNat + 2 * 2 ∧
    (withCtx fun c => { c with loop := some ⟨0, 2, 1⟩ }).me.loop = some ⟨0, 2, 1⟩ ∧
    base.me.h = false ∧ base.me.pc + BitVec.ofNat 16 (2 * 1) = 2 := by decide +kernel

/-! ### Witnesses: traps and control registers -/

theorem test_witness_Traps :
    let s := withCtx fun c => { c with tvec := 0x7FFE }
    (s.ctx ⟨0, 0⟩).h = false ∧ (s.ctx ⟨0, 0⟩).tvec ≠ 0 ∧ (⟨0, 1⟩ : Who) ≠ ⟨0, 0⟩ ∧ (s.ctx ⟨0, 0⟩).ahead = [] ∧
    (s.ctx ⟨0, 0⟩).stream = none ∧ (base.ctx ⟨0, 0⟩).tvec = 0 ∧
    ((withCtx fun c => { c with h := true, tvec := 2 }).ctx ⟨0, 0⟩).h = true ∧ (base.core 0).grp = some placedGrp ∧
    placedGrp.bulk = false ∧ (base.launchOf placedGrp.launch).faulted = false := by decide +kernel

/-- A helper of the group of `base` and its starter. -/
def helped : State := base.setCtx ⟨0, 10⟩ { (default : Ctx) with live := true }

theorem test_witness_SystemResults :
    (∀ c ∈ base.myCore.cp.queue, c.who ≠ base.cur) ∧ (withCtx fun c => { c with h := true }).me.h = true ∧ base.me.h = false ∧
    base.cur.ctx = 0 ∧ (∀ i, 1 ≤ i → i < 11 → (base.ctx ⟨0, i⟩).live = false) ∧
    (∀ t, base.me.stream = some t → t.store = false) ∧ (helped.ctx ⟨0, 10⟩).live = true ∧
    (let s := { helped with cur := ⟨0, 10⟩ }
     s.cur.ctx ≠ 0 ∧ s.me.stream = none ∧ postedOut s.cur s = false) := by
  refine ⟨by decide +kernel, by decide +kernel, by decide +kernel, by decide +kernel, ?_, ?_, by decide +kernel, by decide +kernel⟩
  · intro i h0 h1
    have : ∀ i, i < 11 → 1 ≤ i → (base.ctx ⟨0, i⟩).live = false := by decide +kernel
    exact this i h1 h0
  · intro t h
    exact absurd h (by rw [show base.me.stream = none by decide +kernel]; simp)

theorem test_witness_ControlInstructions :
    let h := withCtx fun c => { c with h := true }
    ctlRead base.cur 0xFFF base = none ∧ ctlRead base.cur 0x010 base = some 0 ∧ 0x010 ∈ ctlRO ∧ 0x070 ∉ ctlRO ∧ 0x070 ∈ ctlRWH ∧
    base.me.h = false ∧ h.me.h = true ∧ ctlRead h.cur 0x070 h = some 0x7BFFF0000 ∧ 0x030 ∉ ctlRWH ∧ 0x030 ∉ ctlRO ∧
    ctlRead base.cur 0x030 base = some 0 ∧ (2 ^ 39 : DWord) &&& ctlReserved 0x030 ≠ 0 ∧ (2 ^ 39 - 1 : DWord) &&& ctlReserved 0x030 = 0 ∧
    ctlBad base.cur 0x030 (2 ^ 39 - 1) base = false ∧ ctlBad base.cur 0x060 2304 base = true ∧
    (2304 : DWord) &&& ctlReserved 0x060 = 0 ∧ ctlRead base.cur 0x03C base = some 0 ∧ (7 : DWord) &&& ctlReserved 0x03C = 0 ∧
    (4 : DWord).getLsbD 2 = true := by decide +kernel

theorem test_witness_ControlRegisterEffects :
    let h := withCtx fun c => { c with h := true }
    let ok (num : Nat) (v : DWord) (s : State) : Bool := (ctlCheck ⟨0, 0⟩ num .write v s).isOk
    ok 0x020 7 base = true ∧ ok 0x000 1 h = true ∧ ok 0x038 0xBFF8 base = true ∧ ok 0x039 16 base = true ∧
    ok 0x03A 8 (withCore fun c => { c with rxsize := 16 }) = true ∧ ok 0x03C 1 base = true ∧ ok 0x040 0x100 base = true ∧
    ok 0x04F 0x10F base = true ∧ ok 0x033 1 base = true ∧ ok 0x060 47 base = true ∧ ok 0x002 2 h = true ∧
    (base.core 0).grp ≠ none ∧ (h.ctx ⟨0, 0⟩).live = true ∧ 0x03A ≠ 0x038 := by decide +kernel

/-! ### Witnesses: vector instructions -/

/-- `base` with one item in the vector queue of its core. -/
def vector (i : Instr) : State :=
  withCore fun c => { c with vq := [{ (default : VItem) with ins := i }] }

theorem test_witness_VectorIssue :
    isVectorArith (.vadd ⟨⟨1, 2, none, .fp32, .rne⟩, 0⟩) = true ∧ base.myCore.vq.length < 8 ∧
    8 ≤ (withCore fun c => { c with vq := List.replicate 8 default }).myCore.vq.length ∧
    base.me.rd 31 = .ok (0, base.me) := by decide +kernel

/-- For `VectorFloatResults`, `VectorWordAndMaskResults` and `VectorReductions`: any instruction may stand at the
head of a vector queue. -/
theorem test_witness_VectorResults (i : Instr) :
    ((vector i).core 0).saved = false ∧ ∃ v, ((vector i).core 0).vq = v :: [] ∧ v.ins = i := ⟨rfl, _, rfl, rfl⟩

theorem test_witness_VectorWordAndMaskResults :
    (⟨⟨1, 2, none⟩, 0⟩ : VR3).r.z = none ∧ (⟨⟨1, 2, some 3⟩, 7⟩ : VR3).r.z = some 3 := by decide

theorem test_witness_VectorLoadsAndStores :
    let s := withCtx fun c => { c with a := [(1, ⟨false, 0xBF00⟩), (2, ⟨false, 0xBF80⟩), (3, ⟨false, 0xBFF8⟩)] }
    let ok (b : Fin 16) (n : Nat) (nd : Need) : Prop := route 0 s.me.guards (s.me.ra b) (s.me.ea ⟨b, 0, 0⟩) n nd allKinds = .ok .loc
    let at_ (e : Nat) : DWord := s.me.eaB ⟨3, 4⟩ + 4 * (s.myCore.vw 2 e).signExtend 64
    s.fine = false ∧ s.me.live = true ∧
    ({ s with fine := true }.fine = true ∧ { s with fine := true }.myCore = s.myCore ∧
      ((List.range 64).filter fun j => (s.myCore.mask 0).getLsbD j) = 0 :: 1 :: (List.range 64).drop 2 ∧
      behindStream (.vector s.cur) false (0xBF00 + 4 * 0) 4 { s with fine := true } = false) ∧
    s.myCore.vq = [] ∧ s.me.vwait = false ∧ s.me.resume = 0 ∧ s.me.park = .free ∧ s.myCore.saved = false ∧
    s.myCore.halted = false ∧ (∀ a ∈ [0xBF00, 0xBF80, 0xBFF8], behindStream (.vector s.cur) false a 4 s = false) ∧
    (s.me.ea ⟨1, 0, 0⟩).toNat % 4 = 0 ∧ ok 1 256 needR ∧ ok 1 256 needW ∧ (s.me.ea ⟨2, 0, 0⟩).toNat % 2 = 0 ∧ ok 2 128 needR ∧
    ok 2 128 needW ∧ (s.me.ea ⟨3, 0, 0⟩).toNat % 8 = 0 ∧ ok 3 8 needR ∧ ok 3 8 needW ∧ (s.me.eaB ⟨3, 4⟩).toNat % 4 = 0 ∧
    (∀ e, e < 64 → (s.myCore.mask 0).getLsbD e = true →
      route 0 s.me.guards (s.me.ra 3) (at_ e) 4 needA allKinds = .ok .loc) ∧ (s.myCore.mask 0).getLsbD 63 = true ∧
    (3 : Fin 8) ≠ 0 ∧ s.me.wd 1 ((s.myCore.vw 2 63).setWidth 64) = .ok s.me := by decide +kernel

/-! ### Witnesses: synchronisation -/

theorem test_witness_AtomicResults :
    let s := withCtx fun c => { c with a := [(1, ⟨false, 0xBFF8⟩), (2, ⟨false, 0xBFFC⟩)] }
    MOrd.rel ≠ MOrd.rlx ∧ releaseWait s = false ∧ behindStream (.ctx s.cur) false 0xBFF8 8 s = false ∧ (s.me.eaB ⟨1, 0⟩).toNat % 8 = 0 ∧ (s.me.eaB ⟨2, 0⟩).toNat % 8 ≠ 0 ∧
    (s.me.eaB ⟨2, 0⟩).toNat % 4 = 0 ∧ route 0 s.me.guards (s.me.ra 1) (s.me.eaB ⟨1, 0⟩) 8 needA allKinds = .ok .loc ∧
    route 0 s.me.guards (s.me.ra 2) (s.me.eaB ⟨2, 0⟩) 4 needA allKinds = .ok .loc ∧
    (withCtx fun c => { c with stream := some default }).me.stream ≠ none ∧
    postedOut base.cur (posted base) = true := by decide +kernel

/-- A core with the halfwords of an instruction at address 0x100. -/
def atPlace (i : Instr) (c : CoreSt) : CoreSt := { c with istore := c.istore.putList 0x80 (encode i) }

theorem test_witness_FullEmptyWords :
    let a (c : Ctx) : Ctx := { c with a := [(1, cap 1 0 0xC000 15 0), (2, ⟨false, 0xBFF8⟩)] }
    let s := withCtx a
    let m : Mem := ⟨1, 2, 0⟩
    let r (nd : Need) := route 0 s.me.guards (s.me.ra 1) (s.me.ea m) 8 nd [1, 2, 3]
    let full := s.setMyCore { s.myCore with fe := s.myCore.fe.put (0xBFF8 / 8) true }
    let take : Take := ⟨⟨0, 1⟩, none, 0xBFF8, false⟩
    let p : FeF := ⟨3, m, .core⟩
    let two := (s.setMyCore (atPlace (.fetake p) { s.myCore with takes := [take] })).setCtx ⟨0, 1⟩
      (a { s.me with pc := 0x100, taking := true })
    let retry := (full.setMyCore (atPlace (.fetake p) full.myCore)).setCtx ⟨0, 1⟩ (a { s.me with pc := 0x100, taking := true })
    (s.me.ea m).toNat = 0xBFF8 ∧ r needPeek = .ok .loc ∧ r needFE = .ok .loc ∧ releaseWait s = false ∧
    behindStream (.ctx s.cur) false 0xBFF8 8 s = false ∧ releaseWait full = false ∧
    s.myCore.fe.get (0xBFF8 / 8) = false ∧ (∀ t ∈ s.myCore.takes, t.addr % 65536 ≠ 0xBFF8) ∧
    full.myCore.fe.get (0xBFF8 / 8) = true ∧ s.me.taking = false ∧
    (List.replicate 15 take).length < 16 ∧ 16 ≤ (List.replicate 16 take).length ∧
    -- the oldest deferred take of the word
    two.myCore.takes = take :: [] ∧ take.addr % 65536 = (two.me.ea m).toNat ∧ take.who ≠ two.cur ∧ releaseWait two = false ∧
    behindStream (.ctx two.cur) false 0xBFF8 8 two = false ∧
    two.myCore.fe.get (0xBFF8 / 8) = false ∧ route 0 two.me.guards (two.me.ra 1) (two.me.ea m) 8 needFE [1, 2, 3] = .ok .loc ∧
    fetchAt (two.core 0) (two.ctx ⟨0, 1⟩) (two.ctx ⟨0, 1⟩).pc = .ok (.fetake p) 3 ∧
    -- a take that was refused
    (retry.ctx ⟨0, 1⟩).live = true ∧ (retry.core 0).saved = false ∧ refusedTake ⟨0, 1⟩ retry = true ∧
    fetchAt (retry.core 0) (retry.ctx ⟨0, 1⟩) (retry.ctx ⟨0, 1⟩).pc = .ok (.fetake p) 3 ∧ ((retry.ctx ⟨0, 1⟩).ea m).toNat % 8 = 0 ∧
    route 0 (retry.ctx ⟨0, 1⟩).guards ((retry.ctx ⟨0, 1⟩).ra 1) ((retry.ctx ⟨0, 1⟩).ea m) 8 needFE [1, 2, 3] = .ok .loc ∧
    (retry.core 0).fe.get (0xBFF8 / 8) = true ∧ behindStream (.ctx ⟨0, 1⟩) false 0xBFF8 8 retry = false := by decide +kernel

theorem test_witness_FenceAndBarrierResults :
    let s (n : Nat) (h : Chan) := withCore fun c => { c with dom := c.dom.put n 0x100, chans := c.chans.put n h }
    (∀ t, (withCtx fun c => { c with stream := some { (default : Stream) with store := true } }).me.stream = some t →
      (if t.store then false else true) = false) ∧
    postedOut base.cur base = false ∧ postedOut base.cur (posted base) = true ∧ messageAway base.cur base = false ∧
    messageAway base.cur (sentAway base) = true ∧
    engineBusy base.cur base = false ∧ releaseWait (s 15 default) = false ∧ base.myCore.key 3 = none ∧ ((s 15 default).myCore.key 15).isSome = true ∧
    (15 : Fin 16) ≠ 0 ∧ ((s 15 { (default : Chan) with arrived := [0] }).myCore.chans.get 15).arrived.length < 2 ∧
    ((s 15 default).myCore.chans.get 15).arrived = [] ∧
    ((s 15 { (default : Chan) with arrived := [0] }).myCore.chans.get 15).arrived = 0 :: [] ∧
    (∀ k, (s 15 default).myCore.key 15 = some k → (s 15 default).keys.get k ≤ 0) ∧
    (∀ k, (s 15 default).myCore.key 15 = some k → 0 < ({ s 15 default with keys := [(k, 1)] }).keys.get k) ∧
    base.me.cq.length < 8 := by
  refine ⟨?_, ?_⟩
  · intro t h
    have h' : some { (default : Stream) with store := true } = some t := h
    cases h'; rfl
  · have later (k : Nat) : 0 < SMap.get (α := Nat) [(k, 1)] k := by simp [SMap.get]
    iterate 12 refine ⟨by decide +kernel, ?_⟩
    exact ⟨fun k _ => Nat.le_of_eq rfl, fun k _ => later k, by decide +kernel⟩

/-- Channel 0 of a bulk launch: an arrival of context 0 that ends an exchange phase, one that does not, one of a helper, and
a third one. -/
theorem test_witness_FenceAndBarrierResults_bulk :
    let h (n : Nat) : Chan := { (default : Chan) with arrived := List.replicate n 0 }
    let s (b : DWord) (n : Nat) := withCore fun c => { c with
      grp := some { placedGrp with bulk := true }, dom := c.dom.put 0 0x100, barph := b, chans := c.chans.put 0 (h n) }
    ((s 0 0).myCore.key 0).isSome = true ∧ (s 0 0).myCore.isBulk = true ∧ (s 0 0).cur.ctx = 0 ∧ releaseWait (s 0 0) = false ∧
    { s 0 0 with cur := ⟨0, 1⟩ }.cur.ctx ≠ 0 ∧ ((s 0 1).myCore.chans.get 0).arrived.length < 2 ∧
    endsExchange (s 1 0).myCore 0 0 = true ∧ endsExchange (s 0 0).myCore 0 0 = false ∧
    2 ≤ ((s 0 2).myCore.chans.get 0).arrived.length := by decide +kernel

theorem test_witness_HelperResults :
    let s := withCtx fun c => { c with pc := 0x100, a := [(1, ⟨false, 10⟩), (2, ⟨false, 11⟩)] }
    let all := { (List.range 9).foldl (fun s i => s.setCtx ⟨0, i + 1⟩ { (default : Ctx) with live := true }) s with ilen := 1 }
    let one := s.setCtx ⟨0, 10⟩ { (default : Ctx) with live := true }
    s.cur.ctx = 0 ∧ (s.me.pc + ((0x3F7F : DWord) <<< 1).setWidth 16).toNat < 0x8000 ∧ releaseWait all = false ∧
    (all.ctx ⟨0, 10⟩).live = false ∧ (∀ j, j < 10 → 1 ≤ j → (all.ctx ⟨0, j⟩).live = true) ∧
    (s.me.ia 1).toNat = 10 ∧ (s.ctx ⟨0, 10⟩).live = false ∧ (one.ctx ⟨0, 10⟩).live = true ∧ (one.ctx ⟨0, 10⟩).vwait = false ∧
    { s with cur := ⟨0, 1⟩ }.cur.ctx ≠ 0 ∧ 0x8000 ≤ (s.me.pc + ((0x3F80 : DWord) <<< 1).setWidth 16).toNat ∧
    (∀ j, j < 11 → 1 ≤ j → ((all.setCtx ⟨0, 10⟩ { (default : Ctx) with live := true }).ctx ⟨0, j⟩).live = true) ∧
    reqOut ⟨0, 10⟩ one = false ∧ postedOut ⟨0, 10⟩ one = false ∧
    (let m : Message := ⟨⟨0, 10⟩, none, 1, false, 0, 0, [0]⟩
     let p := one.setCore 1 { one.core 1 with rxIn := [m] }
     (p.ctx ⟨0, 10⟩).live = true ∧ postedOut ⟨0, 10⟩ p = true) ∧ (s.me.ia 3).toNat = 0 ∧ 10 < (s.me.ia 2).toNat ∧
    ((withCtx fun c => { c with a := [(4, cap 0 0 8 1 0)] }).me.ra 4).neverTagged = false := by decide +kernel

theorem test_witness_SendResults :
    let bulk := withCore fun c => { c with
      grp := some { placedGrp with bulk := true, entries := 1 }, xphase := true, plan := 0x40, xcyc := 3
      -- slot 0: at cycle 3 to group 0, 8 bytes from 0x0000 to 0x0008
      lm := c.lm.putList 0x40 (leBytes 4 3 ++ leBytes 4 0 ++ leBytes 2 8 ++ leBytes 2 0 ++ leBytes 2 8 ++ leBytes 2 0) }
    let s := inGroup 1 1 (withCtx fun c => { c with a := [(1, ⟨false, 1⟩), (2, ⟨false, 0xBFF8⟩), (3, ⟨false, 8⟩)] })
    let rx (h t : Nat) := withCore fun c => { c with
      rxbase := 0x1000, rxsize := 64, rxhead := BitVec.ofNat 64 h, rxtail := BitVec.ofNat 64 t
      lm := c.lm.putList h (leBytes 8 (7 * 2 ^ 32)) }
    destOk (s.me.ia 1) = true ∧ destHere (s.me.ia 1) s = true ∧ releaseWait s = false ∧ reportLoad s.cur s < 16 ∧
    (s.me.ra 2).tag = false ∧ (s.me.ia 3).toNat % 8 = 0 ∧ 8 ≤ (s.me.ia 3).toNat ∧ (s.me.ia 3).toNat ≤ 2048 ∧
    localOk s.me.guards (s.me.ra 2).int.toNat 8 needR = true ∧ bitsOf (s.me.ia 1).toNat 11 0 ≠ s.cur.core ∧
    s.me.packet = none ∧
    -- a destination on another device, of a tentative group
    (let t := s.setMyCore { s.myCore with grp := some { placedGrp with tent := true } }
     destOk 0x10001 = true ∧ destHere 0x10001 t = false ∧ t.myCore.tentative = true ∧ releaseWait t = false ∧ reportLoad t.cur t < 16) ∧
    (withCtx fun c => { c with packet := some ⟨1, List.replicate 62 0⟩ }).me.packet = some ⟨1, List.replicate 62 0⟩ ∧
    (List.replicate 62 (0 : DWord)).length < 63 ∧ destHere 1 s = true ∧ bitsOf (1 : DWord).toNat 11 0 ≠ s.cur.core ∧
    (rx 0x1000 0x1000).myCore.rxhead = (rx 0x1000 0x1000).myCore.rxtail ∧ releaseWait (rx 0x1000 0x1008) = false ∧
    (let c := (rx 0x1000 0x1008).myCore
     c.rxhead ≠ c.rxtail ∧ isPad c 0x1000 = false ∧ c.rxbase.toNat ≤ 0x1000 ∧ 0 < c.rxsize.toNat ∧
     0x1000 + (0x1000 - 0x1000 + 8 + 8 * bitsOf (leNat (c.lm.getList 0x1000 8)) 40 32) % 64 = 0x1000 ∧
     isPad c 0x1000 = false) ∧
    (sendsEntry bulk.myCore bulk.me.planEnt (planGroups bulk.myCore bulk) 0).map
      (fun e => decide (bulk.myCore.xcyc.toNat = e.1.cycle) && localOk bulk.me.guards e.1.loff e.1.len needR) = some true ∧
    bulk.myCore.grp.isSome = true ∧ bulk.me.stream = none ∧ messagesOf (· == bulk.cur) bulk = 0 ∧
    messagesOf (· == base.cur) (posted base) ≠ 0 ∧
    -- before its cycle, and after it
    (sendsEntry bulk.myCore bulk.me.planEnt (planGroups bulk.myCore bulk) 0).map
      (fun e => decide (2 < e.1.cycle ∧ e.1.cycle < 4)) = some true := by
  decide +kernel

/-- Group 0 of `base` as member 1 of pergola 5 of four. -/
def perg : State :=
  let s := withCore fun c => { c with grp := some { placedGrp with pergola := true } }
  let s := s.setLaunch placedGrp.launch { s.launchOf placedGrp.launch with pergola := true, pgid := 5, pgM := 4, pgF := 1 }
  { s with fab := { s.fab with pergs := [(5, ⟨4, []⟩)] } }

theorem test_witness_PergolaResults :
    let s := perg.setMe { perg.me with a := [(1, ⟨false, 4⟩), (2, ⟨false, 3⟩), (3, ⟨false, 2304⟩), (4, ⟨false, 2303⟩)] }
    pergOf 0 base = none ∧ pergOf s.cur.core s = some (5, 1) ∧ s.myCore.tentative = false ∧
    (s.setMyCore { s.myCore with grp := some { placedGrp with pergola := true, tent := true } }).myCore.tentative = true ∧
    (s.fab.pergs.get 5).m ≤ (s.me.ia 1).toNat ∧ (s.me.ia 2).toNat < (s.fab.pergs.get 5).m ∧ 2303 < (s.me.ia 3).toNat ∧
    (s.me.ia 4).toNat ≤ 2303 ∧ (s.vdev s.myCore.vdevNo).quarters.getLsbD (2303 / 576 * 4 + 2303 % 576 / 144) = false ∧
    (s.vdev s.myCore.vdevNo).quarters.getLsbD (143 / 576 * 4 + 143 % 576 / 144) = true := by decide +kernel

/-- `GlobalAccesses` through a WINDOW capability of pergola 5: member 0 has departed, 1 is the group of `perg`, 2 that of core
1, and 3 stands on device 7. -/
def windowed (f : Member → Member) : State :=
  let m : Member := { (default : Member) with present := true, att := true }
  let s := perg.setCore 1 { perg.core 0 with
    grp := some { placedGrp with pergola := true, idx := 1 }, win := [(0, 0x3BFFF0000)] }
  { s with fab := { s.fab with pergs := [(5, ⟨4, [(0, { m with departed := true }), (1, m), (2, f { m with core := 1 }),
    (3, { m with dev := 7, vdev := 9 })]⟩)] } }

theorem test_witness_GlobalAccesses_window :
    let s := (windowed id).setMe { (windowed id).me with a := [(1, cap 3 5 (2 ^ 24 - 1) 3 0)] }
    let m (b : DWord) : Mem := ⟨1, 0, b * 65536 + 0xBFF8⟩
    let r (b : DWord) (nd : Need) := route 0 s.me.guards (s.me.ra 1) (s.me.ea (m b)) 8 nd allKinds
    let shut := s.setCore 1 { s.core 1 with win := [] }
    let t : Stream := { (default : Stream) with count := 1, w := .w64, ea := 0x3BFF8, cap := cap 3 5 (2 ^ 24 - 1) 3 0 }
    let u := s.setMe { s.me with stream := some t }
    (s.me.ra 1).kind = 3 ∧ (s.me.ra 1).target = 5 ∧ (s.me.ea (m 3)).toNat % 65536 = 0xBFF8 ∧
    r 0 needR = .ok (.win 5 0) ∧ r 0 needW = .ok (.win 5 0) ∧ r 2 needR = .ok (.win 5 2) ∧ r 2 needW = .ok (.win 5 2) ∧
    r 3 needR = .ok (.win 5 3) ∧ r 3 needW = .ok (.win 5 3) ∧
    s.myCore.grp = some { placedGrp with pergola := true } ∧ reqOf s (.ctx s.cur) = none ∧
    atWin s 0 5 2 = .here 1 ∧ atCore s 0 1 0xBFF8 8 needR false = .here ∧ atCore s 0 1 0xBFF8 8 needW false = .here ∧
    atCore shut 0 1 0xBFF8 8 needR false = .nack 0x18 ∧ atCore shut 0 1 0xBFF8 8 needW false = .nack 0x18 ∧
    behindAt (.ctx s.cur) 1 0xBFF8 8 s = false ∧
    atWin (windowed fun m => { m with att := false }) 0 5 2 = .stall ∧ atWin (windowed fun m => { m with moving := true }) 0 5 2 = .moving ∧
    atWin s 0 5 0 = .gone ∧ atWin s 0 5 3 = .away 9 ∧ (s.me.ea (m 3)).toNat % 2 ^ 28 = 0x3BFF8 ∧
    (u.me.stream.map fun t => t.route 0 == .win 5 3 && t.meetsAt 0xBFF8 8) = some true := by decide +kernel

/-- A virtual device without a peer entry in any port, and one with device 7 in all: what `GlobalAccesses` asks of it. -/
theorem test_witness_GlobalAccesses_peers :
    peerDev base 9 = none ∧ peerDev (setPeers 9 0x8007 base) 9 = some 7 := by
  have h : ∀ p : Fin 12, (base.fab.ports.get p.val).peers.get 9 = 0 ∧
      ((setPeers 9 0x8007 base).fab.ports.get p.val).peers.get 9 = 0x8007 := by decide +kernel
  have n := h (Config.peerPort 9)
  constructor
  · simp only [peerDev, peerEntry, n.1]; decide
  · simp only [peerDev, peerEntry, n.2]; decide

theorem test_witness_GlobalAccesses_remote :
    let s := withCtx fun c => { c with a := [(1, cap 4 9 (2 ^ 24 - 1) 3 0)] }
    let m : Mem := ⟨1, 0, 0xBFF8⟩
    let r (nd : Need) := route 0 s.me.guards (s.me.ra 1) (s.me.ea m) 8 nd allKinds
    let q (typ : Nat) (a : Option (Nat × List Byte)) : Req :=
      ⟨.ctx ⟨0, 0⟩, { (default : Packet) with typ := typ, addr := 0xBFF8, len := 8 }, a, false, false⟩
    let sent (typ : Nat) (a : Option (Nat × List Byte)) : State :=
      { s with fab := { s.fab with reqs := [(4, some (q typ a))] } }
    let t : Stream := { (default : Stream) with count := 1, w := .w64, ea := 0xBFF8, cap := cap 4 9 (2 ^ 24 - 1) 3 0 }
    let u := s.setMe { s.me with stream := some t }
    (s.me.ra 1).kind = 4 ∧ (s.me.ra 1).target = 9 ∧ r needR = .ok (.rem 9) ∧ r needW = .ok (.rem 9) ∧
    (s.me.ea m).toNat = 0xBFF8 ∧ behindRem (.ctx s.cur) 9 0xBFF8 8 s = false ∧ behindRem (.ctx u.cur) 9 0xBFF8 8 u = true ∧
    reqOf s (.ctx s.cur) = none ∧
    (∀ typ ∈ [1, 2], ∀ a ∈ [none, some (0, leBytes 8 5), some (0x42, []), some (0x19, [])],
      reqOf (sent typ a) (.ctx s.cur) = some (4, q typ a) ∧ behindRem (.ctx s.cur) 9 0xBFF8 8 (sent typ a) = false) ∧
    (0x19 : Nat) ≠ 0 ∧ (0x19 : Nat) ≠ 0x42 ∧ (0x19 : Nat) ≠ 0x0A := by decide +kernel

/-! ### Witnesses: engines -/

/-- A command of context 0 that has only been issued, with an untagged operand at `ea`. -/
def cmd (i : Instr) (ea : DWord) : Cmd :=
  { (default : Cmd) with ins := i, ea := ea, capY := ⟨false, ea.setWidth 128⟩, guards := base.me.guards }
/-- `base` with a command in its matrix queue. -/
def matrix (i : Instr) (ea : DWord) : State :=
  withCore fun c => { c with mx := { c.mx with queue := [cmd i ea] } }
/-- `base` with a command in its copy queue. -/
def copying (c : Cmd) : State := withCore fun k => { k with cp := { k.cp with queue := [c] } }
/-- Bytes at an address of local memory. -/
def stored (a : Nat) (b : List Byte) (s : State) : State := s.setMyCore { s.myCore with lm := s.myCore.lm.putList a b }
/-- Where an access of the head command of a core's matrix queue goes. -/
def headRoute (ea : DWord) (n : Nat) (nd : Need) (kinds : List Nat) : Except Nat Route :=
  route 0 (cmd .nop ea).guards (cmd .nop ea).capY ea n nd kinds

theorem test_witness_MatrixIssue :
    let s := withCtx fun c => { c with a := [(1, ⟨false, 0xBFF0⟩), (2, cap 1 0 16 3 0), (3, ⟨false, 0x10000000F⟩),
      (4, ⟨false, 0x100000010⟩)] }
    let full := withCore fun c => { c with mx := { c.mx with
      promises := (List.range 15).map fun i => (i, { (default : PrSlot) with inUse := true }) } }
    let busy := withCore fun c => { c with mx := { c.mx with
      promises := (List.range 16).map fun i => (i, { (default : PrSlot) with inUse := true }) } }
    releaseWait s = false ∧ reportLoad s.cur s < 16 ∧ (s.myCore.mx.queue.filter fun c => !c.begun).length < 2 ∧
    releaseWait full = false ∧ releaseWait busy = false ∧ (s.me.ea ⟨1, 0, 0⟩).toNat % 16 = 0 ∧ (s.me.ra 1).tag = false ∧ (s.me.ea ⟨1, 0, 12⟩).toNat % 4 = 0 ∧
    (s.me.ra 2).tag = true ∧ capCheck (s.me.ra 2) (s.me.ea ⟨2, 0, 0⟩) 0 needRW [1] false = none ∧
    capCheck (s.me.ra 2) (s.me.ea ⟨2, 0, 0⟩) 0 needR [0, 1] false = none ∧
    ((s.me.ia 3).toNat / 16 % 2 ^ 28 = 0 ∧ (s.me.ia 3).toNat / 2 ^ 32 ≠ 0) ∧ (s.me.ia 4).toNat / 16 % 2 ^ 28 ≠ 0 ∧
    15 < 16 ∧ (full.myCore.mx.promises.get 15).inUse = false ∧ (∀ j, j < 15 → (full.myCore.mx.promises.get j).inUse = true) ∧
    (∀ j, j < 16 → (busy.myCore.mx.promises.get j).inUse = true) := by decide +kernel

theorem test_witness_EngineWaitsAndCopyIssue :
    let s := withCtx fun c => { c with a := [(1, ⟨false, 8⟩), (2, cap 1 0 16 2 0), (3, cap 0 0 16 3 0)] }
    let two := withCore fun c => { c with mx := { c.mx with queue := [cmd .mxswp 0, cmd .mxswp 0] } }
    let one := copying (cmd (.cpy ⟨1, 2, 3, 0⟩) 0)
    (s.me.ea ⟨1, 0, 0⟩).toNat % 16 ≠ 0 ∧ (s.me.ea ⟨2, 0, 0⟩).toNat % 16 = 0 ∧ (s.me.ra 2).tag = true ∧
    capCheck (s.me.ra 2) (s.me.ea ⟨2, 0, 0⟩) 0 needR [1] false = some 5 ∧
    2 ≤ (two.myCore.mx.queue.filter fun c => !c.begun).length ∧
    16 ≤ reportLoad base.cur (withCtx fun c => { c with reports := List.replicate 16 default }) ∧
    postedOut base.cur (posted base) = true ∧ (withCtx fun c => { c with stream := some default }).me.stream ≠ none ∧
    (∀ c ∈ base.myCore.mx.queue, c.who ≠ base.cur) ∧ (∃ c ∈ two.myCore.mx.queue, c.who = two.cur) ∧
    (∀ c ∈ base.myCore.cp.queue, c.who ≠ base.cur) ∧ (∃ c ∈ one.myCore.cp.queue, c.who = one.cur) ∧
    (s.me.ra 1).tag = false ∧ (s.me.ia 1 + 0).toNat % 16 ≠ 0 ∧ (s.me.ia 1 + 8).toNat % 16 = 0 ∧ releaseWait s = false ∧
    reportLoad s.cur s < 16 ∧ (s.myCore.cp.queue.filter fun c => !c.begun).length < 2 ∧ (s.me.ra 3).tag = true ∧
    capCheck (s.me.ra 3) 0 0 needRW allKinds false = none := by decide +kernel

/-- A matrix queue whose head is a command that has only been issued. -/
theorem test_witness_matrix_head (i : Instr) (ea : DWord) :
    ((matrix i ea).core 0).mx.queue = cmd i ea :: [] ∧ ((matrix i ea).core 0).saved = false ∧ (cmd i ea).park = .free ∧
    (cmd i ea).begun = false ∧ (cmd i ea).who.core < 2304 ∧ (cmd i ea).ins = i ∧ (cmd i ea).prog = 0 ∧ (cmd i ea).buf = [] ∧
    SMap.wf ((matrix i ea).core 0).mx.acc = true ∧ SMap.wf ((matrix i ea).core 0).lm = true ∧
    SMap.wf ((matrix i ea).core 0).mx.latch = true :=
  ⟨rfl, rfl, rfl, rfl, (by decide : 0 < 2304), rfl, rfl, rfl, rfl, rfl, rfl⟩

theorem test_witness_MatrixStateCommands :
    let s := inGroup 1 1 (matrix .mxrot 0)
    let swp := s.setMyCore { s.myCore with mx := { s.myCore.mx with inc := .full } }
    (3 : Fin 4) ≠ 0 ∧ base.myCore.mx.masks.length = 3 ∧ swp.myCore.mx.inc = .full ∧ s.myCore.mx.inc ≠ .full ∧
    headRoute 0xBFF8 8 needW [1] = .ok .loc ∧ headRoute 0xBFF8 8 needR [1] = .ok .loc ∧
    progValid [0x31, 0, 0, 0, 0, 0, 0, 0] = true ∧ progValid [0x70, 0, 0, 0, 0, 0, 0, 0] = false ∧
    headRoute 0xBFE0 32 needR [1] = .ok .loc ∧ fmtValid (fmtCtx (List.replicate 32 0)) = true ∧
    fmtValid (fmtCtx [12]) = false ∧ (s.core 0).grp = some placedGrp ∧ (s.core 0).ring.toNat = 1 ∧
    (s.core 1).grp = some { placedGrp with idx := 1 } ∧ (1 ≠ 0) ∧ (s.core 1).saved = false ∧ (s.core 1).mx.inc = .empty ∧
    headRoute 0xBFF9 8 needR [1] = .error 8 := by decide +kernel

theorem test_witness_MatrixProductsAndGovernor :
    let s := matrix (.mxmma ⟨1, ⟨1, 0, 0⟩, 3⟩) 0xB000
    let k := s.core 0
    headRoute 0xB000 (aSpan k.mx.fmt) needR [1] = .ok .loc ∧ k.mx.govHeld = 0 ∧
    s.plat.spent.get (clusterOf 0) + govEst k (cmd (.mxmma ⟨1, ⟨1, 0, 0⟩, 3⟩) 0xB000) ≤ budgetOf s (clusterOf 0) ∧
    k.mx.fmt.accf ≠ 3 ∧ headRoute 0x8000 (31 * 256 + 256) needW [1] = .ok .loc ∧ ofmW k.mx.fmt.ofm = 32 ∧
    base.cores.keys.Nodup := by decide +kernel

/-- No core of `base` holds a product back. -/
theorem test_witness_GovernorWindow (k : Nat) : (base.core k).mx.govHeld = 0 := by
  have h : base.cores = [(0, base.core 0)] := rfl
  show (SMap.get base.cores k).mx.govHeld = 0
  rw [h]
  by_cases hk : k = 0
  · subst hk; rfl
  · have : SMap.get [(0, base.core 0)] k = default := by simp [SMap.get, Ne.symm hk]
    rw [this]; rfl

/-- A product that the governor holds, the first 8 bytes of its A operand all ones: let go, or held on. -/
theorem test_witness_GovernorWindow_held :
    let i : Instr := .mxmma ⟨1, ⟨1, 0, 0⟩, 0⟩
    let s (waited : Bool) (power : Nat) : State :=
      let t := stored 0xB000 (leBytes 8 (2 ^ 64 - 1)) (matrix i 0xB000)
      { t.setMyCore { t.myCore with mx := { t.myCore.mx with govHeld := 1, queue := [{ cmd i 0xB000 with waited := waited }] } }
        with plat := { t.plat with power := power } }
    let fits (waited : Bool) (power : Nat) : Prop :=
      let s := s waited power
      govEst (s.core 0) { cmd i 0xB000 with waited := waited } ≤
        budgetOf { s with plat := { s.plat with powerNow := s.plat.power } } (clusterOf 0)
    ((s false 0).core 0).mx.queue = { cmd i 0xB000 with waited := false } :: [] ∧ ((s false 0).core 0).mx.govHeld ≠ 0 ∧
    ((s false 0).core 0).xphase = false ∧ ((s false 0).core 0).saved = false ∧ (s false 0).cores.keys = [0] ∧
    fits false 1 ∧ ¬ fits false 0 := by decide +kernel

/-- The bytes that a load of the incoming bank reaches over. -/
def spanOfPlan (p : LdbPlan) : Nat :=
  max ((p.rows - 1) * p.stride + p.rlen) (if p.scales = 0 then 0 else p.rows * p.stride + p.scales)

theorem test_witness_MatrixTransfers :
    let m := base.myCore.mx
    let p (s : DWord) := ldbPlan m.fmt false s
    let t := ldbPlan m.fmt true 0
    headRoute 0x8000 (partBytes 2) needW [0, 1] = .ok .loc ∧ (partOf m 4).length = partBytes 4 ∧
    (partOf m 3).length = partBytes 3 ∧ headRoute 0xBF80 (partBytes 4) needR [0, 1] = .ok .loc ∧
    controlValid (partOf m 4) = true ∧ controlValid (List.replicate 128 0xFF) = false ∧ (4 : Fin 5).val = 4 ∧
    m.inc ≠ .loading ∧
    headRoute 0 (spanOfPlan (p 0)) needR [0, 1] = .ok .loc ∧
    (p 0).stride % 16 = 0 ∧ (p 0).rlen ≤ (p 0).stride ∧ codeMX m.fmt.bf = false ∧
    headRoute 0 (spanOfPlan t) needR [0, 1] = .ok .loc ∧
    t.stride % 16 = 0 ∧ t.rlen ≤ t.stride ∧ (p 129).stride % 16 ≠ 0 ∧ (p 16).stride < (p 16).rlen ∧
    headRoute 0 (spanOfPlan (p 16)) needR [0, 1] = .ok .loc := by
  decide +kernel

theorem test_witness_PromiseCommands :
    let h (i : Instr) (st : PrState) : State :=
      let s := withCore fun c => { c with mx := { c.mx with
        queue := [{ cmd i 0xBFE0 with capX := ⟨false, 7 * 2 ^ 32 + 15⟩ }]
        promises := [(15, { (default : PrSlot) with inUse := true, seq := 7, roff := 0xBFC0, last := st })] } }
      s
    let s := h (.prsq 1) .opened
    let c : Cmd := { cmd (.prsq 1) 0xBFE0 with capX := ⟨false, 7 * 2 ^ 32 + 15⟩ }
    let sl := (s.core 0).mx.promises.get (c.capX.int.toNat % 16)
    (s.core 0).mx.queue = c :: [] ∧ headRoute 0xBFF0 16 needR [1] = .ok .loc ∧ lossValid base.myCore.mx.loss = true ∧
    lossValid (List.replicate 16 0) = false ∧ headRoute 0xBFF8 8 needW [1] = .ok .loc ∧ c.who.core < 2304 ∧
    localOk c.guards (sl.roff + 8) 2 needR = true ∧
    headRoute 0xBFE0 32 needW [1] = .ok .loc ∧ sl.seq.toNat = c.capX.int.toNat / 2 ^ 32 ∧ sl.inUse = true ∧
    sl.last = .opened ∧ badRegion c.guards ((prRec (s.core 0) sl.roff).correctRegions false false) = none ∧
    ((h (.prsq 1) .redeemed).core 0).mx.promises.get 15 = { sl with last := .redeemed } ∧
    ((base.core 0).mx.promises.get 15).seq.toNat ≠ c.capX.int.toNat / 2 ^ 32 ∧
    slotsIn base.myCore.mx [.opened, .redeemed] = [] := by decide +kernel

/-- A copy descriptor of one row of n bytes from 0 to 0, with the mailbox at `mbx` (R256, R260). -/
def descriptor (n mbx : Nat) : List Byte :=
  leBytes 16 0 ++ leBytes 4 n ++ leBytes 2 1 ++ leBytes 2 1 ++ leBytes 24 0 ++ leBytes 2 0 ++ leBytes 2 mbx ++
    leBytes 1 (if mbx = 0 then 7 else 1) ++ leBytes 11 0

theorem test_witness_CopyPerformance :
    let o : CopyF := ⟨1, 2, 3, 0⟩
    let c : Cmd := { cmd (.cpy o) 0xBFC0 with capX := ⟨false, 0x800⟩, capY := ⟨false, 0⟩ }
    let s := stored 0xBFC0 (descriptor 0x800 0xBFF8) (copying c)
    let k := s.core 0
    let d := k.lm.getRange 0xBFC0 64
    let b : List Byte := leBytes 8 5 ++ leBytes 2 0xBFF8 ++ leBytes 54 0
    let red : Cmd := { cmd (.crall o) 0 with begun := true, waited := true, slot := 14, seq := 0, buf := b }
    let cp : Cp := { (copying red).myCore.cp with crall := [(14, 1)] }
    let r := (copying red).setMyCore { (copying red).myCore with dom := [(14, 0x100)], cp := cp }
    k.cp.queue = c :: [] ∧ k.saved = false ∧ c.park = .free ∧ c.who.core < 2304 ∧ c.begun = false ∧
    localOk c.guards 0xBFC8 64 needR = false ∧ c.ins = .cpy o ∧ c.prog = 0 ∧ c.hist = [] ∧ c.flags = 0 ∧ c.capX.tag = false ∧
    c.capY.tag = false ∧ localOk c.guards c.ea.toNat 64 needR = true ∧ descOk c d = true ∧ descF d 20 2 = 1 ∧
    descF d 22 2 = 1 ∧ descF d 48 2 = 0 ∧ descF d 16 4 = 0x800 ∧ descF d 50 2 % 8 = 0 ∧
    localOk c.guards (descF d 50 2) 8 needW = true ∧ localOk c.guards 0 0x800 needR = true ∧
    localOk c.guards 0x800 0x800 needW = true ∧ 0 + 0x800 ≤ 0x800 ∧ 0 % 2048 + 0x800 ≤ 2048 ∧ 0x800 % 2048 + 0x800 ≤ 2048 ∧
    (crallOf (r.core 0)).map (fun x => (x.1, x.2.2)) = some (14, 0) ∧ 14 ≠ 15 ∧
    (crallOf (r.core 0)).map (fun x => redHere x.1 x.2.1 x.2.2 r) = some true ∧
    s.fine = false ∧ redValue [⟨0, 0, 5⟩] = (0, 5) ∧ (0 : Nat) ≠ 255 ∧
    (∀ x ∈ ([⟨0, 0, 5⟩] : List Contribution), x.core ≠ finalMark ∧ x.core ≠ sentMark) ∧
    ([⟨finalMark, 7, 5⟩] : List Contribution).find? (fun x => x.core == finalMark) = some ⟨finalMark, 7, 5⟩ ∧ dRec red.buf = 0 ∧ dMbx red.buf = 0 ∧ red.buf.length = 64 := by decide +kernel

/-! ### Witnesses: events of the units of a core -/

theorem test_witness_UnitEvents :
    let r : Report := ⟨0x0B, 1, 0⟩
    let one := withCtx fun c => { c with reports := [r] }
    let loss := withCtx fun c => { c with lossfloor := some r }
    let mov := { base with fab := { base.fab with reqs := [(2 ^ 32 - 1, some { (default : Req) with moving := true })] } }
    let joined (n : Nat) (b : Bool) (h : Chan) : State := withCore fun c => { c with
      grp := some { placedGrp with bulk := b }, dom := [(n, 0x100)], chans := [(n, h)] }
    let arrived : Chan := { (default : Chan) with arrived := [0], next := some 1 }
    let key (n : Nat) : Nat := keyOf n 0 0x100
    let held := withCore fun c => { c with chans := [(0, { (default : Chan) with held := [(0, 0)] })] }
    let x : Xfer := ⟨⟨0, 0⟩, placedGrp.launch, 0, 0, 0, 1, 0xBFF8, [1, 2, 3, 4, 5, 6, 7, 8]⟩
    let send (w : DWord) := (inGroup 1 1 (withCore fun c => { c with xfers := [x] })).setCore 1
      { (inGroup 1 1 base).core 1 with win := [(0, w)] }
    let m : Message := ⟨⟨0, 0⟩, none, 0, false, 0, 0, [1, 2, 3, 4, 5, 6, 7, 8]⟩
    let rx (v t fl : Nat) := withCore fun c => { c with
      rxIn := [{ m with dest := BitVec.ofNat 64 (v * 65536) }], rxbase := 0xBFE0, rxsize := 32, rxhead := 0xBFE0
      win := [(0, 0x2BFFF0000)]
      rxtail := BitVec.ofNat 64 t, rxflags := BitVec.ofNat 64 fl }
    reportReady ⟨0, 0⟩ base = false ∧ reportReady ⟨0, 0⟩ one = true ∧ (one.ctx ⟨0, 0⟩).reports = r :: [] ∧
    (one.ctx ⟨0, 0⟩).lossfloor = none ∧ expiredFor ⟨0, 0⟩ one = [] ∧ reportReady ⟨0, 0⟩ loss = true ∧
    (loss.ctx ⟨0, 0⟩).reports = [] ∧ (loss.ctx ⟨0, 0⟩).lossfloor = some r ∧ expiredFor ⟨0, 0⟩ loss = [] ∧
    (mov.fab.reqs.get (2 ^ 32 - 1)).map (·.moving) = some true ∧
    (let r : Req := { (default : Req) with moving := true, agent := .ctx ⟨0, 0⟩ }
     r.moving = true ∧ r.pkt.typ ≠ 0x30 ∧ r.agent = .ctx ⟨0, 0⟩) ∧
    ((joined 14 false arrived).core 0).key 14 = some (key 14) ∧ (joined 14 false arrived).cores.keys.Nodup ∧
    allArrived 14 (key 14) (joined 14 false default) = false ∧ allArrived 14 (key 14) (joined 14 false arrived) = true ∧
    ((joined 0 true arrived).core 0).key 0 = some (key 0) ∧ allArrived 0 (key 0) (joined 0 true arrived) = true ∧
    endsSuperstep (key 0) (joined 0 true arrived) = false ∧
    (let e0 := (joined 0 true arrived).setMyCore { (joined 0 true arrived).myCore with barph := 1 }
     let e := e0.setLaunch placedGrp.launch { e0.launchOf placedGrp.launch with noPreempt := true }
     releaseHeld (key 0) e = false ∧
     allArrived 0 (key 0) e = true ∧ endsSuperstep (key 0) e = true ∧ repairHolds (key 0) e = false ∧
     launchesOf (key 0) e = [placedGrp.launch] ∧
     (∀ l ∈ launchesOf (key 0) e, (e.launchOf l).resolved = none ∧ (e.launchOf l).noPreempt = true) ∧
     (e.core 0).isBulk = true ∧ (e.core 0).barph.getLsbD 0 = true) ∧
    ((held.core 0).chans.get 0).held = (0, 0) :: [] ∧ 0 ≤ releasedOf (held.core 0) 0 held ∧ (held.core 0).xfers = [] ∧ (held.core 0).sendBusy ≤ held.time ∧
    coreMessages 0 held = 0 ∧ 0 ≤ (held.core 0).cp.done.toNat ∧
    (send 0).myCore.grp = some placedGrp ∧ (send 0).myCore.xfers = [x] ∧ x.who.core = 0 ∧
    coreOfGroup placedGrp.launch 1 (send 0) = some 1 ∧ ((send 0).core 1).saved = false ∧
    ((send 0).core 1).recvBusy ≤ (send 0).time ∧ hasRival 0 x (send 0) = false ∧ ((send 0).core 0).sendBusy ≤ (send 0).time ∧
    (let sender : Sender := ⟨base.fab.devid, 0, (base.launchOf x.launch).vdev⟩
     windowOk (send 0x2BFFF0000) 1 sender 0xBFF8 8 needW = true ∧ windowOk (send 0) 1 sender 0xBFF8 8 needW = false) ∧
    ((rx 1 0xBFE0 1).core 0).rxIn = { m with dest := 65536 } :: [] ∧ placedGrp.vdev ≠ bitsOf (65536 : DWord).toNat 31 16 ∧
    migrating 1 (rx 1 0xBFE0 1) = false ∧ migrating 0 (rx 0 0xBFE0 1) = false ∧
    placedGrp.vdev = bitsOf (0 : DWord).toNat 31 16 ∧
    windowOk (rx 0 0xBFE0 1) 0 ⟨(rx 0 0xBFE0 1).fab.devid, m.core, m.vdev⟩ 0xBFE0 32 needW = true ∧
    windowOk base 0 ⟨base.fab.devid, m.core, m.vdev⟩ 0xBFE0 32 needW = false ∧
    ((rx 0 0xBFE0 0).core 0).rxflags.getLsbD 0 = false ∧
    ((rx 0 0xBFE0 1).core 0).rxflags.getLsbD 0 = true ∧ 8 + 8 + 8 ≤ 32 ∧ 0xBFE0 + (8 + 8) ≤ 0xBFE0 + 32 := by decide +kernel

/-- The clauses of `UnitEvents` in which an event waits: a message of a group that has ended holds the release of the superstep,
and one for a virtual device that is moving stays where it is. -/
theorem test_witness_UnitEvents_waits :
    let arrived : Chan := { (default : Chan) with arrived := [0], next := some 1 }
    let key := keyOf 0 0 0x100
    let m (w : Who) : Message := ⟨w, none, 65536, false, 0, 0, [0]⟩
    let s := withCore fun c => { c with
      grp := some { placedGrp with bulk := true }, barph := 1, dom := [(0, 0x100)], chans := [(0, arrived)] }
    let out := s.setCore 1 { s.core 1 with rxIn := [m (goneGroup placedGrp.launch)] }
    let moving := withCore fun c => { c with rxIn := [m ⟨0, 0⟩] }
    let away := { moving with fab := { moving.fab with migs := [(1, { (default : Migration) with active := true, sent := true })] } }
    (out.core 0).key 0 = some key ∧ allArrived 0 key out = true ∧ releaseHeld key out = true ∧
    (away.core 0).rxIn = m ⟨0, 0⟩ :: [] ∧ (away.core 0).saved = false ∧ (m ⟨0, 0⟩).pkt = none ∧
    migrating (bitsOf (m ⟨0, 0⟩).dest.toNat 31 16) away = true := by decide +kernel

/-- `base` with every port down. -/
def portsDown (s : State) : State :=
  { s with fab := { s.fab with ports := (List.range 12).map fun i => (i, { s.fab.ports.get i with down := true }) } }

/-- A route is lost when every port is down, and none is when all are up. -/
theorem test_witness_UnitEvents_routes (dev : Nat) :
    routeLost dev (portsDown base) = true ∧ routeLost dev base = false := by
  have h : ∀ p : Fin 12, ((portsDown base).fab.ports.get p.val).down = true ∧ (base.fab.ports.get p.val).down = false := by
    decide +kernel
  exact h (Config.portOf dev)

/-! ### Witnesses: queues, launches and groups -/

/-- `base` with space 0 of virtual device 0 open and mapped (see `mapped`). -/
def spaced : State :=
  let s := mapped 7 base
  s.setVdev 0 { s.vdev 0 with spaces := [(0, ⟨.opened, 0, 0, 0, false⟩)] }
/-- A queue of virtual device 0 with 64 slots at virtual address 0, number n, rights 48 to 51. -/
def que (n : Nat) : Que :=
  { (default : Que) with alive := true, opened := true, woken := true, w1 := BitVec.ofNat 64 (15 * 2 ^ 48 + n * 2 ^ 32 + 64), qcb := 0x800 }
/-- `spaced` with a queue. -/
def queued (n : Nat) (q : Que) : State := { spaced with queues := [(n, q)] }
/-- What an access answers, as data. -/
def okOf {α β : Type} (f : α → β) (x : MRes α) : Option β := match x with | .ok v _ => some (f v) | _ => none
/-- A wake write of a queue to tail t with a tag. -/
def wake (q : Que) (tag t : Nat) : List Byte :=
  leBytes 8 q.w0.toNat ++ leBytes 8 q.w1.toNat ++ leBytes 8 q.w2.toNat ++ leBytes 8 tag ++ leBytes 8 t ++ leBytes 24 0

/-- A tag that is not a queue's: one bit differs. -/
theorem wrong_tag (x : DWord) : x ≠ BitVec.ofNat 64 (leNat (leBytes 8 (x ^^^ 1).toNat)) := by
  simp only [leNat_leBytes_toNat, BitVec.ofNat_toNat, BitVec.setWidth_eq]
  intro h
  have h0 : x.getLsbD 0 = (x ^^^ 1).getLsbD 0 := by rw [← h]
  simp at h0

/-- The first clauses of `WakeWritesAndFetch`: a stale length, the tag of the queue, and another tag. -/
theorem test_witness_WakeWrites :
    let q := que 4095
    let s := queued 4095 q
    let tag := queueTag s.plat.starts q.w0 q.w1 q.w2
    let b := wake q tag.toNat (2 ^ 64 - 1)
    let c := wake q (tag ^^^ 1).toNat 0
    ([] : List Byte).length ≠ 64 ∧ b.length = 64 ∧ c.length = 64 ∧ s.queue 4095 = q ∧ q.alive = true ∧ migrating q.vdev s = false ∧
    bodyF b 0 8 = q.w0.toNat ∧ bodyF b 8 8 = q.w1.toNat ∧ bodyF b 16 8 = q.w2.toNat ∧ bitsOf q.w1.toNat 47 32 = 4095 ∧
    bodyF b 32 8 = 2 ^ 64 - 1 ∧ bodyF c 32 8 = 0 ∧ tag = BitVec.ofNat 64 (bodyF b 24 8) ∧ tag ≠ BitVec.ofNat 64 (bodyF c 24 8) ∧
    (b.drop 40).any (· != 0) = false ∧ bitAt q.w1.toNat 48 = true ∧ q.opened = true ∧ some 0 = some q.vdev ∧
    q.tail < 2 ^ 64 - 1 ∧ 0 ≤ q.tail ∧ q.blkPark = .free := by
  refine ⟨by decide, rfl, rfl, rfl, rfl, rfl, rfl, rfl, rfl, rfl, rfl, rfl, ?_, ?_, rfl, rfl, rfl, rfl, by decide, by decide, rfl⟩
  · have h (x : DWord) : x = BitVec.ofNat 64 (leNat (leBytes 8 x.toNat)) := by simp
    exact h _
  · exact wrong_tag _

theorem test_witness_WakeWritesAndFetch :
    let n := 4095
    let q := { que n with tail := 1 }
    let s := queued n q
    let pub := s.physStore (0x10000 + 56) (leBytes 8 1)
    let launch : List Byte := leBytes 1 1 ++ leBytes 55 0
    let c : QCmd := { (default : QCmd) with body := launch, ready := some (0, 0), short := some default }
    let old := { queued n { que n with level := 1, age := 1, cmds := [c] } with time := 0x10000 }
    canFetch n s = true ∧ okOf leNat (ioRead n 0 0 56 8 (fetchStart n s)) = some 0 ∧ (s.queue n).head = 0 ∧ (s.queue n).slots = 64 ∧
    canFetch n pub = true ∧ okOf leNat (ioRead n 0 0 56 8 (fetchStart n pub)) = some 1 ∧
    okOf (fun b => (b.length, bNeeds b)) ((ioRead n 0 0 56 8 (fetchStart n pub)).bind fun _ s => ioRead n 0 0 0 56 s) =
      some (56, []) ∧ (pub.queue n).cmds = [] ∧ c.short.isSome = true ∧
    headCmd { que n with cmds := [{ c with joined := true }] } = some { c with joined := true } ∧
    migrating 0 old = false ∧ headCmd (old.queue n) = some c ∧ bKind c.body = 1 ∧ (old.queue n).age ≠ 0 ∧
    0 < (old.queue n).level ∧ 0 + (min 7 (bPrio c.body) - 1 + 1) * 1 * 1900 ≤ old.time := by decide +kernel

/-- The body of a command (R336): kind, flags, image, groups, sigev, args. -/
def body (kind flags image groups sigev args : Nat) : List Byte :=
  leBytes 1 kind ++ leBytes 1 7 ++ leBytes 2 flags ++ leBytes 4 0 ++ leBytes 8 image ++ leBytes 4 groups ++
    leBytes 16 0 ++ leBytes 2 sigev ++ leBytes 2 0 ++ leBytes 8 args ++ leBytes 8 0
/-- `spaced` with an image of one halfword at 0x200 and its code at 0x300. -/
def imaged (s : State) : State :=
  (s.physStore 0x10200 (leBytes 4 0x52595449 ++ leBytes 4 1 ++ leBytes 8 0 ++ leBytes 8 0x300 ++ leBytes 40 0)).physStore
    0x10300 (leBytes 2 0x0040)

theorem test_witness_QueueCommands :
    let cmd (b : List Byte) : QCmd :=
      { (default : QCmd) with body := b, joined := true, satisfied := true, ready := some (0, 0) }
    let s (q : Que) (c : QCmd) : State := imaged (queued 5 { q with cmds := [c] })
    let wait := cmd (body 2 0 0 0 65535 0)
    let pre := cmd (body 4 0 0x200 0 0 0)
    let go := cmd (body 1 0 0x200 1 0 0x400)
    let bad := cmd (body 1 0 0x200 0 0 0x400)
    let gone := { s (que 5) { go with started := true, launch := some (launchKey 0 7) } with
      launches := [(launchKey 0 7, { (default : LaunchSt) with alive := true, killed := true, q := 5, id := 7 })] }
    let passes (x : Except Nat (Image × List Byte × List Bool)) : Bool := x.isOk
    let tried (c : QCmd) : State := mapCmd 5 c.idx (fun c => { c with tried := true }) (s (que 5) c)
    let status (x : Except Nat (Image × List Byte × List Bool)) : Option Nat :=
      match x with | .error st => some st | .ok _ => none
    ((s (que 5) wait).queue 5).cmds = [wait] ∧ wait.result = none ∧ wait.recPark = .free ∧ bRec wait.body = 0 ∧
    migrating 0 (s (que 5) wait) = false ∧ wait.started = false ∧ wait.joined = true ∧ wait.launch = none ∧
    ({ wait with ready := none }).ready = none ∧ heldOther 5 wait.rank (s (que 5) wait) = false ∧
    heldOther 5 pre.rank (s (que 5) pre) = false ∧
    wait.satisfied = true ∧ wait.ready.isSome = true ∧ bKind wait.body = 2 ∧ badOther wait.body = false ∧
    (que 5).right 50 = true ∧ ((s (que 5) wait).vdev 0).waits.get 65535 = [] ∧ bSigev wait.body ≠ 0 ∧
    bKind (body 3 0 0 0 1 0) = 3 ∧ badOther (body 3 0 0 0 1 0) = false ∧
    bSigev (body 4 0 0x200 0 65535 0) = 65535 ∧ bKind pre.body = 4 ∧ badOther pre.body = false ∧ (que 5).right 51 = true ∧
    okOf (·.2) (readImage (recTask 5 pre.idx) 0 0 (bImage pre.body) (startCmd 5 pre (s (que 5) pre))) = some true ∧
    bKind go.body = 1 ∧ heldBack 5 go.rank (s (que 5) go) = false ∧ quiesces 0 (s (que 5) go) = false ∧
    badLaunch bad.body false = true ∧ badLaunch go.body false = false ∧ ({ que 5 with w1 := 64 }).right 49 = false ∧
    okOf status (launchCheck 5 bad.idx bad.body (tried bad)) = some (some 2) ∧
    okOf passes (launchCheck 5 go.idx go.body (tried go)) = some true ∧ bitAt (bFlags go.body) 0 = false ∧
    bitAt (bFlags go.body) 1 = false ∧
    (let t := tried go
     let key := launchKey 0 (t.vdev 0).nextId
     let l := newLaunch 5 go default ([], []) (t.vdev 0).nextId t
     placeable key 0 (firstGang l) l.ganged t = true) ∧
    launchOut (launchKey 0 7) gone = false ∧ (gone.launchOf (launchKey 0 7)).vdev = (gone.queue 5).vdev ∧
    launchOver (gone.launchOf (launchKey 0 7)) = true ∧ migrating 0 gone = false ∧
    (gone.launchOf (launchKey 0 7)).q = 5 ∧ (gone.launchOf (launchKey 0 7)).idx = go.idx := by decide +kernel

theorem test_witness_RemoteCountsAndFaultQueue :
    let f : FaultRec := { (default : FaultRec) with va := 1 }
    let s (a entries : Nat) : State :=
      let s := base.setVdev 0 { base.vdev 0 with fqBlock := some a, fwait := [f] }
      (s.physStore a (leBytes 8 0x2000)).physStore (a + 8) (leBytes 4 entries)
    let high := (s 0x1000 1).physStore 0x1000 (leBytes 8 (hbmEnd - 31))
    (mapped 7 base).tlb[1]?.isSome = true ∧ migrating 0 (s 0x1000 1) = false ∧
    ((s 0x1000 1).vdev 0).fqBlock = some 0x1000 ∧ ((s 0x1000 1).vdev 0).fwait = f :: [] ∧ hbmEnd < (hbmEnd - 63) + 64 ∧
    0x1000 + 64 ≤ hbmEnd ∧ (s 0x1000 0).physNum 0x1008 4 ≤ (s 0x1000 0).physNum 0x1010 8 - (s 0x1000 0).physNum 0x1018 8 ∧
    (s 0x1000 1).physNum 0x1010 8 - (s 0x1000 1).physNum 0x1018 8 < (s 0x1000 1).physNum 0x1008 4 ∧
    hbmEnd < high.physNum 0x1000 8 + 32 * (high.physNum 0x1010 8 % 1) + 32 ∧ 0x2000 + 32 ≤ hbmEnd ∧ 0x1000 + 64 ≤ 0x2000 := by
  decide +kernel

/-- `base` with launch 7 of groups groups in gangs, placed as far as given, and messages on the link of cluster 0. -/
def ganged (groups : Nat) (p : PlaceSt) (asked : List (Nat × Nat)) (granted : List Nat) : State :=
  { base with launches := [(7, { (default : LaunchSt) with
      alive := true, id := 7, gang := 2, groups := groups, predicted := groups, place := p, asked := asked, granted := granted })] }

theorem test_witness_GangPlacement :
    let s := ganged 2 .none [] []
    let set := ((currentSet 7 s).map (·.2)).getD []
    let cl := set.headD 0
    let linked (m : List LinkMsg) (s : State) : State := { s with links := [(cl, m)] }
    let full := linked (List.replicate 8 (.release 9)) s
    let r := ganged 2 .reserved (shares s set 2) []
    let few := { r with cores := (List.range 144).map fun i => (i, base.core 0) }
    let a := ganged 2 .reserved (shares s set 2) set
    let n := ganged 2 .reserved (shares s set 2) (set.map (· + 576))
    (s.launchOf 7).alive = true ∧ (s.launchOf 7).ganged = true ∧ (s.launchOf 7).place = .none ∧ (s.launchOf 7).killed = false ∧
    (s.launchOf 7).reserved = [] ∧ currentSet 7 s = some (2, set) ∧ set.length = 1 ∧ (∀ cl ∈ set, (s.links.get cl).length < 8) ∧
    (∃ cl ∈ set, 8 ≤ (full.links.get cl).length) ∧ currentSet 7 full = some (2, set) ∧
    (r.launchOf 7).place = .reserved ∧ (linked [.reserve 7 2, .release 9] r).links.get cl = .reserve 7 2 :: [.release 9] ∧
    (9 : Nat) ≠ 7 ∧ r.links.get cl = [] ∧ 2 ≤ (freeIn 7 cl r).length ∧ (freeIn 7 cl few).length < 2 ∧
    (∀ a ∈ (r.launchOf 7).asked, (r.links.get a.1).length < 8) ∧
    (∀ g ∈ (n.launchOf 7).granted.filter (fun g => decide (g < 576)), (n.links.get g).length < 8) ∧
    (a.launchOf 7).asked.length ≤ (a.launchOf 7).granted.length ∧ (∀ g ∈ (a.launchOf 7).granted, g < 576) ∧ (a.launchOf 7).pergola = false ∧
    (n.launchOf 7).asked.length ≤ (n.launchOf 7).granted.length ∧ (∃ g ∈ (n.launchOf 7).granted, 576 ≤ g) ∧
    ((ganged 2 .backoff [] []).launchOf 7).retry ≤ (ganged 2 .backoff [] []).time := by decide +kernel

theorem test_witness_GroupLifecycle :
    let l : LaunchSt := { (default : LaunchSt) with alive := true, id := 7, groups := 3, predicted := 2, floor := 1, argva := 0x400 }
    let put (l : LaunchSt) : State := { spaced with launches := [(7, l)] }
    let s := put l
    let sp := put { l with spec := true, served := true, shapeva := 0x400 }
    let ended := (put { l with gst := [(0, .running 0)] }).setCore 0
      { (default : CoreSt) with grp := some { (default : Grp) with launch := 7 } }
    let app (n : Nat) := (put { l with resolved := some n, gst := [(1, .running 0)] }).setCore 0
      { (default : CoreSt) with grp := some { (default : Grp) with launch := 7, idx := 1 } }
    let tail := put { l with resolved := some 3, applied := true }
    (s.launchOf 7).alive = true ∧ (s.launchOf 7).killed = false ∧ quiesces 0 s = false ∧ (s.launchOf 7).ganged = false ∧
    (s.launchOf 7).nextGroup = some 0 ∧ vdevHas (s.vdev 0) 143 = true ∧ coreFree 7 143 s = true ∧ outranked l s = false ∧
    planOk l.image.plan l.groups = true ∧
    okOf (fun a => a.1.length) (readArgs (2 ^ 33 * 2 ^ 64 + 7) 0 0 0x400 s) = some 64 ∧
    (ended.core 0).grp = some { (default : Grp) with launch := 7 } ∧ groupOver (ended.core 0) = true ∧ pergOf 0 ended = none ∧
    (ended.launchOf 7).gst.get 0 = .running 0 ∧
    (sp.launchOf 7).spec = true ∧ (sp.launchOf 7).served = true ∧ (sp.launchOf 7).resolved = none ∧
    (sp.launchOf 7).shapePark = .free ∧ migrating 0 sp = false ∧
    okOf leNat (ioRead (2 ^ 34 * 2 ^ 64 + 7) 0 0 0x400 8 sp) = some 0 ∧
    ((app 2).launchOf 7).applied = false ∧ ((app 2).launchOf 7).resolved = some 2 ∧ ((app 2).launchOf 7).bulk = false ∧
    ((app 2).launchOf 7).gst = [(1, .running 0)] ∧
    ((app 2).core 0).grp = some { (default : Grp) with launch := 7, idx := 1 } ∧ 1 < 2 ∧ ((app 1).launchOf 7).resolved = some 1 ∧ 1 ≤ 1 ∧
    (tail.launchOf 7).applied = true ∧ (tail.launchOf 7).tailRun = false ∧ (tail.launchOf 7).killed = false ∧
    (tail.launchOf 7).bulk = false ∧ (tail.launchOf 7).resolved = some 3 ∧ (tail.launchOf 7).predicted < 3 := by decide +kernel

theorem test_witness_SavesAndRepairs :
    let ret (s : State) : State := { s with plat := { s.plat with retiring := [(0, true)] } }
    let s := ret base
    let h := ret (withCore fun c => { c with grp := some { placedGrp with halted := true } })
    let v : Saved := ⟨0, 7, 0, 1, base.core 0, none, false⟩
    let sv := { base with savedGroups := [(9, some v)], launches := [(7, { (default : LaunchSt) with alive := true, id := 7 })] }
    let idle := { ret base with cores := [] }
    wantSave 0 s = some 3 ∧ placedGrp.bulk = false ∧ placedGrp.pergola = false ∧ packetOpen (s.core 0) = false ∧
    placedGrp.halted = false ∧ (s.core 0).grp = some placedGrp ∧ wantSave 0 h = some 3 ∧ saveReady 0 h = true ∧
    ((h.core 0).grp.map (·.halted)) = some true ∧ (h.ctx ⟨0, 0⟩).ahead = [] ∧ (h.ctx ⟨0, 0⟩).stream = none ∧
    (h.ctx ⟨0, 0⟩).taking = false ∧
    -- nothing calls for the save any more
    (let n := withCore fun c => { c with grp := some { placedGrp with halted := true } }
     (n.core 0).grp = some { placedGrp with halted := true } ∧ wantSave 0 n = none) ∧ v.term = none ∧ sv.savedGroups.get 9 = some v ∧ v.reason ≠ 3 ∧ (sv.launchOf 7).alive = true ∧
    outranked (sv.launchOf 7) sv = false ∧ (sv.vdev 0).moving = false ∧ (sv.launchOf 7).bulk = false ∧
    (sv.launchOf 7).pergola = false ∧ vdevHas (sv.vdev 0) 1 = true ∧ coreFree 7 1 sv = true ∧
    v.homeOnly sv = false ∧ { v with repair := true, core := 2 }.homeOnly sv = true ∧ coreFree 7 2 sv = true ∧
    idle.plat.retiring.get (clusterUnit (clusterOf 2303)) = false ∧ reservedElse 0 2303 idle = false ∧
    base.plat.retiring.get (clusterUnit (clusterOf 0)) = false ∧ reservedElse 0 0 base = false ∧
    (0 : Nat) < 2304 ∧ idle.plat.coreSpareUsed.get (clusterOf 2303) = false ∧ idle.plat.retiring.get 0 = true ∧ (idle.core 0).grp = none ∧
    idle.plat.absent.get 2303 = false ∧ (idle.core 2303).grp = none ∧ (idle.core 2303).saved = false ∧
    (base.core 0).grp ≠ none := by decide +kernel

/-! ### Witnesses: packets and migration -/

/-- A packet of a type from device 7 to virtual device 0 with a payload. -/
def pkt (typ cls : Nat) (b : List Byte) : Packet :=
  { (default : Packet) with typ := typ, cls := cls, sdev := 7, svdev := 5, space := 0xFFFF, len := b.length, payload := b }
/-- `base` with port 11 changed. -/
def ported (q : Port) : State := { base with fab := { base.fab with ports := [(11, q)] } }
/-- Pergola 5 of `base`: its member 1 is the group of core 0, admitted through a window on all its memory. -/
def member (f : Member → Member) : State :=
  let m : Member := { (default : Member) with present := true, att := true }
  let s := perg.setMyCore { perg.myCore with win := [(0, 0x7BFFF0000)] }
  { s with fab := { s.fab with pergs := [(5, ⟨4, [(1, f m)]⟩)] } }
/-- Virtual device 0 exports its space 0; page 0 is mapped at port 0 with the rights 7 and A. -/
def exported : State :=
  let t : Tlb := ⟨.port 0, 0, 0, 0, 0, 0, 0x1000F, 0x8000, true, 0, 0⟩
  { base.setVdev 0 { base.vdev 0 with spaces := [(0, ⟨.opened, 0, 0, 0, true⟩)] } with tlb := [t] }

theorem test_witness_RemoteAccesses_ports :
    let p : Packet := sealPkt { pkt 1 2 [] with port := 11 }
    ((ported { (default : Port) with down := true }).fab.ports.get 11).down = true ∧
    ((ported default).fab.ports.get 11).down = false ∧ packetOk { p with cls := 0 } 1 = false ∧ crcOk { p with cls := 0 } = false ∧ crcOk p = true ∧
    packetOk (sealPkt { p with op1 := 1 }) 1 = false ∧ crcOk (sealPkt { p with op1 := 1 }) = true ∧ packetOk p 1 = true ∧
    ((ported { (default : Port) with expect := [(2, 65535)] }).fab.ports.get 11).expect.get p.cls ≠ p.lseq ∧
    ((ported default).fab.ports.get 11).expect.get p.cls = p.lseq ∧
    -- another type, listed or not
    p.typ ≠ 2 ∧ listedType p.typ = true ∧ listedType 7 = false ∧ crcOk (sealPkt { p with typ := 7 }) = true ∧
    packetOk (sealPkt { p with typ := 7 }) 1 = false := by decide +kernel

/-- A packet behind a held one, of a class that is not held, and a virtual device that migrates. -/
theorem test_witness_RemoteAccesses_waits :
    let held := { base with fab := { base.fab with ports := [(0, { (default : Port) with stuck := [(2, true)] })] } }
    let away := { base with fab := { base.fab with migs := [(0, { (default : Migration) with active := true, sent := true })] } }
    (∀ b : List Byte, b = [] ∨ b = leBytes 8 3 → pktTags (sealPkt (pkt (if b = [] then 1 else 2) 2 b)) = false) ∧
    (held.fab.ports.get 0).stuck.get 2 = true ∧ (held.fab.ports.get 0).kept = [] ∧ (held.fab.ports.get 0).down = false ∧
    (held.fab.ports.get 0).expect.get 2 = 0 ∧ migrating 0 away = true ∧ (away.vdev 0).alive = true ∧
    away.fab.movedTo.get 0 = 0 ∧ (base.fab.ports.get 0).stuck.get 2 = false ∧ (3 : BitVec 8) ≠ 4 ∧
    (member id).fab.ports = base.fab.ports ∧ holdsMember 5 1 0 base = false := by
  refine ⟨?_, by decide +kernel⟩
  rintro b (rfl | rfl) <;> decide +kernel

theorem test_witness_RemoteAccesses :
    let rd : Packet := sealPkt { pkt 1 2 [] with space := 5, addr := 0x1BFF8, len := 8, op0 := 2 }
    let wr : Packet := sealPkt { pkt 2 2 (leBytes 8 3) with space := 5, addr := 0x1BFF8, op0 := 2 }
    let at_ : Packet := sealPkt { pkt 3 2 [] with space := 5, addr := 0x1BFF8, scause := 32, sflags := 3 }
    let next (p : Packet) (s : State) : Prop :=
      (s.fab.ports.get p.port).down = false ∧ crcOk p = true ∧ packetOk p p.typ = true ∧ (s.fab.ports.get p.port).expect.get p.cls = p.lseq
    let k : Kept := ⟨7, 0, 0, 0, [1, 2, 3, 4]⟩
    let kept := { base with fab := { base.fab with ports := [(0, { (default : Port) with kept := [k] })] } }
    let moved := { base with fab := { base.fab with movedTo := [(0, 4096)] } }
    let m := member id
    let w (nd : Need) (s : State) : Bool := windowOk s 0 ⟨7, 0, 5⟩ 0xBFF8 8 nd
    let shut := m.setCore 0 { m.core 0 with win := [] }
    next rd base ∧ next wr base ∧ next at_ base ∧ (kept.fab.ports.get 0).kept = [k] ∧ k.sdev = at_.sdev ∧
    k.score = at_.score ∧ k.sctx = at_.sctx ∧ k.reqid = at_.reqid ∧ (∀ x ∈ (base.fab.ports.get 0).kept, ¬ x.sdev = at_.sdev) ∧
    moved.fab.movedTo.get 0 ≠ 0 ∧ base.fab.movedTo.get 0 = 0 ∧ (base.vdev 1).alive = false ∧
    (base.fab.residues.get 1).held = false ∧ (m.vdev 0).alive = true ∧ migrating 0 m = false ∧ bitsOf rd.addr.toNat 27 16 = 1 ∧
    ((member fun x => { x with departed := true }).fab.pergs.get 5).members.get 1 ≠ (m.fab.pergs.get 5).members.get 1 ∧
    ((m.fab.pergs.get 5).members.get 2).present = false ∧ ((m.fab.pergs.get 5).members.get 1).present = true ∧
    ((m.fab.pergs.get 5).members.get 1).departed = false ∧ ((m.fab.pergs.get 5).members.get 1).moving = false ∧
    ((m.fab.pergs.get 5).members.get 1).core = 0 ∧ (m.core 0).saved = false ∧ holdsMember 5 1 0 m = true ∧
    w needR m = true ∧ w needR shut = false ∧ w needW m = true ∧ w needA m = true ∧ bitAt at_.scause.toNat 6 = false ∧
    pktAtomic at_ 7 = some 7 := by decide +kernel

/-- Which of those packets are for a window, and an exported space in each of its states. -/
theorem test_witness_RemoteAccesses_windows :
    let rd : Packet := sealPkt { pkt 1 2 [] with space := 5, addr := 0x1BFF8, len := 8, op0 := 2 }
    let wr : Packet := sealPkt { pkt 2 2 (leBytes 8 3) with space := 5, addr := 0x1BFF8, op0 := 2 }
    let at_ : Packet := sealPkt { pkt 3 2 [] with space := 5, addr := 0x1BFF8, scause := 32, sflags := 3 }
    let next (p : Packet) (s : State) : Prop :=
      (s.fab.ports.get p.port).down = false ∧ crcOk p = true ∧ packetOk p p.typ = true ∧ (s.fab.ports.get p.port).expect.get p.cls = p.lseq
    let ex (typ : Nat) : Packet := sealPkt { pkt typ 2 (if typ = 2 then leBytes 8 0 else []) with addr := 0xFF8, len := if typ = 3 then 0 else 8, sflags := if typ = 3 then 3 else 0 }
    pktWindow rd = true ∧ pktWindow wr = true ∧ pktWindow at_ = true ∧ pktTags rd = false ∧ pktTags wr = false ∧
    pktWindow (ex 1) = false ∧ pktWindow (ex 2) = false ∧ pktWindow (ex 3) = false ∧
    ((exported.vdev 0).spaces.get 0).st = .opened ∧ isFrozen (ex 1) 0 0 exported = false ∧
    (let v := { exported.vdev 0 with spaces := [(0, ⟨.closing, 0, 0, 0, true⟩)] }
     exportedSpace v = some 0 ∧ (v.spaces.get 0).st ≠ .opened) ∧ (ex 1).space = 0xFFFF ∧ exportedSpace (base.vdev 0) = none ∧
    exportedSpace (exported.vdev 0) = some 0 ∧
    (∀ typ ∈ [1, 2, 3], next (ex typ) exported ∧ (portRanges (ex typ) 0 0 (portPieces 0xFF8 (pktBytes (ex typ))) (exported.took (ex typ))).1.toOption.map (List.map fun x => (x.1, x.2)) = some [(0x10FF8, 8)]) ∧
    0x10FF8 < wakeBase ∧ pktAtomic (ex 3) 0 = some 0 := by decide +kernel

theorem test_witness_RemoteAccesses_messages :
    let p : Packet := sealPkt { pkt 4 1 (leBytes 8 1) with addr := 2303 }
    let w (a : DWord) : Packet := sealPkt { pkt 5 2 (leBytes 64 0) with addr := a }
    packetOk p 4 = true ∧ crcOk p = true ∧ p.len % 8 = 0 ∧ 8 ≤ p.len ∧ destOk p.addr = true ∧ destOk 2304 = false ∧
    packetOk { p with len := 0, payload := [] } 4 = true ∧ base.fab.movedTo.get p.tvdev = 0 ∧ (base.vdev p.tvdev).alive = true ∧
    migrating p.tvdev base = false ∧ packetOk (w 0xFFFFFFFFFFFC0) 5 = true ∧ crcOk (w 0xFFFFFFFFFFFC0) = true ∧ (w 0).len = 64 ∧
    (wakeBase ≤ (w 0xFFFFFFFFFFFC0).addr.toNat ∧ (w 0xFFFFFFFFFFFC0).addr.toNat < wakeBase + 4096 ∧ (w 0xFFFFFFFFFFFC0).addr.toNat % 64 = 0) ∧
    ¬ wakeBase ≤ (w 0).addr.toNat ∧ packetOk (w 0) 5 = true ∧ crcOk (w 0) = true ∧
    (base.queue (bitsOf (bodyF (w 0).payload 8 8) 47 32)).alive = false ∧ base.fab.ports.get 0 = default ∧
    -- the virtual device of the queue, or, without one, of the capability: here, moving, moved
    bitsOf (bodyF (w 0).payload 16 8) 15 0 = 0 ∧ migrating 0 base = false ∧ base.fab.movedTo.get 0 = 0 ∧
    ((queued 0 (que 0)).queue (bitsOf (bodyF (w 0).payload 8 8) 47 32)).alive = true ∧ migrating 0 (queued 0 (que 0)) = false ∧
    migrating 0 { base with fab := { base.fab with migs := [(0, { (default : Migration) with active := true, sent := true })] } } = true ∧
    ({ base with fab := { base.fab with movedTo := [(0, 8)] } }).fab.movedTo.get 0 ≠ 0 := by decide +kernel

theorem test_witness_AnswersBarriersAndLinks :
    let a (c : BitVec 8) : Packet := sealPkt { pkt 0x10 0 [] with scause := c, reqid := 2 ^ 32 - 1 }
    let r (g : Agent) : Req := ⟨g, { (default : Packet) with ddev := 7, typ := 1 }, none, false, false⟩
    let s (g : Agent) : State := { base with fab := { base.fab with reqs := [(2 ^ 32 - 1, some (r g))] } }
    let g (i : Nat) : Agent := if i = 0 then .ctx ⟨0, 0⟩ else .message ⟨0, 0⟩
    let bar (t : Nat) (par : Nat) : Packet := sealPkt { pkt t 0 [] with svdev := 0xFFFF, op0 := BitVec.ofNat 64 (63 * 65536 + par * 2 ^ 24 + 2 ^ 32) }
    let key := podKeyOf (bar 0x20 0).op0
    let c (h : Chan) : State := withCore fun c => { c with dom := [(15, 0x100 + 63)], chans := [(15, h)] }
    let pg (op : Nat) : Packet := sealPkt { pkt 0x22 0 (leBytes 1 op ++ leBytes 1 1 ++ leBytes 6 0) with svdev := 0xFFFF, space := 5 }
    let on (s : State) (k : Nat) : Member := (s.fab.pergs.get 5).members.get k
    let out := { base with fab := { base.fab with
      outbox := [{ (default : Packet) with port := 11, cls := 3 }], ports := [(11, { (default : Port) with served := [(3, 1)] })] } }
    let told := { base with fab := { base.fab with pods := [(key, { (default : PodKey) with synced := true })] } }
    packetOk (a 0x40) 0x10 = true ∧ crcOk (a 0x40) = true ∧ crcOk (a 0) = true ∧ (base.fab.ports.get 0) = default ∧
    (∀ i ∈ [0, 1], (s (g i)).fab.reqs.get (2 ^ 32 - 1) = some (r (g i)) ∧ (r (g i)).answer = none ∧
      (r (g i)).pkt.ddev = (a 0).sdev ∧ (r (g i)).pkt.typ ≠ 0x30 ∧ (r (g i)).withdrawn = false) ∧
    (0x19 : BitVec 8) ≠ 0x40 ∧ (0x19 : BitVec 8) ≠ 0x41 ∧ (r (g 1)).agent = .message ⟨0, 0⟩ ∧
    packetOk (bar 0x20 0) 0x20 = true ∧ (bar 0x20 0).len = 0 ∧ packetOk (bar 0x21 1) 0x21 = true ∧
    (∀ t ∈ [0x20, 0x21], ∀ par ∈ [0, 1], crcOk (bar t par) = true) ∧
    bitsOf (bar 0x20 1).op0.toNat 24 24 ≠ podParity key base ∧ bitsOf (bar 0x20 0).op0.toNat 24 24 = podParity key base ∧
    (base.fab.pods.get key).synced = false ∧ (told.fab.pods.get key).synced = true ∧
    bitsOf (bar 0x21 0).op0.toNat 24 24 = podParity key told ∧ told.cores.keys.Nodup ∧
    members 15 key base = [] ∧ members 15 key (c default) ≠ [] ∧ allArrived 15 key (c default) = false ∧
    allArrived 15 key (c { (default : Chan) with arrived := [0], next := some 1 }) = true ∧ base.cores.keys.Nodup ∧
    packetOk (pg 1) 0x22 = true ∧ (∀ op ∈ [1, 6, 7, 8, 10, 15, 17], crcOk (pg op) = true ∧ leNat ((pg op).payload.take 1) = op) ∧
    leNat (((pg 1).payload.drop 1).take 1) = 1 ∧ early (pg 1) base = false ∧ early (bar 0x21 0) base = false ∧
    -- passed on for a virtual device that is not here
    early (sealPkt { pg 1 with svdev := 5 }) base = true ∧ early (sealPkt { bar 0x21 0 with svdev := 5 }) base = true ∧
    (on perg 1).present = false ∧ (on (member fun m => { m with dev := 7 }) 1).dev = (pg 10).sdev ∧
    (on (member id) 1).dev ≠ (pg 10).sdev ∧ (on (member id) 1).present = true ∧ (on (member id) 1).dev = (member id).fab.devid ∧
    (member id).fab.devid < (pg 7).sdev ∧
    ((ported { (default : Port) with down := true }).fab.ports.get 11).down = true ∧
    (out.fab.ports.get 11).down = false ∧ ((out.fab.ports.get 11).served.get 3 + 65536 - 0) % 65536 ≤ 1 ∧
    (out.fab.outbox.filter fun p => p.port == 11 && p.cls == 3).length = 1 ∧ (out.fab.ports.get 11).served.get 2 <
      ((out.fab.ports.get 11).served.get 2 + 65536 - 65535) % 65536 ∧ 11 < 12 := by decide +kernel

/-- An agent that is no message, and no posted write. -/
theorem test_witness_Answers_agent : (∀ w, (Agent.ctx ⟨0, 0⟩) ≠ .message w) ∧ ∀ n, (Agent.ctx ⟨0, 0⟩) ≠ .post n := ⟨nofun, nofun⟩

/-- Tables that map page 0 of the space whose root is 0 by the leaf word `w`. -/
def tables (w : Nat) (s : State) : State :=
  [(0, 0x2001), (0x2000, 0x4001), (0x4000, 0x6001), (0x6000, 0x8001), (0x8000, w)].foldl
    (fun s p => s.physStore p.1 (leBytes 8 p.2)) s
/-- A leaf as data. -/
def leafOf (x : Except Nat Leaf) : Option Leaf := x.toOption

theorem test_witness_MigrationSteps :
    let mig (sent : Bool) (acks : Nat) : Migration := ⟨true, 7, 9, 0, default, sent, 1, acks, false⟩
    let s (sent : Bool) (acks : Nat) : State := { base with fab := { base.fab with migs := [(0, mig sent acks)] } }
    let quiet := { (s false 0).setVdev 0 { base.vdev 0 with moving := true } with cores := [] }
    let sp : SMap Space := [(0, ⟨.opened, 0, 0, 0, false⟩)]
    let res (thr : Nat) : State :=
      let t := tables 0x10007 (base.setVdev 9 { (default : VDev) with spaces := sp })
      { t with fab := { t.fab with residues := [(9, ⟨true, 0, 7, thr, [], none, []⟩)] } }
    let arr : Packet := sealPkt { pkt 0x30 3 [1, 2] with tvdev := 1, op0 := 0x7FFF000000000003 }
    let page : Packet := sealPkt { pkt 0x31 3 [1, 2, 3, 4] with space := 0, addr := 0x800 }
    let away := tables (0x9000 + 32 + 7) (base.setVdev 0 { base.vdev 0 with spaces := sp })
    let frame := { away with fab := { away.fab with frames := [(0x8000, 0x10001)] } }
    let mb (b : List Byte) (v : Nat) : MgmtReq := { (default : MgmtReq) with svdev := 0xFFFF, vdev := v, body := b }
    let go := mb (leBytes 2 7 ++ leBytes 2 9 ++ leBytes 2 65535 ++ leBytes 2 0) 0
    let pm := mb (leBytes 16 0) 0
    let x : Residue := ⟨true, 0, 7, 1, [], none, []⟩
    -- the source
    ((s false 0).fab.migs.get 0).active = true ∧ quiesced 0 (s false 0) = false ∧ quiesced 0 quiet = true ∧
    ((s true 1).fab.migs.get 0).sent = true ∧ ((s true 1).fab.migs.get 0).refused = false ∧
    ((s true 1).fab.migs.get 0).total ≤ ((s true 1).fab.migs.get 0).acks ∧ (s true 1).fab.waitReqs.get 0 = [] ∧
    (base.fab.migs.get 0).active = false ∧
    -- MIGRATE and PAGEMOVE
    base.plat.mode = .full ∧ go.svdev = 0xFFFF ∧ inHand go.vdev base = false ∧ inHand pm.vdev (res 1) = false ∧
    base.fab.waitReqs = [] ∧ (res 1).fab.waitReqs = [] ∧ go.body.length = 8 ∧
    (base.vdev 0).alive = true ∧ bodyF go.body 0 2 < 4096 ∧ bodyF go.body 0 2 ≠ base.fab.devid ∧ bodyF go.body 4 2 ≠ 0 ∧
    bodyF go.body 2 2 ≠ 0xFFFF ∧ idInUse (bodyF go.body 2 2) base = false ∧ zeros go.body 6 2 = true ∧
    pm.body.length = 16 ∧ (res 1).fab.residues.find? (fun p => p.2.held && p.2.vdev == 0) = some (9, x) ∧ x.asked = [] ∧
    bodyF pm.body 10 2 = 0 ∧ zeros pm.body 12 4 = true ∧ (heldLeaf 9 0 0 (res 1)).isSome = true ∧ holdsPages 9 (res 1) = true ∧
    base.fab.residues.find? (fun p => p.2.held && p.2.vdev == 0) = none ∧
    -- the target
    packetOk arr 0x30 = true ∧ State.reset.plat.mode ≠ .full ∧ idInUse 0 base = true ∧ idInUse arr.tvdev base = false ∧
    (freeQuarters base).length = 15 ∧ quarterCount (bitsOf arr.op0.toNat 63 48) = 15 ∧ quarterCount 65535 = 16 ∧
    (base.fab.arriving.get 1).got + arr.len < bitsOf arr.op0.toNat 47 0 ∧ crcOk arr = true ∧ crcOk page = true ∧
    packetOk page 0x31 = true ∧ leafOf (walk frame.mem ((frame.vdev 0).spaces.get 0).root 0x800) = some ⟨0x8000, 0x9027, 0⟩ ∧
    (frame.vdev 0).alive = true ∧ ((frame.vdev 0).spaces.get 0).st ≠ .absent ∧ twBit 0x9027 5 = true ∧
    frame.fab.frames.get 0x8000 = 0x10000 + 1 ∧ 0x800 - 0 + 1024 < 4096 * 2 ^ twSize 0x9027 ∧
    -- pages of a residue
    heldLeaf 9 0 0 (res 1) = some ⟨0x8000, 0x10007, 0⟩ ∧ ((res 1).fab.residues.get 9).held = true ∧
    wantsMove ((res 1).fab.residues.get 9) 9 0 ⟨0x8000, 0x10007, 0⟩ (res 1) = false ∧
    wantsMove ((res 0).fab.residues.get 9) 9 0 ⟨0x8000, 0x10007, 0⟩ (res 0) = true ∧ (res 0).tlb = [] ∧
    ((res 0).fab.residues.get 9).asked = [] ∧ ((res 0).vdev 9).faults = [] ∧ ((res 1).fab.residues.get 9).frozen = none ∧
    frame.fab.movedTo.get 0 = 0 := by decide +kernel

/-- Pages of a residue that are on their way, with no answer, or refused, or taken; a page that comes before the commit; and a
port that is lost, or not, before the commit. -/
theorem test_witness_MigrationSteps_pages :
    let sp : SMap Space := [(0, ⟨.opened, 0, 0, 0, false⟩)]
    let t := tables 0x10007 (base.setVdev 9 { (default : VDev) with spaces := sp })
    let r (a : Option (Nat × List Byte)) : Req := { (default : Req) with agent := .io (pageTask 9), answer := a }
    let s (a : Option (Nat × List Byte)) : State := { t with fab := { t.fab with
      residues := [(9, ⟨true, 0, 7, 1, [], some ⟨0, 0, 0x10007⟩, []⟩)], reqs := [(3, some (r a))] } }
    let early := { base with fab := { base.fab with arriving := [(1, { (default : Arriving) with quarters := 2 })] } }
    let page : Packet := sealPkt { pkt 0x31 3 [1, 2, 3, 4] with tvdev := 1, space := 0, addr := 0x800 }
    (∀ a ∈ [none, some (0, []), some (0x19, [])], heldLeaf 9 0 0 (s a) = some ⟨0x8000, 0x10007, 0⟩ ∧ (s a).tlb = [] ∧
      ((s a).fab.residues.get 9).frozen = some ⟨0, 0, 0x10007⟩ ∧ ((s a).fab.residues.get 9).waiting = [] ∧
      ((s a).fab.residues.get 9).held = true ∧ ((s a).fab.residues.get 9).asked = [] ∧ ((s a).vdev 9).faults = []) ∧
    pageAnswers 9 (s none) = none ∧ pageAnswers 9 (s (some (0, []))) = some true ∧
    pageAnswers 9 (s (some (0x19, []))) = some false ∧
    packetOk page 0x31 = true ∧ crcOk page = true ∧ (early.vdev 1).alive = false ∧ arrivingHere 1 early = true := by decide +kernel

/-- A state before the commit of a migration whose route stands, or is lost. -/
theorem test_witness_MigrationSteps_routes :
    let s := { base with fab := { base.fab with migs := [(0, ⟨true, 7, 9, 0, default, true, 1, 1, false⟩)] } }
    routeLost (s.fab.migs.get 0).target s = false ∧ routeLost ((portsDown s).fab.migs.get 0).target (portsDown s) = true := by
  have h : ∀ p : Fin 12, ((portsDown base).fab.ports.get p.val).down = true ∧ (base.fab.ports.get p.val).down = false := by
    decide +kernel
  exact ⟨(h (Config.portOf 7)).2, (h (Config.portOf 7)).1⟩

/-- The words that end an arrival, the first packet of one, and a packet that goes on with one. -/
theorem test_witness_MigrationSteps_arrival :
    let word (n : Nat) : Packet := sealPkt { pkt 0x30 3 [] with tvdev := 1, addr := BitVec.ofNat 64 (2 ^ n) }
    let kept := { base with fab := { base.fab with arriving := [(1, { (default : Arriving) with quarters := 2 })] } }
    arrivingHere 1 base = false ∧ arrivingHere 1 kept = true ∧ bitAt (pkt 0x30 3 [1, 2]).addr.toNat 63 = false ∧
    bitAt (pkt 0x30 3 [1, 2]).addr.toNat 62 = false ∧
    packetOk (word 63) 0x30 = true ∧ crcOk (word 63) = true ∧ bitAt (word 63).addr.toNat 63 = true ∧
    packetOk (word 62) 0x30 = true ∧ crcOk (word 62) = true ∧ bitAt (word 62).addr.toNat 63 = false ∧
    bitAt (word 62).addr.toNat 62 = true ∧ quarterCount 0 = 0 := by decide +kernel

/-- A device that has a page and one that has none stand before the commit; the residue of the second goes at once. -/
theorem test_witness_MigrationSteps_commit :
    let sp : SMap Space := [(0, ⟨.opened, 0, 0, 0, false⟩)]
    let mig : Migration := ⟨true, 7, 9, 1, default, true, 1, 1, false⟩
    let s := { base with fab := { base.fab with migs := [(0, mig)] } }
    let p := tables 0x10007 (s.setVdev 0 { s.vdev 0 with spaces := sp })
    (base.fab.migs.get 0).active = false ∧ (base.fab.arriving.get 0).commit = false ∧
    (s.fab.migs.get 0).active = true ∧ (s.vdev 0).faults = [] ∧ s.tlb = [] ∧ s.fab.waitReqs.get 0 = [] ∧
    holdsPages 0 s = false ∧ (p.vdev 0).faults = [] ∧ p.tlb = [] ∧ holdsPages 0 p = true ∧
    ((stateOr (exec (.migrationCommit 0) s) s).fab.residues.get 9).held = false := by decide +kernel

/-- No launch of `base` is quiesced. -/
theorem test_witness_MigrationFail (k : Nat) : quiescedLaunch 0 k base = false := by
  simp only [quiescedLaunch, show base.savedGroups = [] from rfl, List.any_nil, Bool.and_false]

/-! ### Witnesses: management and the platform -/

/-- A request of a host about a virtual device. -/
def req (v : Nat) (b : List Byte) : MgmtReq := { (default : MgmtReq) with svdev := 0xFFFF, vdev := v, body := b }

theorem test_witness_ManagementRequests :
    let sp : SMap Space := [(1, ⟨.opened, 0, 0, 0, false⟩)]
    let s := base.setVdev 0 { base.vdev 0 with spaces := sp }
    let v := s.vdev 0
    let vd := leBytes 2 0xFFFE ++ leBytes 6 0
    let qc := leBytes 16 0 ++ leBytes 4 (2 ^ 20) ++ leBytes 2 1 ++ leBytes 1 15 ++ leBytes 9 0
    let f (b : List Byte) (o n : Nat) := bodyF b o n
    s.plat.mode = .full ∧ (req 0 []).svdev = 0xFFFF ∧ inHand 0 s = false ∧ inHand 0xFFFF s = false ∧ inHand 0xFFFE s = false ∧
    s.fab.waitReqs = [] ∧ queuesOf 0 s = [] ∧ vd.length = 8 ∧ f vd 0 2 ≠ 0 ∧ zeros vd 2 6 = true ∧ 0xFFFE < 0xFFFF ∧ idInUse 0xFFFE s = false ∧
    takenQuarters s &&& BitVec.ofNat 16 (f vd 0 2) = 0 ∧ idInUse 0 s = true ∧ v.alive = true ∧
    qc.length = 32 ∧ f qc 0 8 % 64 = 0 ∧ f qc 8 8 % 64 = 0 ∧ slotCountOk (f qc 16 4) = true ∧
    (v.spaces.get (f qc 20 2)).st = .opened ∧ f qc 22 1 < 16 ∧ zeros qc 23 1 = true ∧ zeros qc 26 6 = true ∧
    (s.queue 4095).alive = false ∧ arrivingQueues s = [] ∧ capQueue 0 (leBytes 32 0) s = none ∧ (leBytes 32 0).length = 32 := by decide +kernel

theorem test_witness_ManagementRequests_faults :
    let s := base
    let v := s.vdev 0
    let fq (a : Nat) := leBytes 8 a
    let x : FaultRec := { (default : FaultRec) with party := .ctx ⟨0, 0⟩, launch := 1, group := 0 }
    let fa : State := (s.setVdev 0 { v with fout := [(7, some x)] }).setCtx ⟨0, 0⟩ { s.me with park := .parked }
    let fb := leBytes 4 7 ++ leBytes 4 1 ++ leBytes 1 1
    let f (b : List Byte) (o n : Nat) := bodyF b o n
    (fq 0x5FFFFFFFC0).length = 8 ∧ f (fq 0x5FFFFFFFC0) 0 8 % 64 = 0 ∧ f (fq 0x5FFFFFFFC0) 0 8 + 64 ≤ hbmEnd ∧
    (∀ p ∈ v.fout, p.2 = none) ∧
    fb.length = 9 ∧ fb.drop 8 = [1] ∧ f fb 4 1 = 1 ∧ zeros fb 5 3 = true ∧ (fa.vdev 0).fout.get (f fb 0 4) = some x ∧
    x.party = .ctx ⟨0, 0⟩ ∧ (0 < 8192) ∧ (fa.ctx ⟨0, 0⟩).park = .parked ∧ (fa.ctx ⟨0, 0⟩).live = true ∧ (fa.core 0).grp = some placedGrp ∧
    fa.links.get (clusterOf 0) = [] ∧ ({ fa with links := [(clusterOf 0, [.reserve 7 2])] }).links.get (clusterOf 0) = .reserve 7 2 :: [] ∧
    placedGrp.vdev = 0 ∧ placedGrp.id = x.launch ∧ placedGrp.idx = x.group ∧ (1 : Byte).toNat ≤ 1 := by decide +kernel

theorem test_witness_ManagementRequests_spaces :
    let sp : SMap Space := [(1, ⟨.opened, 0, 0, 0, false⟩)]
    let s := base.setVdev 0 { base.vdev 0 with spaces := sp }
    let v := s.vdev 0
    let f (b : List Byte) (o n : Nat) := bodyF b o n
    let space (op id fl a n : Nat) := leBytes 2 op ++ leBytes 2 0 ++ leBytes 2 id ++ leBytes 2 fl ++ leBytes 8 a ++ leBytes 8 n ++ leBytes 8 0
    let pg := leBytes 2 5 ++ leBytes 2 65535 ++ leBytes 1 64 ++ leBytes 1 63 ++ leBytes 2 0
    (∀ b ∈ [space 1 65535 1 0x2000 0, space 2 1 2 0xFFFFFFFFFFFFF000 0x1000, space 3 1 0 0 0, space 4 1 0 0 0],
      b.length = 32 ∧ zeros b 1 1 = true ∧ f b 2 2 = 0 ∧ zeros b 24 8 = true) ∧
    (v.spaces.get 65535).st = .absent ∧ f (space 1 65535 1 0x2000 0) 8 8 % 8192 = 0 ∧ exportedSpace v = none ∧
    (v.spaces.get 1).st ≠ .absent ∧ f (space 2 1 2 0xFFFFFFFFFFFFF000 0x1000) 16 8 ≠ 0 ∧
    f (space 2 1 2 0xFFFFFFFFFFFFF000 0x1000) 8 8 % 4096 = 0 ∧
    base.launches.any (fun p => p.2.alive && p.2.vdev == 0 && p.2.space == 0) = true ∧
    spaceReqs 0 1 s = [] ∧ queuesOf 0 s = [] ∧
    -- a read of the space that its owner has not answered
    spaceReqs 0 1 { s with fab := { s.fab with reqs := [(3, some { (default : Req) with
      pkt := { (default : Packet) with typ := 1, space := 1 } })] } } ≠ [] ∧
    (∀ p ∈ s.launches, ¬ (p.2.alive = true ∧ p.2.vdev = 0 ∧ p.2.space = 1)) ∧
    pg.length = 8 ∧ f pg 0 2 = 5 ∧ ((queued 5 (que 5)).queue 5).alive = true ∧ ((queued 5 (que 5)).queue 5).vdev = 0 ∧
    0 < f pg 4 1 ∧ f pg 4 1 ≤ 64 ∧ f pg 5 1 < f pg 4 1 ∧ zeros pg 6 2 = true := by decide +kernel

/-- A body that holds the capability of a queue names it. -/
theorem capQueue_of {v n : Nat} {b : List Byte} {s : State} (h0 : bodyF b 0 8 = (s.queue n).w0.toNat)
    (h1 : bodyF b 8 8 = (s.queue n).w1.toNat) (h2 : bodyF b 16 8 = (s.queue n).w2.toNat)
    (h3 : bodyF b 24 8 = (s.queue n).w3.toNat) (hn : bitsOf (s.queue n).w1.toNat 47 32 = n) (hl : n < 4096)
    (ht : queueTag s.plat.starts (s.queue n).w0 (s.queue n).w1 (s.queue n).w2 = (s.queue n).w3)
    (ha : (s.queue n).alive = true) (hv : (s.queue n).vdev = v) : capQueue v b s = some n := by
  simp [capQueue, h0, h1, h2, h3, hn, ht, ha, hv, hl]

/-- Queue 4095 with the tag of its capability. -/
def tagged : Que := { que 4095 with w3 := queueTag base.plat.starts (que 4095).w0 (que 4095).w1 (que 4095).w2 }

/-- QDESTROY and QAGE: a body that holds a queue's capability. -/
theorem test_witness_ManagementRequests_queue :
    let s := { base with queues := [(4095, tagged)] }
    let b := leBytes 8 tagged.w0.toNat ++ leBytes 8 tagged.w1.toNat ++ leBytes 8 tagged.w2.toNat ++ leBytes 8 tagged.w3.toNat
    let c := b ++ leBytes 2 65535 ++ leBytes 6 0
    b.length = 32 ∧ capQueue 0 b s = some 4095 ∧ c.length = 40 ∧ capQueue 0 c s = some 4095 ∧ zeros c 34 6 = true := by
  intro s b c
  exact ⟨rfl, capQueue_of rfl rfl rfl (leNat_leBytes_toNat tagged.w3) (by decide) (by decide) rfl rfl rfl, rfl,
    capQueue_of rfl rfl rfl (leNat_leBytes_toNat tagged.w3) (by decide) (by decide) rfl rfl rfl, rfl⟩

/-- VDDESTROY and QDESTROY: a queue whose launch has sent a message that has not been placed, and one that has none. -/
theorem test_witness_ManagementRequests_ends :
    let key := launchKey 0 7
    let m : Message := ⟨goneGroup key, none, 0, false, 0, 0, [0]⟩
    let s (rx : List Message) : State := (withCore fun c => { c with rxIn := rx }).setLaunch key
      { (default : LaunchSt) with alive := true, killed := true, q := 4095, id := 7 }
    let q (rx : List Message) : State := { s rx with queues := [(4095, tagged)] }
    queuesOf 0 (q []) = [4095] ∧ queuesOf 0 (q [m]) = [4095] ∧
    queueOut 4095 (endQueue 4095 (q [])) = false ∧ queueOut 4095 (endQueue 4095 (q [m])) = true := by
  refine ⟨rfl, rfl, ?_, ?_⟩ <;> rfl

theorem test_witness_ManagementRequests_device :
    let s := { State.reset with plat := { State.reset.plat with mode := .full } }
    let f (b : List Byte) (o n : Nat) := bodyF b o n
    let peer := leBytes 2 9 ++ leBytes 2 0x8FFF
    let pd := leBytes 2 65535 ++ leBytes 2 0
    let pl (n : Nat) := leBytes 2 n ++ leBytes 2 0
    s.plat.mode = .full ∧ (req 0xFFFF []).vdev = 0xFFFF ∧ inHand 0xFFFF s = false ∧ peer.length = 4 ∧
    bitsOf (f peer 2 2) 14 12 = 0 ∧ (leBytes 2 4095).length = 2 ∧ f (leBytes 2 4095) 0 2 ≤ 4095 ∧
    (∀ p ∈ s.vdevs, p.2.alive = false) ∧ pd.length = 4 ∧ zeros pd 2 2 = true ∧ (pl 600).length = 4 ∧ 600 ≤ f (pl 600) 0 2 ∧
    f (pl 2600) 0 2 ≤ 2600 ∧ zeros (pl 600) 2 2 = true ∧ f (pl 4095) 0 2 ≤ 4095 := by decide

/-- Packets of the management class: of the host and of a device, with a header that agrees with them and with one
that does not; an operation that R437 does not list, on either side of the list. -/
theorem test_witness_ManagementRequests_packets :
    let p (mop len v : Nat) : Packet := sealPkt { pkt 6 2 (leBytes 2 mop ++ leBytes 2 len ++ leBytes 12 0) with svdev := v }
    let next (p : Packet) : Prop := (base.fab.ports.get p.port).down = false ∧ crcOk p = true ∧ packetOk p 6 = true ∧
      (base.fab.ports.get p.port).expect.get p.cls = p.lseq ∧ 16 ≤ p.len ∧ bodyF p.payload 9 1 = 0
    base.plat.mode = .full ∧ next (p 0x17 0 0xFFFF) ∧ next (p 0 0 0xFFFF) ∧ next (p 1 1 0xFFFF) ∧ next (p 1 1 5) ∧
    mgmtHeaderOk (p 0x17 0 0xFFFF) = true ∧ mgmtHeaderOk (p 1 1 0xFFFF) = false ∧ mgmtHeaderOk (p 1 1 5) = false ∧
    (p 1 1 5).svdev ≠ 0xFFFF ∧ (requestOf (p 0 0 0xFFFF)).1 = 0 ∧ 0x16 < (requestOf (p 0x17 0 0xFFFF)).1 := by decide +kernel

theorem test_witness_PlatformEvents :
    let s := State.reset
    let full := { s with plat := { s.plat with mode := .full, stage := 6 } }
    let low := { s with plat := { s.plat with mode := .minimalRom } }
    let sw (n : Nat) := leBytes 8 0 ++ leBytes n 7
    let e : StartEnv := ⟨none, [], 0x7FF, none⟩
    full.plat.mode ≠ .starting ∧ full.plat.mode = .full ∧ low.plat.mode ≠ .full ∧ low.plat.mode ≠ .starting ∧
    (leBytes 32 0).length = 32 ∧ 9 ≤ (sw 1).length ∧ (sw 1).length ≤ 2032 ∧ bodyF (sw 1) 0 1 ≤ 1 ∧ zeros (sw 1) 1 3 = true ∧
    bodyF (sw 1) 4 4 + ((sw 1).length - 8) ≤ 2 ^ 32 ∧ bodyF (sw 1) 0 1 = full.plat.slot ∧
    s.plat.mode = .starting ∧ s.plat.stage = 1 ∧ ({ e with hang := some 1 }).hang = some 1 ∧ e.hang = none ∧ e.hbmFail = none ∧
    s.plat.standing = false ∧ ({ s with plat := { s.plat with standing := true } }).plat.standing = true ∧ meshDie (selfTestAll e s).plat = none ∧ e.portMask ≠ 0xFFF ∧ s.plat.fails < 2 ∧
    2 ≤ ({ s.plat with fails := 2 }).fails ∧ 0 < 2304 ∧ (base.core 0).grp = some placedGrp ∧ 575 < 576 ∧
    4 * s.plat.power - 1 < 4 * s.plat.power ∧ 4 * s.plat.power ≤ 4 * s.plat.power := by decide +kernel

theorem test_witness_NothingIsRefused :
    let s := base.setVdev 0 { base.vdev 0 with fqBlock := some hbmEnd, fwait := [default] }
    let noMemory (o : Out) : Bool := match o with | .fault (.noMemory _) => true | _ => false
    noMemory (exec (.faultEntryWrite 0) s) = true ∧ noMemory (step { s with agenda := [.event (.faultEntryWrite 0)] }) = true ∧
    hbmEnd < hbmEnd + 64 ∧ (s.vdev 0).fqBlock = some hbmEnd := by decide +kernel

theorem test_witness_MemoryStaysCanonical :
    Memory.wf (tables 7 base).mem = true ∧ (nextOf (step { tables 7 base with agenda := [.run 0 0] })).isSome = true := by
  decide +kernel

/-! ### The spec's own examples -/

/-- The words of 09_encoding_notes.md: PR and PX with LD, FSUB on page 1, ALI with two PX words and with one that
only repeats the sign, and a PP after a PX. -/
theorem test_words_encoding_notes :
    decode [0xF429, 0xF100, 0x208E] = .ok (.ld ⟨2, .w32, true, ⟨3, 5, 256⟩⟩) 3 ∧
    decode [0xF885, 0x008D] = .ok (.fsub ⟨2, 3, none, .bf16, .rtz⟩) 2 ∧
    decode [0xF001, 0xF08D, 0x0505] = .ok (.ali ⟨4, 0x12345⟩) 3 ∧ decode [0x053F] = .ok (.ali ⟨4, -1⟩) 1 ∧
    decode [0xF3FF, 0x053F] = .ok (.ali ⟨4, -1⟩) 2 ∧ (decode [0xF100, 0xF900, 0x0048] matches .bad 1 _) := by decide

/-- The words of 01_first_steps.md and of the assembled source of 38_assembly_reference.md. -/
theorem test_words_programs :
    decode [0xF001, 0x0440] = .ok (.ali ⟨1, 0x40⟩) 2 ∧ decode [0xF900, 0x0048] = .ok (.vadd ⟨⟨1, 2, none, .fp32, .rne⟩, 0⟩) 2 ∧
    decode [0xF980, 0x1400] = .ok (.barArv 0) 2 ∧ decode [0xF980, 0x1401] = .ok (.barWt 0) 2 ∧
    decode [0xF008, 0x2083] = .ok (.ld ⟨2, .w64, false, ⟨0, 0, 8⟩⟩) 2 ∧ decode [0x5082] = .ok (.bz ⟨2, 2⟩) 1 ∧
    decode [0x08BF] = .ok (.aaddi ⟨2, -1⟩) 1 ∧ decode [0x0001] = .ok .nop 1 ∧ decode [0x0140] = .ok .eret 1 := by decide

/-- The examples of the instruction chapters: R200, pages 4, 5 and 6. -/
theorem test_words_sets :
    decode [0xF980, 0x13C4] = .ok (.fence ⟨true, true, true, true, false, .package⟩) 2 ∧
    decode [0xFA00, 0xF402, 0x0C51] = .ok (.mxmmaOw ⟨1, ⟨4, 0, 0⟩, 2⟩) 3 ∧
    decode [0xFA00, 0x101D] = .ok (.mxdrain ⟨0, ⟨7, 0, 0⟩⟩) 2 ∧
    decode [0xFA80, 0xF430, 0xF040, 0x0151] = .ok (.cpyw ⟨5, 4, 6, 0x40⟩) 4 ∧
    decode [0xFB00, 0x0090] = .ok (.priss ⟨2, ⟨4, 0, 0⟩⟩) 2 ∧ decode [0xFB00, 0x0095] = .ok (.prrdm ⟨2, ⟨5, 0, 0⟩⟩) 2 ∧
    decode [0xF900, 0x1848] = .ok (.vsum ⟨1, 2, .fp32, 0⟩) 2 := by decide

/-- The conversions of 07_arithmetic_notes.md and 13_execute_notes.md: pattern and flags. -/
theorem test_conversions :
    let r (t : Target) (m : RMode) (x d : Nat) : Nat × Flags := round t m (valOf .fp32 x) d
    r (.flt .bf16) .rne 0x3F808000 0 = (0x3F80, 1) ∧ r (.flt .bf16) .rne 0x3F818000 0 = (0x3F82, 1) ∧
    r (.flt .e4m3) .rne 0x43E60000 0 = (0x7E, 1) ∧ r (.flt .e4m3) .rne 0x43FA0000 0 = (0x7E, 5) ∧
    r (.flt .e5m2) .rne 0x4788B800 0 = (0x7C, 5) ∧ r (.flt .e5m2) .rtz 0x4788B800 0 = (0x7B, 5) ∧
    r (.flt .fp16) .rne 0x33000000 0 = (0, 3) ∧ r (.flt .fp16) .rne 0x33400000 0 = (1, 3) ∧
    r (.flt .bf16) .rtz 0xFFC00001 0 = (0x7FC0, 0) ∧ r (.flt .e2m1) .rne 0x7FC00000 0 = (0, 16) ∧
    r (.flt .e4m3) .rne 0xFF800000 0 = (0xFE, 5) ∧ r (.flt .e2m1) .rne 0x40E00000 0 = (7, 5) ∧
    r (.flt .e2m1) .rtz 0x40E00000 0 = (7, 1) ∧ r (.int 32) .rne 0x4F32D05E 0 = (0x7FFFFFFF, 16) ∧
    (r (.flt .bf16) .sr 0x3F808000 0x7FFF).1 = 0x3F80 ∧ (r (.flt .bf16) .sr 0x3F808000 0x8000).1 = 0x3F81 := by
  decide +kernel

/-- The drain of 96.25 under T = 0.375, to BF16 and to E4M3; the accumulation of 2^−12 to 1.0 in A20; the draw's
input (07_arithmetic_notes.md, 17_matrix_notes.md). -/
theorem test_accumulators :
    drainElem (fmtCtx [0, 0, 0, 1]) 0x3EC00000 0x42C08000 = (0x4210, 1) ∧
    drainElem (fmtCtx [0, 0, 0, 3]) 0x3EC00000 0x42C08000 = (0x61, 1) ∧
    accRound 0 ((accVal 0 0x3E800000).add (valOf .fp32 0x42C00000)) 0 = (0x42C08000, 0) ∧
    (accRound 1 ((accVal 1 0x3F800000).add (valOf .fp32 0x39800000)) 0).1 = 0x3F800000 ∧
    (accRound 2 ((accVal 2 0x3F800000).add (valOf .fp32 0x39800000)) 0x8000).1 = 0x3F801000 ∧
    (accRound 2 ((accVal 2 0x3F800000).add (valOf .fp32 0x39800000)) 0x7FFF).1 = 0x3F800000 ∧
    drawM 0x1234 2 1 3 5 = (mix 0x200001AF1).toNat % 2 ^ 16 ∧
    progValid [0x21, 0x3A, 0, 0, 0x80, 0, 0, 0] = true := by decide +kernel

/-- 19_copy_notes.md: the CRC-32C of "123456789". -/
theorem test_crc :
    (([0x31, 0x32, 0x33, 0x34, 0x35, 0x36, 0x37, 0x38, 0x39] : List Byte).foldl crcStep 0xFFFFFFFF) ^^^ 0xFFFFFFFF = 0xE3069283 := by
  decide +kernel

/-- What one instruction leaves. -/
def after {α : Type} (i : Instr) (s : State) (f : State → α) : Option α := (nextOf (exec i s)).map f

/-- 11_access_notes.md: the edges of a GLOBAL capability with base 0x1000 and length 0x100. -/
theorem test_capability_edges :
    let v := cap 0 0 0x100 1 0x1000
    let r (ea : DWord) (n : Nat) := route 0 base.me.guards v ea n needR allKinds
    let s := withCtx fun c => { c with tvec := 0x400, a := [(4, v)] }
    r 0x10F8 8 = .ok .glob ∧ r 0x10FC 4 = .ok .glob ∧ r 0x1100 8 = .error 4 ∧ r 0xFF8 8 = .error 4 ∧
    after (.ld ⟨2, .w64, false, ⟨4, 0, 0xFC⟩⟩) s (fun t => (t.me.cause, t.me.pc, t.me.h)) = some (7, 0x400, true) ∧
    after (.cbnd ⟨4, 4, some 0⟩) s (fun t => ((t.me.ra 4).tag, (t.me.ra 4).length)) = some (true, 0) := by decide +kernel

/-- 01_first_steps.md: ST.z32 [a1], a2 with a1 = 0x40 and a2 = 8. The program of 38_assembly_reference.md: BZ at
0x0004 to 0x0008. -/
theorem test_first_steps :
    let s := withCtx fun c => { c with a := [(1, ⟨false, 0x40⟩), (2, ⟨false, 8⟩)] }
    after (.st ⟨2, .w32, ⟨1, 0, 0⟩⟩) s (fun t => (t.myCore.num 0x40 4, t.me.pc)) = some (8, 2) ∧
    after (.bz ⟨3, 2⟩) (withCtx fun c => { c with pc := 4 }) (fun t => t.me.pc) = some 8 ∧
    after (.bz ⟨2, 2⟩) s (fun t => t.me.pc) = some 2 ∧
    after (.aaddi ⟨2, -1⟩) s (fun t => t.me.ia 2) = some 7 := by decide +kernel

/-- 13_execute_notes.md: VSUM of 2^24, 1, 1, −2^24 and zeros leaves 1.0 in word 0 and inexact. -/
theorem test_vsum_tree :
    let s := (vector (.vsum ⟨1, 2, .fp32, 0⟩)).setMyCore
      { (vector (.vsum ⟨1, 2, .fp32, 0⟩)).myCore with v := [(128, 0x4B800000), (129, 0x3F800000), (130, 0x3F800000), (131, 0xCB800000)] }
    after (.vectorPerform 0) s (fun t => ((t.core 0).vw 1 0, (t.core 0).vw 1 1, t.me.fflags)) = some (0x3F800000, 0, 1) := by
  decide +kernel

/-- 05_execution_notes.md: with helpers 1 and 3 live, HSTART gives helper 2. 15_sync_notes.md: a third arrival
before the first wait stalls. -/
theorem test_helpers_and_arrivals :
    let live (i : Nat) (s : State) : State := s.setCtx ⟨0, i⟩ { (default : Ctx) with live := true }
    let bar := withCore fun c => { c with dom := [(2, 0x100)], chans := [(2, { (default : Chan) with arrived := [0, 1], next := some 2 })] }
    after (.hstart ⟨5, 0, 8⟩) (live 1 (live 3 base)) (fun t => (t.me.ia 5, (t.ctx ⟨0, 2⟩).pc)) = some (2, 16) ∧
    after (.barArv 2) bar (fun t => (t.sig, t.me.pc)) = some (.stalled, 0) := by decide +kernel

/-! ### Results worked out by hand from the rules -/

/-- R155: the corners of the integer instructions. -/
theorem test_integer_corners :
    let s := withCtx fun c => { c with d := [(1, 1 <<< 63), (2, -1), (3, 65)] }
    let r (i : Instr) : Option DWord := after i s fun t => t.me.d.get 9
    r (.div ⟨9, 1, some 2⟩) = some (1 <<< 63) ∧ r (.rem ⟨9, 1, some 2⟩) = some 0 ∧ r (.div ⟨9, 1, some 0⟩) = some (-1) ∧
    r (.remz ⟨9, 1, some 0⟩) = some (1 <<< 63) ∧ r (.mulh ⟨9, 2, some 2⟩) = some 0 ∧ r (.shl ⟨9, 2, some 3⟩) = some (-2) ∧
    r (.sar ⟨9, 1, some 3⟩) = some (0xC000000000000000) ∧ r (.minz ⟨9, 1, some 2⟩) = some (1 <<< 63) ∧
    r (.max ⟨9, 1, some 2⟩) = some (-1) := by decide +kernel

/-- R10: an alias as both sources pops twice, the second the older entry's successor. -/
theorem test_alias_pops_twice :
    after (.sub ⟨9, 14, some 14⟩) (withCtx fun c => { c with lq0 := [9, 2, 5] }) (fun t => (t.me.d.get 9, t.me.lq0)) = some (7, [5]) := by
  decide +kernel

/-- R140: the last instruction of a counted loop's body goes back to its start, and falls through at 0. -/
theorem test_counted_loop :
    let s (n : Nat) := withCtx fun c => { c with pc := 0x10, loop := some ⟨0x8, 0x12, 3⟩, a := [(3, ⟨false, BitVec.ofNat 128 n⟩)] }
    after .nop (s 2) (fun t => (t.me.pc, t.me.ia 3, t.me.loop.isSome)) = some (0x8, 1, true) ∧
    after .nop (s 1) (fun t => (t.me.pc, t.me.ia 3, t.me.loop.isSome)) = some (0x12, 0, false) := by decide +kernel

/-- R387, R388, R217: BREAK enters the handler, ERET returns from it. -/
theorem test_break_and_eret :
    after .brk (withCtx fun c => { c with pc := 0x20, tvec := 0x400 }) (fun t => (t.me.cause, t.me.epc, t.me.tval, t.me.pc, t.me.h)) =
      some (0x31, 0x20, 0, 0x400, true) ∧
    after .eret (withCtx fun c => { c with h := true, epc := 0x22, pc := 0x404 }) (fun t => (t.me.pc, t.me.h)) = some (0x22, false) ∧
    after .eret (withCtx fun c => { c with tvec := 0x400 }) (fun t => (t.me.cause, t.me.h)) = some (2, true) := by decide +kernel

/-- R22: a store of a byte clears the tag of its granule. R193: AMO.ADD wraps in 32 bits and leaves the old value. -/
theorem test_tags_and_atomics :
    let s := withCtx fun c => { c with a := [(1, ⟨false, 0x4F⟩), (2, ⟨false, 0x40⟩), (3, ⟨false, 2⟩)] }
    let tagged := s.setMyCore { s.myCore with ltag := [(4, true), (5, true)], lm := s.myCore.lm.putList 0x40 (leBytes 8 0x1FFFFFFFF) }
    after (.st ⟨3, .w8, ⟨1, 0, 0⟩⟩) tagged (fun t => (t.myCore.ltag.get 4, t.myCore.ltag.get 5)) = some (false, true) ∧
    after (.amo .add ⟨5, 3, ⟨2, 0⟩, false, .ar, .package⟩) tagged (fun t => (t.me.ia 5, t.myCore.num 0x40 8)) = some (0xFFFFFFFF, 0x100000001) := by
  decide +kernel

end Sys2Proof.Tests
end

section
/-! PROOFS. The results of the binary integer instructions (R155): each is one use of the shared shape `intOp`. -/

namespace Sys2Proof.Machine

/-- A binary integer instruction whose sources can be read and whose result can be written completes with the
result in d[X] and records no flag. -/
theorem intOp_past {s : State} {o : DR3} {f : DWord → DWord → DWord} {u v : DWord} {c c' : Ctx}
    (hr : s.me.rds [DR3.fst o, DR3.snd o] = .ok ([u, v], c)) (hw : c.wd o.x (f u v) = .ok c') :
    intOp s o f = .next (s.past c') := by
  have hw' : c.wd o.x (f (op1 [u, v]) (op2 [u, v])) = .ok c' := hw
  simp [intOp, exOp, hr, hw', finishWith_eq]

/-- The quotient that overflows is −2^63, the dividend itself. -/
theorem divS_eq (u v : DWord) : divS u v = if v = 0 then BitVec.allOnes 64
    else if u.toInt = -2 ^ 63 ∧ v.toInt = -1 then BitVec.ofInt 64 (-2 ^ 63)
    else BitVec.ofInt 64 (u.toInt.tdiv v.toInt) := by
  have hmin (h : u.toInt = -2 ^ 63) : u = BitVec.ofInt 64 (-2 ^ 63) := by rw [← h, BitVec.ofInt_toInt]
  unfold divS
  split_ifs with h0 h
  · rfl
  · exact hmin h.1
  · rfl

/-- The signed remainder is what the quotient leaves of the dividend. -/
theorem remS_eq (u v : DWord) : remS u v = if v = 0 then u
    else if u.toInt = -2 ^ 63 ∧ v.toInt = -1 then 0
    else BitVec.ofInt 64 (u.toInt - u.toInt.tdiv v.toInt * v.toInt) := by
  rw [Int.mul_comm, ← Int.tmod_def]
  rfl

/-- The unsigned remainder is what the quotient leaves of the dividend. -/
theorem remU_eq (u v : DWord) :
    remU u v = if v = 0 then u else BitVec.ofNat 64 (u.toNat - u.toNat / v.toNat * v.toNat) := by
  rw [Nat.mul_comm, ← Nat.mod_eq_sub_mul_div]
  rfl

/-- Settles O6: every binary integer instruction is `intOp` of its operation (`intOp_past`), and the operations
are those of R155, division and remainder by their equations. -/
theorem integerResults : Obligations.IntegerResults := by
  unfold Obligations.IntegerResults
  intro s o u v c hr R
  have run {i : Instr} (f : DWord → DWord → DWord) (hi : exec i s = intOp s o f) : R i (f u v) :=
    fun _ hw => hi.trans (intOp_past hr hw)
  refine ⟨run (· + ·) rfl, run (· - ·) rfl, run (· * ·) rfl, run mulHigh rfl, run (· &&& ·) rfl, run (· ||| ·) rfl,
    run (· ^^^ ·) rfl, run (fun u v => u <<< sh6 v) rfl, run (fun u v => u >>> sh6 v) rfl, run sarD rfl,
    run minS rfl, run maxS rfl, run minU rfl, run maxU rfl, ?div, ?rem, run divU rfl, ?remz⟩
  case div => rw [← divS_eq]; exact run divS rfl
  case rem => rw [← remS_eq]; exact run remS rfl
  case remz => rw [← remU_eq]; exact run remU rfl

end Sys2Proof.Machine
end

section
/-! PROOFS. What the performance of a vector instruction without access to memory or d registers does (R168 to R172). -/

namespace Sys2Proof.Machine

/-! ### The core below its contexts -/

/-- A core replaced by one with the same contexts: no context changes. -/
theorem State.ctx_setCore_of_ctxs {s : State} {k : Nat} {x : CoreSt} (h : x.ctxs = (s.core k).ctxs) (w : Who) :
    (s.setCore k x).ctx w = s.ctx w := by
  unfold State.ctx
  by_cases hk : w.core = k
  · rw [hk, State.core_setCore, h]
  · rw [State.core_setCore_ne s x hk]

/-- Two states of a core differ at most in the vector and mask registers. -/
def CoreSt.onlyRegs (c c' : CoreSt) : Prop := c' = { c with v := c'.v, vm := c'.vm }

/-! ### The credit of flags (R171) -/

@[simp] theorem creditF_mem (w : Who) (f : Flags) (s : State) : (creditF w f s).mem = s.mem := by
  unfold creditF; split <;> rfl

theorem or_noFlags (f : Flags) : f ||| 0 = f := BitVec.or_zero

theorem ctx_creditF (w : Who) (f : Flags) (s : State) : (creditF w f s).ctx w =
    if (s.ctx w).live then { s.ctx w with fflags := (s.ctx w).fflags ||| f.setWidth 64 } else s.ctx w := by
  unfold creditF
  by_cases hl : (s.ctx w).live = true
  · by_cases hf : f = 0
    · have h0 (x : DWord) : x ||| (0 : Flags).setWidth 64 = x := BitVec.or_zero
      subst hf; rw [h0]; simp
    · rw [if_neg (by simp only [hl, hf]; decide), if_pos hl, State.ctx_setCtx]
  · rw [if_pos (by simp [hl]), if_neg hl]

theorem ctx_creditF_ne {w v : Who} (f : Flags) (s : State) (h : v ≠ w) : (creditF w f s).ctx v = s.ctx v := by
  unfold creditF; split
  · rfl
  · exact State.ctx_setCtx_ne s _ h

theorem core_creditF_ne {w : Who} {k : Nat} (f : Flags) (s : State) (h : k ≠ w.core) :
    (creditF w f s).core k = s.core k := by
  unfold creditF; split
  · rfl
  · exact State.core_setCtx_ne s w _ h

/-- Of a core the credit changes the contexts at most. -/
theorem core_creditF (w : Who) (f : Flags) (s : State) (k : Nat) :
    ∃ cs, (creditF w f s).core k = { s.core k with ctxs := cs } := by
  by_cases hk : k = w.core
  · subst hk
    unfold creditF; split
    · exact ⟨_, rfl⟩
    · exact ⟨_, State.core_setCtx ..⟩
  · exact ⟨_, core_creditF_ne f s hk⟩

/-! ### The performance of an item -/

/-- The instructions that, at their place in the vector queue, reach neither memory nor a d register. -/
def accessFree : Instr → Bool
  | .vld _ | .vldBf _ | .vldm _ | .vldx _ | .vst _ | .vstBf _ | .vstm _ | .vstx _ | .vamo _ | .vext _ => false
  | _ => true

theorem vplan_accessFree (c : CoreSt) {v : VItem} (h : accessFree v.ins = true) : vplan c v = none := by
  unfold vplan
  split <;> simp_all [accessFree]

/-- An item without access never stays in the queue at a save. -/
theorem stays_accessFree (s : State) {v : VItem} (h : accessFree v.ins = true) : v.stays s = false := by
  unfold VItem.stays
  split
  · simp_all [accessFree]
  · simp [vplan_accessFree _ h]

theorem performItem_accessFree (core i : Nat) {v : VItem} (s : State) (h : accessFree v.ins = true) :
    performItem core i v s = .next (creditF v.who (vectorOp (s.core core) v).2
      (dropItem core i (s.setCore core (vectorOp (s.core core) v).1))) := by
  simp only [performItem, vplan_accessFree _ h]
  split
  · simp_all [accessFree]
  · rfl

/-- The head of the queue of a core that is not saved is performed, stopped for a save or not. -/
theorem exec_vectorPerform {s : State} {core : Nat} {v : VItem} {rest : List VItem}
    (hs : (s.core core).saved = false) (hq : (s.core core).vq = v :: rest) (hi : accessFree v.ins = true) :
    exec (.vectorPerform core) s = .next (creditF v.who (vectorOp (s.core core) v).2
      (dropItem core 0 (s.setCore core (vectorOp (s.core core) v).1))) := by
  rw [← performItem_accessFree core 0 s hi]
  show performHead core s = _
  simp [performHead, hs, hq, List.findIdx_cons, stays_accessFree s hi]

/-- What stands after the performance of an instruction that changes vector and mask registers only. -/
theorem perform_onlyRegs {s : State} {core : Nat} {v : VItem} {rest : List VItem} {c' : CoreSt} {fl : Flags}
    (hs : (s.core core).saved = false) (hq : (s.core core).vq = v :: rest) (hi : accessFree v.ins = true)
    (hop : vectorOp (s.core core) v = (c', fl)) (hr : (s.core core).onlyRegs c') :
    ∃ t, exec (.vectorPerform core) s = .next t ∧ (t.core core).v = c'.v ∧ (t.core core).vm = c'.vm ∧
      performedBut s t core v rest fl := by
  let c := s.core core
  let x : CoreSt := { c with v := c'.v, vm := c'.vm, vq := rest }
  have hd : dropItem core 0 (s.setCore core c') = s.setCore core x := by
    rw [hr]; simp [dropItem, x, c, hq]
  have hctx (w : Who) : (s.setCore core x).ctx w = s.ctx w :=
    State.ctx_setCore_of_ctxs (show x.ctxs = _ from rfl) w
  obtain ⟨cs, hcore⟩ := core_creditF v.who fl (s.setCore core x) core
  rw [State.core_setCore] at hcore
  refine ⟨creditF v.who fl (s.setCore core x), by rw [exec_vectorPerform hs hq hi, hop, hd],
    by rw [hcore], by rw [hcore], by rw [hcore], by rw [hcore], by rw [hcore], creditF_mem .., ?_, ?_, ?_⟩
  · intro k hk hw
    rw [core_creditF_ne _ _ hw, State.core_setCore_ne _ _ hk]
  · intro w hw
    rw [ctx_creditF_ne _ _ hw, hctx]
  · rw [ctx_creditF, hctx]

end Sys2Proof.Machine
end

section
/-! PROOFS. The words and masks that vector instructions write (R176 to R178, R180 to R182). -/

namespace Sys2Proof.Machine

/-! ### Words of a vector register -/

/-- The words of a list of v[x] written. -/
def CoreSt.putWords (c : CoreSt) (x : Nat) (l : List Nat) (g : Nat → Word) : CoreSt :=
  l.foldl (fun c k => c.setVw x k (g k)) c

theorem vw_setVw (c : CoreSt) (x r : Nat) {e k : Nat} (a : Word) (he : e < 64) (hk : k < 64) :
    (c.setVw x e a).vw r k = if r = x ∧ k = e then a else c.vw r k := by
  have hp : r * 64 + k = x * 64 + e ↔ r = x ∧ k = e := by omega
  simp only [CoreSt.setVw, CoreSt.vw, SMap.get_put, hp]

/-- Words written read as what was written, and every other word as before. -/
theorem vw_putWords (c : CoreSt) (x r : Nat) {k : Nat} (l : List Nat) (g : Nat → Word) (hl : ∀ e ∈ l, e < 64)
    (hk : k < 64) : (c.putWords x l g).vw r k = if r = x ∧ k ∈ l then g k else c.vw r k := by
  induction l generalizing c with
  | nil => simp [CoreSt.putWords]
  | cons e t ih =>
    have hstep : c.putWords x (e :: t) g = (c.setVw x e (g e)).putWords x t g := rfl
    rw [hstep, ih _ fun a ha => hl a (by simp [ha]), vw_setVw _ _ _ _ (hl e (by simp)) hk]
    by_cases he : k = e
    · by_cases hr : r = x <;> simp [he, hr]
    · simp [he]

theorem onlyRegs_putWords (c : CoreSt) (x : Nat) (l : List Nat) (g : Nat → Word) :
    c.onlyRegs (c.putWords x l g) := by
  induction l generalizing c with
  | nil => rfl
  | cons e t ih => exact ih (c.setVw x e (g e))

theorem vm_putWords (c : CoreSt) (x : Nat) (l : List Nat) (g : Nat → Word) : (c.putWords x l g).vm = c.vm := by
  induction l generalizing c with
  | nil => rfl
  | cons e t ih => exact ih (c.setVw x e (g e))

/-- An element of 32 bits is a word. -/
theorem velem_word (c : CoreSt) (r e : Nat) : c.velem r 32 e = (c.vw r e).toNat := by
  have h : (c.vw r e).toNat < 2 ^ 32 := (c.vw r e).isLt
  simp [CoreSt.velem, CoreSt.vw] at h ⊢
  omega

theorem setElem_word (c : CoreSt) (r e : Nat) (a : Word) : c.setElem r 32 e a.toNat = c.setVw r e a := by
  have h : (c.v.get (r * 64 + e)).toNat % 2 ^ 32 = (c.v.get (r * 64 + e)).toNat := Nat.mod_eq_of_lt (BitVec.isLt _)
  have ha : a.toNat % 2 ^ 32 = a.toNat := Nat.mod_eq_of_lt a.isLt
  have he : e * 32 / 32 = e ∧ e * 32 % 32 = 0 := by omega
  simp only [CoreSt.setElem, CoreSt.setVw, he, pow_zero, Nat.div_one, Nat.mul_one, h, ha, Nat.sub_self, Nat.zero_add,
    BitVec.ofNat_toNat, BitVec.setWidth_eq]

/-- `vmap` of words that record no flag writes the enabled words, each computed from the old registers. -/
theorem vmap_words (c : CoreSt) (x : Nat) (es : List Nat) (en : Nat → Bool) (g : Nat → Word) :
    vmap c x 32 es en (fun e => ((g e).toNat, 0)) = (c.putWords x (es.filter en) g, 0) := by
  have fold (l : List Nat) (d : CoreSt) : l.foldl (fun (a : CoreSt × Flags) e =>
      (a.1.setElem x 32 e (g e).toNat, a.2 ||| 0)) (d, 0) = (d.putWords x l g, 0) := by
    induction l generalizing d with
    | nil => rfl
    | cons e t ih => rw [List.foldl_cons, setElem_word, or_noFlags]; exact ih _
  exact fold _ c

/-- An instruction that writes the enabled words of v[x] and records no flag computes them element by element. -/
theorem computesElems_of_words {i : Instr} {x : Nat} {en : CoreSt → Nat → Bool} (g : CoreSt → VItem → Nat → Word)
    {f : CoreSt → VItem → Nat → Nat} (hi : accessFree i = true)
    (hop : ∀ c (v : VItem), vectorOp c { v with ins := i } =
      (c.putWords x ((List.range 64).filter (en c)) (g c v), 0))
    (hg : ∀ c v e, (g c v e).toNat = f c v e % 2 ^ 32) : computesElems i x 32 en fun c v e => (f c v e, 0) := by
  rintro s core v rest hs hq rfl c
  obtain ⟨t, ht, htv, htm, hrest⟩ := perform_onlyRegs hs hq hi (hop c v) (onlyRegs_putWords ..)
  have hl : ∀ e ∈ (List.range 64).filter (en c), e < 64 := by simp +contextual
  have hvw (r k : Nat) (hk : k < 64) :
      (t.core core).vw r k = if r = x ∧ en c k then g c v k else c.vw r k := by
    have hw := vw_putWords c x r _ (g c v) hl hk
    simp only [List.mem_filter, List.mem_range, hk, true_and] at hw
    rw [← hw, CoreSt.vw, CoreSt.vw, htv]
  refine ⟨t, ht, ?_, ?_, htm.trans (vm_putWords ..), ?_⟩
  · intro e he
    rw [velem_word, velem_word, hvw x e he, ← hg]
    split_ifs <;> simp_all
  · intro r k hr hk
    simp [hvw r k hk, hr]
  · rw [List.foldl_fixed' fun _ => or_noFlags 0]
    exact hrest

/-- The same for an instruction that is a `vmap` of words. -/
theorem computesElems_of_vmap {i : Instr} {x : Nat} {en : CoreSt → Nat → Bool} {g : CoreSt → VItem → Nat → Word}
    (hi : accessFree i = true) (hop : ∀ c (v : VItem), vectorOp c { v with ins := i } =
      vmap c x 32 (List.range 64) (en c) fun e => ((g c v e).toNat, 0)) :
    computesElems i x 32 en fun c v e => ((g c v e).toNat, 0) :=
  computesElems_of_words g hi (fun c v => (hop c v).trans (vmap_words ..))
    fun c v e => (Nat.mod_eq_of_lt (g c v e).isLt).symm

/-! ### Mask registers -/

theorem mask_setMask (c : CoreSt) (k j : Nat) (m : DWord) :
    (c.setMask k m).mask j = if j = k ∧ k ≠ 0 then m else c.mask j := by
  unfold CoreSt.setMask CoreSt.mask
  split_ifs <;> simp_all [SMap.get_put]

theorem onlyRegs_setMask (c : CoreSt) (k : Nat) (m : DWord) : c.onlyRegs (c.setMask k m) := by
  unfold CoreSt.setMask; split <;> rfl

theorem v_setMask (c : CoreSt) (k : Nat) (m : DWord) : (c.setMask k m).v = c.v := by
  unfold CoreSt.setMask; split <;> rfl

/-- An instruction that writes a mask register leaves the bits written in it, and vm0 discards them. -/
theorem computesMask_of_setMask {i : Instr} {k : Nat} {en : CoreSt → Nat → Bool} {f : CoreSt → VItem → Nat → Bool}
    {fl : CoreSt → Flags} (m : CoreSt → VItem → DWord) (hi : accessFree i = true)
    (hop : ∀ c (v : VItem), vectorOp c { v with ins := i } = (c.setMask k (m c v), fl c))
    (hm : ∀ c v e, e < 64 → (m c v).getLsbD e = if en c e then f c v e else (c.mask k).getLsbD e) :
    computesMask i k en f fl := by
  rintro s core v rest hs hq rfl c
  obtain ⟨t, ht, htv, htm, hrest⟩ := perform_onlyRegs hs hq hi (hop c v) (onlyRegs_setMask ..)
  have hmask (j : Nat) : (t.core core).mask j = if j = k ∧ k ≠ 0 then m c v else c.mask j := by
    rw [← mask_setMask, CoreSt.mask, CoreSt.mask, htm]
  refine ⟨t, ht, ?_, ?_, rfl, htv.trans (v_setMask ..), hrest⟩
  · intro hk e he
    rw [hmask, if_pos ⟨rfl, hk⟩, hm c v e he]
  · intro j hj
    rw [hmask, if_neg fun h => hj h.1]

/-! ### Comparisons (R177) -/

/-- The bits of a list of positions of a mask written. -/
def writeBits (p : Nat → Bool) (l : List Nat) (m : DWord) : DWord :=
  l.foldl (fun m k => if p k then m ||| BitVec.ofNat 64 (2 ^ k) else m &&& ~~~BitVec.ofNat 64 (2 ^ k)) m

theorem getLsbD_writeBits (p : Nat → Bool) (l : List Nat) (m : DWord) {e : Nat} (he : e < 64) :
    (writeBits p l m).getLsbD e = if e ∈ l then p e else m.getLsbD e := by
  induction l generalizing m with
  | nil => simp [writeBits]
  | cons k t ih =>
    have htwo : (BitVec.ofNat 64 (2 ^ k)).getLsbD e = decide (k = e) := by
      rw [BitVec.getLsbD_ofNat, Nat.testBit_two_pow]; simp [he]
    generalize hb : BitVec.ofNat 64 (2 ^ k) = b at htwo
    have hbit : (if p k then m ||| b else m &&& ~~~b).getLsbD e = if e = k then p e else m.getLsbD e := by
      by_cases hk : e = k
      · subst hk; cases hp : p e <;> simp_all
      · have := Ne.symm hk; cases hp : p k <;> simp_all
    rw [writeBits, List.foldl_cons, ← writeBits, ih, hb, hbit]
    by_cases hk : e = k <;> simp [hk]

/-- A predicate on the FP32 values of word k of v[Y] and v[Z]. -/
def cmpOn (c : CoreSt) (o : VCmpF) (f : Val → Val → Bool) (k : Nat) : Bool :=
  f (valOf .fp32 (c.vw o.y.val k).toNat) (valOf .fp32 (c.vw o.z.val k).toNat)

/-- `vcmp` writes the bits of the enabled words; ordered, it raises invalid when one of them compares a NaN. -/
theorem vcmp_eq (c : CoreSt) (o : VCmpF) (f : Val → Val → Bool) (ordered : Bool) : vcmp c o f ordered =
    (c.setMask o.k.val (writeBits (cmpOn c o f) ((List.range 64).filter fun k => (c.mask o.mask.val).getLsbD k)
        (c.mask o.k.val)),
      if ordered && (List.range 64).any fun k => (c.mask o.mask.val).getLsbD k && cmpOn c o unVal k then 16 else 0) := by
  rw [← List.any_filter]
  rfl

/-- An instruction that is a `vcmp` computes the bits of the enabled words. -/
theorem computesMask_of_vcmp {i : Instr} {o : VCmpF} {f : Val → Val → Bool} {ordered : Bool}
    (hi : accessFree i = true) (hop : ∀ c (v : VItem), vectorOp c { v with ins := i } = vcmp c o f ordered) :
    computesMask i o.k.val (fun c k => (c.mask o.mask.val).getLsbD k) (fun c _ k => cmpOn c o f k) fun c =>
      if ordered && (List.range 64).any fun k => (c.mask o.mask.val).getLsbD k && cmpOn c o unVal k then 16 else 0 := by
  refine computesMask_of_setMask _ hi (fun c v => (hop c v).trans (vcmp_eq ..)) fun c v e he => ?_
  rw [getLsbD_writeBits _ _ _ he]
  simp [he]

/-! ### The instructions -/

/-- VSEL without z writes the words that the mask enables. -/
theorem vsel_two {o : VR3} (hz : o.r.z = none) (c : CoreSt) : vsel c o =
    vmap c o.r.x.val 32 (List.range 64) (fun e => (c.mask o.mask.val).getLsbD e) fun e =>
      ((c.vw o.r.y.val e).toNat, 0) := by
  simp [vsel, hz]

/-- VSEL with z writes every word, from y or from z as the mask says. -/
theorem vsel_three {o : VR3} {z : Fin 32} (hz : o.r.z = some z) (c : CoreSt) : vsel c o =
    vmap c o.r.x.val 32 (List.range 64) (fun _ => true) fun e =>
      ((if (c.mask o.mask.val).getLsbD e then c.vw o.r.y.val e else c.vw z.val e).toNat, 0) := by
  have pick (b : Bool) (r t e : Nat) : c.vw (if b then r else t) e = if b then c.vw r e else c.vw t e :=
    apply_ite (c.vw · e) ..
  simp only [vsel, hz, pick]

/-- The vector form of RNDFILL writes every word. -/
theorem vectorOp_rndfill (c : CoreSt) (v : VItem) (r : RndF) : vectorOp c { v with ins := .rndfill r } =
    (c.putWords r.x.val ((List.range 64).filter fun _ => true) fun e => v.vals.getD e 0, 0) := by
  rw [List.filter_true]
  rfl

/-- Settles O30: integer arithmetic, moves, selections and permutations are `vmap`s of words, VIOTA's word is the
count modulo 2^32, RNDFILL writes all its draws; comparisons are `vcmp`s and VMSK a write of a whole mask. -/
theorem vectorWordAndMaskResults : Obligations.VectorWordAndMaskResults := by
  unfold Obligations.VectorWordAndMaskResults
  refine ⟨fun o m p q => ?words, fun o m => ?masks⟩
  case words =>
    intro en a b I
    have int {i : Instr} (f : Word → Word → Word) (hi : accessFree i = true)
        (hop : ∀ c (v : VItem), vectorOp c { v with ins := i } = vint c o f) : I i f := computesElems_of_vmap hi hop
    refine ⟨int (· + ·) rfl fun _ _ => rfl, int (· * ·) rfl fun _ _ => rfl, int (· &&& ·) rfl fun _ _ => rfl,
      int (· ||| ·) rfl fun _ _ => rfl, int (· ^^^ ·) rfl fun _ _ => rfl,
      int (fun u v => u <<< sh5 v) rfl fun _ _ => rfl, int (fun u v => u >>> sh5 v) rfl fun _ _ => rfl,
      int (fun u v => u.sshiftRight (sh5 v)) rfl fun _ _ => rfl,
      fun hz => ?vsel2, fun z hz => ?vsel3, ?vmov, ?vbcast, ?vperm, ?viota, fun r => ?rndfill⟩
    case vsel2 => exact computesElems_of_vmap rfl fun c _ => vsel_two hz c
    case vsel3 => exact computesElems_of_vmap rfl fun c _ => vsel_three hz c
    case vmov => exact computesElems_of_vmap rfl fun _ _ => rfl
    case vbcast =>
      exact computesElems_of_words (fun _ v _ => v.dv.setWidth 32) rfl (fun _ _ => vmap_words ..) (by simp)
    case vperm => exact computesElems_of_vmap rfl fun _ _ => rfl
    case viota =>
      exact computesElems_of_words (fun c _ e => BitVec.ofNat 32 (popBelow (c.mask q.mask.val) e)) rfl
        (fun _ _ => vmap_words ..) fun _ _ _ => BitVec.toNat_ofNat ..
    case rndfill =>
      exact computesElems_of_words (fun _ v e => v.vals.getD e 0) rfl (fun c v => vectorOp_rndfill c v r)
        fun _ _ _ => (Nat.mod_eq_of_lt (BitVec.isLt _)).symm
  case masks =>
    intro el nan C
    have cmp {i : Instr} (f : Val → Val → Bool) (ordered : Bool) (hi : accessFree i = true)
        (hop : ∀ c (v : VItem), vectorOp c { v with ins := i } = vcmp c o f ordered) : C i f ordered :=
      computesMask_of_vcmp hi hop
    refine ⟨cmp Val.eq false rfl fun _ _ => rfl, cmp Val.lt true rfl fun _ _ => rfl, cmp leVal true rfl fun _ _ => rfl,
      cmp unVal false rfl fun _ _ => rfl, ?vmsk⟩
    case vmsk =>
      exact computesMask_of_setMask (fun c v => v.dv &&& c.mask m.mask.val) rfl (fun _ _ => rfl)
        fun _ _ _ _ => BitVec.getLsbD_and ..

end Sys2Proof.Machine
end

section
/-! PROOFS. What a sparse map reads as after a run of keys is set in one pass, and a run of keys read in one pass. -/

namespace Sys2Proof

/-! ### Parts of a map -/

theorem SMap.get_of_not_listed {α : Type} [Inhabited α] {m : SMap α} {k : Nat} (h : ∀ p ∈ m, p.1 ≠ k) :
    SMap.get m k = default := by
  induction m with
  | nil => rfl
  | cons p t ih =>
    rw [SMap.get, if_neg (h p (by simp))]
    exact ih fun q hq => h q (by simp [hq])

theorem SMap.get_filter_listed {α : Type} [Inhabited α] (m : SMap α) {f : Nat × α → Bool} {k : Nat}
    (h : ∀ v, f (k, v) = true) : SMap.get (m.filter f) k = SMap.get m k := by
  induction m with
  | nil => rfl
  | cons p t ih =>
    obtain ⟨k', v⟩ := p
    by_cases hk : k' = k
    · subst hk; simp [SMap.get, h]
    · cases hf : f (k', v) <;> simp [SMap.get, hf, hk, ih]

theorem SMap.get_append_left {α : Type} [Inhabited α] (m : SMap α) {n : SMap α} {k : Nat} (h : ∀ p ∈ n, p.1 ≠ k) :
    SMap.get (m ++ n) k = SMap.get m k := by
  induction m with
  | nil => exact SMap.get_of_not_listed h
  | cons p t ih => simp only [List.cons_append, SMap.get, ih]

theorem SMap.get_append_right {α : Type} [Inhabited α] {m : SMap α} (n : SMap α) {k : Nat} (h : ∀ p ∈ m, p.1 ≠ k) :
    SMap.get (m ++ n) k = SMap.get n k := by
  induction m with
  | nil => rfl
  | cons p t ih =>
    rw [List.cons_append, SMap.get, if_neg (h p (by simp))]
    exact ih fun q hq => h q (by simp [hq])

/-! ### A run of keys set -/

theorem SMap.keys_ofList {α : Type} [DecidableEq α] [Inhabited α] (k : Nat) (l : List α) :
    ∀ p ∈ SMap.ofList k l, k ≤ p.1 ∧ p.1 < k + l.length := by
  induction l generalizing k with
  | nil => simp [SMap.ofList]
  | cons v t ih =>
    have ht : ∀ p ∈ SMap.ofList (k + 1) t, k ≤ p.1 ∧ p.1 < k + (v :: t).length := fun p hp => by
      have := ih (k + 1) p hp
      simp only [List.length_cons]; omega
    rw [SMap.ofList]
    split
    · exact ht
    · rintro p (_ | ⟨_, hp⟩)
      · simp
      · exact ht p hp

theorem SMap.get_ofList {α : Type} [DecidableEq α] [Inhabited α] (k : Nat) (l : List α) (i : Nat) :
    SMap.get (SMap.ofList k l) (k + i) = l.getD i default := by
  induction l generalizing k i with
  | nil => rfl
  | cons v t ih =>
    rw [SMap.ofList]
    cases i with
    | zero =>
      split
      · next hv =>
        rw [SMap.get_of_not_listed fun p hp => by have := SMap.keys_ofList (k + 1) t p hp; omega]
        exact hv.symm
      · simp [SMap.get]
    | succ i =>
      have h := ih (k + 1) i
      rw [show k + 1 + i = k + (i + 1) by omega] at h
      split <;> simp [SMap.get, h]

/-- A run of keys set reads as the values inside the run and as before outside it. -/
theorem SMap.get_setRange {α : Type} [DecidableEq α] [Inhabited α] (m : SMap α) (k : Nat) (l : List α) (j : Nat) :
    SMap.get (SMap.setRange m k l) j =
      if k ≤ j ∧ j < k + l.length then l.getD (j - k) default else SMap.get m j := by
  have hlow : ∀ p ∈ m.filter fun p => decide (p.1 < k), p.1 < k := fun p hp => by
    simpa using List.of_mem_filter hp
  have hhigh : ∀ p ∈ m.filter fun p => decide (k + l.length ≤ p.1), k + l.length ≤ p.1 := fun p hp => by
    simpa using List.of_mem_filter hp
  have hmid := SMap.keys_ofList k l
  unfold SMap.setRange
  by_cases hj : j < k
  · rw [if_neg (by omega), SMap.get_append_left _ fun p hp => by have := hhigh p hp; omega,
      SMap.get_append_left _ fun p hp => by have := hmid p hp; omega, SMap.get_filter_listed _ (by simp [hj])]
  by_cases hi : j < k + l.length
  · obtain ⟨i, rfl⟩ := Nat.exists_eq_add_of_le (Nat.le_of_not_lt hj)
    rw [if_pos (by omega), SMap.get_append_left _ fun p hp => by have := hhigh p hp; omega,
      SMap.get_append_right _ fun p hp => by have := hlow p hp; omega, SMap.get_ofList, Nat.add_sub_cancel_left]
  · rw [if_neg (by omega), List.append_assoc, SMap.get_append_right _ fun p hp => by have := hlow p hp; omega,
      SMap.get_append_right _ fun p hp => by have := hmid p hp; omega, SMap.get_filter_listed _ (by simp; omega)]

/-! ### A run of keys read -/

theorem SMap.wf_filter {α : Type} [DecidableEq α] [Inhabited α] {m : SMap α} (f : Nat × α → Bool)
    (h : SMap.wf m = true) : SMap.wf (m.filter f) = true := by
  induction m with
  | nil => rfl
  | cons p t ih =>
    obtain ⟨hv, ha, ht⟩ := (SMap.wf_cons p.1 p.2 t).mp h
    cases hf : f p with
    | false => simpa [hf] using ih ht
    | true =>
      rw [List.filter_cons_of_pos hf]
      exact (SMap.wf_cons ..).mpr ⟨hv, fun q hq => ha q (List.mem_of_mem_filter hq), ih ht⟩

theorem SMap.length_expand {α : Type} [Inhabited α] (m : SMap α) (k n : Nat) : (SMap.expand m k n).length = n := by
  induction n generalizing m k with
  | zero => cases m <;> rfl
  | succ n ih =>
    cases m with
    | nil => simp [SMap.expand, ih]
    | cons p t => rw [SMap.expand]; split <;> simp [ih]

theorem SMap.length_getRange {α : Type} [Inhabited α] (m : SMap α) (k n : Nat) : (SMap.getRange m k n).length = n :=
  SMap.length_expand ..

/-- A canonical map that lists no key below the run spreads out to its entries. -/
theorem SMap.getD_expand {α : Type} [DecidableEq α] [Inhabited α] {m : SMap α} {k n i : Nat} (h : SMap.wf m = true)
    (ha : SMap.above k m) (hi : i < n) : (SMap.expand m k n).getD i default = SMap.get m (k + i) := by
  induction n generalizing m k i with
  | zero => omega
  | succ n ih =>
    have step {m' : SMap α} (h' : SMap.wf m' = true) (ha' : SMap.above (k + 1) m') {j : Nat} (hj : j < n) :
        (SMap.expand m' (k + 1) n).getD j default = SMap.get m' (k + (j + 1)) := by
      rw [ih h' ha' hj, Nat.add_right_comm, Nat.add_assoc]
    cases m with
    | nil =>
      cases i with
      | zero => rfl
      | succ j => exact step h (fun p hp => nomatch hp) (Nat.lt_of_succ_lt_succ hi)
    | cons p t =>
      obtain ⟨k', v⟩ := p
      obtain ⟨-, ht, hw⟩ := (SMap.wf_cons k' v t).mp h
      have hk' : k ≤ k' := ha (k', v) (by simp)
      rw [SMap.expand]
      split
      · next hk =>
        subst hk
        cases i with
        | zero => simp [SMap.get]
        | succ j => simpa [SMap.get] using step hw ht (Nat.lt_of_succ_lt_succ hi)
      · next hk =>
        have ha' : SMap.above (k + 1) ((k', v) :: t) := by
          rintro q (_ | ⟨_, hq⟩)
          · show k + 1 ≤ k'; omega
          · have := ht q hq; omega
        cases i with
        | zero => rw [SMap.get_of_not_listed fun q hq => by have := ha' q hq; omega]; rfl
        | succ j => exact step h ha' (Nat.lt_of_succ_lt_succ hi)

/-- A run of keys of a canonical map reads as its entries. -/
theorem SMap.getD_getRange {α : Type} [DecidableEq α] [Inhabited α] {m : SMap α} {k n i : Nat} (h : SMap.wf m = true)
    (hi : i < n) : (SMap.getRange m k n).getD i default = SMap.get m (k + i) := by
  have ha : SMap.above k (m.filter fun p => decide (k ≤ p.1) && decide (p.1 < k + n)) := fun p hp => by
    have := List.of_mem_filter hp
    simp at this; omega
  rw [SMap.getRange, SMap.getD_expand (SMap.wf_filter _ h) ha hi, SMap.get_filter_listed _ (by simp [hi])]

end Sys2Proof
end

section
/-! PROOFS. How a command of the matrix engine begins and completes (R224 to R227, R247, R392, R399): the flags, the
report and the mailbox, said once for every command that is no product. -/

namespace Sys2Proof.Machine

/-! ### Changes of contexts alone -/

/-- Two states have the same memory, and of each core differ at most in its contexts. -/
def State.onlyCtxs (s t : State) : Prop := t.mem = s.mem ∧ ∀ k, t.core k = { s.core k with ctxs := (t.core k).ctxs }

theorem State.onlyCtxs_refl (s : State) : s.onlyCtxs s := ⟨rfl, fun _ => rfl⟩

theorem State.onlyCtxs.trans {s t u : State} (h : s.onlyCtxs t) (h' : t.onlyCtxs u) : s.onlyCtxs u :=
  ⟨h'.1.trans h.1, fun k => by rw [h'.2 k, h.2 k]⟩

theorem State.onlyCtxs.mx {s t : State} (h : s.onlyCtxs t) (k : Nat) : (t.core k).mx = (s.core k).mx := by rw [h.2 k]

theorem State.onlyCtxs.lm {s t : State} (h : s.onlyCtxs t) (k : Nat) : (t.core k).lm = (s.core k).lm := by rw [h.2 k]

theorem State.onlyCtxs_setCtx (s : State) (w : Who) (x : Ctx) : s.onlyCtxs (s.setCtx w x) := by
  refine ⟨rfl, fun k => ?_⟩
  by_cases hk : k = w.core
  · subst hk; rw [State.core_setCtx]
  · rw [State.core_setCtx_ne s w x hk]

/-! ### Flags and reports of engine work (R392, R399) -/

theorem onlyCtxs_creditE (w : Who) (f : Flags) (s : State) : s.onlyCtxs (creditE w f s) := by
  unfold creditE; split
  · exact State.onlyCtxs_refl s
  · exact State.onlyCtxs_setCtx ..

theorem ctx_creditE (w v : Who) (f : Flags) (s : State) : (creditE w f s).ctx v =
    if v = creditTo w s then { s.ctx v with eflags := (s.ctx v).eflags ||| f.setWidth 64 } else s.ctx v := by
  unfold creditE
  by_cases hf : f = 0
  · have h0 (x : DWord) : x ||| (0 : Flags).setWidth 64 = x := BitVec.or_zero
    subst hf; rw [h0]; simp
  · rw [if_neg hf]
    by_cases hv : v = creditTo w s
    · rw [if_pos hv, hv]; exact State.ctx_setCtx ..
    · rw [if_neg hv]; exact State.ctx_setCtx_ne s _ hv

/-- The context credited is still the one that holds the reports. -/
theorem creditTo_creditE (w : Who) (f : Flags) (s : State) : creditTo w (creditE w f s) = creditTo w s := by
  have hl : ((creditE w f s).ctx w).live = (s.ctx w).live := by rw [ctx_creditE]; split <;> rfl
  rw [creditTo, creditTo, hl]

/-- The report of an engine command, when it has one, becomes pending. -/
def reportOf (w : Who) (rep : Option (Nat × DWord)) (s : State) : State :=
  match rep with
  | some r => addReport w r.1 r.2 s
  | none => s

theorem onlyCtxs_reportOf (w : Who) (rep : Option (Nat × DWord)) (s : State) : s.onlyCtxs (reportOf w rep s) := by
  cases rep with
  | none => exact State.onlyCtxs_refl s
  | some r =>
    show s.onlyCtxs (addReport w r.1 r.2 s)
    unfold addReport; split
    · exact State.onlyCtxs_refl s
    · exact State.onlyCtxs_setCtx s (reportWho w s) _

/-- The context credited holds the report after its earlier ones, its flags unchanged. -/
theorem ctx_reportOf {w : Who} (hw : w.core < 2304) (rep : Option (Nat × DWord)) (s : State) :
    let c := (reportOf w rep s).ctx (creditTo w s)
    c.eflags = (s.ctx (creditTo w s)).eflags ∧ c.reports.map (fun r => (r.cause, r.tval)) =
      (s.ctx (creditTo w s)).reports.map (fun r => (r.cause, r.tval)) ++ rep.toList := by
  cases rep with
  | none => simp [reportOf]
  | some r =>
    have hg : w.core ≠ goneCore := by unfold goneCore; omega
    have h : (reportOf w (some r) s).ctx (creditTo w s) = { s.ctx (creditTo w s) with
        reports := (s.ctx (creditTo w s)).reports ++ [⟨r.1, r.2, s.stamp⟩] } := by
      show (addReport w r.1 r.2 s).ctx (creditTo w s) = _
      rw [addReport, if_neg hg]
      exact State.ctx_setCtx s (creditTo w s) _
    simp [h]

/-! ### The matrix engine of a core -/

@[simp] theorem mem_setMx (core : Nat) (f : Mx → Mx) (s : State) : (setMx core f s).mem = s.mem := rfl

@[simp] theorem core_setMx (core : Nat) (f : Mx → Mx) (s : State) :
    (setMx core f s).core core = { s.core core with mx := f (s.core core).mx } := State.core_setCore ..

theorem core_setMx_ne {core k : Nat} (f : Mx → Mx) (s : State) (h : k ≠ core) : (setMx core f s).core k = s.core k :=
  State.core_setCore_ne s _ h

@[simp] theorem ctx_setMx (core : Nat) (f : Mx → Mx) (s : State) (w : Who) : (setMx core f s).ctx w = s.ctx w :=
  State.ctx_setCore_of_ctxs (x := { s.core core with mx := f (s.core core).mx }) rfl w

theorem creditTo_congr {s t : State} (h : ∀ v, t.ctx v = s.ctx v) (w : Who) : creditTo w t = creditTo w s := by
  rw [creditTo, creditTo, h]

/-! ### Completion -/

/-- The commands whose report undoes a part of what they did: the loads of the incoming bank, and PRISS. -/
def undoneByReport : Instr → Bool
  | .mxldb _ | .mxldbT _ | .priss _ => true
  | _ => false

/-- The head of the matrix queue gone, the flags credited and the report pending: all of a completion but the
mailbox. -/
def mxEnded (core : Nat) (c : Cmd) (f : Flags) (rep : Option (Nat × DWord)) (s : State) : State :=
  reportOf c.who rep (creditE c.who f (setMx core (fun m => { m with queue := m.queue.tail }) s))

/-- The store of a completed command's number + 1 to the mailbox, when one is set (R247). -/
def mailed (core : Nat) (c : Cmd) (s : State) : State :=
  if (mxOf s core).mbScope = 7 then s
  else s.setCore core ((s.core core).store (mxOf s core).mbAddr (leBytes 8 (c.num + 1).toNat))

/-- A completion that undoes nothing ends the command and stores to the mailbox. -/
theorem mxFinish_eq {core : Nat} {c : Cmd} {f : Flags} {rep : Option (Nat × DWord)} {s : State}
    (h : rep = none ∨ undoneByReport c.ins = false) :
    mxFinish core c f rep s = mailed core c (mxEnded core c f rep s) := by
  unfold mxFinish mxEnded reportOf
  cases rep with
  | none => simp [mailed]
  | some r =>
    have hu : undoneByReport c.ins = false := h.resolve_left nofun
    split <;> simp_all [undoneByReport, mailed]

@[simp] theorem mem_mailed (core : Nat) (c : Cmd) (s : State) : (mailed core c s).mem = s.mem := by
  unfold mailed; split <;> rfl

@[simp] theorem ctx_mailed (core : Nat) (c : Cmd) (s : State) (v : Who) : (mailed core c s).ctx v = s.ctx v := by
  unfold mailed; split
  · rfl
  · exact State.ctx_setCore_of_ctxs (x := (s.core core).store ..) rfl v

@[simp] theorem mx_mailed (core k : Nat) (c : Cmd) (s : State) : ((mailed core c s).core k).mx = (s.core k).mx := by
  unfold mailed; split
  · rfl
  · by_cases hk : k = core
    · subst hk; rw [State.core_setCore]; rfl
    · rw [State.core_setCore_ne _ _ hk]

theorem lm_mailed (core : Nat) (c : Cmd) (s : State) : ((mailed core c s).core core).lm =
    if (s.core core).mx.mbScope = 7 then (s.core core).lm
    else (s.core core).lm.putList (s.core core).mx.mbAddr (leBytes 8 (c.num + 1).toNat) := by
  unfold mailed mxOf; split
  · rfl
  · rw [State.core_setCore]; rfl

theorem onlyCtxs_mxEnded (core : Nat) (c : Cmd) (f : Flags) (rep : Option (Nat × DWord)) (s : State) :
    (setMx core (fun m => { m with queue := m.queue.tail }) s).onlyCtxs (mxEnded core c f rep s) :=
  (onlyCtxs_creditE ..).trans (onlyCtxs_reportOf ..)

/-- The context credited takes the flags and the report. -/
theorem ctx_mxEnded {c : Cmd} (hw : c.who.core < 2304) (core : Nat) (fl : Flags) (rep : Option (Nat × DWord))
    (s : State) :
    let v := creditTo c.who s
    let x := (mxEnded core c fl rep s).ctx v
    x.eflags = (s.ctx v).eflags ||| fl.setWidth 64 ∧
      x.reports.map (fun r => (r.cause, r.tval)) = (s.ctx v).reports.map (fun r => (r.cause, r.tval)) ++ rep.toList := by
  let popped := setMx core (fun m => { m with queue := m.queue.tail }) s
  have hto : creditTo c.who popped = creditTo c.who s := creditTo_congr (ctx_setMx _ _ s) _
  have h := ctx_reportOf hw rep (creditE c.who fl popped)
  rwa [creditTo_creditE, ctx_creditE, hto, if_pos rfl, ctx_setMx] at h

/-- A completion leaves the engines of the other cores. -/
theorem mx_mxFinish_ne {core k : Nat} {c : Cmd} {f : Flags} {rep : Option (Nat × DWord)} {s : State}
    (h : rep = none ∨ undoneByReport c.ins = false) (hk : k ≠ core) :
    ((mxFinish core c f rep s).core k).mx = (s.core k).mx := by
  rw [mxFinish_eq h, mx_mailed, (onlyCtxs_mxEnded ..).mx, core_setMx_ne _ _ hk]

/-- A command performed into a state with the contexts, the memory and the queue of its core as before completes with the
engine and the local memory of that state. -/
theorem mxCompletes_mxFinish {s u : State} {core : Nat} {c : Cmd} (fl : Flags) (rep : Option (Nat × DWord))
    (hi : rep = none ∨ undoneByReport c.ins = false) (hw : c.who.core < 2304) (hctx : ∀ v, u.ctx v = s.ctx v)
    (hmem : u.mem = s.mem) (hq : (u.core core).mx.queue = (s.core core).mx.queue) :
    mxCompletes s (mxFinish core c fl rep u) core c fl rep.toList (u.core core).mx (u.core core).lm := by
  have only := onlyCtxs_mxEnded core c fl rep u
  have hmx := only.mx core
  have hlm := only.lm core
  rw [core_setMx] at hmx hlm
  obtain ⟨hfl, hrep⟩ := ctx_mxEnded hw core fl rep u
  rw [creditTo_congr hctx, hctx] at hfl hrep
  rw [mxFinish_eq hi]
  refine ⟨?_, ?_, ?_, ?_, ?_⟩
  · rw [mx_mailed, hmx, hq]
  · rw [lm_mailed, hmx, hlm]
  · rw [ctx_mailed, hfl]
  · rw [ctx_mailed, hrep]
  · rw [mem_mailed, only.1, mem_setMx, hmem]

/-! ### The beginning of a command -/

/-- The products, which the governor acts on and remembers (R251). -/
def isProduct : Instr → Bool
  | .mxmma _ | .mxmmaOw _ | .mxrun _ => true
  | _ => false

/-- The head of the queue of a core that is not saved, free to go on and no product, is performed. -/
theorem exec_mxCommandBegin {s : State} {core : Nat} {c : Cmd} {rest : List Cmd}
    (hq : (s.core core).mx.queue = c :: rest) (hs : (s.core core).saved = false) (hp : c.park = .free)
    (hi : isProduct c.ins = false) : exec (.mxCommandBegin core) s = .next (mxAfter core c (runMx core c s)) := by
  have hg : governed (s.core core) c = false := by
    unfold governed; split <;> simp_all [isProduct]
  show execMxCommandBegin core s = _
  simp only [execMxCommandBegin, hq, hs, hp, hg, Bool.false_eq_true, if_false]
  split <;> simp_all [isProduct]

/-- The command at the head of the matrix queue of a core that is not saved, free to go on, issued by a context of the
device and no product. -/
structure StandsFree (s : State) (core : Nat) (c : Cmd) (rest : List Cmd) : Prop where
  head : (s.core core).mx.queue = c :: rest
  awake : (s.core core).saved = false
  free : c.park = .free
  issuer : c.who.core < 2304
  noProduct : isProduct c.ins = false

section
variable {s : State} {core : Nat} {c : Cmd} {rest : List Cmd}

theorem StandsFree.exec_eq (h : StandsFree s core c rest) :
    exec (.mxCommandBegin core) s = .next (mxAfter core c (runMx core c s)) :=
  exec_mxCommandBegin h.head h.awake h.free h.noProduct

/-- A command that waits leaves the state as it is. -/
theorem StandsFree.waits (h : StandsFree s core c rest) (hr : runMx core c s = .wait s) :
    exec (.mxCommandBegin core) s = .next s := by
  rw [h.exec_eq, hr]; rfl

/-- A command that changes the engine of its core, the queue apart, completes with that change. -/
theorem StandsFree.completes (h : StandsFree s core c rest) {fl : Flags} (f : Mx → Mx)
    (hr : runMx core c s = .done fl (setMx core f s)) (hf : (f (s.core core).mx).queue = (s.core core).mx.queue) :
    ∃ t, exec (.mxCommandBegin core) s = .next t ∧
      mxCompletes s t core c fl [] (f (s.core core).mx) (s.core core).lm := by
  refine ⟨mxFinish core c fl none (setMx core f s), by rw [h.exec_eq, hr]; rfl, ?_⟩
  have := mxCompletes_mxFinish (s := s) (u := setMx core f s) (core := core) fl none (.inl rfl) h.issuer
    (ctx_setMx core f s) rfl (by rw [core_setMx]; exact hf)
  rwa [core_setMx] at this

/-- A command that changes nothing and is refused completes with the report of the cause. -/
theorem StandsFree.reports (h : StandsFree s core c rest) {cause : Nat} {v : DWord}
    (hr : runMx core c s = .fail cause v 0 s) (hu : undoneByReport c.ins = false) :
    ∃ t, exec (.mxCommandBegin core) s = .next t ∧
      mxCompletes s t core c 0 [(cause, v)] (s.core core).mx (s.core core).lm :=
  ⟨mxFinish core c 0 (some (cause, v)) s, by rw [h.exec_eq, hr]; rfl,
    mxCompletes_mxFinish 0 (some (cause, v)) (.inr hu) h.issuer (fun _ => rfl) rfl rfl⟩

end

/-! ### The span of an operand (R225) -/

theorem spanOk_ok {core n : Nat} {c : Cmd} {nd : Need} {kinds : List Nat} {s : State} {rt : Route} (k : Route → EngRes)
    (h : route core c.guards c.capY c.ea n nd kinds = .ok rt) : spanOk core c n nd kinds s k = k rt := by
  simp [spanOk, h]

theorem spanOk_refused {core n e : Nat} {c : Cmd} {nd : Need} {kinds : List Nat} {s : State} (k : Route → EngRes)
    (h : route core c.guards c.capY c.ea n nd kinds = .error e) : spanOk core c n nd kinds s k = .fail e c.ea 0 s := by
  simp [spanOk, h]

end Sys2Proof.Machine
end

section
/-! PROOFS. The commands of the matrix engine without a product (R233, R234, R237, R238, R242, R244, R247): each is shown
to change the engine as its rule says, or to be refused, and completes by the rules of the section before. -/

namespace Sys2Proof.Machine

section
variable {core : Nat} {c : Cmd} {s : State}

/-! ### Masks, banks and the mailbox (R234, R237, R247) -/

theorem listSet_eq_set {α : Type} (l : List α) (i : Nat) (v : α) : listSet l i v = l.set i v := by
  induction l generalizing i with
  | nil => rfl
  | cons a t ih => cases i with
    | zero => rfl
    | succ i => simp [listSet, ih]

/-- A mask pair other than m0 takes the low 32 bits of the first operand and the second. -/
theorem runMx_mxmsk {p : MxMskF} (hi : c.ins = .mxmsk p) (hp : p.p ≠ 0) : runMx core c s = .done 0 (setMx core
    (fun m => { m with masks := m.masks.set (p.p.val - 1) (c.capY.int.setWidth 32, c.capZ.int) }) s) := by
  simp only [runMx, runMx4, hi, runMxmsk, if_neg hp, listSet_eq_set]

theorem runMx_mxswp (hi : c.ins = .mxswp) : runMx core c s =
    if (s.core core).mx.inc = .full then .done 0 (setMx core (fun m => { m with cur := !m.cur, inc := .empty }) s)
    else .wait s := by
  simp only [runMx, runMx4, hi, runMxswp, mxOf, beq_iff_eq]

theorem runMx_mxmbx_none {p : MxMbxF} (hi : c.ins = .mxmbx p) (hn : p.scope = none) :
    runMx core c s = .done 0 (setMx core (fun m => { m with mbScope := 7 }) s) := by
  simp only [runMx, runMx4, hi, runMxmbx, hn]

theorem runMx_mxmbx_some {p : MxMbxF} {sc : Scope} {rt : Route} (hi : c.ins = .mxmbx p) (hs : p.scope = some sc)
    (hr : route core c.guards c.capY c.ea 8 needW [1] = .ok rt) : runMx core c s =
      .done 0 (setMx core (fun m => { m with mbScope := Scope.num sc, mbAddr := c.ea.toNat }) s) := by
  simp only [runMx, runMx4, hi, runMxmbx, hs, spanOk_ok _ hr]

/-! ### Blocks read from local memory (R233, R242) -/

theorem runMx_mxup {q : Mem} {rt : Route} (hi : c.ins = .mxup q)
    (hr : route core c.guards c.capY c.ea 8 needR [1] = .ok rt) : runMx core c s =
      let b := (s.core core).lm.getRange c.ea.toNat 8
      if progValid b then .done 0 (setMx core (fun m => { m with prog := b.take 5 }) s) else engarg 2 s := by
  simp only [runMx, runMx4, hi, runMxup, spanOk_ok _ hr]

theorem runMx_mxup_refused {q : Mem} {e : Nat} (hi : c.ins = .mxup q)
    (hr : route core c.guards c.capY c.ea 8 needR [1] = .error e) : runMx core c s = .fail e c.ea 0 s := by
  simp only [runMx, runMx4, hi, runMxup, spanOk_refused _ hr]

theorem runMx_mxctx {q : Mem} {rt : Route} (hi : c.ins = .mxctx q)
    (hr : route core c.guards c.capY c.ea 32 needR [1] = .ok rt) : runMx core c s =
      let k := s.core core
      let b := k.lm.getRange c.ea.toNat 32
      let p := (valOf .fp32 (fmtCtx b).ta).mul (valOf .fp32 (fmtCtx b).tb)
      let r := round (.flt .fp32) .rne p.1 0
      if fmtValid (fmtCtx b) then .done (p.2 ||| r.2) (setMx core (fun m =>
        { m with fctx := b, t := BitVec.ofNat 32 r.1, n := 0, seed := k.srseed }) s)
      else engarg 1 s := by
  simp only [runMx, runMx4, hi, runMxctx, spanOk_ok _ hr, round32, Bool.not_eq_true', ← Bool.not_eq_true, ite_not]

/-! ### Accumulator tiles (R244) -/

theorem runMx_mxzero {q : Fin 2} (hi : c.ins = .mxzero q) :
    runMx core c s = .done 0 (setMx core (fun m => m.setTile q.val (List.replicate 2048 0)) s) := by
  simp only [runMx, runMx4, hi, runMxzero]

/-- A tile replaced by zeros reads as zero, and the other words as before. -/
theorem acc_setTile_zeros (m : Mx) (q a : Nat) : (m.setTile q (List.replicate 2048 0)).acc.get a =
    if 2048 * q ≤ a ∧ a < 2048 * q + 2048 then 0 else m.acc.get a := by
  show (m.acc.setRange (2048 * q) (List.replicate 2048 0)).get a = _
  rw [SMap.get_setRange, List.length_replicate]
  refine if_congr Iff.rfl ?_ rfl
  rw [List.getD_eq_getElem?_getD, List.getElem?_replicate]
  split <;> rfl

/-! ### The rotation of a bank (R238) -/

/-- The bank of an engine set as the incoming bank of another, which is full by it. -/
def Mx.takes (n : Mx) (bytes : List Byte) : Mx := { n.setBank (bankNo (!n.cur)) 0 bytes with inc := .full }

/-- With a neighbour of the same launch on the ring, not saved, whose incoming bank is empty, the current bank goes
there. -/
theorem runMx_mxrot {g g' : Grp} (hi : c.ins = .mxrot) (hg : (s.core core).grp = some g)
    (hg' : (s.core (s.core core).ring.toNat).grp = some g') (hl : g'.launch = g.launch)
    (hs : (s.core (s.core core).ring.toNat).saved = false)
    (he : (s.core (s.core core).ring.toNat).mx.inc = .empty) : runMx core c s =
      .done 0 (setMx (s.core core).ring.toNat (fun n =>
        n.takes ((s.core core).mx.bank (bankNo (s.core core).mx.cur))) s) := by
  simp [runMx, runMx4, hi, runMxrot, hg, hg', hl, hs, he, mxOf, Mx.takes]

/-- A bank taken reads, in the place of the incoming bank, as the bank it came from. -/
theorem latch_takes {m : Mx} (n : Mx) (b : Nat) {e : Nat} (hw : SMap.wf m.latch = true) (he : e < 8704) :
    (n.takes (m.bank b)).latch.get (8704 * bankNo (!n.cur) + e) = m.latch.get (8704 * b + e) := by
  show (n.latch.setRange (8704 * bankNo (!n.cur) + 0) (m.bank b)).get _ = _
  rw [SMap.get_setRange, Mx.bank, SMap.length_getRange, if_pos (by omega), ← SMap.getD_getRange hw he]
  congr 1
  omega

end

/-- Settles O41: each command is performed as its equation above says, and completes with what that leaves in the engine, or
with the report of its refusal (`StandsFree.completes`, `StandsFree.reports`). -/
theorem matrixStateCommands : Obligations.MatrixStateCommands := by
  unfold Obligations.MatrixStateCommands
  intro s core c rest hq hs hp _ hw k m B done failed at_ b
  have stands {i : Instr} (hi : c.ins = i) (hn : isProduct i = false) : StandsFree s core c rest :=
    ⟨hq, hs, hp, hw, hi ▸ hn⟩
  refine ⟨fun p hi hp0 _ => ?msk, fun hi hf => ?swp, fun hi hf => ?swpWaits, fun p hi hn => ?mbxOff,
    fun p sc hi hsc hr => ?mbx, fun q hi hr => ?up, fun q hi hr => ?ctx, fun q hi => ?zero,
    fun g hi hg g' hg' hl hne hwf hsv hin => ?rot, fun q e hi hr => ?upRefused⟩
  case msk => exact (stands hi rfl).completes _ (runMx_mxmsk hi hp0) rfl
  case swp => exact (stands hi rfl).completes _ ((runMx_mxswp hi).trans (if_pos hf)) rfl
  case swpWaits => exact (stands hi rfl).waits ((runMx_mxswp hi).trans (if_neg hf))
  case mbxOff => exact (stands hi rfl).completes _ (runMx_mxmbx_none hi hn) rfl
  case mbx => exact (stands hi rfl).completes _ (runMx_mxmbx_some hi hsc hr) rfl
  case up =>
    exact ⟨fun hv => (stands hi rfl).completes _ ((runMx_mxup hi hr).trans (if_pos hv)) rfl,
      fun hv => (stands hi rfl).reports ((runMx_mxup hi hr).trans (if_neg (by rw [hv]; decide))) (by rw [hi]; rfl)⟩
  case ctx =>
    exact ⟨fun hv => (stands hi rfl).completes _ ((runMx_mxctx hi hr).trans (if_pos hv)) rfl,
      fun hv => (stands hi rfl).reports ((runMx_mxctx hi hr).trans (if_neg (by rw [hv]; decide))) (by rw [hi]; rfl)⟩
  case zero =>
    obtain ⟨t, ht, hmx, -⟩ := (stands hi rfl).completes _ (runMx_mxzero hi) rfl
    have hacc (a : Nat) := acc_setTile_zeros m q.val a
    refine ⟨t, ht, by rw [hmx, hq]; rfl, fun e he => ?_, fun a ha => ?_⟩
    · rw [hmx]; exact (hacc _).trans (if_pos (by omega))
    · rw [hmx]; exact (hacc _).trans (if_neg (by omega))
  case rot =>
    intro n
    let u := setMx k.ring.toNat (fun n => n.takes (m.bank (bankNo m.cur))) s
    have hu : u.core core = s.core core := core_setMx_ne _ _ (Ne.symm hne)
    have hring : ((mxFinish core c 0 none u).core k.ring.toNat).mx = n.takes (m.bank (bankNo m.cur)) := by
      rw [mx_mxFinish_ne (.inl rfl) hne, core_setMx]
    obtain ⟨hmx, -⟩ := mxCompletes_mxFinish (s := s) (u := u) 0 none (.inl rfl) hw (ctx_setMx _ _ s) rfl (by rw [hu])
    refine ⟨mxFinish core c 0 none u, ?_, by rw [hmx, hq]; rfl, by rw [hring]; rfl, fun e he => ?_⟩
    · show exec (.mxCommandBegin core) s = _
      rw [(stands hi rfl).exec_eq, runMx_mxrot hi hg hg' hl hsv hin]
      rfl
    · rw [hring]; exact latch_takes n _ hwf he
  case upRefused => exact (stands hi rfl).reports (runMx_mxup_refused hi hr) (by rw [hi]; rfl)

end Sys2Proof.Machine
end

section
/-! PROOFS. The promise commands PRLS, PRSTAT, PRCFG, PRSQ and an idle PRAPL (R304, R313, R315 to R319): what each does
to its core, with the frame of Correct, and its completion by the rules of the sections before. -/

namespace Sys2Proof.Machine

/-! ### Completion of a command that changes its core, or nothing -/

/-- A command that leaves its core as `x`, the contexts and the queue as before, completes with the engine and the
local memory of `x`. -/
theorem StandsFree.completes_setCore {s : State} {core : Nat} {c : Cmd} {rest : List Cmd} (h : StandsFree s core c rest)
    {fl : Flags} {x : CoreSt} (hr : runMx core c s = .done fl (s.setCore core x)) (hx : x.ctxs = (s.core core).ctxs)
    (hq : x.mx.queue = (s.core core).mx.queue) :
    ∃ t, exec (.mxCommandBegin core) s = .next t ∧ mxCompletes s t core c fl [] x.mx x.lm := by
  refine ⟨mxFinish core c fl none (s.setCore core x), by rw [h.exec_eq, hr]; rfl, ?_⟩
  have := mxCompletes_mxFinish (s := s) (u := s.setCore core x) (core := core) fl none (.inl rfl) h.issuer
    (State.ctx_setCore_of_ctxs hx) rfl (by rw [State.core_setCore]; exact hq)
  rwa [State.core_setCore] at this

/-- A command that changes nothing completes with its flags alone. -/
theorem StandsFree.completes_self {s : State} {core : Nat} {c : Cmd} {rest : List Cmd} (h : StandsFree s core c rest)
    {fl : Flags} (hr : runMx core c s = .done fl s) : ∃ t, exec (.mxCommandBegin core) s = .next t ∧
      mxCompletes s t core c fl [] (s.core core).mx (s.core core).lm :=
  ⟨mxFinish core c fl none s, by rw [h.exec_eq, hr]; rfl,
    mxCompletes_mxFinish fl none (.inl rfl) h.issuer (fun _ => rfl) rfl rfl⟩

/-! ### Handles, regions and the slots in use (R301, R302, R309) -/

theorem toNat_handleSeq (h : DWord) : (handleSeq h).toNat = h.toNat / 2 ^ 32 := by
  simp only [handleSeq, BitVec.toNat_setWidth, BitVec.toNat_ushiftRight, Nat.shiftRight_eq_div_pow]
  exact Nat.mod_eq_of_lt (by have := h.isLt; omega)

/-- A seq is that of a handle when it is the upper word of the handle. -/
theorem eq_handleSeq_iff (q : Word) (h : DWord) : q = handleSeq h ↔ q.toNat = h.toNat / 2 ^ 32 := by
  rw [← BitVec.toNat_inj, toNat_handleSeq]

theorem badRegion_singleton (g : SMap DWord) (r : Region) :
    (badRegion g [r]).isSome = !localOk g r.1 r.2.1 r.2.2 := by
  cases h : localOk g r.1 r.2.1 r.2.2 <;> simp [badRegion, h]

theorem sortBy_eq_nil {α : Type} (le : α → α → Bool) (l : List α) : sortBy le l = [] ↔ l = [] := by
  cases l with
  | nil => simp [sortBy]
  | cons x t =>
    have ins (u : List α) : insBy le x u ≠ [] := by
      cases u with
      | nil => simp [insBy]
      | cons y u => unfold insBy; split <;> simp
    simp [sortBy, ins]

/-- No slot is in one of the states when each in use is in another. -/
theorem slotsIn_eq_nil {m : Mx} {st : List PrState} : slotsIn m st = [] ↔
    ∀ i < 16, (m.promises.get i).inUse = true → (m.promises.get i).last ∉ st := by
  simp [slotsIn, sortBy_eq_nil]

/-! ### What Correct leaves of its core (R313) -/

/-- Two cores differ at most in local memory and its tags. -/
def CoreSt.onlyLocal (k k' : CoreSt) : Prop := k' = { k with lm := k'.lm, ltag := k'.ltag }

theorem CoreSt.onlyLocal_refl (k : CoreSt) : k.onlyLocal k := rfl

theorem CoreSt.onlyLocal.store {k k' : CoreSt} (h : k.onlyLocal k') (a : Nat) (bs : List Byte) :
    k.onlyLocal (k'.store a bs) := by
  unfold onlyLocal CoreSt.store at *
  rw [h]

theorem CoreSt.onlyLocal.wrF {k k' : CoreSt} (h : k.onlyLocal k') (a w : Nat) : k.onlyLocal (wrF k' a w) :=
  h.store a _

theorem CoreSt.onlyLocal.mx {k k' : CoreSt} (h : k.onlyLocal k') : k'.mx = k.mx := by rw [h]

theorem CoreSt.onlyLocal.ctxs {k k' : CoreSt} (h : k.onlyLocal k') : k'.ctxs = k.ctxs := by rw [h]

/-- Loops over a matrix whose passes change local memory alone change local memory alone. -/
theorem onlyLocal_overM {k : CoreSt} {m n : Nat} {a : CoreSt × Flags}
    {f : CoreSt × Flags → Nat → Nat → CoreSt × Flags} (ha : k.onlyLocal a.1)
    (hf : ∀ a i j, k.onlyLocal a.1 → k.onlyLocal (f a i j).1) : k.onlyLocal (overM m n a f).1 :=
  List.foldlRecOn (motive := fun a : CoreSt × Flags => k.onlyLocal a.1) _ _ ha fun _ hb i _ =>
    List.foldlRecOn (motive := fun a : CoreSt × Flags => k.onlyLocal a.1) _ _ hb fun _ hb j _ => hf _ i j hb

theorem onlyLocal_correctUpdate {k k' : CoreSt} (h : k.onlyLocal k') (r : PrRec) (p ec : Val) (f : Flags) (i j : Nat)
    (d : Val) : k.onlyLocal (correctUpdate r p ec k' f i j d).1 := by
  unfold correctUpdate; split
  · exact h.wrF ..
  · exact (h.wrF ..).wrF ..
  · exact h.wrF ..
  · exact h

/-- The loop over W is the whole of Correct without training, and comes before the loop over M with it. -/
theorem onlyLocal_correct (r : PrRec) (useG train : Bool) (k : CoreSt) : k.onlyLocal (correct r useG train k).1 := by
  unfold correct; dsimp only; split
  · exact onlyLocal_overM k.onlyLocal_refl fun _ _ _ h => onlyLocal_correctUpdate h ..
  · refine onlyLocal_overM ?_ fun _ _ _ h => h.wrF ..
    exact onlyLocal_overM k.onlyLocal_refl fun _ _ _ h => onlyLocal_correctUpdate h ..

/-! ### The state of a promise set (R304) -/

/-- A slot with its record state set: a final state but EXPIRED frees it. -/
def PrSlot.setState (x : PrSlot) (st : PrState) : PrSlot :=
  { x with last := st, inUse := x.inUse && st != .applied && st != .reverted }

/-- A core in which the state of a promise has been set in its slot and its record. -/
def CoreSt.setPromise (k : CoreSt) (slot : Nat) (st : PrState) : CoreSt :=
  let x := k.mx.promises.get slot
  CoreSt.store { k with mx := { k.mx with promises := k.mx.promises.put slot (x.setState st) } } (x.roff + 4)
    [BitVec.ofNat 8 st.num]

@[simp] theorem CoreSt.ctxs_setPromise (k : CoreSt) (slot : Nat) (st : PrState) :
    (k.setPromise slot st).ctxs = k.ctxs := rfl

@[simp] theorem CoreSt.queue_setPromise (k : CoreSt) (slot : Nat) (st : PrState) :
    (k.setPromise slot st).mx.queue = k.mx.queue := rfl

@[simp] theorem CoreSt.promise_setPromise (k : CoreSt) (slot : Nat) (st : PrState) :
    (k.setPromise slot st).mx.promises.get slot = (k.mx.promises.get slot).setState st := SMap.get_put_self ..

theorem setPrState_setCore (core slot : Nat) (st : PrState) (s : State) (k : CoreSt) :
    setPrState core slot st (s.setCore core k) = s.setCore core (k.setPromise slot st) := by
  simp [setPrState, setSlot, setMx, prSlot, mxOf, CoreSt.setPromise, PrSlot.setState]

/-! ### The commands -/

/-- The eight bytes of PRSTAT for a handle whose slot is `sl`, in a core (R317). -/
def statBytes (k : CoreSt) (sl : PrSlot) (seq : Nat) : List Byte :=
  let here : Bool := sl.seq.toNat = seq
  leBytes 4 seq ++ leBytes 1 (if here then PrState.num sl.last else 0xFF) ++
    leBytes 1 (if here && sl.inUse then 1 else 0) ++ leBytes 2 (if here && sl.inUse then (prRec k sl.roff).k else 0)

/-- The 32 bytes of PRCFG (R319). -/
def cfgBytes (m : Mx) : List Byte :=
  let mask (st : PrState) : Nat := ((slotsIn m [st]).map fun i => 2 ^ i).sum
  m.loss ++ leBytes 4 m.nextSeq.toNat ++ leBytes 2 (mask .opened) ++ leBytes 2 (mask .redeemed) ++
    leBytes 8 ((List.range 16).filter fun i => !(m.promises.get i).inUse).length

section
variable {core : Nat} {c : Cmd} {s : State}

theorem runMx_prls {q : Mem} {rt : Route} (hi : c.ins = .prls q)
    (hr : route core c.guards c.capY c.ea 16 needR [1] = .ok rt) : runMx core c s =
      let b := (s.core core).lm.getRange c.ea.toNat 16
      if lossValid b then .done 0 (setMx core (fun m => { m with loss := b }) s) else engarg 14 s := by
  simp only [runMx, hi, runPrls, spanOk_ok _ hr]

/-- PRSTAT reads k of the record of a live promise only, and only then checks it. -/
theorem runMx_prstat {q : PrF} {rt : Route} (hi : c.ins = .prstat q)
    (hr : route core c.guards c.capY c.ea 8 needW [1] = .ok rt) :
    let k := s.core core
    let sl := k.mx.promises.get (handleSlot c.capX.int)
    let seq := c.capX.int.toNat / 2 ^ 32
    (decide (sl.seq.toNat = seq) && sl.inUse) = false ∨ localOk c.guards (sl.roff + 8) 2 needR = true →
      runMx core c s = .done 0 (s.setCore core (k.store c.ea.toNat (statBytes k sl seq))) := by
  intro k sl seq hk
  have hseq : (sl.seq == handleSeq c.capX.int) = decide (sl.seq.toNat = seq) := by
    rw [beq_eq_decide]; exact decide_eq_decide.mpr (eq_handleSeq_iff ..)
  have hpass : ¬ ((decide (sl.seq.toNat = seq) && sl.inUse &&
      (badRegion c.guards [(sl.roff + 8, 2, needR)]).isSome) = true) := by
    rw [badRegion_singleton]
    rcases hk with hk | hk <;> simp [hk]
  simp only [runMx, hi, runPrstat, spanOk_ok _ hr]
  rw [hseq, if_neg hpass, toNat_handleSeq]
  rfl

theorem runMx_prcfg {q : Mem} {rt : Route} (hi : c.ins = .prcfg q)
    (hr : route core c.guards c.capY c.ea 32 needW [1] = .ok rt) : runMx core c s =
      .done 0 (s.setCore core ((s.core core).store c.ea.toNat (cfgBytes (s.core core).mx))) := by
  simp only [runMx, hi, runPrcfg, spanOk_ok _ hr]
  rfl

/-- PRSQ of an open promise performs Correct without G and training and reverts the promise. -/
theorem runMx_prsq {x : Fin 16} (hi : c.ins = .prsq x) :
    let k := s.core core
    let slot := handleSlot c.capX.int
    let sl := k.mx.promises.get slot
    sl.seq = handleSeq c.capX.int → sl.inUse = true → (sl.last = .opened ∨ sl.last = .redeemed) →
    badRegion c.guards ((prRec k sl.roff).correctRegions false false) = none →
    let y := correct (prRec k sl.roff) false false k
    runMx core c s = .done (0 ||| y.2) (s.setCore core (y.1.setPromise slot .reverted)) := by
  intro k slot sl hseq huse hlast hreg y
  have hlive : ¬ (sl.seq ≠ handleSeq c.capX.int ||
      !(sl.last == .opened || sl.last == .redeemed) || !sl.inUse) = true := by
    rcases hlast with hl | hl <;> simp [hseq, huse, hl]
  simp only [runMx, hi, runPrsq]
  rw [if_neg hlive, hreg]
  exact congrArg _ (setPrState_setCore ..)

/-- PRSQ of a handle with another seq than its slot is refused. -/
theorem runMx_prsq_other {x : Fin 16} (hi : c.ins = .prsq x)
    (hseq : ((s.core core).mx.promises.get (handleSlot c.capX.int)).seq ≠ handleSeq c.capX.int) :
    runMx core c s = engarg 13 s := by
  simp [runMx, hi, runPrsq, hseq]

/-- PRAPL without an OPEN or REDEEMED promise does nothing. -/
theorem runMx_prapl_idle (hi : c.ins = .prapl) (h : slotsIn (s.core core).mx [.opened, .redeemed] = []) :
    runMx core c s = .done 0 s := by
  have hopen : slotsIn (s.core core).mx [.opened] = [] :=
    slotsIn_eq_nil.mpr fun i hlt hu => mt (by simp +contextual) (slotsIn_eq_nil.mp h i hlt hu)
  simp [runMx, hi, runPrapl, h, openRegions, hopen, badRegion]

end

/-- Settles O44: each command is performed as its equation above says, and completes with what that leaves of its core
(`StandsFree.completes_setCore`), or with the report of its refusal; Correct changes nothing but local memory. -/
theorem promiseCommands : Obligations.PromiseCommands := by
  unfold Obligations.PromiseCommands
  intro s core c rest hq hs hp _ hw k m B at_ slot seq sl
  have stands {i : Instr} (hi : c.ins = i) (hn : isProduct i = false) : StandsFree s core c rest :=
    ⟨hq, hs, hp, hw, hi ▸ hn⟩
  refine ⟨fun q hi hr => ?prls, fun q hi hr => ?prstat, fun q hi hr => ?prcfg,
    fun x hi hseq huse hlast hreg => ?prsq, fun x hi hseq => ?prsqOther, fun hi hidle => ?prapl⟩
  case prls =>
    exact ⟨fun hv => (stands hi rfl).completes _ ((runMx_prls hi hr).trans (if_pos hv)) rfl,
      fun hv => (stands hi rfl).reports ((runMx_prls hi hr).trans (if_neg (by rw [hv]; decide))) (by rw [hi]; rfl)⟩
  case prstat => intro here hk; exact (stands hi rfl).completes_setCore (runMx_prstat hi hr hk) rfl rfl
  case prcfg => exact (stands hi rfl).completes_setCore (runMx_prcfg hi hr) rfl rfl
  case prsq =>
    let y := correct (prRec k sl.roff) false false k
    have hloc : k.onlyLocal y.1 := onlyLocal_correct ..
    have hrun : runMx core c s = .done (0 ||| y.2) (s.setCore core (y.1.setPromise slot .reverted)) :=
      runMx_prsq hi ((eq_handleSeq_iff ..).mpr hseq) huse hlast hreg
    obtain ⟨t, ht, hmx, -, -, -, hmem⟩ := (stands hi rfl).completes_setCore hrun hloc.ctxs
      (by rw [CoreSt.queue_setPromise, hloc.mx])
    have hslot : (t.core core).mx.promises.get slot = sl.setState .reverted := by
      rw [hmx]
      exact (CoreSt.promise_setPromise ..).trans (by rw [hloc.mx])
    exact ⟨t, ht, by rw [hmx, hq]; rfl, by rw [hslot]; rfl, by rw [hslot]; simp [PrSlot.setState], hmem⟩
  case prsqOther =>
    exact (stands hi rfl).reports (runMx_prsq_other hi (mt (eq_handleSeq_iff ..).mp hseq)) (by rw [hi]; rfl)
  case prapl => exact (stands hi rfl).completes_self (runMx_prapl_idle hi hidle)

end Sys2Proof.Machine
end
